-- ==== Sys2Proof/Word.lean ====
section
/-! DEFINITION. The word types of the engine and the bit-slice notation of 00_scope.md R8. -/

namespace Sys2Proof

/-- One byte of EMEM. -/
abbrev Byte := BitVec 8

/-- A 32-bit word: a command, an MMIO register, a binary32 pattern. -/
abbrev Word := BitVec 32

/-- A 64-bit word: a V register, a binary64 pattern. -/
abbrev DWord := BitVec 64

/-- The number of a V register, 0 to 15 (10_state.md R22). -/
abbrev VReg := Fin 16

end Sys2Proof
end

