-- ==== Sys2Proof/Binary64.lean ====
section
/-! DEFINITION. What a binary64 pattern stands for as a real number, and the named properties that 40_numerics.md
R131 and R132 give the implementation functions `P_EXP64` and `P_LN64`. -/

namespace Sys2Proof.Binary64

/-- The exponent field, bits [62:52] (40_numerics.md R120). -/
def expField (x : DWord) : Nat := x.toNat / 2 ^ 52 % 2 ^ 11

/-- The fraction field, bits [51:0]. -/
def fracField (x : DWord) : Nat := x.toNat % 2 ^ 52

/-- The sign bit, bit [63]. -/
def signBit (x : DWord) : Bool := x.toNat / 2 ^ 63 % 2 == 1

/-- The pattern without its sign bit. -/
def magnitude (x : DWord) : Nat := x.toNat % 2 ^ 63

/-- Whether the pattern is a NaN. -/
def isNaN (x : DWord) : Bool := expField x == 2047 && fracField x != 0

/-- Whether the pattern is a zero, a subnormal or a normal number. -/
def isFinite (x : DWord) : Bool := expField x != 2047

/-- The magnitude of a finite pattern, counted in units of the smallest positive subnormal, 2^-1074. -/
def units (p : Nat) : Nat :=
  if p / 2 ^ 52 = 0 then p else (2 ^ 52 + p % 2 ^ 52) * 2 ^ (p / 2 ^ 52 - 1)

/-- The exact value of a finite pattern. -/
def val (x : DWord) : ℚ :=
  (if signBit x then -1 else 1) * ((units (magnitude x) : ℚ) / 2 ^ 1074)

/-- +infinity. -/
def posInf : DWord := 0x7FF0000000000000#64

/-- -infinity. -/
def negInf : DWord := 0xFFF0000000000000#64

/-- 1.0. -/
def one : DWord := 0x3FF0000000000000#64

/-- -0.0. -/
def negZero : DWord := 0x8000000000000000#64

/-- The canonical binary64 NaN (40_numerics.md R126). -/
def canonNaN : DWord := 0x7FF8000000000000#64

/-- `v` is `RN(r)` (40_numerics.md R121): the finite value nearest the real `r`, of two equally near ones the one whose
last fraction bit is 0, and an infinity from `2^1024 - 2^970` on, where rounding passes the largest finite value. -/
structure Rounds (r : ℝ) (v : DWord) : Prop where
  finite : |r| < 2 ^ 1024 - 2 ^ 970 → isFinite v = true
  nearest : |r| < 2 ^ 1024 - 2 ^ 970 → ∀ w, isFinite w = true → |(val v : ℝ) - r| ≤ |(val w : ℝ) - r|
  tiesToEven : |r| < 2 ^ 1024 - 2 ^ 970 → ∀ w, isFinite w = true → |(val w : ℝ) - r| = |(val v : ℝ) - r| →
    val w = val v ∨ fracField v % 2 = 0
  overflowPos : 2 ^ 1024 - 2 ^ 970 ≤ r → v = posInf
  overflowNeg : r ≤ -(2 ^ 1024 - 2 ^ 970) → v = negInf

/-! Binary32 (40_numerics.md R120), for `widen` and `narrow`. -/

/-- The exponent field of a binary32 pattern, bits [30:23]. -/
def expField32 (x : Word) : Nat := x.toNat / 2 ^ 23 % 2 ^ 8

/-- The fraction field, bits [22:0]. -/
def fracField32 (x : Word) : Nat := x.toNat % 2 ^ 23

/-- The sign bit, bit [31]. -/
def signBit32 (x : Word) : Bool := x.toNat / 2 ^ 31 == 1

/-- Whether a binary32 pattern is a NaN (40_numerics.md R124). -/
def isNaN32 (x : Word) : Bool := expField32 x == 255 && fracField32 x != 0

/-- Whether a binary32 pattern is a zero, a subnormal or a normal number. -/
def isFinite32 (x : Word) : Bool := expField32 x != 255

/-- The magnitude of a finite binary32 pattern, counted in units of 2^-149. -/
def units32 (p : Nat) : Nat :=
  if p / 2 ^ 23 = 0 then p else (2 ^ 23 + p % 2 ^ 23) * 2 ^ (p / 2 ^ 23 - 1)

/-- The exact value of a finite binary32 pattern. -/
def val32 (x : Word) : ℚ :=
  (if signBit32 x then -1 else 1) * ((units32 (x.toNat % 2 ^ 31) : ℚ) / 2 ^ 149)

/-- `v` is `r` rounded to binary32 by roundTiesToEven (40_numerics.md R125); infinite from `2^128 * (1 - 2^-25)` on. -/
structure Rounds32 (r : ℝ) (v : Word) : Prop where
  finite : |r| < 2 ^ 128 - 2 ^ 103 → isFinite32 v = true
  nearest : |r| < 2 ^ 128 - 2 ^ 103 → ∀ w, isFinite32 w = true → |(val32 v : ℝ) - r| ≤ |(val32 w : ℝ) - r|
  tiesToEven : |r| < 2 ^ 128 - 2 ^ 103 → ∀ w, isFinite32 w = true → |(val32 w : ℝ) - r| = |(val32 v : ℝ) - r| →
    val32 w = val32 v ∨ fracField32 v % 2 = 0
  overflowPos : 2 ^ 128 - 2 ^ 103 ≤ r → v = 0x7F800000#32
  overflowNeg : r ≤ -(2 ^ 128 - 2 ^ 103) → v = 0xFF800000#32

/-- `v` is one of the two binary64 values adjacent to the real `r`, or equal to it: the greatest one not above `r`,
the least one not below `r`, or +infinity where `r` exceeds every finite value (40_numerics.md R131, R132). -/
def Faithful (r : ℝ) (v : DWord) : Prop :=
  (isFinite v = true ∧ (val v : ℝ) ≤ r ∧ ∀ w, isFinite w = true → (val w : ℝ) ≤ r → val w ≤ val v) ∨
  (isFinite v = true ∧ r ≤ (val v : ℝ) ∧ ∀ w, isFinite w = true → r ≤ (val w : ℝ) → val v ≤ val w) ∨
  (v = posInf ∧ ∀ w, isFinite w = true → (val w : ℝ) < r)

/-- The binary64 value nearest 1e-300, the example of a tiny operand of 45_transforms.md R200. -/
def tinyOperand : DWord := 0x01A56E1FC2F8F359#64

/-- The named properties of `P_EXP64` (40_numerics.md R131); EXP-DET is that it is a function. `overflow` and `tiny`
are the two corner cases that 45_transforms.md R200 states of it. -/
structure ExpSpec (f : DWord → DWord) : Prop where
  /-- EXP-SPECIAL: `e^±0 = 1.0` -/
  zero : f 0#64 = one ∧ f negZero = one
  /-- EXP-SPECIAL: `e^+inf = +inf`, `e^-inf = +0` -/
  inf : f posInf = posInf ∧ f negInf = 0#64
  /-- EXP-SPECIAL: a NaN gives a NaN -/
  nan : ∀ x, isNaN x = true → isNaN (f x) = true
  /-- EXP-FAITHFUL -/
  faithful : ∀ x, isFinite x = true → Faithful (Real.exp (val x)) (f x)
  /-- a zero result is +0 (EXP-FAITHFUL), and no result is negative -/
  nonneg : ∀ x, isNaN x = false → signBit (f x) = false
  /-- 45_transforms.md R200: an `e^v` that overflows gives +inf -/
  overflow : ∀ x, isFinite x = true → (∀ w, isFinite w = true → (val w : ℝ) < Real.exp (val x)) → f x = posInf
  /-- 45_transforms.md R200: a tiny operand gives 1.0. The rule's example, 1e-300, is as far as tiny is taken to reach
  (DEDUCED, assumption 4); above it only EXP-FAITHFUL holds -/
  tiny : ∀ x, x ≠ 0#64 → x.toNat ≤ tinyOperand.toNat → f x = one

/-- The named properties of `P_LN64` (40_numerics.md R132); LN-DET is that it is a function. -/
structure LnSpec (f : DWord → DWord) : Prop where
  /-- LN-SPECIAL: `ln 1.0 = +0` -/
  one : f one = 0#64
  /-- LN-SPECIAL: `ln ±0 = -inf` -/
  zero : f 0#64 = negInf ∧ f negZero = negInf
  /-- LN-SPECIAL: `ln +inf = +inf` -/
  inf : f posInf = posInf
  /-- LN-SPECIAL: a NaN and every `x < 0` give a NaN -/
  nan : ∀ x, (isNaN x = true ∨ (signBit x = true ∧ x ≠ negZero)) → isNaN (f x) = true
  /-- LN-FAITHFUL -/
  faithful : ∀ x, isFinite x = true → 0 < val x → Faithful (Real.log (val x)) (f x)

end Sys2Proof.Binary64
end

