-- ==== Sys2Proof/Elementary.lean ====
section
/-! SUPPORT. A reference exponential and a reference logarithm with proofs that they meet the named properties of
40_numerics.md R131 and R132. They show that Config's opaque constants have a value to stand for; no meaning calls
them. -/

namespace Sys2Proof.Elementary

open Binary64

set_option exponentiation.threshold 3000

/-! ## The grid of the non-negative finite patterns -/

/-- The pattern of the largest finite value. -/
def maxPat : Nat := 0x7FEFFFFFFFFFFFFF

theorem units_low {p : Nat} (h : p < 2 ^ 52) : units p = p := by
  unfold units; rw [if_pos (Nat.div_eq_of_lt h)]

theorem units_high {e f : Nat} (hf : f < 2 ^ 52) : units ((e + 1) * 2 ^ 52 + f) = (2 ^ 52 + f) * 2 ^ e := by
  have h1 : ((e + 1) * 2 ^ 52 + f) / 2 ^ 52 = e + 1 := by omega
  have h2 : ((e + 1) * 2 ^ 52 + f) % 2 ^ 52 = f := by omega
  unfold units; rw [h1, h2, if_neg (by omega)]; simp

/-- Consecutive patterns: either both in the subnormal range, or `u·2^e` and `(u+1)·2^e` with `u` of 53 bits. -/
theorem units_succ (p : Nat) :
    ∃ u e, u < 2 ^ 53 ∧ (p < 2 ^ 52 → e = 0) ∧ (2 ^ 52 ≤ p → 2 ^ 52 ≤ u) ∧ units p = u * 2 ^ e ∧
      units (p + 1) = (u + 1) * 2 ^ e ∧ e = p / 2 ^ 52 - 1 := by
  by_cases h : p < 2 ^ 52
  · refine ⟨p, 0, by omega, fun _ => rfl, by omega, by simp [units_low h], ?_, by omega⟩
    by_cases h' : p + 1 < 2 ^ 52
    · simp [units_low h']
    · have : p + 1 = (0 + 1) * 2 ^ 52 + 0 := by omega
      rw [this, units_high (by norm_num)]; omega
  · obtain ⟨e, f, hf, rfl⟩ : ∃ e f, f < 2 ^ 52 ∧ p = (e + 1) * 2 ^ 52 + f :=
      ⟨p / 2 ^ 52 - 1, p % 2 ^ 52, by omega, by omega⟩
    refine ⟨2 ^ 52 + f, e, by omega, by omega, by omega, units_high hf, ?_, by omega⟩
    by_cases h' : f + 1 < 2 ^ 52
    · rw [Nat.add_assoc, units_high h', Nat.add_assoc]
    · have : (e + 1) * 2 ^ 52 + f + 1 = (e + 1 + 1) * 2 ^ 52 + 0 := by omega
      have hf' : f + 1 = 2 ^ 52 := by omega
      rw [this, units_high (by norm_num), Nat.add_assoc, hf', pow_succ]; ring

theorem units_lt_succ (p : Nat) : units p < units (p + 1) := by
  obtain ⟨u, e, -, -, -, h1, h2, -⟩ := units_succ p
  rw [h1, h2]; exact Nat.mul_lt_mul_of_pos_right (Nat.lt_succ_self u) (by positivity)

theorem units_strictMono : StrictMono units := strictMono_nat_of_lt_succ units_lt_succ

theorem units_zero : units 0 = 0 := units_low (by norm_num)

/-- The gap above a pattern is at least `2^-53` of the upper value. -/
theorem units_gap (p : Nat) : units (p + 1) ≤ 2 ^ 53 * (units (p + 1) - units p) := by
  obtain ⟨u, e, hu, -, -, h1, h2, -⟩ := units_succ p
  have : units (p + 1) - units p = 2 ^ e := by rw [h1, h2, ← Nat.sub_mul]; simp
  rw [this, h2]; exact Nat.mul_le_mul_right _ hu

/-- Gaps do not shrink. -/
theorem units_gap_mono (p : Nat) : units (p + 1) - units p ≤ units (p + 2) - units (p + 1) := by
  obtain ⟨u, e, -, -, -, h1, h2, he⟩ := units_succ p
  obtain ⟨u', e', -, -, -, h1', h2', he'⟩ := units_succ (p + 1)
  have a : units (p + 1) - units p = 2 ^ e := by rw [h1, h2, ← Nat.sub_mul]; simp
  have b : units (p + 1 + 1) - units (p + 1) = 2 ^ e' := by rw [h1', h2', ← Nat.sub_mul]; simp
  rw [a, b]; exact Nat.pow_le_pow_right (by norm_num) (by rw [he, he']; omega)

/-! ## Patterns and values -/

theorem toNat_eq {x : DWord} : x.toNat = (if signBit x then 2 ^ 63 else 0) + magnitude x := by
  have := x.isLt
  unfold signBit magnitude
  split
  · rename_i h; simp at h; omega
  · rename_i h; simp at h; omega

theorem magnitude_lt (x : DWord) : magnitude x < 2 ^ 63 := Nat.mod_lt _ (by norm_num)

theorem isFinite_iff {x : DWord} : isFinite x = true ↔ magnitude x ≤ maxPat := by
  have h := x.isLt
  unfold isFinite expField magnitude maxPat
  simp only [bne_iff_ne, ne_eq]
  constructor <;> intro h' <;> omega

/-- A non-negative pattern. -/
def pat (p : Nat) : DWord := BitVec.ofNat 64 p

theorem pat_toNat {p : Nat} (h : p < 2 ^ 63) : (pat p).toNat = p := by
  unfold pat; simp; omega

theorem pat_sign {p : Nat} (h : p < 2 ^ 63) : signBit (pat p) = false := by
  unfold signBit; rw [pat_toNat h]; simp; omega

theorem pat_magnitude {p : Nat} (h : p < 2 ^ 63) : magnitude (pat p) = p := by
  unfold magnitude; rw [pat_toNat h]; omega

theorem pat_finite {p : Nat} (h : p ≤ maxPat) : isFinite (pat p) = true := by
  rw [isFinite_iff, pat_magnitude (by unfold maxPat at h; omega)]; exact h

/-- The value of a non-negative pattern. -/
def uval (p : Nat) : ℚ := (units p : ℚ) / 2 ^ 1074

theorem pat_val {p : Nat} (h : p < 2 ^ 63) : val (pat p) = uval p := by
  unfold val uval; rw [pat_sign h, pat_magnitude h]; simp

theorem val_le_uval (w : DWord) : val w ≤ uval (magnitude w) := by
  unfold val uval
  have : (0 : ℚ) ≤ (units (magnitude w) : ℚ) / 2 ^ 1074 := by positivity
  split <;> linarith

theorem val_of_neg {w : DWord} (h : signBit w = true) : val w ≤ 0 := by
  unfold val; rw [h]
  have : (0 : ℚ) ≤ (units (magnitude w) : ℚ) / 2 ^ 1074 := by positivity
  simp only [if_true]; linarith

theorem val_of_pos {w : DWord} (h : signBit w = false) : val w = uval (magnitude w) := by
  unfold val uval; simp [h]

theorem uval_strictMono : StrictMono uval := fun a b h => by
  unfold uval
  have : (units a : ℚ) < units b := by exact_mod_cast units_strictMono h
  exact div_lt_div_of_pos_right this (by positivity)

theorem uval_nonneg (p : Nat) : 0 ≤ uval p := by unfold uval; positivity

/-! ## Adjacent values -/

/-- Between two neighbours, the lower one is faithful. -/
theorem faithful_floor {r : ℝ} {p : Nat} (hp : p ≤ maxPat) (h1 : (uval p : ℝ) ≤ r) (h2 : r < uval (p + 1)) :
    Faithful r (pat p) := by
  have hp' : p < 2 ^ 63 := by unfold maxPat at hp; omega
  refine .inl ⟨pat_finite hp, by rw [pat_val hp']; exact h1, fun w _ hw => ?_⟩
  rw [pat_val hp']
  by_cases hs : signBit w = true
  · exact (val_of_neg hs).trans (uval_nonneg p)
  · rw [val_of_pos (by simpa using hs)] at hw ⊢
    have : uval (magnitude w) < uval (p + 1) := by exact_mod_cast hw.trans_lt h2
    exact uval_strictMono.monotone (Nat.le_of_lt_succ (uval_strictMono.lt_iff_lt.mp this))

/-- Between two neighbours, the upper one is faithful. -/
theorem faithful_ceil {r : ℝ} {p : Nat} (hp : p + 1 ≤ maxPat) (h1 : (uval p : ℝ) < r) (h2 : r ≤ uval (p + 1)) :
    Faithful r (pat (p + 1)) := by
  have hp' : p + 1 < 2 ^ 63 := by unfold maxPat at hp; omega
  refine .inr (.inl ⟨pat_finite hp, by rw [pat_val hp']; exact h2, fun w _ hw => ?_⟩)
  rw [pat_val hp']
  by_cases hs : signBit w = true
  · have h0 : (val w : ℝ) ≤ 0 := by exact_mod_cast val_of_neg hs
    have h3 : (0 : ℝ) ≤ uval p := by exact_mod_cast uval_nonneg p
    linarith
  · rw [val_of_pos (by simpa using hs)] at hw ⊢
    have : uval p < uval (magnitude w) := by exact_mod_cast h1.trans_le hw
    exact uval_strictMono.monotone (uval_strictMono.lt_iff_lt.mp this)

/-- The largest finite value bounds every finite value. -/
theorem val_le_max {w : DWord} (h : isFinite w = true) : val w ≤ uval maxPat :=
  (val_le_uval w).trans (uval_strictMono.monotone (isFinite_iff.mp h))

theorem faithful_inf {r : ℝ} (h : (uval maxPat : ℝ) < r) : Faithful r posInf :=
  .inr (.inr ⟨rfl, fun w hw => lt_of_le_of_lt (by exact_mod_cast val_le_max hw) h⟩)

/-- The sign bit flipped. -/
def flip (x : DWord) : DWord := x ^^^ 0x8000000000000000#64

theorem flip_toNat (x : DWord) : (flip x).toNat = (if signBit x then 0 else 2 ^ 63) + magnitude x := by
  have h1 : (flip x).toNat = x.toNat ^^^ 2 ^ 63 := by unfold flip; simp
  have hm := magnitude_lt x
  rw [h1, toNat_eq (x := x)]
  split
  · rw [Nat.zero_add, Nat.add_comm]
    apply Nat.eq_of_testBit_eq
    intro i
    rw [Nat.testBit_xor]
    rcases Nat.lt_trichotomy i 63 with h | h | h
    · rw [Nat.add_comm, Nat.testBit_two_pow_add_gt h, Nat.testBit_two_pow_of_ne (by omega)]; simp
    · subst h
      rw [Nat.add_comm, Nat.testBit_two_pow_add_eq, Nat.testBit_lt_two_pow hm, Nat.testBit_two_pow_self]; simp
    · have h2 : magnitude x + 2 ^ 63 < 2 ^ i :=
        lt_of_lt_of_le (by omega) (Nat.pow_le_pow_right (by norm_num) (show 64 ≤ i by omega))
      rw [Nat.testBit_lt_two_pow h2, Nat.testBit_two_pow_of_ne (by omega),
        Nat.testBit_lt_two_pow (lt_of_le_of_lt (by omega) h2)]; simp
  · rw [Nat.zero_add]
    apply Nat.eq_of_testBit_eq
    intro i
    rw [Nat.testBit_xor]
    rcases Nat.lt_trichotomy i 63 with h | h | h
    · rw [Nat.testBit_two_pow_add_gt h, Nat.testBit_two_pow_of_ne (by omega)]; simp
    · subst h
      rw [Nat.testBit_two_pow_add_eq, Nat.testBit_lt_two_pow hm, Nat.testBit_two_pow_self]; simp
    · have h2 : 2 ^ 63 + magnitude x < 2 ^ i :=
        lt_of_lt_of_le (by omega) (Nat.pow_le_pow_right (by norm_num) (show 64 ≤ i by omega))
      rw [Nat.testBit_lt_two_pow h2, Nat.testBit_two_pow_of_ne (by omega),
        Nat.testBit_lt_two_pow (lt_of_le_of_lt (by omega) h2)]; simp

theorem flip_magnitude (x : DWord) : magnitude (flip x) = magnitude x := by
  have h := flip_toNat x
  have hm := magnitude_lt x
  have : magnitude (flip x) = (flip x).toNat % 2 ^ 63 := rfl
  rw [this, h]; split <;> omega

theorem flip_sign (x : DWord) : signBit (flip x) = !signBit x := by
  have h := flip_toNat x
  have hm := magnitude_lt x
  have : signBit (flip x) = ((flip x).toNat / 2 ^ 63 % 2 == 1) := rfl
  rw [this, h]
  cases signBit x
  · simp only [Bool.false_eq_true, if_false, Bool.not_false, beq_iff_eq]; omega
  · simp only [if_true, Bool.not_true, beq_eq_false_iff_ne]; omega

theorem flip_flip (x : DWord) : flip (flip x) = x := by
  unfold flip; rw [BitVec.xor_assoc, BitVec.xor_self, BitVec.xor_zero]

theorem flip_val (x : DWord) : val (flip x) = -val x := by
  unfold val; rw [flip_sign, flip_magnitude]; cases signBit x <;> simp

theorem flip_finite (x : DWord) : isFinite (flip x) = isFinite x := by
  rw [Bool.eq_iff_iff, isFinite_iff, isFinite_iff, flip_magnitude]

/-- Faithfulness of a finite value is symmetric in sign. -/
theorem faithful_flip {r : ℝ} {v : DWord} (hf : isFinite v = true) (h : Faithful r v) : Faithful (-r) (flip v) := by
  have key : ∀ w, ((val (flip w) : ℚ) : ℝ) = -(val w : ℝ) := fun w => by rw [flip_val]; push_cast; ring
  rcases h with ⟨_, h1, h2⟩ | ⟨_, h1, h2⟩ | ⟨h1, _⟩
  · refine .inr (.inl ⟨by rwa [flip_finite], by rw [key]; linarith, fun w hw hr => ?_⟩)
    have := h2 (flip w) (by rwa [flip_finite]) (by rw [key]; linarith)
    rw [flip_val] at this ⊢; linarith
  · refine .inl ⟨by rwa [flip_finite], by rw [key]; linarith, fun w hw hr => ?_⟩
    have := h2 (flip w) (by rwa [flip_finite]) (by rw [key]; linarith)
    rw [flip_val] at this ⊢; linarith
  · subst h1; exact absurd hf (by decide)

/-! ## A bit-by-bit search -/

/-- The greatest `r < acc + 2^k` above `acc` with `P r`, for a `P` that holds on an initial segment. -/
def search (P : Nat → Bool) : Nat → Nat → Nat
  | 0, acc => acc
  | k + 1, acc => if P (acc + 2 ^ k) then search P k (acc + 2 ^ k) else search P k acc

theorem search_spec (P : Nat → Bool) :
    ∀ k acc, P acc = true → P (acc + 2 ^ k) = false → P (search P k acc) = true ∧ P (search P k acc + 1) = false
  | 0, acc, h, h' => ⟨h, h'⟩
  | k + 1, acc, h, h' => by
    unfold search
    split
    · rename_i hp
      exact search_spec P k _ hp (by rw [Nat.add_assoc, ← Nat.two_mul, ← Nat.pow_succ']; exact h')
    · rename_i hp
      exact search_spec P k _ h (by simpa using hp)

/-! ## Rational bounds of the exponential -/

/-- The Taylor sum of `e^r` with 30 terms. -/
def taylor (r : ℚ) : ℚ := ∑ i ∈ Finset.range 30, r ^ i / (i.factorial : ℚ)

/-- A bound of the Taylor remainder on [0, 1]. -/
def remainder (r : ℚ) : ℚ := r ^ 30 * 31 / ((Nat.factorial 30 : ℚ) * 30)

/-- A lower bound of `e^q` for `q` in [0, 1024]. -/
def expLo (q : ℚ) : ℚ := taylor (q / 1024) ^ 1024

/-- An upper bound of `e^q` for `q` in [0, 1024]. -/
def expHi (q : ℚ) : ℚ := (taylor (q / 1024) + remainder (q / 1024)) ^ 1024

theorem taylor_cast (r : ℚ) : ((taylor r : ℚ) : ℝ) = ∑ i ∈ Finset.range 30, (r : ℝ) ^ i / (i.factorial : ℝ) := by
  unfold taylor; push_cast; rfl

theorem remainder_cast (r : ℚ) :
    ((remainder r : ℚ) : ℝ) = (r : ℝ) ^ 30 * ((30 : ℕ) + 1) / ((Nat.factorial 30 : ℝ) * (30 : ℕ)) := by
  unfold remainder; push_cast; norm_num

theorem one_le_taylor {r : ℚ} (h : 0 ≤ r) : 1 ≤ taylor r := by
  unfold taylor
  rw [Finset.sum_range_succ']
  have : 0 ≤ ∑ i ∈ Finset.range 29, r ^ (i + 1) / ((i + 1).factorial : ℚ) :=
    Finset.sum_nonneg fun i _ => by positivity
  simpa using this

theorem exp_split (q : ℚ) : Real.exp (q : ℝ) = Real.exp ((q / 1024 : ℚ) : ℝ) ^ 1024 := by
  rw [← Real.exp_nat_mul]; push_cast; congr 1; ring

theorem expLo_le {q : ℚ} (h : 0 ≤ q) : ((expLo q : ℚ) : ℝ) ≤ Real.exp q := by
  rw [exp_split]; unfold expLo; rw [Rat.cast_pow]
  have h0 : (0 : ℝ) ≤ ((q / 1024 : ℚ) : ℝ) := by exact_mod_cast (by positivity : (0 : ℚ) ≤ q / 1024)
  refine pow_le_pow_left₀ ?_ ?_ _
  · exact_mod_cast (zero_le_one.trans (one_le_taylor (by positivity)))
  · rw [taylor_cast]; exact Real.sum_le_exp_of_nonneg h0 30

theorem le_expHi {q : ℚ} (h : 0 ≤ q) (h' : q ≤ 1024) : Real.exp q ≤ ((expHi q : ℚ) : ℝ) := by
  rw [exp_split]; unfold expHi; rw [Rat.cast_pow, Rat.cast_add]
  have h0 : (0 : ℝ) ≤ ((q / 1024 : ℚ) : ℝ) := by exact_mod_cast (by positivity : (0 : ℚ) ≤ q / 1024)
  have h1 : ((q / 1024 : ℚ) : ℝ) ≤ 1 := by
    exact_mod_cast (by rw [div_le_one (by norm_num)]; exact h' : q / 1024 ≤ 1)
  refine pow_le_pow_left₀ (Real.exp_nonneg _) ?_ _
  rw [taylor_cast, remainder_cast]
  exact Real.exp_bound' h0 h1 (n := 30) (by norm_num)

theorem one_le_expLo {q : ℚ} (h : 0 ≤ q) : 1 ≤ expLo q := one_le_pow₀ (one_le_taylor (by positivity))

theorem expLo_pos {q : ℚ} (h : 0 ≤ q) : 0 < expLo q := zero_lt_one.trans_le (one_le_expLo h)

/-- The two bounds differ by a relative error below `q / 2^96`. -/
theorem expHi_le {q : ℚ} (h : 0 ≤ q) (h' : q ≤ 1024) : expHi q ≤ expLo q * (1 + q / 2 ^ 96) := by
  set r := q / 1024 with hr
  have r0 : 0 ≤ r := by positivity
  have r1 : r ≤ 1 := by rw [hr, div_le_one (by norm_num)]; exact h'
  have t1 := one_le_taylor r0
  have hrem : remainder r ≤ r / 2 ^ 100 := by
    unfold remainder
    have h30 : r ^ 30 ≤ r := by
      calc r ^ 30 = r * r ^ 29 := by ring
        _ ≤ r * 1 := by gcongr; exact pow_le_one₀ r0 r1
        _ = r := by ring
    have hfac : (31 : ℚ) / ((Nat.factorial 30 : ℚ) * 30) ≤ 1 / 2 ^ 100 := by
      rw [div_le_div_iff₀ (by positivity) (by positivity)]; norm_num [Nat.factorial]
    calc r ^ 30 * 31 / ((Nat.factorial 30 : ℚ) * 30) = r ^ 30 * (31 / ((Nat.factorial 30 : ℚ) * 30)) := by ring
      _ ≤ r * (1 / 2 ^ 100) := by gcongr
      _ = r / 2 ^ 100 := by ring
  have hstep : taylor r + remainder r ≤ taylor r * (1 + r / 2 ^ 100) := by
    have : r / 2 ^ 100 ≤ taylor r * (r / 2 ^ 100) := le_mul_of_one_le_left (by positivity) t1
    linarith
  have hrem0 : 0 ≤ remainder r := by unfold remainder; positivity
  have hpow : (1 + r / 2 ^ 100) ^ 1024 ≤ 1 + q / 2 ^ 96 := by
    have hreal : ((1 + r / 2 ^ 100 : ℚ) : ℝ) ^ 1024 ≤ 1 + (q : ℝ) / 2 ^ 96 := by
      have h1 : ((1 + r / 2 ^ 100 : ℚ) : ℝ) ≤ Real.exp ((r / 2 ^ 100 : ℚ) : ℝ) := by
        push_cast; rw [add_comm]; exact Real.add_one_le_exp _
      have hz : (0 : ℝ) ≤ ((1 + r / 2 ^ 100 : ℚ) : ℝ) := by exact_mod_cast (by positivity : (0 : ℚ) ≤ 1 + r / 2 ^ 100)
      have h2 := pow_le_pow_left₀ hz h1 1024
      rw [← Real.exp_nat_mul] at h2
      have hq0 : (0 : ℝ) ≤ q := by exact_mod_cast h
      have hq1 : (q : ℝ) ≤ 1024 := by exact_mod_cast h'
      have e1 : ((1024 : ℕ) : ℝ) * ((r / 2 ^ 100 : ℚ) : ℝ) = (q : ℝ) / 2 ^ 100 := by
        rw [hr]; push_cast; field_simp
      rw [e1] at h2
      have habs : |(q : ℝ) / 2 ^ 100| ≤ 1 := by
        rw [abs_of_nonneg (by positivity), div_le_one (by positivity)]; linarith
      have h3 := Real.abs_exp_sub_one_le habs
      rw [abs_of_nonneg (by positivity : (0 : ℝ) ≤ q / 2 ^ 100)] at h3
      have h4 := (abs_le.mp h3).2
      have : 2 * ((q : ℝ) / 2 ^ 100) ≤ (q : ℝ) / 2 ^ 96 := by
        rw [← mul_div_assoc, div_le_div_iff₀ (by positivity) (by positivity)]; nlinarith
      linarith
    exact_mod_cast hreal
  unfold expHi expLo
  rw [← hr]
  calc (taylor r + remainder r) ^ 1024 ≤ (taylor r * (1 + r / 2 ^ 100)) ^ 1024 :=
        pow_le_pow_left₀ (by linarith) hstep _
    _ = taylor r ^ 1024 * (1 + r / 2 ^ 100) ^ 1024 := mul_pow _ _ _
    _ ≤ taylor r ^ 1024 * (1 + q / 2 ^ 96) := by gcongr

/-! ## Choosing the pattern nearest to a bracketed value -/

/-- The greatest finite pattern whose value is at most `y`. -/
def floorPat (y : ℚ) : Nat := search (fun p => decide (p ≤ maxPat ∧ uval p ≤ y)) 63 0

theorem floorPat_spec {y : ℚ} (h0 : 0 ≤ y) :
    floorPat y ≤ maxPat ∧ uval (floorPat y) ≤ y ∧ (floorPat y < maxPat → y < uval (floorPat y + 1)) := by
  have h := search_spec (fun p => decide (p ≤ maxPat ∧ uval p ≤ y)) 63 0
    (by simp [maxPat, uval, units_zero, h0]) (by simp [maxPat])
  simp only [decide_eq_true_eq, decide_eq_false_iff_not, not_and, not_le] at h
  exact ⟨h.1.1, h.1.2, fun hlt => h.2 hlt⟩

/-- The finite pattern nearest to `y`, ties upward. -/
def nearPat (y : ℚ) : Nat :=
  if floorPat y < maxPat ∧ uval (floorPat y) + uval (floorPat y + 1) ≤ 2 * y then floorPat y + 1 else floorPat y

theorem uval_gap (p : Nat) : uval (p + 1) ≤ 2 ^ 53 * (uval (p + 1) - uval p) := by
  have h : ((units (p + 1) : ℕ) : ℚ) ≤ 2 ^ 53 * ((units (p + 1) : ℚ) - units p) := by
    have := units_gap p
    have h2 := (units_lt_succ p).le
    rw [← Nat.cast_sub h2]; exact_mod_cast this
  unfold uval
  rw [← sub_div, mul_div_assoc']
  exact div_le_div_of_nonneg_right h (by positivity)

theorem uval_gap_mono (p : Nat) : uval (p + 1) - uval p ≤ uval (p + 2) - uval (p + 1) := by
  have h : ((units (p + 1) : ℚ) - units p) ≤ (units (p + 2) : ℚ) - units (p + 1) := by
    have := units_gap_mono p
    rw [← Nat.cast_sub (units_lt_succ p).le, ← Nat.cast_sub (units_lt_succ (p + 1)).le]; exact_mod_cast this
  unfold uval
  rw [← sub_div, ← sub_div]
  exact div_le_div_of_nonneg_right h (by positivity)

/-- The nearest pattern of a lower bound is faithful to every real in a narrow bracket. -/
theorem faithful_near {r : ℝ} {lo hi : ℚ} (h0 : 0 ≤ lo) (h1 : (lo : ℝ) ≤ r) (h2 : r ≤ (hi : ℝ))
    (h3 : hi ≤ lo * (1 + 1 / 2 ^ 56)) (hmax : r ≤ uval maxPat) : Faithful r (pat (nearPat lo)) := by
  obtain ⟨f1, f2, f3⟩ := floorPat_spec h0
  set p := floorPat lo with hp
  have f2' : ((uval p : ℚ) : ℝ) ≤ r := le_trans (by exact_mod_cast f2) h1
  by_cases hlt : p < maxPat
  · have f3' := f3 hlt
    have gap := uval_gap p
    have gap2 := uval_gap_mono p
    have hg : hi - lo ≤ (uval (p + 1) - uval p) / 8 := by
      have : lo / 2 ^ 56 ≤ uval (p + 1) / 2 ^ 56 := by gcongr
      have e : uval (p + 1) / 2 ^ 56 ≤ 2 ^ 53 * (uval (p + 1) - uval p) / 2 ^ 56 := by gcongr
      have e2 : 2 ^ 53 * (uval (p + 1) - uval p) / 2 ^ 56 = (uval (p + 1) - uval p) / 8 := by ring
      have e3 : lo * (1 + 1 / 2 ^ 56) = lo + lo / 2 ^ 56 := by ring
      linarith
    have gpos : 0 < uval (p + 1) - uval p := sub_pos.mpr (uval_strictMono (Nat.lt_succ_self p))
    unfold nearPat
    rw [← hp]
    by_cases hc : uval p + uval (p + 1) ≤ 2 * lo
    · rw [if_pos ⟨hlt, hc⟩]
      have hlow : uval p < lo := by linarith
      by_cases hr : r ≤ uval (p + 1)
      · exact faithful_ceil hlt (lt_of_lt_of_le (by exact_mod_cast hlow) h1) hr
      · refine faithful_floor hlt (le_of_not_ge hr) (h2.trans_lt ?_)
        have : hi < uval (p + 1 + 1) := by linarith
        exact_mod_cast this
    · rw [if_neg (fun h => hc h.2)]
      refine faithful_floor f1 f2' (h2.trans_lt ?_)
      have : hi < uval (p + 1) := by
        push Not at hc
        linarith
      exact_mod_cast this
  · have hpm : p = maxPat := le_antisymm f1 (not_lt.mp hlt)
    unfold nearPat
    rw [← hp, if_neg (fun h => hlt h.1)]
    refine faithful_floor f1 f2' (lt_of_le_of_lt hmax ?_)
    rw [hpm]; exact_mod_cast uval_strictMono (Nat.lt_succ_self maxPat)

theorem nearPat_le {y : ℚ} (h0 : 0 ≤ y) : nearPat y ≤ maxPat := by
  have := floorPat_spec h0
  unfold nearPat; split <;> omega

/-! ## The reference exponential -/

/-- The pattern of the greatest binary64 value whose exponential does not exceed the largest finite value. -/
def lastPat : Nat := 0x40862E42FEFA39EF

/-- Its value, 709.78... -/
def lastVal : ℚ := 6243314768165359 / 2 ^ 43

theorem max_numeral : 2417851639229258293341246 ^ 1024 ≤ (2 ^ 53 - 1) * 2 ^ 971 * (2 ^ 80) ^ 1024 := by decide +kernel

theorem over_numeral : (2 ^ 53 - 1) * 2 ^ 971 * (2 ^ 80) ^ 1024 < 2417851639229258561776359 ^ 1024 := by decide +kernel

theorem uval_lastPat : uval lastPat = lastVal := by
  have : lastPat = (1031 + 1) * 2 ^ 52 + 0x62E42FEFA39EF := by norm_num [lastPat]
  unfold uval lastVal
  rw [this, units_high (by norm_num), div_eq_div_iff (by positivity) (by positivity),
    show (2 : ℚ) ^ 1074 = 2 ^ 1031 * 2 ^ 43 by rw [← pow_add]]
  push_cast
  ring

theorem uval_lastPat_succ : uval (lastPat + 1) = 6243314768165360 / 2 ^ 43 := by
  have : lastPat + 1 = (1031 + 1) * 2 ^ 52 + 0x62E42FEFA39F0 := by norm_num [lastPat]
  unfold uval
  rw [this, units_high (by norm_num), div_eq_div_iff (by positivity) (by positivity),
    show (2 : ℚ) ^ 1074 = 2 ^ 1031 * 2 ^ 43 by rw [← pow_add]]
  push_cast
  ring

theorem uval_maxPat : uval maxPat = 9007199254740991 * 2 ^ 971 := by
  have : maxPat = (2045 + 1) * 2 ^ 52 + (2 ^ 52 - 1) := by norm_num [maxPat]
  unfold uval
  rw [this, units_high (by norm_num), div_eq_iff (by positivity), mul_assoc, ← pow_add]
  push_cast
  ring

theorem exp_lastVal_le : Real.exp (lastVal : ℝ) ≤ (uval maxPat : ℝ) := by
  have hx : (lastVal : ℝ) = (1024 : ℕ) * ((6243314768165359 : ℝ) / 2 ^ 53) := by
    unfold lastVal; push_cast; ring
  have hr : Real.exp ((6243314768165359 : ℝ) / 2 ^ 53) ≤ 2417851639229258293341246 / 2 ^ 80 := by
    refine (Real.exp_bound' (by positivity) (by norm_num) (n := 20) (by norm_num)).trans ?_
    simp only [Finset.sum_range_succ, Finset.sum_range_zero, Nat.factorial]
    norm_num
  rw [hx, Real.exp_nat_mul, uval_maxPat]
  refine (pow_le_pow_left₀ (Real.exp_nonneg _) hr 1024).trans ?_
  rw [div_pow, div_le_iff₀ (by positivity)]
  have h : ((2417851639229258293341246 ^ 1024 : ℕ) : ℝ) ≤ (((2 ^ 53 - 1) * 2 ^ 971 * (2 ^ 80) ^ 1024 : ℕ) : ℝ) :=
    Nat.cast_le.mpr max_numeral
  rw [Nat.cast_mul, Nat.cast_mul, Nat.cast_pow, Nat.cast_pow, Nat.cast_pow, Nat.cast_pow] at h
  rw [Rat.cast_mul, Rat.cast_pow]
  push_cast at h ⊢
  exact h

theorem lt_exp_lastVal_succ : (uval maxPat : ℝ) < Real.exp ((6243314768165360 / 2 ^ 43 : ℚ) : ℝ) := by
  have hx : ((6243314768165360 / 2 ^ 43 : ℚ) : ℝ) = (1024 : ℕ) * ((6243314768165360 : ℝ) / 2 ^ 53) := by
    push_cast; ring
  have hr : (2417851639229258561776359 : ℝ) / 2 ^ 80 ≤ Real.exp ((6243314768165360 : ℝ) / 2 ^ 53) := by
    refine le_trans ?_ (Real.sum_le_exp_of_nonneg (by positivity) 20)
    simp only [Finset.sum_range_succ, Finset.sum_range_zero, Nat.factorial]
    norm_num
  rw [hx, Real.exp_nat_mul, uval_maxPat]
  refine lt_of_lt_of_le ?_ (pow_le_pow_left₀ (by positivity) hr 1024)
  rw [div_pow, lt_div_iff₀ (by positivity)]
  have h : (((2 ^ 53 - 1) * 2 ^ 971 * (2 ^ 80) ^ 1024 : ℕ) : ℝ) < ((2417851639229258561776359 ^ 1024 : ℕ) : ℝ) :=
    Nat.cast_lt.mpr over_numeral
  rw [Nat.cast_mul, Nat.cast_mul, Nat.cast_pow, Nat.cast_pow, Nat.cast_pow, Nat.cast_pow] at h
  rw [Rat.cast_mul, Rat.cast_pow]
  push_cast at h ⊢
  exact h

/-- The reference exponential: `e^x` to the nearest value but for ties and a relative error below `2^-85`. -/
def expRef (x : DWord) : DWord :=
  if isNaN x then canonNaN
  else if x = posInf then posInf
  else if x = negInf then 0#64
  else if val x = 0 then one
  else if 0 < val x then
    if val x < 1 / 2 ^ 53 then one
    else if lastVal < val x then posInf
    else pat (nearPat (expLo (val x)))
  else if val x < -1000 then 0#64
  else pat (nearPat (1 / expHi (-val x)))

theorem uval_zero : uval 0 = 0 := by unfold uval; rw [units_zero]; simp

theorem uval_one : uval 0x3FF0000000000000 = 1 := by
  have : 0x3FF0000000000000 = (1022 + 1) * 2 ^ 52 + 0 := by norm_num
  unfold uval
  rw [this, units_high (by norm_num), div_eq_iff (by positivity), show (2 : ℚ) ^ 1074 = 2 ^ 1022 * 2 ^ 52 by rw [← pow_add]]
  push_cast
  ring

theorem uval_one_succ : uval (0x3FF0000000000000 + 1) = 1 + 1 / 2 ^ 52 := by
  have : 0x3FF0000000000000 + 1 = (1022 + 1) * 2 ^ 52 + 1 := by norm_num
  unfold uval
  rw [this, units_high (by norm_num), div_eq_iff (by positivity), show (2 : ℚ) ^ 1074 = 2 ^ 1022 * 2 ^ 52 by rw [← pow_add]]
  push_cast
  ring

theorem not_finite_special {x : DWord} (h : isFinite x = true) : isNaN x = false ∧ x ≠ posInf ∧ x ≠ negInf := by
  refine ⟨?_, ?_, ?_⟩
  · unfold isNaN; unfold isFinite at h; simp at h ⊢; intro h'; exact absurd h' h
  · rintro rfl; revert h; decide
  · rintro rfl; revert h; decide

/-- A finite value above `lastVal` is at least the next one on the grid. -/
theorem above_last {x : DWord} (h : lastVal < val x) : 6243314768165360 / 2 ^ 43 ≤ val x := by
  have hs : signBit x = false := by
    by_contra hc
    have := val_of_neg (by simpa using hc)
    have : (0 : ℚ) < lastVal := by unfold lastVal; norm_num
    linarith
  rw [val_of_pos hs] at h ⊢
  rw [← uval_lastPat] at h
  rw [← uval_lastPat_succ]
  exact uval_strictMono.monotone (uval_strictMono.lt_iff_lt.mp h)

theorem exp_neg_thousand : Real.exp (-1000 : ℝ) < (uval 1 : ℝ) := by
  have h1 : uval 1 = 1 / 2 ^ 1074 := by unfold uval; rw [units_low (by norm_num)]; norm_num
  have h2 : (2 : ℝ) ^ 1074 < Real.exp 1000 := by
    have e : Real.exp 1000 = Real.exp 1 ^ 1000 := by rw [← Real.exp_nat_mul]; norm_num
    have h27 : (2.7 : ℝ) ≤ Real.exp 1 := by have := Real.exp_one_gt_d9; linarith
    rw [e]
    refine lt_of_lt_of_le ?_ (pow_le_pow_left₀ (by norm_num) h27 1000)
    have h3 : 2 ^ 1074 * 10 ^ 1000 < 27 ^ 1000 := by decide +kernel
    have h4 : (((2 ^ 1074 * 10 ^ 1000 : ℕ)) : ℝ) < ((27 ^ 1000 : ℕ) : ℝ) := Nat.cast_lt.mpr h3
    rw [Nat.cast_mul, Nat.cast_pow, Nat.cast_pow, Nat.cast_pow] at h4
    rw [show (2.7 : ℝ) = 27 / 10 by norm_num, div_pow, lt_div_iff₀ (by positivity)]
    exact_mod_cast h4
  rw [Real.exp_neg, h1, Rat.cast_div, Rat.cast_pow]
  push_cast
  rw [one_div]
  exact (inv_lt_inv₀ (Real.exp_pos _) (by positivity)).mpr h2

theorem expRef_finite {x : DWord} (h : isFinite x = true) : Faithful (Real.exp (val x)) (expRef x) := by
  obtain ⟨n1, n2, n3⟩ := not_finite_special h
  unfold expRef
  rw [if_neg (by simp [n1]), if_neg n2, if_neg n3]
  have hone : (one : DWord) = pat 0x3FF0000000000000 := rfl
  have hzero : (0#64 : DWord) = pat 0 := rfl
  split
  · rename_i h0
    rw [h0, hone]
    refine faithful_floor (by decide) (by rw [uval_one]; simp) ?_
    rw [uval_one_succ]; push_cast; simp
  split
  · rename_i h0 hpos
    have hposR : (0 : ℝ) < (val x : ℝ) := by exact_mod_cast hpos
    split
    · rename_i hsmall
      have hs : (val x : ℝ) < 1 / 2 ^ 53 := by
        have := (Rat.cast_lt (K := ℝ)).mpr hsmall
        rwa [Rat.cast_div, Rat.cast_pow, Rat.cast_one, Rat.cast_ofNat] at this
      rw [hone]
      refine faithful_floor (by decide) ?_ ?_
      · rw [uval_one]; push_cast; exact Real.one_le_exp hposR.le
      · rw [uval_one_succ]; push_cast
        have habs : |(val x : ℝ)| ≤ 1 := by
          rw [abs_of_pos hposR]; refine hs.le.trans ?_
          rw [div_le_one (by positivity)]; exact one_le_pow₀ (by norm_num)
        have h3 := Real.abs_exp_sub_one_le habs
        rw [abs_of_pos hposR] at h3
        have h4 := (abs_le.mp h3).2
        have h5 : (1 : ℝ) / 2 ^ 53 * 2 = 1 / 2 ^ 52 := by norm_num
        linarith
    split
    · rename_i hbig
      refine faithful_inf (lt_exp_lastVal_succ.trans_le (Real.exp_le_exp.mpr ?_))
      exact_mod_cast above_last hbig
    · rename_i hbig
      have hle : val x ≤ lastVal := not_lt.mp hbig
      have h1024 : val x ≤ 1024 := hle.trans (by unfold lastVal; norm_num)
      refine faithful_near (expLo_pos hpos.le).le (expLo_le hpos.le) (le_expHi hpos.le h1024) ?_ ?_
      · refine (expHi_le hpos.le h1024).trans ?_
        refine mul_le_mul_of_nonneg_left ?_ (expLo_pos hpos.le).le
        have : val x / 2 ^ 96 ≤ 1024 / 2 ^ 96 := by gcongr
        have h2 : (1024 : ℚ) / 2 ^ 96 ≤ 1 / 2 ^ 56 := by norm_num
        linarith
      · refine le_trans (Real.exp_le_exp.mpr ?_) exp_lastVal_le
        exact_mod_cast hle
  · rename_i h0 hpos
    have hneg : val x < 0 := lt_of_le_of_ne (not_lt.mp hpos) h0
    split
    · rename_i hbig
      rw [hzero]
      refine faithful_floor (by decide) (by rw [uval_zero]; push_cast; exact (Real.exp_pos _).le) ?_
      refine lt_trans (Real.exp_lt_exp.mpr ?_) exp_neg_thousand
      exact_mod_cast hbig
    · rename_i hbig
      have q0 : 0 ≤ -val x := by linarith
      have q1 : -val x ≤ 1024 := by linarith [not_lt.mp hbig]
      have lo := expLo_le q0
      have hi := le_expHi q0 q1
      have lp := expLo_pos q0
      have e : Real.exp (val x : ℝ) = (Real.exp ((-val x : ℚ) : ℝ))⁻¹ := by
        rw [← Real.exp_neg]; push_cast; rw [neg_neg]
      have lpR : (0 : ℝ) < (expLo (-val x) : ℝ) := by exact_mod_cast lp
      have hp : 0 < expHi (-val x) := by exact_mod_cast (Real.exp_pos _).trans_le hi
      have hpR : (0 : ℝ) < (expHi (-val x) : ℝ) := by exact_mod_cast hp
      refine faithful_near (hi := 1 / expLo (-val x)) (by positivity) ?_ ?_ ?_ ?_
      · rw [e, Rat.cast_div, Rat.cast_one, one_div]
        exact (inv_le_inv₀ hpR (Real.exp_pos _)).mpr hi
      · rw [e, Rat.cast_div, Rat.cast_one, one_div]
        exact (inv_le_inv₀ (Real.exp_pos _) lpR).mpr lo
      · rw [div_mul_eq_mul_div, one_mul, div_le_div_iff₀ lp hp, one_mul, mul_comm]
        refine (expHi_le q0 q1).trans ?_
        refine mul_le_mul_of_nonneg_left ?_ lp.le
        have : -val x / 2 ^ 96 ≤ 1024 / 2 ^ 96 := by gcongr
        have h2 : (1024 : ℚ) / 2 ^ 96 ≤ 1 / 2 ^ 56 := by norm_num
        linarith
      · have h1 : Real.exp (val x : ℝ) ≤ 1 := Real.exp_le_one_iff.mpr (by exact_mod_cast hneg.le)
        have h2 : (1 : ℚ) ≤ uval maxPat := by
          rw [← uval_one]; exact uval_strictMono.monotone (by decide)
        exact h1.trans (by exact_mod_cast h2)

theorem expRef_nonneg (x : DWord) (h : isNaN x = false) : signBit (expRef x) = false := by
  have sp : ∀ y : ℚ, 0 ≤ y → signBit (pat (nearPat y)) = false := fun y hy =>
    pat_sign (lt_of_le_of_lt (nearPat_le hy) (by decide))
  unfold expRef
  rw [if_neg (by simp [h])]
  split
  · decide
  split
  · decide
  split
  · decide
  split
  · rename_i hp
    split
    · decide
    split
    · decide
    · exact sp _ (expLo_pos hp.le).le
  split
  · decide
  · rename_i h0 hp hb
    refine sp _ ?_
    have q0 : 0 ≤ -val x := by linarith [not_lt.mp hp]
    have : 0 ≤ expHi (-val x) := by
      have := le_expHi q0 (by linarith [not_lt.mp hb])
      exact_mod_cast (Real.exp_pos _).le.trans this
    positivity

theorem uval_two_neg_53 : uval 0x3CA0000000000000 = 1 / 2 ^ 53 := by
  unfold uval
  rw [show units 0x3CA0000000000000 = 2 ^ 1021 by decide +kernel, Nat.cast_pow, Nat.cast_ofNat,
    div_eq_div_iff (by positivity) (by positivity), one_mul, ← pow_add]

theorem expRef_spec : ExpSpec expRef where
  zero := by
    have h0 : val (0#64 : DWord) = 0 := by
      have : (0#64 : DWord) = pat 0 := rfl
      rw [this, pat_val (by norm_num), uval_zero]
    have h1 : val negZero = 0 := by
      have : negZero = flip 0#64 := rfl
      rw [this, flip_val, h0, neg_zero]
    constructor
    · unfold expRef; rw [if_neg (by decide), if_neg (by decide), if_neg (by decide), if_pos h0]
    · unfold expRef; rw [if_neg (by decide), if_neg (by decide), if_neg (by decide), if_pos h1]
  inf := by
    constructor
    · unfold expRef; rw [if_neg (by decide), if_pos rfl]
    · unfold expRef; rw [if_neg (by decide), if_neg (by decide), if_pos rfl]
  nan x h := by unfold expRef; rw [if_pos h]; decide
  faithful x h := expRef_finite h
  nonneg := expRef_nonneg
  overflow x h hw := by
    obtain ⟨n1, n2, n3⟩ := not_finite_special h
    have hmax : (uval maxPat : ℝ) < Real.exp (val x) := by
      have := hw (pat maxPat) (pat_finite le_rfl)
      rwa [pat_val (by decide)] at this
    have hbig : lastVal < val x := by
      by_contra hc
      have : (val x : ℝ) ≤ (lastVal : ℝ) := by exact_mod_cast not_lt.mp hc
      exact absurd ((Real.exp_le_exp.mpr this).trans exp_lastVal_le) (not_le.mpr hmax)
    have hpos : 0 < val x := lt_trans (by unfold lastVal; norm_num) hbig
    have hns : ¬ val x < 1 / 2 ^ 53 := by
      have : (1 : ℚ) / 2 ^ 53 ≤ lastVal := by unfold lastVal; norm_num
      linarith
    unfold expRef
    rw [if_neg (by simp [n1]), if_neg n2, if_neg n3, if_neg hpos.ne', if_pos hpos, if_neg hns, if_pos hbig]
  tiny x hx hle := by
    have ht : tinyOperand.toNat = 0x01A56E1FC2F8F359 := rfl
    have hp : x = pat x.toNat := by unfold pat; rw [BitVec.ofNat_toNat, BitVec.setWidth_eq]
    have hlt : x.toNat < 0x3CA0000000000000 := by omega
    have h63 : x.toNat < 2 ^ 63 := by omega
    have hv : val x = uval x.toNat := by conv_lhs => rw [hp]; exact pat_val h63
    have hf : isFinite x = true := by rw [hp]; exact pat_finite (by unfold maxPat; omega)
    have hne : x.toNat ≠ 0 := fun h => hx (BitVec.eq_of_toNat_eq h)
    have h0 : 0 < val x := by
      rw [hv, show (0 : ℚ) = uval 0 by unfold uval; rw [units_zero]; simp]
      exact uval_strictMono (Nat.pos_of_ne_zero hne)
    have h1 : val x < 1 / 2 ^ 53 := by
      rw [hv, ← uval_two_neg_53]; exact uval_strictMono hlt
    obtain ⟨n1, n2, n3⟩ := not_finite_special hf
    unfold expRef
    rw [if_neg (by simp [n1]), if_neg n2, if_neg n3, if_neg h0.ne', if_pos h0, if_pos h1]

/-! ## The reference logarithm -/

/-- Whether the lower bound of `e^(value of p)` does not exceed `y`. -/
def lnTest (y : ℚ) (p : Nat) : Bool := decide (p ≤ maxPat ∧ uval p ≤ 1000 ∧ expLo (uval p) ≤ y)

/-- The greatest pattern that passes the test. -/
def lnFloor (y : ℚ) : Nat := search (lnTest y) 63 0

/-- The magnitude pattern of `ln y` for `y > 1`. -/
def lnPat (y : ℚ) : Nat :=
  if uval (lnFloor y + 1) ≤ 1000 ∧ expLo ((uval (lnFloor y) + uval (lnFloor y + 1)) / 2) ≤ y then lnFloor y + 1 else lnFloor y

/-- The reference logarithm. -/
def lnRef (x : DWord) : DWord :=
  if isNaN x then canonNaN
  else if x = 0#64 then negInf
  else if x = negZero then negInf
  else if signBit x then canonNaN
  else if x = posInf then posInf
  else if val x = 1 then 0#64
  else if 1 < val x then pat (lnPat (val x))
  else flip (pat (lnPat (1 / val x)))

theorem uval_small {p : Nat} (h : uval p ≤ 1000) : p + 1 ≤ maxPat := by
  by_contra hc
  have h1 : maxPat ≤ p := by omega
  have h2 := uval_strictMono.monotone h1
  rw [uval_maxPat] at h2
  have h3 : (1 : ℚ) ≤ 2 ^ 971 := one_le_pow₀ (by norm_num)
  generalize (2 : ℚ) ^ 971 = k at h2 h3
  linarith

theorem lnFloor_spec {y : ℚ} (h : 1 ≤ y) :
    uval (lnFloor y) ≤ 1000 ∧ expLo (uval (lnFloor y)) ≤ y ∧
      (1000 < uval (lnFloor y + 1) ∨ y < expLo (uval (lnFloor y + 1))) := by
  have h0 : expLo 0 = 1 := by
    have : taylor 0 = 1 := by
      unfold taylor; rw [Finset.sum_range_succ']; simp
    unfold expLo; rw [zero_div, this, one_pow]
  have hs := search_spec (lnTest y) 63 0
    (by unfold lnTest; rw [uval_zero, h0]; simp [h]) (by unfold lnTest; simp [maxPat])
  change lnTest y (lnFloor y) = true ∧ lnTest y (lnFloor y + 1) = false at hs
  unfold lnTest at hs
  simp only [decide_eq_true_eq, decide_eq_false_iff_not, not_and, not_le] at hs
  refine ⟨hs.1.2.1, hs.1.2.2, ?_⟩
  have hm := uval_small hs.1.2.1
  by_cases hc : uval (lnFloor y + 1) ≤ 1000
  · exact .inr (hs.2 hm hc)
  · exact .inl (not_le.mp hc)

/-- A lower bound of `e^q` below `y` puts `ln y` above `q` less a relative error below `2^-96`. -/
theorem le_log {q y : ℚ} (h0 : 0 ≤ q) (h1 : q ≤ 1024) (hy : 0 < y) (h : expLo q ≤ y) :
    ((q - q / 2 ^ 96 : ℚ) : ℝ) ≤ Real.log y := by
  have hyR : (0 : ℝ) < y := by exact_mod_cast hy
  rw [Real.le_log_iff_exp_le hyR]
  have h2 : expHi q ≤ y * (1 + q / 2 ^ 96) :=
    (expHi_le h0 h1).trans (mul_le_mul_of_nonneg_right h (by positivity))
  have h3 : Real.exp q ≤ (y : ℝ) * ((1 + q / 2 ^ 96 : ℚ) : ℝ) := by
    refine (le_expHi h0 h1).trans ?_
    exact_mod_cast h2
  have h4 : ((1 + q / 2 ^ 96 : ℚ) : ℝ) ≤ Real.exp ((q / 2 ^ 96 : ℚ) : ℝ) := by
    rw [Rat.cast_add, Rat.cast_one, add_comm]; exact Real.add_one_le_exp _
  have e : ((q - q / 2 ^ 96 : ℚ) : ℝ) = (q : ℝ) - ((q / 2 ^ 96 : ℚ) : ℝ) := Rat.cast_sub _ _
  rw [e, Real.exp_sub, div_le_iff₀ (Real.exp_pos _)]
  exact h3.trans (mul_le_mul_of_nonneg_left h4 hyR.le)

theorem lnPat_faithful {y : ℚ} (h1 : 1 < y) (hbig : Real.log y < 1000) :
    Faithful (Real.log y) (pat (lnPat y)) ∧ lnPat y ≤ maxPat := by
  obtain ⟨f1, f2, f3⟩ := lnFloor_spec h1.le
  have hy : 0 < y := zero_lt_one.trans h1
  have hyR : (0 : ℝ) < y := by exact_mod_cast hy
  set p := lnFloor y with hp
  have hm := uval_small f1
  have gpos : uval p < uval (p + 1) := uval_strictMono (Nat.lt_succ_self p)
  have gap := uval_gap p
  have n0 := uval_nonneg p
  have up : Real.log y < uval (p + 1) := by
    rcases f3 with h | h
    · exact hbig.trans (by exact_mod_cast h)
    · rw [Real.log_lt_iff_lt_exp hyR]
      exact lt_of_lt_of_le (by exact_mod_cast h) (expLo_le (uval_nonneg _))
  have low := le_log n0 (by linarith) hy f2
  unfold lnPat
  rw [← hp]
  have hpos : (0 : ℝ) < Real.log y := Real.log_pos (by exact_mod_cast h1)
  by_cases hc : uval (p + 1) ≤ 1000 ∧ expLo ((uval p + uval (p + 1)) / 2) ≤ y
  · rw [if_pos hc]
    refine ⟨faithful_ceil hm ?_ up.le, hm⟩
    have hl := le_log (by linarith : 0 ≤ (uval p + uval (p + 1)) / 2) (by linarith) hy hc.2
    have : uval p < (uval p + uval (p + 1)) / 2 - (uval p + uval (p + 1)) / 2 / 2 ^ 96 := by
      have e : (uval p + uval (p + 1)) / 2 / 2 ^ 96 ≤ uval (p + 1) / 2 ^ 96 := by gcongr; linarith
      have e2 : uval (p + 1) / 2 ^ 96 ≤ 2 ^ 53 * (uval (p + 1) - uval p) / 2 ^ 96 := by gcongr
      have e3 : 2 ^ 53 * (uval (p + 1) - uval p) / 2 ^ 96 = (uval (p + 1) - uval p) / 2 ^ 43 := by ring
      have e4 : (uval (p + 1) - uval p) / 2 ^ 43 < (uval (p + 1) - uval p) / 2 := by
        apply div_lt_div_of_pos_left <;> [linarith; norm_num; norm_num]
      linarith
    exact lt_of_lt_of_le (by exact_mod_cast this) hl
  · rw [if_neg hc]
    refine ⟨?_, by omega⟩
    by_cases hge : (uval p : ℝ) ≤ Real.log y
    · exact faithful_floor (by omega) hge up
    · have hp0 : p ≠ 0 := by
        intro h0
        rw [h0, uval_zero] at hge
        push_cast at hge
        exact hge hpos.le
      obtain ⟨k, hk⟩ : ∃ k, p = k + 1 := ⟨p - 1, by omega⟩
      rw [hk] at hge low n0 hm ⊢
      refine faithful_ceil (by omega) ?_ (not_le.mp hge).le
      have gapk := uval_gap k
      have : uval k < uval (k + 1) - uval (k + 1) / 2 ^ 96 := by
        have gk : uval k < uval (k + 1) := uval_strictMono (Nat.lt_succ_self k)
        have e2 : uval (k + 1) / 2 ^ 96 ≤ 2 ^ 53 * (uval (k + 1) - uval k) / 2 ^ 96 := by gcongr
        have e3 : 2 ^ 53 * (uval (k + 1) - uval k) / 2 ^ 96 = (uval (k + 1) - uval k) / 2 ^ 43 := by ring
        have e4 : (uval (k + 1) - uval k) / 2 ^ 43 < uval (k + 1) - uval k :=
          div_lt_self (by linarith) (by norm_num)
        linarith
      exact lt_of_lt_of_le (by exact_mod_cast this) low

/-- The logarithm of a positive finite value is small. -/
theorem log_small {y : ℚ} (h0 : 0 < y) (h : y ≤ 2 ^ 1074) : Real.log y < 1000 := by
  have hy : (0 : ℝ) < y := by exact_mod_cast h0
  have h1 : (y : ℝ) ≤ 2 ^ 1074 := by
    have := (Rat.cast_le (K := ℝ)).mpr h
    rwa [Rat.cast_pow, Rat.cast_ofNat] at this
  have h2 := Real.log_le_log hy h1
  rw [Real.log_pow] at h2
  have h3 := Real.log_two_lt_d9
  push_cast at h2
  linarith

theorem posFinite {x : DWord} (h : isFinite x = true) (hx : 0 < val x) :
    signBit x = false ∧ x ≠ 0#64 ∧ x ≠ negZero ∧ val x ≤ 2 ^ 1074 ∧ 1 / val x ≤ 2 ^ 1074 := by
  have hs : signBit x = false := by
    by_contra hc
    exact absurd hx (not_lt.mpr (val_of_neg (by simpa using hc)))
  have hv := val_of_pos hs
  refine ⟨hs, ?_, ?_, ?_, ?_⟩
  · rintro rfl
    rw [show (0#64 : DWord) = pat 0 from rfl, pat_val (by norm_num), uval_zero] at hx
    exact lt_irrefl _ hx
  · rintro rfl; revert hs; decide
  · refine (val_le_max h).trans ?_
    rw [uval_maxPat]
    calc (9007199254740991 : ℚ) * 2 ^ 971 ≤ 2 ^ 103 * 2 ^ 971 := by gcongr; norm_num
      _ = 2 ^ 1074 := by rw [← pow_add]
  · have h1 : 1 ≤ magnitude x := by
      by_contra hc
      have : magnitude x = 0 := by omega
      rw [hv, this, uval_zero] at hx
      exact lt_irrefl _ hx
    have h2 := uval_strictMono.monotone h1
    have h3 : uval 1 = 1 / 2 ^ 1074 := by unfold uval; rw [units_low (by norm_num)]; norm_num
    rw [h3, ← hv] at h2
    exact (one_div_le hx (by positivity)).mpr h2

theorem lnRef_spec : LnSpec lnRef where
  one := by
    have h1 : val one = 1 := by
      rw [show (one : DWord) = pat 0x3FF0000000000000 from rfl, pat_val (by norm_num), uval_one]
    unfold lnRef
    rw [if_neg (by decide), if_neg (by decide), if_neg (by decide), if_neg (by decide), if_neg (by decide), if_pos h1]
  zero := by
    constructor
    · unfold lnRef; rw [if_neg (by decide), if_pos rfl]
    · unfold lnRef; rw [if_neg (by decide), if_neg (by decide), if_pos rfl]
  inf := by
    unfold lnRef
    rw [if_neg (by decide), if_neg (by decide), if_neg (by decide), if_neg (by decide), if_pos rfl]
  nan x h := by
    unfold lnRef
    rcases h with h | ⟨h1, h2⟩
    · rw [if_pos h]; decide
    · have h0 : x ≠ 0#64 := by rintro rfl; revert h1; decide
      by_cases hn : isNaN x = true
      · rw [if_pos hn]; decide
      · rw [if_neg hn, if_neg h0, if_neg h2, if_pos h1]; decide
  faithful x h hx := by
    obtain ⟨n1, n2, -⟩ := not_finite_special h
    obtain ⟨hs, z1, z2, b1, b2⟩ := posFinite h hx
    unfold lnRef
    rw [if_neg (by simp [n1]), if_neg z1, if_neg z2, if_neg (by simp [hs]), if_neg n2]
    split
    · rename_i h1
      rw [h1, show (0#64 : DWord) = pat 0 from rfl, Rat.cast_one, Real.log_one]
      refine faithful_floor (by decide) (by rw [uval_zero]; simp) ?_
      have := uval_strictMono (Nat.zero_lt_one)
      rw [uval_zero] at this
      exact_mod_cast this
    split
    · rename_i h1
      exact (lnPat_faithful h1 (log_small hx b1)).1
    · rename_i h0 h1
      have hlt : val x < 1 := lt_of_le_of_ne (not_lt.mp h1) h0
      have hinv : 1 < 1 / val x := by rw [lt_one_div (by norm_num) hx]; simpa using hlt
      obtain ⟨hf, hm⟩ := lnPat_faithful hinv (log_small (zero_lt_one.trans hinv) b2)
      have := faithful_flip (pat_finite hm) hf
      rwa [Rat.cast_div, Rat.cast_one, one_div, Real.log_inv, neg_neg] at this

end Sys2Proof.Elementary
end

