-- ==== Sys2Proof/Config.lean ====
section
/-! DEFINITION. The implementation parameters of 00_scope.md R6 and the free values of the points the spec leaves
UNSPECIFIED (93_implementation_defined.md). All of them are opaque constants: no proof can learn a value. -/

namespace Sys2Proof.Config

/-- `P_EXP64` (40_numerics.md R131): any function with the named properties. The default field values only show that
such a function exists (Sys2Proof/Elementary.lean); the constant `expFn` below is opaque. -/
structure ExpFn where
  toFun : DWord → DWord := Elementary.expRef
  spec : Binary64.ExpSpec toFun := by exact Elementary.expRef_spec
  deriving Inhabited

/-- `P_LN64` (40_numerics.md R132): any function with the named properties; the default field values only show that
such a function exists. -/
structure LnFn where
  toFun : DWord → DWord := Elementary.lnRef
  spec : Binary64.LnSpec toFun := by exact Elementary.lnRef_spec
  deriving Inhabited

/-- The implementation's exponential. -/
opaque expFn : ExpFn

/-- The implementation's natural logarithm. -/
opaque lnFn : LnFn

/-- `P_EXP64`. -/
def exp64 (x : DWord) : DWord := expFn.toFun x

/-- `P_LN64`. -/
def ln64 (x : DWord) : DWord := lnFn.toFun x

/-- The scalar parameters with their constraints (00_scope.md R6, 93_implementation_defined.md section 1). The default
values only show that the constraints can be met; the constant `params` below is opaque. -/
structure Params where
  /-- `k` of `P_EMEM_BYTES = 2^k` -/
  ememLog2 : Nat := 16
  /-- `P_NCE_BASE` -/
  nceBase : Nat := 0
  /-- `P_EMEM_HOST_BASE` -/
  ememHostBase : Nat := 2 ^ 16
  /-- `P_INVSIG_EPS` -/
  invsigEps : DWord := 0x3EB0C6F7A0B5ED8D#64
  ememLog2_ge : 16 ≤ ememLog2 := by decide
  ememLog2_le : ememLog2 ≤ 22 := by decide
  nceBase_aligned : nceBase % 4096 = 0 := by decide
  ememHostBase_aligned : ememHostBase % 2 ^ ememLog2 = 0 := by decide
  /-- the two host windows do not overlap -/
  windows_disjoint : nceBase + 4096 ≤ ememHostBase ∨ ememHostBase + 2 ^ ememLog2 ≤ nceBase := by decide
  invsigEps_finite : Binary64.isFinite invsigEps = true := by decide
  /-- `0 < P_INVSIG_EPS`, as patterns: neither sign bit nor zero -/
  invsigEps_pos : 0 < invsigEps.toNat := by decide
  /-- `P_INVSIG_EPS < 0.5`: the patterns of the non-negative values are ordered as the values are -/
  invsigEps_lt : invsigEps.toNat < 0x3FE0000000000000 := by decide
  deriving Inhabited

/-- The implementation's parameters. -/
opaque params : Params

/-- `P_EMEM_BYTES` (20_memory.md R60). -/
def ememBytes : Nat := 2 ^ params.ememLog2

/-- The smallest size the constraint of 00_scope.md R6 admits: every implementation has at least these bytes. -/
def ememBytesMin : Nat := 2 ^ 16

/-- A 32-bit value drawn for a point the spec leaves UNSPECIFIED; the argument counts the draws. -/
opaque freeWord : Nat → Word

/-- A byte drawn for a point the spec leaves UNSPECIFIED. -/
opaque freeByte : Nat → Byte

/-- A choice between two values the spec allows. -/
opaque freeChoice : Nat → Bool

end Sys2Proof.Config
end

