-- ==== Sys2Proof/Syntax.lean ====
section
/-! DEFINITION. The 24 commands of 30_encoding.md R98 as data, one constructor per row of the opcode map, with the
operand order of R102. -/

namespace Sys2Proof

/-- A command. Operand names are the fields of 30_encoding.md R92 to R97: `rd`, `ra`, `rb`, `rc` are V register
numbers, `imm` the 22-bit immediate, `off` the signed 18-bit byte offset, `sel` a byte index. -/
inductive Instr where
  | nop
  | halt
  | li (rd : VReg) (imm : BitVec 22)
  | mov (rd ra : VReg)
  | ldw (rd ra : VReg) (off : BitVec 18)
  | ldf (rd ra : VReg) (off : BitVec 18)
  | ldb (rd ra : VReg) (off : BitVec 18)
  | stw (rs ra : VReg) (off : BitVec 18)
  | stf (rs ra : VReg) (off : BitVec 18)
  | unpk111011 (rd ra : VReg)
  | unpk8888 (rd ra : VReg)
  | unorm8 (rd ra : VReg) (sel : Fin 4)
  | u16n (rd ra rb : VReg) (sel : Fin 4)
  | dequant (rd ra rb rc : VReg)
  | dqrange (rd ra rb rc : VReg)
  | cblk (rd ra rb : VReg) (sel : Fin 4)
  | invlog (rd ra : VReg)
  | logitop (rd ra : VReg)
  | invsig (rd ra : VReg)
  | shdc (rd ra : VReg)
  | unpkrot (rd ra : VReg)
  | quatst (rd ra : VReg)
  | decchk
  | decimg
  deriving DecidableEq, Repr

/-- The frame commands, DECCHK and DECIMG (60_exceptions.md R303 clears OUT_COUNT when one of them fails). -/
def Instr.isFrame : Instr → Bool
  | .decchk | .decimg => true
  | .nop | .halt | .li _ _ | .mov _ _ | .ldw _ _ _ | .ldf _ _ _ | .ldb _ _ _ | .stw _ _ _ | .stf _ _ _
  | .unpk111011 _ _ | .unpk8888 _ _ | .unorm8 _ _ _ | .u16n _ _ _ _ | .dequant _ _ _ _ | .dqrange _ _ _ _
  | .cblk _ _ _ _ | .invlog _ _ | .logitop _ _ | .invsig _ _ | .shdc _ _ | .unpkrot _ _ | .quatst _ _ => false

end Sys2Proof
end

