-- ==== Sys2Proof/WellFormed.lean ====
section
/-! DEFINITION. Which commands the encoding admits: the constraint on the destinations of the multi-destination
commands (30_encoding.md R97, R98, R99 (c)). Every other operand is well formed by its type. -/

namespace Sys2Proof

/-- The extra constraint of the opcode map: `UNPK111011` needs `rd <= 13`, `UNPK8888`, `UNPKROT` and `QUATST` need
`rd <= 12` (30_encoding.md R98). -/
def Instr.wellFormed : Instr → Bool
  | .unpk111011 rd _ => decide (rd.val ≤ 13)
  | .unpk8888 rd _ => decide (rd.val ≤ 12)
  | .unpkrot rd _ => decide (rd.val ≤ 12)
  | .quatst rd _ => decide (rd.val ≤ 12)
  | .nop | .halt | .li _ _ | .mov _ _ | .ldw _ _ _ | .ldf _ _ _ | .ldb _ _ _ | .stw _ _ _ | .stf _ _ _
  | .unorm8 _ _ _ | .u16n _ _ _ _ | .dequant _ _ _ _ | .dqrange _ _ _ _ | .cblk _ _ _ _
  | .invlog _ _ | .logitop _ _ | .invsig _ _ | .shdc _ _ | .decchk | .decimg => true

end Sys2Proof
end

