-- ==== Sys2Proof/Decode.lean ====
section
/-! DEFINITION. The decoder and the encoder of the command words (30_encoding.md R90 to R101). -/

namespace Sys2Proof

/-- `v[hi:lo]`, the unsigned integer formed by bits `hi` down to `lo` of `v` (00_scope.md R8). -/
def bits (v hi lo : Nat) : Nat := v / 2 ^ lo % 2 ^ (hi + 1 - lo)

/-- The rows of the opcode map (30_encoding.md R98), without operands. -/
inductive Opcode where
  | nop | halt | li | mov
  | ldw | ldf | ldb | stw | stf
  | unpk111011 | unpk8888 | unorm8 | u16n
  | dequant | dqrange | cblk
  | invlog | logitop | invsig | shdc
  | unpkrot | quatst
  | decchk | decimg
  deriving DecidableEq, Repr

/-- The row of a command. -/
def Instr.opcode : Instr → Opcode
  | .nop => .nop
  | .halt => .halt
  | .li _ _ => .li
  | .mov _ _ => .mov
  | .ldw _ _ _ => .ldw
  | .ldf _ _ _ => .ldf
  | .ldb _ _ _ => .ldb
  | .stw _ _ _ => .stw
  | .stf _ _ _ => .stf
  | .unpk111011 _ _ => .unpk111011
  | .unpk8888 _ _ => .unpk8888
  | .unorm8 _ _ _ => .unorm8
  | .u16n _ _ _ _ => .u16n
  | .dequant _ _ _ _ => .dequant
  | .dqrange _ _ _ _ => .dqrange
  | .cblk _ _ _ _ => .cblk
  | .invlog _ _ => .invlog
  | .logitop _ _ => .logitop
  | .invsig _ _ => .invsig
  | .shdc _ _ => .shdc
  | .unpkrot _ _ => .unpkrot
  | .quatst _ _ => .quatst
  | .decchk => .decchk
  | .decimg => .decimg

/-- The opcode numbers (30_encoding.md R98). -/
def Opcode.code : Opcode → Nat
  | .nop => 0x01
  | .halt => 0x02
  | .li => 0x03
  | .mov => 0x04
  | .ldw => 0x08
  | .ldf => 0x09
  | .ldb => 0x0A
  | .stw => 0x0C
  | .stf => 0x0D
  | .unpk111011 => 0x10
  | .unpk8888 => 0x11
  | .unorm8 => 0x12
  | .u16n => 0x13
  | .dequant => 0x18
  | .dqrange => 0x19
  | .cblk => 0x1A
  | .invlog => 0x20
  | .logitop => 0x21
  | .invsig => 0x22
  | .shdc => 0x23
  | .unpkrot => 0x28
  | .quatst => 0x29
  | .decchk => 0x30
  | .decimg => 0x31

/-- Every row of the opcode map, in the map's order. -/
def Opcode.all : List Opcode :=
  [.nop, .halt, .li, .mov, .ldw, .ldf, .ldb, .stw, .stf, .unpk111011, .unpk8888, .unorm8, .u16n,
   .dequant, .dqrange, .cblk, .invlog, .logitop, .invsig, .shdc, .unpkrot, .quatst, .decchk, .decimg]

/-- The row an opcode number selects; none for the illegal opcodes of 30_encoding.md R99 (a). -/
def Opcode.ofCode (c : Nat) : Option Opcode := Opcode.all.find? fun o => o.code == c

/-- The bit ranges `(hi, lo)` a row requires to be zero (30_encoding.md R98, column "required zero"). -/
def Opcode.zeroRanges : Opcode → List (Nat × Nat)
  | .nop | .halt | .decchk | .decimg => [(25, 0)]
  | .li | .ldw | .ldf | .ldb | .stw | .stf => []
  | .mov | .unpk111011 | .unpk8888 | .invlog | .logitop | .invsig | .shdc | .unpkrot | .quatst =>
    [(17, 14), (13, 10), (9, 8), (7, 0)]
  | .unorm8 => [(17, 14), (13, 10), (7, 0)]
  | .u16n | .cblk => [(13, 10), (7, 0)]
  | .dequant | .dqrange => [(9, 8), (7, 0)]

/-- Whether all required-zero fields of a row are zero in the word `w` (30_encoding.md R99 (b)). -/
def Opcode.zerosOk (o : Opcode) (w : Nat) : Bool := o.zeroRanges.all fun r => bits w r.1 r.2 == 0

/-- Field `rd = w[25:22]` (30_encoding.md R97). -/
def fieldRd (w : Nat) : VReg := Fin.ofNat 16 (bits w 25 22)

/-- Field `ra = w[21:18]`. -/
def fieldRa (w : Nat) : VReg := Fin.ofNat 16 (bits w 21 18)

/-- Field `rb = w[17:14]`. -/
def fieldRb (w : Nat) : VReg := Fin.ofNat 16 (bits w 17 14)

/-- Field `rc = w[13:10]`. -/
def fieldRc (w : Nat) : VReg := Fin.ofNat 16 (bits w 13 10)

/-- Field `sel = w[9:8]` (30_encoding.md R96). -/
def fieldSel (w : Nat) : Fin 4 := Fin.ofNat 4 (bits w 9 8)

/-- Field `imm22 = w[21:0]` (30_encoding.md R93). -/
def fieldImm (w : Nat) : BitVec 22 := BitVec.ofNat 22 (bits w 21 0)

/-- Field `off18 = w[17:0]` (30_encoding.md R95). -/
def fieldOff (w : Nat) : BitVec 18 := BitVec.ofNat 18 (bits w 17 0)

/-- The command a row makes of the operand fields of `w` (30_encoding.md R98, column "fields used"). -/
def Opcode.build (w : Nat) : Opcode → Instr
  | .nop => .nop
  | .halt => .halt
  | .li => .li (fieldRd w) (fieldImm w)
  | .mov => .mov (fieldRd w) (fieldRa w)
  | .ldw => .ldw (fieldRd w) (fieldRa w) (fieldOff w)
  | .ldf => .ldf (fieldRd w) (fieldRa w) (fieldOff w)
  | .ldb => .ldb (fieldRd w) (fieldRa w) (fieldOff w)
  | .stw => .stw (fieldRd w) (fieldRa w) (fieldOff w)
  | .stf => .stf (fieldRd w) (fieldRa w) (fieldOff w)
  | .unpk111011 => .unpk111011 (fieldRd w) (fieldRa w)
  | .unpk8888 => .unpk8888 (fieldRd w) (fieldRa w)
  | .unorm8 => .unorm8 (fieldRd w) (fieldRa w) (fieldSel w)
  | .u16n => .u16n (fieldRd w) (fieldRa w) (fieldRb w) (fieldSel w)
  | .dequant => .dequant (fieldRd w) (fieldRa w) (fieldRb w) (fieldRc w)
  | .dqrange => .dqrange (fieldRd w) (fieldRa w) (fieldRb w) (fieldRc w)
  | .cblk => .cblk (fieldRd w) (fieldRa w) (fieldRb w) (fieldSel w)
  | .invlog => .invlog (fieldRd w) (fieldRa w)
  | .logitop => .logitop (fieldRd w) (fieldRa w)
  | .invsig => .invsig (fieldRd w) (fieldRa w)
  | .shdc => .shdc (fieldRd w) (fieldRa w)
  | .unpkrot => .unpkrot (fieldRd w) (fieldRa w)
  | .quatst => .quatst (fieldRd w) (fieldRa w)
  | .decchk => .decchk
  | .decimg => .decimg

/-- Why a word is no command: the three cases of 30_encoding.md R99, and too few bytes. -/
inductive DecodeError where
  /-- (a) the opcode is not in the map -/
  | illegalOpcode
  /-- (b) a required-zero field is not zero -/
  | nonzeroField
  /-- (c) the destinations leave the V file -/
  | destOutOfRange
  /-- fewer than the four bytes every command has (R90) -/
  | tooShort
  deriving DecidableEq, Repr

/-- The command a 32-bit word stands for, or why it is illegal. The checks are exactly (a), (b), (c) of
30_encoding.md R99; R100: every other word is a row of the map. -/
def decodeWord (w : Nat) : Except DecodeError Instr :=
  match Opcode.ofCode (bits w 31 26) with
  | none => .error .illegalOpcode
  | some o =>
    if o.zerosOk w then
      if (o.build w).wellFormed then .ok (o.build w) else .error .destOutOfRange
    else .error .nonzeroField

/-- The unsigned integer of a list of bytes, little-endian (20_memory.md R61). -/
def ofBytesLE : List Byte → Nat
  | [] => 0
  | b :: t => b.toNat + 256 * ofBytesLE t

/-- The `n` low bytes of `v`, little-endian. -/
def toBytesLE : Nat → Nat → List Byte
  | 0, _ => []
  | n + 1, v => BitVec.ofNat 8 v :: toBytesLE n (v / 256)

/-- Decode the command at the head of a byte stream; a decoder always consumes 4 bytes (30_encoding.md R90, R101). -/
def decodeBytes : List Byte → Except DecodeError (Instr × List Byte)
  | b0 :: b1 :: b2 :: b3 :: rest => (decodeWord (ofBytesLE [b0, b1, b2, b3])).map fun i => (i, rest)
  | _ => .error .tooShort

/-- The command the decoder reads from a row's word: `w` cut to its `nbits` bits, laid out as EMEM stores it. -/
def decodeTableWord (nbits w : Nat) : Option Instr :=
  match decodeBytes (toBytesLE 4 (w % 2 ^ nbits)) with
  | .ok (i, _) => some i
  | .error _ => none

/-- The operand bits of format R (30_encoding.md R94). -/
def packR (rd ra rb rc : VReg) (sel : Fin 4) : Nat :=
  rd.val * 2 ^ 22 + ra.val * 2 ^ 18 + rb.val * 2 ^ 14 + rc.val * 2 ^ 10 + sel.val * 2 ^ 8

/-- The operand bits of format M (30_encoding.md R95). -/
def packM (rd ra : VReg) (off : BitVec 18) : Nat := rd.val * 2 ^ 22 + ra.val * 2 ^ 18 + off.toNat

/-- The operand bits `w[25:0]` of a command. -/
def Instr.operandBits : Instr → Nat
  | .nop | .halt | .decchk | .decimg => 0
  | .li rd imm => rd.val * 2 ^ 22 + imm.toNat
  | .mov rd ra => packR rd ra 0 0 0
  | .ldw rd ra off => packM rd ra off
  | .ldf rd ra off => packM rd ra off
  | .ldb rd ra off => packM rd ra off
  | .stw rs ra off => packM rs ra off
  | .stf rs ra off => packM rs ra off
  | .unpk111011 rd ra => packR rd ra 0 0 0
  | .unpk8888 rd ra => packR rd ra 0 0 0
  | .unorm8 rd ra sel => packR rd ra 0 0 sel
  | .u16n rd ra rb sel => packR rd ra rb 0 sel
  | .dequant rd ra rb rc => packR rd ra rb rc 0
  | .dqrange rd ra rb rc => packR rd ra rb rc 0
  | .cblk rd ra rb sel => packR rd ra rb 0 sel
  | .invlog rd ra => packR rd ra 0 0 0
  | .logitop rd ra => packR rd ra 0 0 0
  | .invsig rd ra => packR rd ra 0 0 0
  | .shdc rd ra => packR rd ra 0 0 0
  | .unpkrot rd ra => packR rd ra 0 0 0
  | .quatst rd ra => packR rd ra 0 0 0

/-- The word of a command: opcode in bits [31:26] (30_encoding.md R91), operands below. -/
def encode (i : Instr) : Nat := i.opcode.code * 2 ^ 26 + i.operandBits

end Sys2Proof
end

