-- ==== Sys2Proof/Machine/Float.lean ====
section
/-! DEFINITION. Binary64 arithmetic (40_numerics.md R120 to R136). Every operation computes the exact result on
integers and rounds it once (R121); no operation has an exception or leaves a flag (R127). -/

namespace Sys2Proof.Machine

/-- The exact value of a floating-point pattern: `fin neg m e` is `(-1)^neg * m * 2^e`. -/
inductive Num where
  | nan
  | inf (neg : Bool)
  | fin (neg : Bool) (m : Nat) (e : Int)
  deriving DecidableEq, Repr

/-- Read the low `1 + w + p` bits of `n` as a pattern with `w` exponent bits and `p` fraction bits, whose smallest
subnormal is `2^emin` (40_numerics.md R120). -/
def Num.ofPattern (w p : Nat) (emin : Int) (n : Nat) : Num :=
  let neg := n / 2 ^ (w + p) % 2 == 1
  let ex := n / 2 ^ p % 2 ^ w
  let fr := n % 2 ^ p
  if ex = 2 ^ w - 1 then (if fr = 0 then .inf neg else .nan)
  else if ex = 0 then .fin neg fr emin
  else .fin neg (2 ^ p + fr) (emin + (ex - 1 : Nat))

/-- The value of a binary64 pattern. -/
def Num.of64 (x : DWord) : Num := Num.ofPattern 11 52 (-1074) x.toNat

/-- The value of a binary32 pattern. -/
def Num.of32 (x : Word) : Num := Num.ofPattern 8 23 (-149) x.toNat

/-- `m / 2^s` to the nearest integer, ties to even. -/
def roundShift (m s : Nat) : Nat :=
  let q := m / 2 ^ s
  let r := m % 2 ^ s
  if 2 * r < 2 ^ s then q else if 2 ^ s < 2 * r then q + 1 else q + q % 2

/-- The magnitude pattern of `m * 2^e` rounded by roundTiesToEven to a format with `w` exponent bits, `p` fraction
bits and smallest subnormal `2^emin`; a magnitude that rounds beyond the largest finite value gives the pattern of
infinity (40_numerics.md R121, R125). -/
def roundMag (w p : Nat) (emin : Int) (m : Nat) (e : Int) : Nat :=
  if m = 0 then 0
  else
    let q : Int := max (e + (Nat.log2 m : Int) - p) emin
    let r := if q ≤ e then m * 2 ^ (e - q).toNat else roundShift m (q - e).toNat
    min ((q - emin).toNat * 2 ^ p + r) ((2 ^ w - 1) * 2 ^ p)

/-- `RN` of `(-1)^neg * m * 2^e` as a binary64 pattern (40_numerics.md R121). -/
def round64 (neg : Bool) (m : Nat) (e : Int) : DWord :=
  BitVec.ofNat 64 ((if neg then 2 ^ 63 else 0) + roundMag 11 52 (-1074) m e)

/-- The binary32 pattern of `(-1)^neg * m * 2^e` (40_numerics.md R125). -/
def round32 (neg : Bool) (m : Nat) (e : Int) : Word :=
  BitVec.ofNat 32 ((if neg then 2 ^ 31 else 0) + roundMag 8 23 (-149) m e)

namespace F64

/-- The canonical NaN, `0x7FF8000000000000` (40_numerics.md R126). -/
def nan : DWord := Binary64.canonNaN

/-- A signed infinity. -/
def inf (neg : Bool) : DWord := if neg then Binary64.negInf else Binary64.posInf

/-- A signed zero. -/
def zero (neg : Bool) : DWord := if neg then Binary64.negZero else 0#64

/-- Whether the pattern is a NaN. -/
def isNaN (x : DWord) : Bool := Binary64.isNaN x

/-- NaN canonicalisation (40_numerics.md R126). -/
def canon (x : DWord) : DWord := if isNaN x then nan else x

/-- Negation, exact: flips the sign bit. -/
def neg (x : DWord) : DWord := x ^^^ 0x8000000000000000#64

/-- Absolute value, exact: clears the sign bit. -/
def abs (x : DWord) : DWord := x &&& 0x7FFFFFFFFFFFFFFF#64

/-- The exact sum of two finite values as a signed integer times `2^min(e1, e2)`. -/
def exactSum (n1 : Bool) (m1 : Nat) (e1 : Int) (n2 : Bool) (m2 : Nat) (e2 : Int) : Int × Int :=
  let e := min e1 e2
  let a : Int := (m1 * 2 ^ (e1 - e).toNat : Nat)
  let b : Int := (m2 * 2 ^ (e2 - e).toNat : Nat)
  ((if n1 then -a else a) + (if n2 then -b else b), e)

/-- `x + y` on exact values (40_numerics.md R121): `inf - inf` is NaN; an exact zero sum of operands of opposite sign
is +0, of equal sign it keeps the sign. -/
def addNum : Num → Num → DWord
  | .nan, _ => nan
  | _, .nan => nan
  | .inf a, .inf b => if a = b then inf a else nan
  | .inf a, .fin _ _ _ => inf a
  | .fin _ _ _, .inf b => inf b
  | .fin n1 m1 e1, .fin n2 m2 e2 =>
    let s := exactSum n1 m1 e1 n2 m2 e2
    if s.1 = 0 then zero (n1 && n2) else round64 (decide (s.1 < 0)) s.1.natAbs s.2

/-- `x * y` on exact values; `0 * inf` is NaN. -/
def mulNum : Num → Num → DWord
  | .nan, _ => nan
  | _, .nan => nan
  | .inf a, .inf b => inf (a ^^ b)
  | .inf a, .fin n m _ => if m = 0 then nan else inf (a ^^ n)
  | .fin n m _, .inf b => if m = 0 then nan else inf (n ^^ b)
  | .fin n1 m1 e1, .fin n2 m2 e2 => round64 (n1 ^^ n2) (m1 * m2) (e1 + e2)

/-- The magnitude of `m1 * 2^e1 / (m2 * 2^e2)` to at least 56 significant bits, the last one set when the quotient is
inexact, so that rounding it once more is rounding the exact quotient. -/
def quotient (m1 : Nat) (e1 : Int) (m2 : Nat) (e2 : Int) : Nat × Int :=
  let k := 56 + Nat.log2 m2 - Nat.log2 m1
  let n := m1 * 2 ^ k
  (2 * (n / m2) + (if n % m2 = 0 then 0 else 1), e1 - e2 - k - 1)

/-- `x / y` on exact values; `x / ±0` is a signed infinity for finite nonzero `x`, `0 / 0` and `inf / inf` are NaN. -/
def divNum : Num → Num → DWord
  | .nan, _ => nan
  | _, .nan => nan
  | .inf _, .inf _ => nan
  | .inf a, .fin n _ _ => inf (a ^^ n)
  | .fin n _ _, .inf b => zero (n ^^ b)
  | .fin n1 m1 e1, .fin n2 m2 e2 =>
    if m2 = 0 then (if m1 = 0 then nan else inf (n1 ^^ n2))
    else
      let q := quotient m1 e1 m2 e2
      round64 (n1 ^^ n2) q.1 q.2

/-- The integer square root of `n < 4^k`, bit by bit: the greatest `r` with `r * r ≤ n`, from the partial root `r`. -/
def isqrt (n : Nat) : Nat → Nat → Nat
  | 0, r => r
  | k + 1, r => if (r + 2 ^ k) * (r + 2 ^ k) ≤ n then isqrt n k (r + 2 ^ k) else isqrt n k r

/-- The magnitude of the square root of `m * 2^e` to at least 60 significant bits, the last one set when the root is
inexact. -/
def root (m : Nat) (e : Int) : Nat × Int :=
  let k : Nat := if e % 2 = 0 then 120 else 121
  let n := m * 2 ^ k
  let r := isqrt n 88 0
  (2 * r + (if r * r = n then 0 else 1), (e - k) / 2 - 1)

/-- squareRoot on exact values (40_numerics.md R130). -/
def sqrtNum : Num → DWord
  | .nan => nan
  | .inf n => if n then nan else inf false
  | .fin n m e =>
    if m = 0 then zero n
    else if n then nan
    else
      let r := root m e
      round64 false r.1 r.2

/-- Binary64 addition (40_numerics.md R121). -/
def add (x y : DWord) : DWord := addNum (.of64 x) (.of64 y)

/-- Binary64 subtraction: `x - y` is `x + (-y)`. -/
def sub (x y : DWord) : DWord := addNum (.of64 x) (.of64 (neg y))

/-- Binary64 multiplication. -/
def mul (x y : DWord) : DWord := mulNum (.of64 x) (.of64 y)

/-- Binary64 division. -/
def div (x y : DWord) : DWord := divNum (.of64 x) (.of64 y)

/-- `SQRT64` (40_numerics.md R130). -/
def sqrt (x : DWord) : DWord := sqrtNum (.of64 x)

/-- An integer as a binary64 value; exact below `2^53` (40_numerics.md R123). -/
def ofNat (n : Nat) : DWord := round64 false n 0

/-- The position of a non-NaN pattern in numeric order; both zeros are at 0. -/
def orderKey (x : DWord) : Int :=
  let m : Int := (x.toNat % 2 ^ 63 : Nat)
  if x.toNat / 2 ^ 63 = 0 then m else -m

/-- `x < y`; false when an operand is a NaN (40_numerics.md R134). -/
def lt (x y : DWord) : Bool := !isNaN x && !isNaN y && decide (orderKey x < orderKey y)

/-- `x == y`; `+0 == -0`, and false when an operand is a NaN (40_numerics.md R134). -/
def eq (x y : DWord) : Bool := !isNaN x && !isNaN y && decide (orderKey x = orderKey y)

/-! The constants of 40_numerics.md R133. -/

def SQRT2 : DWord := 0x3FF6A09E667F3BCD#64
def SH_C0 : DWord := 0x3FD20DD750429B6D#64
def C_LO : DWord := 0x3F70101010101010#64
def C_HI : DWord := 0x3FEFDFDFDFDFDFE0#64
def K2047 : DWord := 0x409FFC0000000000#64
def K1023 : DWord := 0x408FF80000000000#64
def K255 : DWord := 0x406FE00000000000#64
def K65535 : DWord := 0x40EFFFE000000000#64
def HALF : DWord := 0x3FE0000000000000#64
def ONE : DWord := 0x3FF0000000000000#64
def TWO : DWord := 0x4000000000000000#64

/-- `EPS` is the parameter `P_INVSIG_EPS`. -/
def EPS : DWord := Config.params.invsigEps

/-- `RN(1 - P_INVSIG_EPS)`. -/
def ONE_M_EPS : DWord := sub ONE EPS

/-- `clamp(x, lo, hi)` (40_numerics.md R135). -/
def clamp (x lo hi : DWord) : DWord :=
  if isNaN x then nan else if lt x lo then lo else if lt hi x then hi else x

/-- `clamp0(x)` (40_numerics.md R136). -/
def clamp0 (x : DWord) : DWord :=
  if isNaN x then nan else if lt 0#64 x then x else 0#64

end F64

/-- `widen(w)`: binary32 to binary64, exact; a NaN becomes the canonical NaN (40_numerics.md R124). -/
def widen (w : Word) : DWord :=
  match Num.of32 w with
  | .nan => F64.nan
  | .inf n => F64.inf n
  | .fin n m e => round64 n m e

/-- `narrow(x)`: binary64 to binary32 by roundTiesToEven; a NaN becomes `0x7FC00000` (40_numerics.md R125). -/
def narrow (x : DWord) : Word :=
  match Num.of64 x with
  | .nan => 0x7FC00000#32
  | .inf n => if n then 0xFF800000#32 else 0x7F800000#32
  | .fin n m e => round32 n m e

end Sys2Proof.Machine
end

