-- ==== Sys2Proof/Machine/State.lean ====
section
/-! DEFINITION. The machine's state as plain data (10_state.md), its reset value (70_reset_and_hazards.md R340), and
the reasons a step can stop. -/

namespace Sys2Proof.Machine

/-- EMEM (10_state.md R48): the bytes that are not 0, as (address, byte) pairs with addresses strictly rising. An
unlisted address reads as 0. DESIGN CHOICE (assumption 2, unsafe for runs from reset): the spec leaves the contents
after reset UNSPECIFIED. -/
abbrev Memory := List Host.Cell

/-- The registers of one pixel plane (10_state.md R44). -/
structure Plane where
  /-- `PLANE_BASE_k` -/
  base : Word
  /-- `PLANE_NPIX_k` -/
  npix : Word
  /-- `PLANE_CH_k` -/
  ch : Word
  deriving DecidableEq, Repr

/-- One access of the host, at a host address (10_state.md R21, R26; 20_memory.md R60), or a change of the RESET input. -/
inductive HostOp where
  /-- a read of `size` bytes at host address `addr` -/
  | read (addr size : Nat)
  /-- a write of the low `size` bytes of `value` at host address `addr` -/
  | write (addr size value : Nat)
  /-- the RESET input is asserted, and stays so (70_reset_and_hazards.md R340, R341) -/
  | assertReset
  /-- the RESET input is released (70_reset_and_hazards.md R340) -/
  | releaseReset
  deriving DecidableEq, Repr

/-- Who moves in one step (10_state.md R20). -/
inductive Turn where
  /-- the host makes one access -/
  | host (op : HostOp)
  /-- the sequencer performs one command, or idles -/
  | engine
  deriving DecidableEq, Repr

/-- The state of the engine. Every field but the last three is named by the spec. -/
structure State where
  /-- `V[0]` to `V[15]` (R22) -/
  v : Vector DWord 16
  /-- which V registers a command or the host has written since reset (R23, R45) -/
  vWritten : Vector Bool 16
  /-- `CPTR`, the command pointer (R24, R31) -/
  cptr : Word
  /-- `CTRL.IE` (R29) -/
  ie : Bool
  /-- `STATUS.BUSY` (R30, R49) -/
  busy : Bool
  /-- `STATUS.DONE` (R30) -/
  done : Bool
  /-- `STATUS.ERR` (R30) -/
  err : Bool
  /-- `ERR_CODE[7:0]` (R32) -/
  errCode : BitVec 8
  /-- `ERR_PC` (R33) -/
  errPc : Word
  /-- `ERR_INFO` (R34) -/
  errInfo : Word
  /-- `CMD_COUNT` (R35) -/
  cmdCount : Word
  /-- `IN_BASE` (R36) -/
  inBase : Word
  /-- `IN_LEN` (R37) -/
  inLen : Word
  /-- `DESC_BASE` (R38) -/
  descBase : Word
  /-- `OUT_BASE` (R39) -/
  outBase : Word
  /-- `OUT_COUNT` (R40) -/
  outCount : Word
  /-- `IMG_COUNT` (R41) -/
  imgCount : Word
  /-- `MIN_X`, `MIN_Y`, `MIN_Z` (R42) -/
  mins : Vector Word 3
  /-- `MAX_X`, `MAX_Y`, `MAX_Z` (R42) -/
  maxs : Vector Word 3
  /-- `SCB_BASE` (R43) -/
  scbBase : Word
  /-- `SCB_LEN` (R43) -/
  scbLen : Word
  /-- `SHCB_BASE` (R43) -/
  shcbBase : Word
  /-- `SHCB_LEN` (R43) -/
  shcbLen : Word
  /-- the registers of planes 0 to 4 (R44) -/
  planes : Vector Plane 5
  /-- EMEM (R48) -/
  mem : Memory
  /-- the RESET input is asserted (R21; 70_reset_and_hazards.md R340): the state of R340 holds -/
  resetHeld : Bool
  /-- MODEL: the moves still to come, first one first; with none left the sequencer moves (assumption 7) -/
  turns : List Turn
  /-- MODEL: the data the host's last read returned (assumption 8) -/
  busData : Word
  /-- MODEL: how many free values have been drawn (assumption 10) -/
  draws : Nat
  deriving DecidableEq, Repr

/-- Why the model stops in a fault. No command raises one. -/
inductive Fault where
  /-- Raised by a host access at an address in neither of the engine's two windows (10_state.md R26, 20_memory.md
  R60): the address is not the engine's. Safe: the model stops. -/
  | hostAddressOutsideWindows (addr : Nat)
  deriving DecidableEq, Repr

/-- Why the model refuses a move. No command is refused. -/
inductive Refusal where
  /-- An instruction without a meaning; raised by exec's arms only, and no arm raises it now. Safe: the model stops. -/
  | notModelled (mnemonic : String)
  /-- Raised by a host access of the MMIO block that is not a naturally aligned 32-bit access (10_state.md R26:
  "UNSPECIFIED and a model refuses it"). Safe: the model stops. -/
  | hostMmioForm (offset size : Nat)
  /-- Raised by a host access of EMEM that is not a naturally aligned access of 1, 2 or 4 bytes (20_memory.md R60:
  "UNSPECIFIED and a model refuses them"). Safe: the model stops. -/
  | hostEmemForm (offset size : Nat)
  /-- Raised by a host access of EMEM while STATUS.BUSY is 1 (20_memory.md R74: "A model gives the host no EMEM move
  while busy"). Safe: the model stops. -/
  | hostEmemBusy (offset : Nat)
  deriving DecidableEq, Repr

/-- The state right after reset, RESET released (70_reset_and_hazards.md R340). DESIGN CHOICE: the V registers hold 0
(assumption 1) and EMEM has nothing listed (assumption 2), where the spec gives no value. -/
def State.reset : State where
  v := Vector.replicate 16 0#64
  vWritten := Vector.replicate 16 false
  cptr := 0#32
  ie := false
  busy := false
  done := false
  err := false
  errCode := 0#8
  errPc := 0#32
  errInfo := 0#32
  cmdCount := 0#32
  inBase := 0#32
  inLen := 0#32
  descBase := 0#32
  outBase := 0#32
  outCount := 0#32
  imgCount := 0#32
  mins := Vector.replicate 3 0#32
  maxs := Vector.replicate 3 0#32
  scbBase := 0#32
  scbLen := 0#32
  shcbBase := 0#32
  shcbLen := 0#32
  planes := Vector.replicate 5 (Plane.mk 0#32 0#32 0#32)
  mem := []
  resetHeld := false
  turns := []
  busData := 0#32
  draws := 0

end Sys2Proof.Machine
end

