-- ==== Sys2Proof/Machine/Ops.lean ====
section
/-! DEFINITION. The shared operations over EMEM and the registers: reads and writes of EMEM (20_memory.md), writes of
the V file, retiring a command (41_sequencing.md R153), raising an error (60_exceptions.md R303) and starting a run
again (R318). -/

namespace Sys2Proof.Machine

/-! ## EMEM -/

/-- Addresses strictly rising, all above `lo`, and no entry equal to what an unlisted address reads as. -/
def Memory.wfFrom (lo : Nat) : Memory → Bool
  | [] => true
  | (a, b) :: t => decide (lo ≤ a) && decide (b ≠ 0#8) && Memory.wfFrom (a + 1) t

/-- The canonical form: addresses strictly rising, no listed byte 0. -/
def Memory.wf (m : Memory) : Bool := Memory.wfFrom 0 m

/-- What an unlisted address reads as. DESIGN CHOICE (assumption 2). -/
def Memory.unlisted : Byte := 0#8

/-- The byte at address `a`. -/
def Memory.byte : Memory → Nat → Byte
  | [], _ => Memory.unlisted
  | (x, b) :: t, a => if a < x then Memory.unlisted else if a = x then b else Memory.byte t a

/-- Store one byte, keeping the canonical form. -/
def Memory.setByte : Memory → Nat → Byte → Memory
  | [], a, b => if b = Memory.unlisted then [] else [(a, b)]
  | (x, y) :: t, a, b =>
    if a < x then (if b = Memory.unlisted then (x, y) :: t else (a, b) :: (x, y) :: t)
    else if a = x then (if b = Memory.unlisted then t else (a, b) :: t)
    else (x, y) :: Memory.setByte t a b

/-- The `n` bytes at `a` as an unsigned integer, little-endian (00_scope.md R11, 20_memory.md R61). -/
def Memory.readLE (m : Memory) (a : Nat) : Nat → Nat
  | 0 => 0
  | n + 1 => (m.byte a).toNat + 256 * Memory.readLE m (a + 1) n

/-- Store the low `n` bytes of `v` at `a`, little-endian (00_scope.md R11). -/
def Memory.writeLE (m : Memory) (a : Nat) : Nat → Nat → Memory
  | 0, _ => m
  | n + 1, v => Memory.writeLE (m.setByte a (BitVec.ofNat 8 v)) (a + 1) n (v / 256)

/-- The 32-bit word at `a`. -/
def Memory.word (m : Memory) (a : Nat) : Word := BitVec.ofNat 32 (m.readLE a 4)

/-- Store a 32-bit word at `a`. -/
def Memory.setWord (m : Memory) (a : Nat) (w : Word) : Memory := m.writeLE a 4 w.toNat

/-- Whether the `n` bytes at `a` lie in EMEM: `a + n <= P_EMEM_BYTES`, exact integers (20_memory.md R63). The first
alternative is implied by the second (every implementation has at least `ememBytesMin` bytes); it lets the test be
evaluated on numerals without the value of the parameter (assumption 6; `inEmem_iff` proves the rule's form). -/
def inEmem (a n : Nat) : Bool := decide (a + n ≤ Config.ememBytesMin) || decide (a + n ≤ Config.ememBytes)

/-! ## Errors -/

/-- The errors of 60_exceptions.md R300 with their information (R301). -/
inductive NceError where
  /-- code 1, with the descriptor header word -/
  | format (hdr : Nat)
  /-- code 2, with reason, detail and element index -/
  | schema (reason detail elem : Nat)
  /-- code 3, with the index of the truncated element -/
  | truncated (elem : Nat)
  /-- code 4, with the first vertex index that has no chunk row -/
  | range (vertex : Nat)
  /-- code 5, with the reason 1 to 3 -/
  | manifest (reason : Nat)
  /-- code 6, with plane and reason -/
  | image (plane reason : Nat)
  /-- code 7: 1 beyond EMEM, 2 output overlaps an input -/
  | io (reason : Nat)
  /-- code 8, with the command word -/
  | illegal (w : Nat)
  /-- code 9, with the misaligned address or the offset of the misaligned register -/
  | alignment (a : Nat)
  deriving DecidableEq, Repr

/-- `ERR_CODE` of an error (60_exceptions.md R300). -/
def NceError.code : NceError → BitVec 8
  | .format _ => 1#8
  | .schema _ _ _ => 2#8
  | .truncated _ => 3#8
  | .range _ => 4#8
  | .manifest _ => 5#8
  | .image _ _ => 6#8
  | .io _ => 7#8
  | .illegal _ => 8#8
  | .alignment _ => 9#8

/-- `ERR_INFO` of an error (60_exceptions.md R301). -/
def NceError.info : NceError → Word
  | .format hdr => BitVec.ofNat 32 hdr
  | .schema reason detail elem => BitVec.ofNat 32 (reason + detail * 2 ^ 8 + elem % 2 ^ 16 * 2 ^ 16)
  | .truncated elem => BitVec.ofNat 32 elem
  | .range vertex => BitVec.ofNat 32 vertex
  | .manifest reason => BitVec.ofNat 32 reason
  | .image plane reason => BitVec.ofNat 32 (plane + reason * 2 ^ 8)
  | .io reason => BitVec.ofNat 32 reason
  | .illegal w => BitVec.ofNat 32 w
  | .alignment a => BitVec.ofNat 32 a

/-- Error entry (60_exceptions.md R303): the run ends, `cptr` keeps the address of the failing command. -/
def State.raise (s : State) (e : NceError) : State :=
  { s with errCode := e.code, errInfo := e.info, errPc := s.cptr, err := true, busy := false }

/-- Error entry of a frame command: `OUT_COUNT` becomes 0 as well (60_exceptions.md R303, R305). -/
def State.raiseFrame (s : State) (e : NceError) : State := { s.raise e with outCount := 0#32 }

/-- START (60_exceptions.md R318), the one way to run again after an error (R307). `ie` is bit 1 of the same write. -/
def State.start (s : State) (ie : Bool) : State :=
  { s with
    ie := ie, done := false, err := false, errCode := 0#8, errPc := 0#32, errInfo := 0#32, cmdCount := 0#32
    busy := true }

/-- Retire a command (41_sequencing.md R153). -/
def State.retire (s : State) : State := { s with cmdCount := s.cmdCount + 1#32, cptr := s.cptr + 4#32 }

/-- A command that is no frame command ends: with its state retired, or in its error (41_sequencing.md R150). -/
def complete (s : State) : Except NceError State → Host.Outcome State Fault Refusal
  | .ok s' => .next s'.retire
  | .error e => .next (s.raise e)

/-- A frame command ends: with its state retired, or in its error. -/
def completeFrame (s : State) : Except NceError State → Host.Outcome State Fault Refusal
  | .ok s' => .next s'.retire
  | .error e => .next (s.raiseFrame e)

/-! ## The V file -/

/-- Write `V[i]` (10_state.md R22); the register counts as written (R23). -/
def State.setV (s : State) (i : VReg) (x : DWord) : State :=
  { s with v := s.v.set i.val x i.isLt, vWritten := s.vWritten.set i.val true i.isLt }

/-! ## Checked accesses -/

/-- The checks of a 4-byte access: alignment, then bounds (20_memory.md R63, R64; 60_exceptions.md R306). -/
def checkWordAccess (ea : Nat) : Except NceError Unit :=
  if ea % 4 ≠ 0 then .error (.alignment ea)
  else if inEmem ea 4 then .ok () else .error (.io 1)

/-- The check of a 1-byte access: bounds only (20_memory.md R64 (c)). -/
def checkByteAccess (ea : Nat) : Except NceError Unit :=
  if inEmem ea 1 then .ok () else .error (.io 1)

/-- `MemRead(a, 4)` of a frame command with its bounds check (00_scope.md R11, 20_memory.md R63). -/
def readWordChecked (m : Memory) (a : Nat) : Except NceError Nat :=
  if inEmem a 4 then .ok (m.readLE a 4) else .error (.io 1)

/-- `overlaps(a, n, b, m)` on exact integers (47_frame_chunked.md R233). -/
def overlaps (a n b m : Nat) : Bool := decide (a < b + m) && decide (b < a + n)

/-- Store `n` drawn bytes at `a`: the bytes a command had begun to write when RESET came are UNSPECIFIED
(70_reset_and_hazards.md R341); `d` counts the draws. -/
def Memory.drawBytes (m : Memory) (a d : Nat) : Nat → Memory
  | 0 => m
  | n + 1 => Memory.drawBytes (m.setByte a (Config.freeByte d)) (a + 1) (d + 1) n

end Sys2Proof.Machine
end

