-- ==== Sys2Proof/Machine/Operands.lean ====
section
/-! DEFINITION. The operand forms of the commands (00_scope.md R10, R14; 30_encoding.md R96, R97; 42_register_memory.md
R160). -/

namespace Sys2Proof.Machine

/-- `V[i].u32`: bits [31:0] as an unsigned integer, bits [63:32] ignored (00_scope.md R10). -/
def State.u32 (s : State) (i : VReg) : Nat := s.v[i].toNat % 2 ^ 32

/-- `V[i].f64`: all 64 bits as a binary64 value (00_scope.md R10). -/
def State.f64 (s : State) (i : VReg) : DWord := s.v[i]

/-- An integer result, zero-extended to 64 bits (10_state.md R22). -/
def zext64 (n : Nat) : DWord := BitVec.ofNat 64 n

/-- `setf(i, x)`: write a binary64 result after NaN canonicalisation (00_scope.md R10, 40_numerics.md R126). -/
def State.setF (s : State) (i : VReg) (x : DWord) : State := s.setV i (F64.canon x)

/-- The V register `k` places after `i` (30_encoding.md R97). -/
def VReg.plus (i : VReg) (k : Nat) : VReg := Fin.ofNat 16 (i.val + k)

/-- The three results of a command with `k = 3` destinations (30_encoding.md R97). -/
def State.setF3 (s : State) (rd : VReg) (x : DWord × DWord × DWord) : State :=
  ((s.setF rd x.1).setF (VReg.plus rd 1) x.2.1).setF (VReg.plus rd 2) x.2.2

/-- The four results of a command with `k = 4` destinations (30_encoding.md R97). -/
def State.setF4 (s : State) (rd : VReg) (x : DWord × DWord × DWord × DWord) : State :=
  (((s.setF rd x.1).setF (VReg.plus rd 1) x.2.1).setF (VReg.plus rd 2) x.2.2.1).setF (VReg.plus rd 3) x.2.2.2

/-- `byte_k(w)`, bits `[8k+7:8k]` (00_scope.md R14). -/
def byteOf (w k : Nat) : Nat := bits w (8 * k + 7) (8 * k)

/-- The effective address of a format M command: base plus sign-extended offset, modulo 2^32 (42_register_memory.md
R160). -/
def State.effAddr (s : State) (ra : VReg) (off : BitVec 18) : Nat :=
  (BitVec.ofNat 32 (s.u32 ra) + off.signExtend 32).toNat

/-- The effective address of `CBLK`: base plus 4 times byte `sel` of the index word, modulo 2^32 (44_dequant.md
R192). -/
def State.codebookAddr (s : State) (ra rb : VReg) (sel : Fin 4) : Nat :=
  (s.u32 rb + 4 * byteOf (s.u32 ra) sel.val) % 2 ^ 32

/-- A command word that breaks the constraint on its destinations is illegal (30_encoding.md R99 (c)). Decoding never
yields one; given directly to its meaning it raises what its word would raise (assumption 14). -/
def checkDest (i : Instr) : Except NceError Unit :=
  if i.wellFormed then .ok () else .error (.illegal (encode i))

end Sys2Proof.Machine
end

