-- ==== Sys2Proof/Machine/Dequant.lean ====
section
/-! DEFINITION. The inverse-quantisation unit (44_dequant.md R190 to R192). -/

namespace Sys2Proof.Machine

/-- `lo + v * (hi - lo)` with three roundings (44_dequant.md R190). -/
def dequant (v lo hi : DWord) : DWord :=
  let d := F64.sub hi lo
  let t := F64.mul v d
  F64.add lo t

/-- The same with a zero width replaced by 1.0 (44_dequant.md R191). -/
def dqrange (v lo hi : DWord) : DWord :=
  let d := F64.sub hi lo
  let d := if F64.eq d 0#64 then F64.ONE else d
  let t := F64.mul v d
  F64.add lo t

/-- `DEQUANT Vd, Va, Vb, Vc` (44_dequant.md R190). -/
def execDequant (rd ra rb rc : VReg) (s : State) : Host.Outcome State Fault Refusal :=
  complete s (.ok (s.setF rd (dequant (s.f64 ra) (s.f64 rb) (s.f64 rc))))

/-- `DQRANGE Vd, Va, Vb, Vc` (44_dequant.md R191). -/
def execDqrange (rd ra rb rc : VReg) (s : State) : Host.Outcome State Fault Refusal :=
  complete s (.ok (s.setF rd (dqrange (s.f64 ra) (s.f64 rb) (s.f64 rc))))

/-- `CBLK Vd, Va, Vb, k` (44_dequant.md R192). -/
def execCblk (rd ra rb : VReg) (sel : Fin 4) (s : State) : Host.Outcome State Fault Refusal :=
  complete s do
    let ea := s.codebookAddr ra rb sel
    checkWordAccess ea
    .ok (s.setF rd (widen (s.mem.word ea)))

end Sys2Proof.Machine
end

