-- ==== Sys2Proof/Machine/Quaternion.lean ====
section
/-! DEFINITION. The quaternion unit (46_quaternion.md R210 to R214). A quaternion is its four slots in the order
`(w, x, y, z)` (R210). -/

namespace Sys2Proof.Machine

/-- `RECOVER_A`: the chunked path's `sqrt(max(0, 1 - a² - b² - c²))`, left to right (46_quaternion.md R211). -/
def recoverA (s0 s1 s2 : DWord) : DWord :=
  let t := F64.sub F64.ONE (F64.mul s0 s0)
  let t := F64.sub t (F64.mul s1 s1)
  let t := F64.sub t (F64.mul s2 s2)
  F64.sqrt (F64.clamp0 t)

/-- `RECOVER_S`: the image path's `sqrt(max(0, 1 - sum))`, sum first (46_quaternion.md R211). -/
def recoverS (s0 s1 s2 : DWord) : DWord :=
  let t := F64.mul s0 s0
  let t := F64.add t (F64.mul s1 s1)
  let t := F64.add t (F64.mul s2 s2)
  F64.sqrt (F64.clamp0 (F64.sub F64.ONE t))

/-- `PLACE(sel, s0, s1, s2, m)`: `m` in slot `sel`, the others in ascending order (46_quaternion.md R212). -/
def place (sel : Nat) (s0 s1 s2 m : DWord) : DWord × DWord × DWord × DWord :=
  if sel = 0 then (m, s0, s1, s2)
  else if sel = 1 then (s0, m, s1, s2)
  else if sel = 2 then (s0, s1, m, s2)
  else (s0, s1, s2, m)

/-- A 10-bit field as a stored component in [-1/√2, 1/√2] (46_quaternion.md R213). -/
def rotComponent (f : Nat) : DWord :=
  F64.mul (F64.sub (F64.div (F64.ofNat f) F64.K1023) F64.HALF) F64.SQRT2

/-- The norm of a quaternion, squares summed in slot order (46_quaternion.md R213). -/
def quatNorm (q : DWord × DWord × DWord × DWord) : DWord :=
  let n2 := F64.mul q.1 q.1
  let n2 := F64.add n2 (F64.mul q.2.1 q.2.1)
  let n2 := F64.add n2 (F64.mul q.2.2.1 q.2.2.1)
  let n2 := F64.add n2 (F64.mul q.2.2.2 q.2.2.2)
  F64.sqrt n2

/-- `unpackRotation`: selector in bits [31:30], three 10-bit fields, renormalised (46_quaternion.md R213). -/
def unpackRotation (w : Nat) : DWord × DWord × DWord × DWord :=
  let s0 := rotComponent (bits w 29 20)
  let s1 := rotComponent (bits w 19 10)
  let s2 := rotComponent (bits w 9 0)
  let q := place (bits w 31 30) s0 s1 s2 (recoverA s0 s1 s2)
  let n := quatNorm q
  (F64.div q.1 n, F64.div q.2.1 n, F64.div q.2.2.1 n, F64.div q.2.2.2 n)

/-- A pixel byte as a stored component: to [-1, 1], then over √2 (46_quaternion.md R214). -/
def tagComponent (b : Nat) : DWord :=
  let u := F64.div (F64.ofNat b) F64.K255
  let t := F64.mul u F64.TWO
  let t := F64.sub t F64.ONE
  F64.div t F64.SQRT2

/-- The image path's quaternion pixel: a tag below 252 gives the identity, else no renormalisation (46_quaternion.md
R214). -/
def quatTagged (w : Nat) : DWord × DWord × DWord × DWord :=
  let tag := byteOf w 3
  if tag < 252 then (F64.ONE, 0#64, 0#64, 0#64)
  else
    let s0 := tagComponent (byteOf w 0)
    let s1 := tagComponent (byteOf w 1)
    let s2 := tagComponent (byteOf w 2)
    place (tag - 252) s0 s1 s2 (recoverS s0 s1 s2)

/-- `UNPKROT Vd, Va` (46_quaternion.md R213). -/
def execUnpkrot (rd ra : VReg) (s : State) : Host.Outcome State Fault Refusal :=
  complete s do
    checkDest (.unpkrot rd ra)
    .ok (s.setF4 rd (unpackRotation (s.u32 ra)))

/-- `QUATST Vd, Va` (46_quaternion.md R214). -/
def execQuatst (rd ra : VReg) (s : State) : Host.Outcome State Fault Refusal :=
  complete s do
    checkDest (.quatst rd ra)
    .ok (s.setF4 rd (quatTagged (s.u32 ra)))

end Sys2Proof.Machine
end

