-- ==== Sys2Proof/Machine/Record.lean ====
section
/-! DEFINITION. The canonical record and the loop that writes records in ascending order, shared by the two frame
commands (47_frame_chunked.md R234, R236; 48_frame_image.md R263, R267). -/

namespace Sys2Proof.Machine

/-- The bytes of a canonical record: 14 binary32 values (00_scope.md R7, 47_frame_chunked.md R236). -/
def recordBytes : Nat := 56

/-- Store the values of a record one after the other from address `a`, each narrowed (47_frame_chunked.md R236). -/
def writeRecord (m : Memory) (a : Nat) : List DWord → Memory
  | [] => m
  | x :: t => writeRecord (m.setWord a (narrow x)) (a + 4) t

/-- Write records `i`, `i + 1`, ... for the remaining count, record `i` at `out + 56 * i`; `f` gives a record's values
from EMEM as it stands (47_frame_chunked.md R234). -/
def writeRecords (f : Memory → Nat → List DWord) (out : Nat) : Nat → Nat → Memory → Memory
  | 0, _, m => m
  | n + 1, i, m => writeRecords f out n (i + 1) (writeRecord m (out + recordBytes * i) (f m i))

end Sys2Proof.Machine
end

