-- ==== Sys2Proof/Machine/Transform.lean ====
section
/-! DEFINITION. The inverse transforms (45_transforms.md R200 to R203). -/

namespace Sys2Proof.Machine

/-- `sign(v) * (exp(|v|) - 1)`, with `sign(±0) = 0` giving +0 (45_transforms.md R200). -/
def invLog (v : DWord) : DWord :=
  if F64.isNaN v then F64.nan
  else if F64.eq v 0#64 then 0#64
  else
    let u := F64.sub (Config.exp64 (F64.abs v)) F64.ONE
    if F64.lt 0#64 v then u else F64.neg u

/-- `-ln(1/a - 1)` of `a` clamped to [1/255, 254/255] (45_transforms.md R201). -/
def logitOpacity (a : DWord) : DWord :=
  if F64.isNaN a then F64.nan
  else
    let c := F64.clamp a F64.C_LO F64.C_HI
    let t := F64.div F64.ONE c
    let u := F64.sub t F64.ONE
    F64.neg (Config.ln64 u)

/-- `ln(y / (1 - y))` of `y` clamped to [EPS, 1 - EPS] (45_transforms.md R202). -/
def invSigmoid (y : DWord) : DWord :=
  if F64.isNaN y then F64.nan
  else
    let c := F64.clamp y F64.EPS F64.ONE_M_EPS
    let d := F64.sub F64.ONE c
    let q := F64.div c d
    Config.ln64 q

/-- `(c - 0.5) / 0.28209479177387814` (45_transforms.md R203). -/
def shDc (c : DWord) : DWord := F64.div (F64.sub c F64.HALF) F64.SH_C0

/-- `INVLOG Vd, Va` (45_transforms.md R200). -/
def execInvlog (rd ra : VReg) (s : State) : Host.Outcome State Fault Refusal :=
  complete s (.ok (s.setF rd (invLog (s.f64 ra))))

/-- `LOGITOP Vd, Va` (45_transforms.md R201). -/
def execLogitop (rd ra : VReg) (s : State) : Host.Outcome State Fault Refusal :=
  complete s (.ok (s.setF rd (logitOpacity (s.f64 ra))))

/-- `INVSIG Vd, Va` (45_transforms.md R202). -/
def execInvsig (rd ra : VReg) (s : State) : Host.Outcome State Fault Refusal :=
  complete s (.ok (s.setF rd (invSigmoid (s.f64 ra))))

/-- `SHDC Vd, Va` (45_transforms.md R203). -/
def execShdc (rd ra : VReg) (s : State) : Host.Outcome State Fault Refusal :=
  complete s (.ok (s.setF rd (shDc (s.f64 ra))))

end Sys2Proof.Machine
end

