-- ==== Sys2Proof/Machine/Unpack.lean ====
section
/-! DEFINITION. The fixed-width bit-field unpacker (43_bitfield_unpack.md R180 to R183). -/

namespace Sys2Proof.Machine

/-- An integer field divided by its maximum: one binary64 division of two exact values (40_numerics.md R123). -/
def normalise (n : Nat) (k : DWord) : DWord := F64.div (F64.ofNat n) k

/-- The three lanes of an 11-10-11 word (43_bitfield_unpack.md R180). -/
def unpack111011 (w : Nat) : DWord × DWord × DWord :=
  (normalise (bits w 31 21) F64.K2047, normalise (bits w 20 11) F64.K1023, normalise (bits w 10 0) F64.K2047)

/-- The four lanes of an 8-8-8-8 word, most significant byte first (43_bitfield_unpack.md R181). -/
def unpack8888 (w : Nat) : DWord × DWord × DWord × DWord :=
  (normalise (bits w 31 24) F64.K255, normalise (bits w 23 16) F64.K255,
   normalise (bits w 15 8) F64.K255, normalise (bits w 7 0) F64.K255)

/-- Byte `k` of a word over 255 (43_bitfield_unpack.md R182). -/
def unorm8 (w k : Nat) : DWord := normalise (byteOf w k) F64.K255

/-- The 16-bit value of byte `k` of two words over 65535 (43_bitfield_unpack.md R183). -/
def u16n (lo hi k : Nat) : DWord := normalise (byteOf lo k + byteOf hi k * 2 ^ 8) F64.K65535

/-- `UNPK111011 Vd, Va` (43_bitfield_unpack.md R180). -/
def execUnpk111011 (rd ra : VReg) (s : State) : Host.Outcome State Fault Refusal :=
  complete s do
    checkDest (.unpk111011 rd ra)
    .ok (s.setF3 rd (unpack111011 (s.u32 ra)))

/-- `UNPK8888 Vd, Va` (43_bitfield_unpack.md R181). -/
def execUnpk8888 (rd ra : VReg) (s : State) : Host.Outcome State Fault Refusal :=
  complete s do
    checkDest (.unpk8888 rd ra)
    .ok (s.setF4 rd (unpack8888 (s.u32 ra)))

/-- `UNORM8 Vd, Va, k` (43_bitfield_unpack.md R182). -/
def execUnorm8 (rd ra : VReg) (sel : Fin 4) (s : State) : Host.Outcome State Fault Refusal :=
  complete s (.ok (s.setF rd (unorm8 (s.u32 ra) sel.val)))

/-- `U16N Vd, Va, Vb, k` (43_bitfield_unpack.md R183). -/
def execU16n (rd ra rb : VReg) (sel : Fin 4) (s : State) : Host.Outcome State Fault Refusal :=
  complete s (.ok (s.setF rd (u16n (s.u32 ra) (s.u32 rb) sel.val)))

end Sys2Proof.Machine
end

