-- ==== Sys2Proof/Machine/Chunked.lean ====
section
/-! DEFINITION. `DECCHK`, the chunked-binary frame parser (47_frame_chunked.md). Every check of R228 to R233 is made
before the first write (R220). -/

namespace Sys2Proof.Machine

/-- A property of an element (47_frame_chunked.md R223, R224): its field id, type code and offset in the row. -/
structure PropDesc where
  field : Nat
  type : Nat
  offset : Nat
  deriving DecidableEq, Repr

/-- An element of the layout descriptor (47_frame_chunked.md R222). -/
structure ElemDesc where
  kind : Nat
  count : Nat
  stride : Nat
  props : List PropDesc
  deriving DecidableEq, Repr

/-- The width in bytes of a scalar type code; none for an unknown type (47_frame_chunked.md R224). -/
def typeWidth (t : Nat) : Option Nat :=
  if t = 1 ∨ t = 2 then some 1
  else if t = 3 ∨ t = 4 then some 2
  else if t = 5 ∨ t = 6 ∨ t = 7 then some 4
  else if t = 8 then some 8
  else none

/-- Type code of float32. -/
def typeFloat32 : Nat := 7

/-- Type code of uint32. -/
def typeUint32 : Nat := 6

/-- The checks of the registers and the descriptor header, giving `NELEM` (47_frame_chunked.md R228). -/
def checkHeader (s : State) : Except NceError Nat :=
  if s.descBase.toNat % 4 ≠ 0 then .error (.alignment 0x048)
  else if s.outBase.toNat % 4 ≠ 0 then .error (.alignment 0x04C)
  else if ¬ inEmem s.inBase.toNat s.inLen.toNat then .error (.io 1)
  else do
    let hdr ← readWordChecked s.mem s.descBase.toNat
    if bits hdr 7 0 ≠ 1 ∨ bits hdr 15 8 ≠ 1 ∨ bits hdr 23 16 ≠ 0 then .error (.format hdr)
    else readWordChecked s.mem (s.descBase.toNat + 4)

/-- The properties `p`, `p + 1`, ... of the element record at `a`, with the element's stride; `e` is the element's
index, `stride` the bytes before property `p` (47_frame_chunked.md R229). -/
def walkProps (m : Memory) (a e : Nat) : Nat → Nat → Nat → Except NceError (List PropDesc × Nat)
  | 0, _, stride => .ok ([], stride)
  | n + 1, p, stride => do
    let pw ← readWordChecked m (a + 8 + 4 * p)
    if bits pw 16 16 = 1 then .error (.schema 1 (p % 256) e)
    else
      match typeWidth (bits pw 7 0) with
      | none => .error (.schema 2 (p % 256) e)
      | some w => do
        let r ← walkProps m a e n (p + 1) (stride + w)
        .ok (⟨bits pw 15 8, bits pw 7 0, stride⟩ :: r.1, r.2)

/-- The element records `e`, `e + 1`, ... from address `a`, with the descriptor's end (47_frame_chunked.md R229). -/
def walkElems (m : Memory) : Nat → Nat → Nat → Except NceError (List ElemDesc × Nat)
  | 0, _, a => .ok ([], a)
  | n + 1, e, a => do
    let e0 ← readWordChecked m a
    let cnt ← readWordChecked m (a + 4)
    let props ← walkProps m a e (bits e0 31 16) 0 0
    let r ← walkElems m n (e + 1) (a + 8 + 4 * bits e0 31 16)
    .ok (⟨bits e0 7 0, cnt, props.2, props.1⟩ :: r.1, r.2)

/-- The elements of a kind with their indices, counted from `e` (47_frame_chunked.md R226, R230). -/
def elemsOfKind (kind : Nat) : Nat → List ElemDesc → List (Nat × ElemDesc)
  | _, [] => []
  | e, d :: t => if d.kind = kind then (e, d) :: elemsOfKind kind (e + 1) t else elemsOfKind kind (e + 1) t

/-- The properties whose field id lies in `lo .. hi`; a field id met again is an error (47_frame_chunked.md R230). -/
def collectFields (lo hi e : Nat) : List PropDesc → List PropDesc → Except NceError (List PropDesc)
  | seen, [] => .ok seen
  | seen, p :: t =>
    if lo ≤ p.field ∧ p.field ≤ hi then
      if seen.any (fun q => q.field == p.field) then .error (.schema 7 p.field e)
      else collectFields lo hi e (seen ++ [p]) t
    else collectFields lo hi e seen t

/-- Whether a field was seen. -/
def hasField (seen : List PropDesc) (f : Nat) : Bool := seen.any fun q => q.field == f

/-- The required fields `fs` in order: each present, each of type `ty` (47_frame_chunked.md R230). -/
def requireFields (seen : List PropDesc) (ty e : Nat) : List Nat → Except NceError Unit
  | [] => .ok ()
  | f :: t =>
    match seen.find? fun q => q.field == f with
    | none => .error (.schema 8 f e)
    | some q => if q.type ≠ ty then .error (.schema 9 f e) else requireFields seen ty e t

/-- The colour bounding box: all six fields or none, each float32; gives `has_color` (47_frame_chunked.md R230). -/
def checkColour (seen : List PropDesc) (e : Nat) : Except NceError Bool :=
  let fs := [13, 14, 15, 16, 17, 18]
  let missing := fs.filter fun f => !hasField seen f
  match missing with
  | [] => do
    requireFields seen typeFloat32 e fs
    .ok true
  | f :: _ => if missing.length < 6 then .error (.schema 10 f e) else .ok false

/-- What the schema checks find (47_frame_chunked.md R230). -/
structure Schema where
  /-- index of the chunk element -/
  c : Nat
  chunk : ElemDesc
  /-- index of the vertex element -/
  v : Nat
  vertex : ElemDesc
  /-- the chunk fields 1 to 18 that are present -/
  cf : List PropDesc
  /-- the vertex fields 32 to 35 -/
  vf : List PropDesc
  hasColor : Bool
  deriving DecidableEq, Repr

/-- The one element of a kind; `rNone` and `rTwo` are the reasons for none and for a second (47_frame_chunked.md
R230). -/
def theElem (kind rNone rTwo : Nat) (els : List ElemDesc) : Except NceError (Nat × ElemDesc) :=
  match elemsOfKind kind 0 els with
  | [] => .error (.schema rNone 0 0xFFFF)
  | [x] => .ok x
  | _ :: y :: _ => .error (.schema rTwo 0 y.1)

/-- The schema checks, in order (47_frame_chunked.md R230). -/
def checkSchema (els : List ElemDesc) : Except NceError Schema := do
  let c ← theElem 1 3 4 els
  let v ← theElem 2 5 6 els
  let cf ← collectFields 1 18 c.1 [] c.2.props
  requireFields cf typeFloat32 c.1 [1, 2, 3, 4, 5, 6, 7, 8, 9, 10, 11, 12]
  let hasColor ← checkColour cf c.1
  let vf ← collectFields 32 35 v.1 [] v.2.props
  requireFields vf typeUint32 v.1 [32, 33, 34, 35]
  .ok ⟨c.1, c.2, v.1, v.2, cf, vf, hasColor⟩

/-- The start offset of every element from index `e` on, the first at `off`; the chunk and vertex elements must end
within `len` bytes (47_frame_chunked.md R231). -/
def checkTruncation (c v len : Nat) : Nat → Nat → List ElemDesc → Except NceError (List Nat)
  | _, _, [] => .ok []
  | e, off, d :: t =>
    if (e = c ∨ e = v) ∧ len < off + d.count * d.stride then .error (.truncated e)
    else do
      let r ← checkTruncation c v len (e + 1) (off + d.count * d.stride) t
      .ok (off :: r)

/-- The output checks (47_frame_chunked.md R233). -/
def checkChunkOutput (s : State) (vn descEnd : Nat) : Except NceError Unit :=
  let out := s.outBase.toNat
  if ¬ inEmem out (recordBytes * vn) then .error (.io 1)
  else if 0 < vn ∧ (overlaps out (recordBytes * vn) s.inBase.toNat s.inLen.toNat
      ∨ overlaps out (recordBytes * vn) s.descBase.toNat (descEnd - s.descBase.toNat)) then .error (.io 2)
  else .ok ()

/-- What the decode phase needs, once every check has passed. -/
structure ChunkPlan where
  /-- address of chunk row 0 -/
  chunkBase : Nat
  chunkStride : Nat
  /-- address of vertex row 0 -/
  vertexBase : Nat
  vertexStride : Nat
  cf : List PropDesc
  vf : List PropDesc
  hasColor : Bool
  /-- the number of vertices -/
  vn : Nat
  deriving DecidableEq, Repr

/-- The validation phase of `DECCHK` (47_frame_chunked.md R220 (1), R227). -/
def validateChunked (s : State) : Except NceError ChunkPlan := do
  let nelem ← checkHeader s
  let els ← walkElems s.mem nelem 0 (s.descBase.toNat + 8)
  let sc ← checkSchema els.1
  let offs ← checkTruncation sc.c sc.v s.inLen.toNat 0 0 els.1
  if 256 * sc.chunk.count < sc.vertex.count then .error (.range (256 * sc.chunk.count))
  else do
    checkChunkOutput s sc.vertex.count els.2
    .ok ⟨s.inBase.toNat + offs.getD sc.c 0, sc.chunk.stride, s.inBase.toNat + offs.getD sc.v 0, sc.vertex.stride,
      sc.cf, sc.vf, sc.hasColor, sc.vertex.count⟩

/-- The row offset of a field; every field that is read has been found (47_frame_chunked.md R230). -/
def fieldOffset (seen : List PropDesc) (f : Nat) : Nat :=
  match seen.find? fun q => q.field == f with
  | some q => q.offset
  | none => 0

/-- `G(f)`: a chunk field as binary64, read at any byte address (47_frame_chunked.md R234, R235). -/
def chunkField (m : Memory) (p : ChunkPlan) (i f : Nat) : DWord :=
  widen (m.word (p.chunkBase + i / 256 * p.chunkStride + fieldOffset p.cf f))

/-- `H(f)`: a vertex field as a word (47_frame_chunked.md R234, R235). -/
def vertexField (m : Memory) (p : ChunkPlan) (i f : Nat) : Nat :=
  m.readLE (p.vertexBase + i * p.vertexStride + fieldOffset p.vf f) 4

/-- The 14 values of vertex `i` (47_frame_chunked.md R234). -/
def chunkRecord (p : ChunkPlan) (m : Memory) (i : Nat) : List DWord :=
  let g := chunkField m p i
  let h := vertexField m p i
  let pos := unpack111011 (h 32)
  let sca := unpack111011 (h 34)
  let col := unpack8888 (h 35)
  let cr := if p.hasColor then dequant col.1 (g 13) (g 14) else col.1
  let cg := if p.hasColor then dequant col.2.1 (g 15) (g 16) else col.2.1
  let cb := if p.hasColor then dequant col.2.2.1 (g 17) (g 18) else col.2.2.1
  let q := unpackRotation (h 33)
  [dequant pos.1 (g 1) (g 2), dequant pos.2.1 (g 3) (g 4), dequant pos.2.2 (g 5) (g 6),
   shDc cr, shDc cg, shDc cb,
   logitOpacity col.2.2.2,
   dequant sca.1 (g 7) (g 8), dequant sca.2.1 (g 9) (g 10), dequant sca.2.2 (g 11) (g 12),
   q.1, q.2.1, q.2.2.1, q.2.2.2]

/-- The decode phase and completion (47_frame_chunked.md R234, R237). -/
def decodeChunked (s : State) (p : ChunkPlan) : State :=
  { s with
    mem := writeRecords (chunkRecord p) s.outBase.toNat p.vn 0 s.mem
    outCount := BitVec.ofNat 32 p.vn }

/-- `DECCHK` (47_frame_chunked.md R227). -/
def execDecchk (s : State) : Host.Outcome State Fault Refusal :=
  completeFrame s ((validateChunked s).map (decodeChunked s))

end Sys2Proof.Machine
end

