-- ==== Sys2Proof/Machine/Image.lean ====
section
/-! DEFINITION. `DECIMG`, the image-codebook frame decoder (48_frame_image.md). Every check of R261 and R262 is made
before the first write. -/

namespace Sys2Proof.Machine

/-- The bytes of a codebook: 256 binary32 entries (00_scope.md R7, 48_frame_image.md R262). -/
def codebookBytes : Nat := 1024

/-- The alignment of the plane bases, plane `k` first (48_frame_image.md R261). -/
def checkPlaneAlign : Nat → List Plane → Except NceError Unit
  | _, [] => .ok ()
  | k, p :: t => if p.base.toNat % 4 ≠ 0 then .error (.alignment (0x0C0 + 16 * k)) else checkPlaneAlign (k + 1) t

/-- Channels and pixel count of every plane, plane `k` first (48_frame_image.md R261). -/
def checkPlanes (n : Nat) : Nat → List Plane → Except NceError Unit
  | _, [] => .ok ()
  | k, p :: t =>
    if p.ch.toNat ≠ 4 then .error (.image k 1)
    else if p.npix.toNat < n then .error (.image k 2)
    else checkPlanes n (k + 1) t

/-- The manifest and image checks, in order (48_frame_image.md R261). -/
def checkManifest (s : State) : Except NceError Unit :=
  if s.outBase.toNat % 4 ≠ 0 then .error (.alignment 0x04C)
  else if s.scbBase.toNat % 4 ≠ 0 then .error (.alignment 0x09C)
  else if s.shcbBase.toNat % 4 ≠ 0 then .error (.alignment 0x0A4)
  else do
    checkPlaneAlign 0 s.planes.toList
    if s.imgCount.toNat = 0 then .error (.manifest 1)
    else if s.scbLen.toNat ≠ 256 then .error (.manifest 2)
    else if s.shcbLen.toNat ≠ 256 then .error (.manifest 3)
    else checkPlanes s.imgCount.toNat 0 s.planes.toList

/-- The input regions of `DECIMG` as (base, length): planes 0 to 4, the scale codebook, the SH-DC codebook
(48_frame_image.md R262). -/
def imageInputs (s : State) : List (Nat × Nat) :=
  s.planes.toList.map (fun p => (p.base.toNat, 4 * s.imgCount.toNat)) ++
    [(s.scbBase.toNat, codebookBytes), (s.shcbBase.toNat, codebookBytes)]

/-- The region checks, in order: every region within EMEM, then the output disjoint from every input
(48_frame_image.md R262). -/
def checkRegions (s : State) : Except NceError Unit :=
  let out := s.outBase.toNat
  let len := recordBytes * s.imgCount.toNat
  if ¬ (imageInputs s ++ [(out, len)]).all (fun r => inEmem r.1 r.2) then .error (.io 1)
  else if (imageInputs s).any (fun r => overlaps out len r.1 r.2) then .error (.io 2)
  else .ok ()

/-- The validation phase of `DECIMG` (48_frame_image.md R260). -/
def validateImage (s : State) : Except NceError Unit := do
  checkManifest s
  checkRegions s

/-- Pixel `i` of plane `k` (48_frame_image.md R263). -/
def pixel (s : State) (m : Memory) (k : Fin 5) (i : Nat) : Nat := m.readLE (s.planes[k].base.toNat + 4 * i) 4

/-- The position of a splat on one axis (48_frame_image.md R263). -/
def imagePosition (s : State) (m : Memory) (i : Nat) (a : Fin 3) : DWord :=
  let u := u16n (pixel s m 0 i) (pixel s m 1 i) a.val
  invLog (dqrange u (widen s.mins[a]) (widen s.maxs[a]))

/-- The codebook entry that byte `a` of a pixel selects (48_frame_image.md R264, R265). -/
def imageCode (m : Memory) (base : Word) (px a : Nat) : DWord := widen (m.word (base.toNat + 4 * byteOf px a))

/-- The 14 values of splat `i` (48_frame_image.md R263 to R267). -/
def imageRecord (s : State) (m : Memory) (i : Nat) : List DWord :=
  let sc := pixel s m 2 i
  let sh := pixel s m 4 i
  let q := quatTagged (pixel s m 3 i)
  [imagePosition s m i 0, imagePosition s m i 1, imagePosition s m i 2,
   imageCode m s.shcbBase sh 0, imageCode m s.shcbBase sh 1, imageCode m s.shcbBase sh 2,
   invSigmoid (unorm8 sh 3),
   imageCode m s.scbBase sc 0, imageCode m s.scbBase sc 1, imageCode m s.scbBase sc 2,
   q.1, q.2.1, q.2.2.1, q.2.2.2]

/-- The decode loop and completion (48_frame_image.md R260, R267). -/
def decodeImage (s : State) : State :=
  { s with
    mem := writeRecords (imageRecord s) s.outBase.toNat s.imgCount.toNat 0 s.mem
    outCount := s.imgCount }

/-- `DECIMG` (48_frame_image.md R260). -/
def execDecimg (s : State) : Host.Outcome State Fault Refusal :=
  completeFrame s ((validateImage s).map fun _ => decodeImage s)

end Sys2Proof.Machine
end

