-- ==== Sys2Proof/Machine/RegMem.lean ====
section
/-! DEFINITION. The register and memory commands (42_register_memory.md R160 to R167). -/

namespace Sys2Proof.Machine

/-- `LI Vd, imm` (42_register_memory.md R161). -/
def execLi (rd : VReg) (imm : BitVec 22) (s : State) : Host.Outcome State Fault Refusal :=
  complete s (.ok (s.setV rd (zext64 imm.toNat)))

/-- `MOV Vd, Va`: all 64 bits, not canonicalised (42_register_memory.md R162). -/
def execMov (rd ra : VReg) (s : State) : Host.Outcome State Fault Refusal :=
  complete s (.ok (s.setV rd s.v[ra]))

/-- `LDW Vd, off(Va)` (42_register_memory.md R163). -/
def execLdw (rd ra : VReg) (off : BitVec 18) (s : State) : Host.Outcome State Fault Refusal :=
  complete s do
    let ea := s.effAddr ra off
    checkWordAccess ea
    .ok (s.setV rd (zext64 (s.mem.readLE ea 4)))

/-- `LDF Vd, off(Va)` (42_register_memory.md R164). -/
def execLdf (rd ra : VReg) (off : BitVec 18) (s : State) : Host.Outcome State Fault Refusal :=
  complete s do
    let ea := s.effAddr ra off
    checkWordAccess ea
    .ok (s.setF rd (widen (s.mem.word ea)))

/-- `LDB Vd, off(Va)` (42_register_memory.md R165). -/
def execLdb (rd ra : VReg) (off : BitVec 18) (s : State) : Host.Outcome State Fault Refusal :=
  complete s do
    let ea := s.effAddr ra off
    checkByteAccess ea
    .ok (s.setV rd (zext64 (s.mem.readLE ea 1)))

/-- `STW Vs, off(Va)`: bits [63:32] of the source are dropped (42_register_memory.md R166). -/
def execStw (rs ra : VReg) (off : BitVec 18) (s : State) : Host.Outcome State Fault Refusal :=
  complete s do
    let ea := s.effAddr ra off
    checkWordAccess ea
    .ok { s with mem := s.mem.setWord ea (BitVec.ofNat 32 (s.u32 rs)) }

/-- `STF Vs, off(Va)` (42_register_memory.md R167). -/
def execStf (rs ra : VReg) (off : BitVec 18) (s : State) : Host.Outcome State Fault Refusal :=
  complete s do
    let ea := s.effAddr ra off
    checkWordAccess ea
    .ok { s with mem := s.mem.setWord ea (narrow (s.f64 rs)) }

end Sys2Proof.Machine
end

