-- ==== Sys2Proof/Machine/Flags.lean ====
section
/-! DEFINITION. The status of the engine as the host sees it. The engine has no flags or condition codes (10_state.md
R25) and no floating-point flags (40_numerics.md R127): the only status bits are those of CTRL and STATUS and the IRQ
output. -/

namespace Sys2Proof.Machine

/-- The `STATUS` word: BUSY in bit 0, DONE in bit 1, ERR in bit 2, the rest 0 (10_state.md R30). -/
def State.statusWord (s : State) : Word :=
  BitVec.ofNat 32 ((if s.busy then 1 else 0) + (if s.done then 2 else 0) + (if s.err then 4 else 0))

/-- The `CTRL` word as read: START reads 0, IE in bit 1, the rest 0 (10_state.md R29). -/
def State.ctrlWord (s : State) : Word := if s.ie then 2#32 else 0#32

/-- The IRQ output, a level signal (60_exceptions.md R309). -/
def State.irq (s : State) : Bool := s.ie && (s.done || s.err)

/-- HALT ends the run: BUSY cleared, DONE set (41_sequencing.md R155). -/
def State.endRun (s : State) : State := { s with busy := false, done := true }

end Sys2Proof.Machine
end

