-- ==== Sys2Proof/Machine/Sequencing.lean ====
section
/-! DEFINITION. NOP and HALT (41_sequencing.md R154, R155). -/

namespace Sys2Proof.Machine

/-- `NOP`: retires (41_sequencing.md R154). -/
def execNop (s : State) : Host.Outcome State Fault Refusal := complete s (.ok s)

/-- `HALT`: retires, then the run ends (41_sequencing.md R155). -/
def execHalt (s : State) : Host.Outcome State Fault Refusal := .next s.retire.endRun

end Sys2Proof.Machine
end

