-- ==== Sys2Proof/Machine/Dispatch.lean ====
section
/-! DEFINITION. The meaning of every command: one arm per constructor of Instr. -/

namespace Sys2Proof.Machine

def exec (i : Instr) (s : State) : Host.Outcome State Fault Refusal :=
  match i with
  | .nop => Sys2Proof.Machine.execNop s
  | .halt => Sys2Proof.Machine.execHalt s
  | .li rd imm => Sys2Proof.Machine.execLi rd imm s
  | .mov rd ra => Sys2Proof.Machine.execMov rd ra s
  | .ldw rd ra off => Sys2Proof.Machine.execLdw rd ra off s
  | .ldf rd ra off => Sys2Proof.Machine.execLdf rd ra off s
  | .ldb rd ra off => Sys2Proof.Machine.execLdb rd ra off s
  | .stw rs ra off => Sys2Proof.Machine.execStw rs ra off s
  | .stf rs ra off => Sys2Proof.Machine.execStf rs ra off s
  | .unpk111011 rd ra => Sys2Proof.Machine.execUnpk111011 rd ra s
  | .unpk8888 rd ra => Sys2Proof.Machine.execUnpk8888 rd ra s
  | .unorm8 rd ra sel => Sys2Proof.Machine.execUnorm8 rd ra sel s
  | .u16n rd ra rb sel => Sys2Proof.Machine.execU16n rd ra rb sel s
  | .dequant rd ra rb rc => Sys2Proof.Machine.execDequant rd ra rb rc s
  | .dqrange rd ra rb rc => Sys2Proof.Machine.execDqrange rd ra rb rc s
  | .cblk rd ra rb sel => Sys2Proof.Machine.execCblk rd ra rb sel s
  | .invlog rd ra => Sys2Proof.Machine.execInvlog rd ra s
  | .logitop rd ra => Sys2Proof.Machine.execLogitop rd ra s
  | .invsig rd ra => Sys2Proof.Machine.execInvsig rd ra s
  | .shdc rd ra => Sys2Proof.Machine.execShdc rd ra s
  | .unpkrot rd ra => Sys2Proof.Machine.execUnpkrot rd ra s
  | .quatst rd ra => Sys2Proof.Machine.execQuatst rd ra s
  | .decchk => Sys2Proof.Machine.execDecchk s
  | .decimg => Sys2Proof.Machine.execDecimg s

end Sys2Proof.Machine
end

