-- ==== Sys2Proof/Machine/Engine.lean ====
section
/-! DEFINITION. The sequencer: fetch, decode, execute (41_sequencing.md R150 to R153), and the bytes a command stores
to. -/

namespace Sys2Proof.Machine

/-- Fetch the word at `cptr`, as EMEM stands now (41_sequencing.md R151, 20_memory.md R72). -/
def fetch (s : State) : Except NceError Nat := readWordChecked s.mem s.cptr.toNat

/-- Decode a fetched word; an illegal one raises `IllegalCommand(w)` (41_sequencing.md R152). -/
def decodeFetched (w : Nat) : Except NceError Instr :=
  match decodeBytes (toBytesLE 4 w) with
  | .ok r => .ok r.1
  | .error _ => .error (.illegal w)

/-- The command at `cptr`, or the error of its fetch or decoding, in the order of 60_exceptions.md R306. -/
def fetchInstr (s : State) : Except NceError Instr := do
  let w ← fetch s
  decodeFetched w

/-- One move of the sequencer: while BUSY, one command (41_sequencing.md R150); while idle, nothing (60_exceptions.md
R317, assumption 13). An error of fetch or decoding changes nothing else, `OUT_COUNT` included (assumption 19). -/
def engineStep (s : State) : Host.Outcome State Fault Refusal :=
  if s.busy then
    match fetchInstr s with
    | .ok i => exec i s
    | .error e => .next (s.raise e)
  else .next s

/-- The bytes an access stores to, none when its check fails. -/
def regionIf (check : Except NceError Unit) (r : Nat × Nat) : Nat × Nat :=
  match check with
  | .ok _ => r
  | .error _ => (0, 0)

/-- The bytes of EMEM the command stores to in the state `s`, as (address, length): the 4 bytes at the effective
address of `STW` and `STF` (42_register_memory.md R166, R167), the output region of a frame command
(47_frame_chunked.md R236, 48_frame_image.md R267), nothing for every other command and for a command that fails. -/
def storeRegion (i : Instr) (s : State) : Nat × Nat :=
  match i with
  | .stw _ ra off => regionIf (checkWordAccess (s.effAddr ra off)) (s.effAddr ra off, 4)
  | .stf _ ra off => regionIf (checkWordAccess (s.effAddr ra off)) (s.effAddr ra off, 4)
  | .decchk =>
    match validateChunked s with
    | .ok p => (s.outBase.toNat, recordBytes * p.vn)
    | .error _ => (0, 0)
  | .decimg => regionIf (validateImage s) (s.outBase.toNat, recordBytes * s.imgCount.toNat)
  | .nop | .halt | .li _ _ | .mov _ _ | .ldw _ _ _ | .ldf _ _ _ | .ldb _ _ _ | .unpk111011 _ _ | .unpk8888 _ _
  | .unorm8 _ _ _ | .u16n _ _ _ _ | .dequant _ _ _ _ | .dqrange _ _ _ _ | .cblk _ _ _ _ | .invlog _ _
  | .logitop _ _ | .invsig _ _ | .shdc _ _ | .unpkrot _ _ | .quatst _ _ => (0, 0)

/-- The bytes the command in progress stores to; none while idle. -/
def inFlight (s : State) : Nat × Nat :=
  if s.busy then
    match fetchInstr s with
    | .ok i => storeRegion i s
    | .error _ => (0, 0)
  else (0, 0)

/-- The state after the command in progress. -/
def afterCurrent (s : State) : State :=
  match engineStep s with
  | .next s' => s'
  | .fault _ => s
  | .refused _ => s

end Sys2Proof.Machine
end

