-- ==== Sys2Proof/Machine/HostPort.lean ====
section
/-! DEFINITION. The host's side: the MMIO register block (10_state.md R26 to R47), the EMEM window (20_memory.md R60,
R74), START (60_exceptions.md R318) and RESET (70_reset_and_hazards.md R340, R341). -/

namespace Sys2Proof.Machine

/-- The registers of the MMIO block (10_state.md R26). -/
inductive MmioReg where
  | id | param | ctrl | status | cptr | errCode | errPc | errInfo | cmdCount
  | inBase | inLen | descBase | outBase | outCount
  | imgCount
  | min (axis : Fin 3) | max (axis : Fin 3)
  | scbBase | scbLen | shcbBase | shcbLen
  | planeBase (k : Fin 5) | planeNpix (k : Fin 5) | planeCh (k : Fin 5)
  | vLo (i : VReg) | vHi (i : VReg)
  deriving DecidableEq, Repr

/-- The offset of a register in the block (10_state.md R26). -/
def MmioReg.offset : MmioReg → Nat
  | .id => 0x000
  | .param => 0x004
  | .ctrl => 0x008
  | .status => 0x00C
  | .cptr => 0x010
  | .errCode => 0x014
  | .errPc => 0x018
  | .errInfo => 0x01C
  | .cmdCount => 0x020
  | .inBase => 0x040
  | .inLen => 0x044
  | .descBase => 0x048
  | .outBase => 0x04C
  | .outCount => 0x050
  | .imgCount => 0x080
  | .min a => 0x084 + 4 * a.val
  | .max a => 0x090 + 4 * a.val
  | .scbBase => 0x09C
  | .scbLen => 0x0A0
  | .shcbBase => 0x0A4
  | .shcbLen => 0x0A8
  | .planeBase k => 0x0C0 + 16 * k.val
  | .planeNpix k => 0x0C4 + 16 * k.val
  | .planeCh k => 0x0C8 + 16 * k.val
  | .vLo i => 0x200 + 8 * i.val
  | .vHi i => 0x204 + 8 * i.val

/-- Every register of the block. -/
def MmioReg.all : List MmioReg :=
  [.id, .param, .ctrl, .status, .cptr, .errCode, .errPc, .errInfo, .cmdCount,
   .inBase, .inLen, .descBase, .outBase, .outCount, .imgCount,
   .min 0, .min 1, .min 2, .max 0, .max 1, .max 2, .scbBase, .scbLen, .shcbBase, .shcbLen] ++
  ([0, 1, 2, 3, 4] : List (Fin 5)).flatMap (fun k => [.planeBase k, .planeNpix k, .planeCh k]) ++
  ([0, 1, 2, 3, 4, 5, 6, 7, 8, 9, 10, 11, 12, 13, 14, 15] : List VReg).flatMap (fun i => [.vLo i, .vHi i])

/-- The register at an offset; none for a reserved offset (10_state.md R26). -/
def MmioReg.ofOffset (off : Nat) : Option MmioReg := MmioReg.all.find? fun r => r.offset == off

/-- The low half of a 64-bit register. -/
def lowHalf (x : DWord) : Word := BitVec.ofNat 32 x.toNat

/-- The high half of a 64-bit register. -/
def highHalf (x : DWord) : Word := BitVec.ofNat 32 (x.toNat / 2 ^ 32)

/-- A 64-bit register of two halves. -/
def joinHalves (hi lo : Word) : DWord := BitVec.ofNat 64 (hi.toNat * 2 ^ 32 + lo.toNat)

/-- A value with bits [1:0] cleared, as `CPTR` holds it (10_state.md R24, R31). -/
def clearLow2 (x : Word) : Word := x &&& 0xFFFFFFFC#32

/-- What a host read of a register returns (10_state.md R27 to R45). While BUSY the reads that R47 leaves UNSPECIFIED
are drawn from the set the spec gives (assumption 10): `CPTR` a word with bits [1:0] 0 (R31), a V half any word (R45),
`CMD_COUNT` and `OUT_COUNT` the value before or after the command in progress (R35, R47). -/
def readReg (s : State) : MmioReg → Word
  | .id => 0x4E430100#32
  | .param => BitVec.ofNat 32 Config.params.ememLog2
  | .ctrl => s.ctrlWord
  | .status => s.statusWord
  | .cptr => if s.busy then clearLow2 (Config.freeWord s.draws) else s.cptr
  | .errCode => s.errCode.zeroExtend 32
  | .errPc => s.errPc
  | .errInfo => s.errInfo
  | .cmdCount => if s.busy && Config.freeChoice s.draws then (afterCurrent s).cmdCount else s.cmdCount
  | .inBase => s.inBase
  | .inLen => s.inLen
  | .descBase => s.descBase
  | .outBase => s.outBase
  | .outCount => if s.busy && Config.freeChoice s.draws then (afterCurrent s).outCount else s.outCount
  | .imgCount => s.imgCount
  | .min a => s.mins[a]
  | .max a => s.maxs[a]
  | .scbBase => s.scbBase
  | .scbLen => s.scbLen
  | .shcbBase => s.shcbBase
  | .shcbLen => s.shcbLen
  | .planeBase k => s.planes[k].base
  | .planeNpix k => s.planes[k].npix
  | .planeCh k => s.planes[k].ch
  | .vLo i => if s.busy then Config.freeWord s.draws else lowHalf s.v[i]
  | .vHi i => if s.busy then Config.freeWord s.draws else highHalf s.v[i]

/-- A host read of the block at an offset; a reserved offset reads 0 (10_state.md R26). -/
def mmioRead (s : State) (off : Nat) : Word :=
  match MmioReg.ofOffset off with
  | some r => readReg s r
  | none => 0#32

/-- Change the registers of one plane. -/
def State.setPlane (s : State) (k : Fin 5) (p : Plane) : State := { s with planes := s.planes.set k.val p k.isLt }

/-- The half of a V register that a host write leaves alone: its value, or 32 bits drawn once where nothing has written
the register since reset (10_state.md R45, assumption 11). -/
def State.otherHalf (s : State) (i : VReg) (half : DWord → Word) : Word :=
  if s.vWritten[i] then half s.v[i] else Config.freeWord s.draws

/-- The draws a host write of one half of `V[i]` makes. -/
def State.halfDraws (s : State) (i : VReg) : Nat := if s.vWritten[i] then s.draws else s.draws + 1

/-- A host write of a register while the engine is idle, but for `CTRL` and `STATUS` (10_state.md R31 to R45);
read-only registers ignore it. -/
def writeIdle (s : State) (w : Word) : MmioReg → State
  | .id | .param | .ctrl | .status | .errCode | .errPc | .errInfo | .cmdCount | .outCount => s
  | .cptr => { s with cptr := clearLow2 w }
  | .inBase => { s with inBase := w }
  | .inLen => { s with inLen := w }
  | .descBase => { s with descBase := w }
  | .outBase => { s with outBase := w }
  | .imgCount => { s with imgCount := w }
  | .min a => { s with mins := s.mins.set a.val w a.isLt }
  | .max a => { s with maxs := s.maxs.set a.val w a.isLt }
  | .scbBase => { s with scbBase := w }
  | .scbLen => { s with scbLen := w }
  | .shcbBase => { s with shcbBase := w }
  | .shcbLen => { s with shcbLen := w }
  | .planeBase k => s.setPlane k { s.planes[k] with base := w }
  | .planeNpix k => s.setPlane k { s.planes[k] with npix := w }
  | .planeCh k => s.setPlane k { s.planes[k] with ch := w }
  | .vLo i => { s.setV i (joinHalves (s.otherHalf i highHalf) w) with draws := s.halfDraws i }
  | .vHi i => { s.setV i (joinHalves w (s.otherHalf i lowHalf)) with draws := s.halfDraws i }

/-- A host write of `CTRL` (10_state.md R29, R46): IE always; START only while idle (60_exceptions.md R318). -/
def writeCtrl (s : State) (w : Word) : State :=
  if w.getLsbD 0 && !s.busy then s.start (w.getLsbD 1) else { s with ie := w.getLsbD 1 }

/-- A host write of `STATUS`: writing 1 clears DONE and ERR, at any time (10_state.md R30, R46). -/
def writeStatus (s : State) (w : Word) : State :=
  { s with done := s.done && !w.getLsbD 1, err := s.err && !w.getLsbD 2 }

/-- A host write of a register (10_state.md R46: while BUSY only `CTRL.IE` and the W1C bits of `STATUS` are taken). -/
def writeReg (s : State) (w : Word) (r : MmioReg) : State :=
  if r = .ctrl then writeCtrl s w
  else if r = .status then writeStatus s w
  else if s.busy then s
  else writeIdle s w r

/-- A host write of the block at an offset; a reserved offset ignores it (10_state.md R26). -/
def mmioWrite (s : State) (off : Nat) (w : Word) : State :=
  match MmioReg.ofOffset off with
  | some r => writeReg s w r
  | none => s

/-- What a host address names. -/
inductive HostTarget where
  /-- an offset in the MMIO block -/
  | mmio (off : Nat)
  /-- an engine address of EMEM -/
  | emem (a : Nat)
  /-- nothing of the engine's -/
  | outside
  deriving DecidableEq, Repr

/-- The host address map (10_state.md R26; 20_memory.md R60, R66). -/
def hostTarget (addr : Nat) : HostTarget :=
  if Config.params.nceBase ≤ addr ∧ addr < Config.params.nceBase + 0x1000 then .mmio (addr - Config.params.nceBase)
  else if Config.params.ememHostBase ≤ addr ∧ addr < Config.params.ememHostBase + Config.ememBytes then
    .emem (addr - Config.params.ememHostBase)
  else .outside

/-- A naturally aligned 32-bit access of the MMIO block (10_state.md R26). -/
def mmioFormOk (off size : Nat) : Bool := size == 4 && off % 4 == 0

/-- A naturally aligned access of 1, 2 or 4 bytes of EMEM (20_memory.md R60). -/
def ememFormOk (a size : Nat) : Bool := (size == 1 || size == 2 || size == 4) && a % size == 0

/-- A host read (10_state.md R26; 20_memory.md R60, R74). -/
def hostRead (addr size : Nat) (s : State) : Host.Outcome State Fault Refusal :=
  match hostTarget addr with
  | .mmio off =>
    if mmioFormOk off size then
      .next { s with busData := mmioRead s off, draws := if s.busy then s.draws + 1 else s.draws }
    else .refused (.hostMmioForm off size)
  | .emem a =>
    if ememFormOk a size then
      if s.busy then .refused (.hostEmemBusy a) else .next { s with busData := BitVec.ofNat 32 (s.mem.readLE a size) }
    else .refused (.hostEmemForm a size)
  | .outside => .fault (.hostAddressOutsideWindows addr)

/-- What a host write does to the engine: its effect, or nothing while RESET is asserted, since the state of reset holds
(70_reset_and_hazards.md R340, assumption 26). -/
def State.unlessHeld (s t : State) : State := if s.resetHeld then s else t

/-- A host write (10_state.md R26; 20_memory.md R60, R74). -/
def hostWrite (addr size value : Nat) (s : State) : Host.Outcome State Fault Refusal :=
  match hostTarget addr with
  | .mmio off =>
    if mmioFormOk off size then .next (s.unlessHeld (mmioWrite s off (BitVec.ofNat 32 value)))
    else .refused (.hostMmioForm off size)
  | .emem a =>
    if ememFormOk a size then
      if s.busy then .refused (.hostEmemBusy a)
      else .next (s.unlessHeld { s with mem := s.mem.writeLE a size value })
    else .refused (.hostEmemForm a size)
  | .outside => .fault (.hostAddressOutsideWindows addr)

/-- RESET is asserted (70_reset_and_hazards.md R340, R341): every register takes its reset value; EMEM keeps what was
written, but for the bytes the command in progress had begun to write, which are drawn (assumption 12). The sequencer is
idle and no host write is taken, so the state holds until the release. -/
def applyReset (s : State) : State :=
  { State.reset with
    mem := s.mem.drawBytes (inFlight s).1 s.draws (inFlight s).2
    resetHeld := true
    turns := s.turns
    busData := s.busData
    draws := s.draws + (inFlight s).2 }

/-- One move of the host. -/
def hostStep (op : HostOp) (s : State) : Host.Outcome State Fault Refusal :=
  match op with
  | .read addr size => hostRead addr size s
  | .write addr size value => hostWrite addr size value s
  | .assertReset => .next (applyReset s)
  | .releaseReset => .next { s with resetHeld := false }

/-- The bytes of a command word, stored where the sequencer fetches its next command (nowhere when `cptr` lies beyond
EMEM, where no fetch succeeds), with the run under way and RESET released. -/
def placeFetchWord (s : State) (nbits w : Nat) : State :=
  { s with
    mem := if inEmem s.cptr.toNat 4 then s.mem.writeLE s.cptr.toNat 4 (w % 2 ^ nbits) else s.mem
    busy := true
    resetHeld := false
    turns := [] }

end Sys2Proof.Machine
end

