-- ==== Sys2Proof/Machine/Step.lean ====
section
/-! DEFINITION. One step of the machine: the next turn of the schedule. -/

namespace Sys2Proof.Machine

/-- One step: the host's access or the sequencer's command that the schedule names first; with no turn left the
sequencer moves (10_state.md R20, assumption 7). -/
def step (s : State) : Host.Outcome State Fault Refusal :=
  match s.turns with
  | [] => engineStep s
  | .engine :: rest => engineStep { s with turns := rest }
  | .host op :: rest => hostStep op { s with turns := rest }

/-- `s` with the command of bits `w` where `step` fetches next: stored at `cptr`, the run started (BUSY), RESET
released, the sequencer's turn (assumption 9). -/
def State.withFetchWord (s : State) (nbits w : Nat) : State := placeFetchWord s nbits w

end Sys2Proof.Machine
end

