-- ==== Sys2Proof/Safety.lean ====
section
/-! DEFINITION. The terms in which statements about the machine are made: what a command reads and writes, when a step is
clear of the read that the spec calls a model fault (10_state.md R23), what retiring and failing leave unchanged, and the
invariant of the machine's states. -/

namespace Sys2Proof.Machine

/-! ## Operands -/

/-- The V registers a command reads (30_encoding.md R98, 42_register_memory.md to 46_quaternion.md). -/
def sources : Instr → List VReg
  | .nop | .halt | .li _ _ | .decchk | .decimg => []
  | .mov _ ra | .unpk111011 _ ra | .unpk8888 _ ra | .unorm8 _ ra _ | .invlog _ ra | .logitop _ ra | .invsig _ ra
  | .shdc _ ra | .unpkrot _ ra | .quatst _ ra | .ldw _ ra _ | .ldf _ ra _ | .ldb _ ra _ => [ra]
  | .stw rs ra _ | .stf rs ra _ => [rs, ra]
  | .u16n _ ra rb _ | .cblk _ ra rb _ => [ra, rb]
  | .dequant _ ra rb rc | .dqrange _ ra rb rc => [ra, rb, rc]

/-- The V registers a command writes: `k` of them from `rd` on (30_encoding.md R97). -/
def dests : Instr → List VReg
  | .nop | .halt | .stw _ _ _ | .stf _ _ _ | .decchk | .decimg => []
  | .li rd _ | .mov rd _ | .ldw rd _ _ | .ldf rd _ _ | .ldb rd _ _ | .unorm8 rd _ _ | .u16n rd _ _ _
  | .dequant rd _ _ _ | .dqrange rd _ _ _ | .cblk rd _ _ _ | .invlog rd _ | .logitop rd _ | .invsig rd _ | .shdc rd _ =>
    [rd]
  | .unpk111011 rd _ => [rd, VReg.plus rd 1, VReg.plus rd 2]
  | .unpk8888 rd _ | .unpkrot rd _ | .quatst rd _ => [rd, VReg.plus rd 1, VReg.plus rd 2, VReg.plus rd 3]

/-- Every V register a command reads has been written since reset (10_state.md R23): no run of a correct host depends
on a step that is not so (assumption 1). -/
def readsWritten (i : Instr) (s : State) : Bool := (sources i).all fun r => s.vWritten[r]

/-- A step clear of the read that 10_state.md R23 calls a model fault: the command about to run, if there is one, reads
written registers only. -/
def SafeStep (s : State) : Prop := s.busy = true → ∀ i, fetchInstr s = .ok i → readsWritten i s = true

/-- The commands whose V operands are all read as `.u32`, bits [63:32] ignored (00_scope.md R10, 42_register_memory.md
R160, R166). -/
def readsLowHalves : Instr → Bool
  | .ldw _ _ _ | .ldf _ _ _ | .ldb _ _ _ | .stw _ _ _ | .unpk111011 _ _ | .unpk8888 _ _ | .unorm8 _ _ _ | .u16n _ _ _ _
  | .cblk _ _ _ _ | .unpkrot _ _ | .quatst _ _ => true
  | .nop | .halt | .li _ _ | .mov _ _ | .stf _ _ _ | .dequant _ _ _ _ | .dqrange _ _ _ _ | .invlog _ _ | .logitop _ _
  | .invsig _ _ | .shdc _ _ | .decchk | .decimg => false

/-! ## Illegal words -/

/-- The opcodes of 30_encoding.md R99 (a). -/
def illegalOpcodes : List Nat :=
  [0x00, 0x05, 0x06, 0x07, 0x0B, 0x0E, 0x0F, 0x14, 0x15, 0x16, 0x17, 0x1B, 0x1C, 0x1D, 0x1E, 0x1F, 0x24, 0x25, 0x26,
   0x27, 0x2A, 0x2B, 0x2C, 0x2D, 0x2E, 0x2F, 0x32, 0x33, 0x34, 0x35, 0x36, 0x37, 0x38, 0x39, 0x3A, 0x3B, 0x3C, 0x3D,
   0x3E, 0x3F]

/-- The illegal words of 30_encoding.md R99, from the rule's words and the columns of R98: an opcode of (a), a
required-zero field that is not zero, destinations beyond `V[15]`. -/
def illegalWord (w : Nat) : Bool :=
  let op := bits w 31 26
  illegalOpcodes.contains op
  || ([0x01, 0x02, 0x30, 0x31].contains op && bits w 25 0 != 0)
  || ([0x04, 0x10, 0x11, 0x20, 0x21, 0x22, 0x23, 0x28, 0x29].contains op && bits w 17 0 != 0)
  || (op == 0x12 && (bits w 17 10 != 0 || bits w 7 0 != 0))
  || ([0x13, 0x1A].contains op && (bits w 13 10 != 0 || bits w 7 0 != 0))
  || ([0x18, 0x19].contains op && bits w 9 0 != 0)
  || (op == 0x10 && decide (13 < bits w 25 22))
  || ([0x11, 0x28, 0x29].contains op && decide (12 < bits w 25 22))

/-- The codes of the errors a command can raise after decode (60_exceptions.md R302). -/
def errorsOf : Instr → List (BitVec 8)
  | .ldw _ _ _ | .ldf _ _ _ | .stw _ _ _ | .stf _ _ _ | .cblk _ _ _ _ => [9#8, 7#8]
  | .ldb _ _ _ => [7#8]
  | .decchk => [9#8, 7#8, 1#8, 2#8, 3#8, 4#8]
  | .decimg => [9#8, 5#8, 6#8, 7#8]
  | .nop | .halt | .li _ _ | .mov _ _ | .unpk111011 _ _ | .unpk8888 _ _ | .unorm8 _ _ _ | .u16n _ _ _ _
  | .dequant _ _ _ _ | .dqrange _ _ _ _ | .invlog _ _ | .logitop _ _ | .invsig _ _ | .shdc _ _ | .unpkrot _ _
  | .quatst _ _ => []

/-! ## The register block -/

/-- The registers a host write sets while the engine is idle, `CTRL` and `STATUS` apart (10_state.md R26, column
access). -/
def MmioReg.isRw : MmioReg → Bool
  | .cptr | .inBase | .inLen | .descBase | .outBase | .imgCount | .min _ | .max _ | .scbBase | .scbLen | .shcbBase
  | .shcbLen | .planeBase _ | .planeNpix _ | .planeCh _ | .vLo _ | .vHi _ => true
  | .id | .param | .ctrl | .status | .errCode | .errPc | .errInfo | .cmdCount | .outCount => false

/-- The registers that ignore every host write (10_state.md R26, column access). -/
def MmioReg.isRo : MmioReg → Bool
  | .id | .param | .errCode | .errPc | .errInfo | .cmdCount | .outCount => true
  | .ctrl | .status | .cptr | .inBase | .inLen | .descBase | .outBase | .imgCount | .min _ | .max _ | .scbBase | .scbLen
  | .shcbBase | .shcbLen | .planeBase _ | .planeNpix _ | .planeCh _ | .vLo _ | .vHi _ => false

/-- The values of the table of 70_reset_and_hazards.md R340 that the spec gives. -/
structure ResetValues (t : State) : Prop where
  ctrl : t.ie = false
  status : t.busy = false ∧ t.done = false ∧ t.err = false
  cptr : t.cptr = 0#32
  errors : t.errCode = 0#8 ∧ t.errPc = 0#32 ∧ t.errInfo = 0#32
  cmdCount : t.cmdCount = 0#32
  frame : t.inBase = 0#32 ∧ t.inLen = 0#32 ∧ t.descBase = 0#32 ∧ t.outBase = 0#32
  outCount : t.outCount = 0#32
  imgCount : t.imgCount = 0#32
  bounds : ∀ a : Fin 3, t.mins[a] = 0#32 ∧ t.maxs[a] = 0#32
  codebooks : t.scbBase = 0#32 ∧ t.scbLen = 0#32 ∧ t.shcbBase = 0#32 ∧ t.shcbLen = 0#32
  planes : ∀ k : Fin 5, t.planes[k].base = 0#32 ∧ t.planes[k].npix = 0#32 ∧ t.planes[k].ch = 0#32
  vWritten : ∀ i : VReg, t.vWritten[i] = false
  irq : t.irq = false

/-! ## What a command leaves unchanged -/

/-- The registers that no command writes: the interrupt enable, the configuration registers, and the model's own
fields. -/
structure SameRest (s t : State) : Prop where
  ie : t.ie = s.ie
  inBase : t.inBase = s.inBase
  inLen : t.inLen = s.inLen
  descBase : t.descBase = s.descBase
  outBase : t.outBase = s.outBase
  imgCount : t.imgCount = s.imgCount
  mins : t.mins = s.mins
  maxs : t.maxs = s.maxs
  scbBase : t.scbBase = s.scbBase
  scbLen : t.scbLen = s.scbLen
  shcbBase : t.shcbBase = s.shcbBase
  shcbLen : t.shcbLen = s.shcbLen
  planes : t.planes = s.planes
  resetHeld : t.resetHeld = s.resetHeld
  turns : t.turns = s.turns
  busData : t.busData = s.busData
  draws : t.draws = s.draws

/-- The error registers are as they were. -/
structure SameErr (s t : State) : Prop where
  err : t.err = s.err
  errCode : t.errCode = s.errCode
  errPc : t.errPc = s.errPc
  errInfo : t.errInfo = s.errInfo

/-- A command retired (41_sequencing.md R153) and the run goes on: the counters advance, the status and error registers
and every register no command writes are as they were. `OUT_COUNT`, the V file and EMEM are said beside it. -/
structure Retired (s t : State) : Prop where
  cptr : t.cptr = s.cptr + 4#32
  cmdCount : t.cmdCount = s.cmdCount + 1#32
  busy : t.busy = s.busy
  done : t.done = s.done
  errs : SameErr s t
  rest : SameRest s t

/-- Every V register outside `ds` is as it was. -/
def SameVBut (ds : List VReg) (s t : State) : Prop :=
  ∀ j : VReg, j ∉ ds → t.v[j] = s.v[j] ∧ t.vWritten[j] = s.vWritten[j]

/-- Every byte of EMEM outside the region `r` (address, length) reads as it did. -/
def SameMemBut (r : Nat × Nat) (s t : State) : Prop :=
  ∀ a, a < r.1 ∨ r.1 + r.2 ≤ a → t.mem.byte a = s.mem.byte a

/-- Every byte of EMEM reads as it did. -/
def SameMem (s t : State) : Prop := ∀ a, t.mem.byte a = s.mem.byte a

/-- A command without output retired, writing the V registers `ds` only: EMEM and `OUT_COUNT` are as they were. -/
structure WroteV (ds : List VReg) (s t : State) : Prop where
  retired : Retired s t
  v : SameVBut ds s t
  written : ∀ d ∈ ds, t.vWritten[d] = true
  mem : SameMem s t
  outCount : t.outCount = s.outCount

/-- Error entry (60_exceptions.md R303), whole: what is written, and that nothing else changes. `isFrame` says whether
the command is a frame command. -/
structure Errored (isFrame : Bool) (e : NceError) (s t : State) : Prop where
  errCode : t.errCode = e.code
  errInfo : t.errInfo = e.info
  errPc : t.errPc = s.cptr
  outCount : t.outCount = if isFrame then 0#32 else s.outCount
  err : t.err = true
  busy : t.busy = false
  done : t.done = s.done
  cptr : t.cptr = s.cptr
  cmdCount : t.cmdCount = s.cmdCount
  v : SameVBut [] s t
  mem : SameMem s t
  rest : SameRest s t

/-! ## The invariant -/

/-- What holds of every state the machine reaches. -/
structure Inv (s : State) : Prop where
  /-- EMEM keeps its canonical form -/
  memWf : s.mem.wf = true
  /-- no byte is listed outside EMEM (20_memory.md R60) -/
  memIn : ∀ c ∈ s.mem, c.1 < Config.ememBytes
  /-- `cptr[1:0]` is 0 (10_state.md R24) -/
  cptrAligned : s.cptr.toNat % 4 = 0
  /-- at most one of BUSY, DONE, ERR (10_state.md R30) -/
  busyClean : s.busy = true → s.done = false ∧ s.err = false ∧ s.errCode = 0#8
  doneNoErr : s.done = true → s.err = false ∧ s.errCode = 0#8
  /-- a set ERR has its code (60_exceptions.md R303) -/
  errHasCode : s.err = true → s.errCode ≠ 0#8
  /-- `ERR_PC` and `ERR_INFO` are 0 when the run has raised no error (10_state.md R33, R34) -/
  noCodeNoInfo : s.errCode = 0#8 → s.errPc = 0#32 ∧ s.errInfo = 0#32
  /-- codes 10 to 255 are never written (60_exceptions.md R300) -/
  codeRange : s.errCode.toNat ≤ 9
  /-- the failing command's address is a command address -/
  errPcAligned : s.errPc.toNat % 4 = 0
  /-- while RESET is asserted the state of reset holds (70_reset_and_hazards.md R340) -/
  heldReset : s.resetHeld = true → ResetValues s

end Sys2Proof.Machine
end

