-- ==== Sys2Proof/Descriptor.lean ====
section
/-! DEFINITION. The layout descriptor and the element data of a chunked frame, read off EMEM word by word as
47_frame_chunked.md R221 to R226 lay them out, and the conditions of R228 to R233 on them. Written from those rules alone:
nothing here uses the parser of Machine/Chunked.lean, so that statements can hold the parser against it. -/

namespace Sys2Proof.Machine

/-! ## The descriptor -/

/-- `NELEM` (47_frame_chunked.md R221). -/
def Desc.nelem (s : State) : Nat := s.mem.readLE (s.descBase.toNat + 4) 4

/-- The address of element record `e`; of `e = NELEM`, the descriptor's end (47_frame_chunked.md R221, R222). -/
def Desc.addr (s : State) : Nat → Nat
  | 0 => s.descBase.toNat + 8
  | e + 1 => Desc.addr s e + 8 + 4 * (s.mem.readLE (Desc.addr s e) 4 / 2 ^ 16)

/-- `NPROP` of element `e`, bits [31:16] of `E0` (47_frame_chunked.md R222). -/
def Desc.nprop (s : State) (e : Nat) : Nat := s.mem.readLE (Desc.addr s e) 4 / 2 ^ 16

/-- `KIND` of element `e`, bits [7:0] of `E0`: 1 chunk, 2 vertex (47_frame_chunked.md R222, R226). -/
def Desc.kind (s : State) (e : Nat) : Nat := s.mem.readLE (Desc.addr s e) 4 % 2 ^ 8

/-- `COUNT` of element `e` (47_frame_chunked.md R222). -/
def Desc.count (s : State) (e : Nat) : Nat := s.mem.readLE (Desc.addr s e + 4) 4

/-- The address of property word `p` of element `e` (47_frame_chunked.md R222). -/
def Desc.propAddr (s : State) (e p : Nat) : Nat := Desc.addr s e + 8 + 4 * p

/-- `TYPE`, bits [7:0] of a property word (47_frame_chunked.md R223). -/
def Desc.type (s : State) (e p : Nat) : Nat := s.mem.readLE (Desc.propAddr s e p) 4 % 2 ^ 8

/-- `FIELD`, bits [15:8] of a property word (47_frame_chunked.md R223). -/
def Desc.field (s : State) (e p : Nat) : Nat := s.mem.readLE (Desc.propAddr s e p) 4 / 2 ^ 8 % 2 ^ 8

/-- `LIST`, bit [16] of a property word (47_frame_chunked.md R223). -/
def Desc.list (s : State) (e p : Nat) : Nat := s.mem.readLE (Desc.propAddr s e p) 4 / 2 ^ 16 % 2

/-- `width(TYPE)` of the types 1 to 8 (47_frame_chunked.md R224). -/
def Desc.width (t : Nat) : Nat := [0, 1, 1, 2, 2, 4, 4, 4, 8].getD t 0

/-- The offset of property `p` in a row of element `e`: the widths before it (47_frame_chunked.md R224). -/
def Desc.offset (s : State) (e : Nat) : Nat → Nat
  | 0 => 0
  | p + 1 => Desc.offset s e p + Desc.width (Desc.type s e p)

/-- The stride of element `e`: the widths of all its properties (47_frame_chunked.md R224). -/
def Desc.stride (s : State) (e : Nat) : Nat := Desc.offset s e (Desc.nprop s e)

/-- The offset of the rows of element `e` in the element data: the sizes of the elements before it
(47_frame_chunked.md R231). -/
def Desc.data (s : State) : Nat → Nat
  | 0 => 0
  | e + 1 => Desc.data s e + Desc.count s e * Desc.stride s e

/-- The end of the rows of element `e` in the element data. -/
def Desc.dataEnd (s : State) (e : Nat) : Nat := Desc.data s e + Desc.count s e * Desc.stride s e

/-- The address of row `r` of element `e` (47_frame_chunked.md R234). -/
def Desc.row (s : State) (e r : Nat) : Nat := s.inBase.toNat + Desc.data s e + r * Desc.stride s e

/-! ## The checks -/

/-- A scalar property of a known type (47_frame_chunked.md R229). -/
abbrev Desc.PropOk (s : State) (e p : Nat) : Prop :=
  Desc.list s e p = 0 ∧ 1 ≤ Desc.type s e p ∧ Desc.type s e p ≤ 8

/-- Every property of element `e` is one (47_frame_chunked.md R229). -/
abbrev Desc.ElemOk (s : State) (e : Nat) : Prop := ∀ p, p < Desc.nprop s e → Desc.PropOk s e p

/-- The register and header checks of 47_frame_chunked.md R228 pass. -/
structure Desc.RegsOk (s : State) : Prop where
  descAligned : s.descBase.toNat % 4 = 0
  outAligned : s.outBase.toNat % 4 = 0
  input : s.inBase.toNat + s.inLen.toNat ≤ Config.ememBytes
  header : s.mem.readLE s.descBase.toNat 4 % 2 ^ 24 = 0x000101
  fits : s.descBase.toNat + 8 ≤ Config.ememBytes

/-- The descriptor walk has come to element record `e` without an error (47_frame_chunked.md R229). -/
structure Desc.Reached (s : State) (e : Nat) : Prop where
  regs : Desc.RegsOk s
  fits : Desc.addr s e ≤ Config.ememBytes
  elems : ∀ j, j < e → Desc.ElemOk s j

/-- Element `e` is the only one of its kind `k` (47_frame_chunked.md R230). -/
abbrev Desc.Only (s : State) (k e : Nat) : Prop :=
  e < Desc.nelem s ∧ Desc.kind s e = k ∧ ∀ j, j < Desc.nelem s → Desc.kind s j = k → j = e

/-- Element `e2` is the second one of kind `k` (47_frame_chunked.md R230). -/
abbrev Desc.Second (s : State) (k e2 : Nat) : Prop :=
  e2 < Desc.nelem s ∧ Desc.kind s e2 = k ∧
    ∃ e1, e1 < e2 ∧ Desc.kind s e1 = k ∧ ∀ j, j < e2 → Desc.kind s j = k → j = e1

/-- Property `p` of element `e` declares a field of the range `lo .. hi` again (47_frame_chunked.md R230). -/
abbrev Desc.Again (s : State) (e lo hi p : Nat) : Prop :=
  lo ≤ Desc.field s e p ∧ Desc.field s e p ≤ hi ∧ ∃ q, q < p ∧ Desc.field s e q = Desc.field s e p

/-- No field of the range is declared twice (47_frame_chunked.md R230). -/
abbrev Desc.NoneAgain (s : State) (e lo hi : Nat) : Prop := ∀ p, p < Desc.nprop s e → ¬ Desc.Again s e lo hi p

/-- Element `e` has the field `f` (47_frame_chunked.md R230). -/
abbrev Desc.Has (s : State) (e f : Nat) : Prop := ∃ p, p < Desc.nprop s e ∧ Desc.field s e p = f

/-- Element `e` has the field `f`, of type `t` (47_frame_chunked.md R230). -/
abbrev Desc.HasTyped (s : State) (e f t : Nat) : Prop :=
  ∃ p, p < Desc.nprop s e ∧ Desc.field s e p = f ∧ Desc.type s e p = t

/-- The fields `lo .. hi - 1` are there, of type `t`. -/
abbrev Desc.AllTyped (s : State) (e lo hi t : Nat) : Prop := ∀ g, g < hi → lo ≤ g → Desc.HasTyped s e g t

/-- The colour fields `13 .. hi - 1` are there (47_frame_chunked.md R230). -/
abbrev Desc.AllHad (s : State) (e lo hi : Nat) : Prop := ∀ g, g < hi → lo ≤ g → Desc.Has s e g

/-- The chunk element meets 47_frame_chunked.md R230: no field of 1 to 18 twice, the twelve bounds as float32, and the six
colour bounds as float32 or none of them. -/
abbrev Desc.ChunkOk (s : State) (c : Nat) : Prop :=
  Desc.NoneAgain s c 1 18 ∧ Desc.AllTyped s c 1 13 7 ∧
    ((∀ f, f < 19 → 13 ≤ f → ¬ Desc.Has s c f) ∨ Desc.AllTyped s c 13 19 7)

/-- The vertex element meets 47_frame_chunked.md R230: no field of 32 to 35 twice, all four there as uint32. -/
abbrev Desc.VertexOk (s : State) (v : Nat) : Prop := Desc.NoneAgain s v 32 35 ∧ Desc.AllTyped s v 32 36 6

/-- The checks of 47_frame_chunked.md R228 to R230 pass, with chunk element `c` and vertex element `v`. -/
structure Desc.SchemaOk (s : State) (c v : Nat) : Prop where
  walked : Desc.Reached s (Desc.nelem s)
  chunk : Desc.Only s 1 c
  vertex : Desc.Only s 2 v
  chunkOk : Desc.ChunkOk s c
  vertexOk : Desc.VertexOk s v

/-- The output region is clear of `n` bytes at `a` (47_frame_chunked.md R233). -/
abbrev Desc.OutClear (s : State) (v a n : Nat) : Prop :=
  s.outBase.toNat + 56 * Desc.count s v ≤ a ∨ a + n ≤ s.outBase.toNat

/-- Every check of `DECCHK` passes (47_frame_chunked.md R228 to R233), with chunk element `c` and vertex element `v`. -/
structure Desc.Frame (s : State) (c v : Nat) : Prop where
  schema : Desc.SchemaOk s c v
  chunkRows : Desc.dataEnd s c ≤ s.inLen.toNat
  vertexRows : Desc.dataEnd s v ≤ s.inLen.toNat
  range : Desc.count s v ≤ 256 * Desc.count s c
  output : s.outBase.toNat + 56 * Desc.count s v ≤ Config.ememBytes
  clearInput : 0 < Desc.count s v → Desc.OutClear s v s.inBase.toNat s.inLen.toNat
  clearDesc : 0 < Desc.count s v → Desc.OutClear s v s.descBase.toNat (Desc.addr s (Desc.nelem s) - s.descBase.toNat)

end Sys2Proof.Machine
end

