-- ==== Sys2Proof/Certificates/Slice0/Obligations.lean ====
section
/-! DEFINITION. The statements for the provers. -/

open Sys2Proof Sys2Proof.Machine

/-! ## Encoding -/

/-- Decoding the word of a well-formed command gives the command back, as a word and at the head of any byte stream, of
which the decoder consumes 4 bytes (30_encoding.md R90 to R98, R101). -/
def Obligations.DecodeOfEncode : Prop :=
  ∀ i : Instr, i.wellFormed = true →
    decodeWord (encode i) = .ok i ∧ ∀ rest, decodeBytes (toBytesLE 4 (encode i) ++ rest) = .ok (i, rest)

/-- Every 32-bit word that decodes is the word of the command it decodes to, which is well formed: no two words share a
command and no bit is ignored (30_encoding.md R98, R99, R100). -/
def Obligations.EncodeOfDecode : Prop :=
  ∀ (w : Nat) (i : Instr), w < 2 ^ 32 → decodeWord w = .ok i → i.wellFormed = true ∧ encode i = w

/-- A 32-bit word decodes exactly when it is not illegal by (a), (b), (c) of 30_encoding.md R99; the all-zero word is
illegal; an illegal word at `cptr` raises `IllegalCommand(w)` and changes nothing else (41_sequencing.md R152). That
`OUT_COUNT` keeps its value also when the opcode bits are those of a frame command is the model's reading (assumption
19). -/
def Obligations.IllegalWords : Prop :=
  (∀ w, w < 2 ^ 32 → ((∃ i, decodeWord w = .ok i) ↔ illegalWord w = false)) ∧
  illegalWord 0 = true ∧
  ∀ (s : State) (w : Nat), s.turns = [] → s.busy = true → fetch s = .ok w → illegalWord w = true →
    ∃ t, step s = .next t ∧ Errored false (.illegal w) s t

/-- Words of the spec's examples decode to the commands they stand for (42_register_memory.md R161 to R167,
43_bitfield_unpack.md, 44_dequant.md R192, 41_sequencing.md R154, R155, 47_frame_chunked.md R227, 48_frame_image.md
R260). -/
def Obligations.DecodeExamples : Prop :=
  decodeWord 0x04000000 = .ok .nop ∧ decodeWord 0x08000000 = .ok .halt ∧
  decodeWord 0x0C001000 = .ok (.li 0 0x1000#22) ∧ decodeWord 0x110C0000 = .ok (.mov 4 3) ∧
  decodeWord 0x20400000 = .ok (.ldw 1 0 0#18) ∧ decodeWord 0x25400004 = .ok (.ldf 5 0 4#18) ∧
  decodeWord 0x35C00100 = .ok (.stf 7 0 0x100#18) ∧ decodeWord 0x6A068100 = .ok (.cblk 8 1 10 1) ∧
  decodeWord 0xC0000000 = .ok .decchk ∧ decodeWord 0xC4000000 = .ok .decimg

/-! ## The sequencer -/

/-- When it is the sequencer's turn, the engine is busy and the word at `cptr` lies in EMEM and decodes to `i`, a step
is `exec i`; the turn, if one was scheduled, is used up. While the engine is idle a step of the sequencer changes nothing
(60_exceptions.md R317; that an idle turn is a step that stutters is the model's choice, assumption 13). -/
def Obligations.StepRunsDecoded : Prop :=
  (∀ (s : State) (i : Instr), s.turns = [] → s.busy = true → s.cptr.toNat + 4 ≤ Config.ememBytes →
    decodeWord (s.mem.readLE s.cptr.toNat 4) = .ok i → step s = exec i s) ∧
  (∀ (s : State) (i : Instr) (rest : List Turn), s.turns = .engine :: rest → s.busy = true →
    s.cptr.toNat + 4 ≤ Config.ememBytes → decodeWord (s.mem.readLE s.cptr.toNat 4) = .ok i →
    step s = exec i { s with turns := rest }) ∧
  ∀ s : State, s.turns = [] → s.busy = false → step s = .next s

/-- The fetch: beyond EMEM it raises `IOError(1)` with `ERR_PC = cptr`; else it reads the little-endian word at `cptr`,
byte by byte, from EMEM as it stands (41_sequencing.md R151). -/
def Obligations.FetchReadsEmem : Prop :=
  (∀ s : State, s.turns = [] → s.busy = true → Config.ememBytes < s.cptr.toNat + 4 →
    ∃ t, step s = .next t ∧ Errored false (.io 1) s t ∧ t.errPc = s.cptr) ∧
  ∀ s : State, s.cptr.toNat + 4 ≤ Config.ememBytes →
    fetch s = .ok ((s.mem.byte s.cptr.toNat).toNat + 2 ^ 8 * (s.mem.byte (s.cptr.toNat + 1)).toNat
      + 2 ^ 16 * (s.mem.byte (s.cptr.toNat + 2)).toNat + 2 ^ 24 * (s.mem.byte (s.cptr.toNat + 3)).toNat)

/-- Every command answers a next state in every state: it retires (41_sequencing.md R153: `CMD_COUNT` and `cptr` advance,
and for `HALT` only the run ends), or it raises an error and does not retire (60_exceptions.md R303). -/
def Obligations.RetiresOrRaises : Prop :=
  ∀ (i : Instr) (s : State), ∃ t, exec i s = .next t ∧
    ((t.cmdCount = s.cmdCount + 1#32 ∧ t.cptr = s.cptr + 4#32 ∧ SameErr s t ∧ SameRest s t ∧
        (if i = .halt then t.busy = false ∧ t.done = true else t.busy = s.busy ∧ t.done = s.done)) ∨
      ∃ e, Errored i.isFrame e s t)

/-- Which commands raise which errors (60_exceptions.md R302): the fetch `IOError(1)`, decoding `IllegalCommand`, a
decoded command only the errors of its kind. -/
def Obligations.ErrorsByCommand : Prop :=
  (∀ (s : State) (e : NceError), fetch s = .error e → e = .io 1) ∧
  (∀ (w : Nat) (e : NceError), decodeFetched w = .error e → e = .illegal w) ∧
  ∀ (i : Instr) (s t : State), i.wellFormed = true → s.err = false → exec i s = .next t → t.err = true →
    t.errCode ∈ errorsOf i

/-- The codes of 60_exceptions.md R300 and the information formats of R301. -/
def Obligations.ErrorNumbers : Prop :=
  (∀ h, (NceError.format h).code = 1#8 ∧ (NceError.format h).info = BitVec.ofNat 32 h) ∧
  (∀ r d e, (NceError.schema r d e).code = 2#8 ∧ (r < 256 → d < 256 →
    (NceError.schema r d e).info.extractLsb' 0 8 = BitVec.ofNat 8 r ∧
    (NceError.schema r d e).info.extractLsb' 8 8 = BitVec.ofNat 8 d ∧
    (NceError.schema r d e).info.extractLsb' 16 16 = BitVec.ofNat 16 e)) ∧
  (∀ e, (NceError.truncated e).code = 3#8 ∧ (NceError.truncated e).info = BitVec.ofNat 32 e) ∧
  (∀ v, (NceError.range v).code = 4#8 ∧ (NceError.range v).info = BitVec.ofNat 32 v) ∧
  (∀ r, (NceError.manifest r).code = 5#8 ∧ (NceError.manifest r).info = BitVec.ofNat 32 r) ∧
  (∀ k r, (NceError.image k r).code = 6#8 ∧ (k < 256 → r < 256 →
    (NceError.image k r).info.extractLsb' 0 8 = BitVec.ofNat 8 k ∧
    (NceError.image k r).info.extractLsb' 8 8 = BitVec.ofNat 8 r ∧
    (NceError.image k r).info.extractLsb' 16 16 = 0#16)) ∧
  (∀ r, (NceError.io r).code = 7#8 ∧ (NceError.io r).info = BitVec.ofNat 32 r) ∧
  (∀ w, (NceError.illegal w).code = 8#8 ∧ (NceError.illegal w).info = BitVec.ofNat 32 w) ∧
  ∀ a, (NceError.alignment a).code = 9#8 ∧ (NceError.alignment a).info = BitVec.ofNat 32 a

/-- The frame of every command: no configuration register and no interrupt enable changes; no V register changes but the
command's destinations; no byte of EMEM changes outside the bytes the command stores to; only a frame command changes
`OUT_COUNT` (10_state.md R23, R40, R46; 20_memory.md R65; 60_exceptions.md R303). -/
def Obligations.CommandFrame : Prop :=
  ∀ (i : Instr) (s t : State), s.mem.wf = true → exec i s = .next t →
    SameRest s t ∧ SameVBut (dests i) s t ∧ SameMemBut (storeRegion i s) s t ∧
    (i.isFrame = false → t.outCount = s.outCount)

/-- From every state of the invariant in which the engine is busy and the host does not interfere, the run ends within
`P_EMEM_BYTES / 4 + 1` steps: by `HALT` (`DONE` 1, `ERR` 0) or by an error (`ERR` 1, `DONE` 0), with `BUSY` 0
(41_sequencing.md R157). -/
def Obligations.EveryRunEnds : Prop :=
  ∀ s : State, Inv s → s.busy = true → s.turns = [] →
    ∃ k t, k ≤ Config.ememBytes / 4 + 1 ∧ Host.Core.run Sys2Proof.core k s = .next t ∧ t.busy = false ∧
      ((t.done = true ∧ t.err = false) ∨ (t.err = true ∧ t.done = false))

/-- Every step, of the sequencer or of the host, keeps the invariant: EMEM canonical and inside its size, `cptr[1:0]` 0,
at most one of BUSY, DONE and ERR, the error registers consistent with ERR, no code above 9, and while RESET is asserted the
values of reset (10_state.md R24, R30, R32 to R34; 60_exceptions.md R300, R303, R308; 70_reset_and_hazards.md R340). -/
def Obligations.StepKeepsInvariant : Prop :=
  ∀ s t : State, Inv s → step s = .next t → Inv t

/-- The invariant holds right after reset. -/
def Obligations.ResetHasInvariant : Prop := Inv State.reset

/-- Right after reset, and when RESET is asserted at any time, every register the spec gives a reset value holds it, `IRQ`
is 0, and `ID` and `PARAM` read their constants; while RESET stays asserted the state holds, whatever the sequencer's turn
or a host read or write, START included, brings (that a host write of EMEM is not taken either is the model's choice,
assumption 26); the release changes nothing else and leaves the engine idle (70_reset_and_hazards.md R340). -/
def Obligations.ResetGivesR340 : Prop :=
  (ResetValues State.reset ∧ State.reset.resetHeld = false) ∧
  (∀ (s : State) (rest : List Turn), s.turns = .host .assertReset :: rest →
    ∃ t, step s = .next t ∧ ResetValues t ∧ t.resetHeld = true ∧ readReg t .id = 0x4E430100#32 ∧
      readReg t .param = BitVec.ofNat 32 Config.params.ememLog2) ∧
  (∀ (s : State) (rest : List Turn), Inv s → s.resetHeld = true →
    (s.turns = [] → step s = .next s) ∧
    (s.turns = .engine :: rest → step s = .next { s with turns := rest }) ∧
    (∀ off x, off < 0x1000 → off % 4 = 0 → s.turns = .host (.write (Config.params.nceBase + off) 4 x) :: rest →
      step s = .next { s with turns := rest }) ∧
    (∀ off, off < 0x1000 → off % 4 = 0 → s.turns = .host (.read (Config.params.nceBase + off) 4) :: rest →
      step s = .next { s with turns := rest, busData := mmioRead s off }) ∧
    (∀ a n x, (n = 1 ∨ n = 2 ∨ n = 4) → a % n = 0 → a + n ≤ Config.ememBytes →
      s.turns = .host (.write (Config.params.ememHostBase + a) n x) :: rest → step s = .next { s with turns := rest })) ∧
  ∀ (s : State) (rest : List Turn), Inv s → s.resetHeld = true → s.turns = .host .releaseReset :: rest →
    ∃ t, step s = .next t ∧ t = { s with resetHeld := false, turns := rest } ∧ ResetValues t ∧
      step { t with turns := [] } = .next { t with turns := [] }

/-- RESET while busy abandons the run: no error is recorded, and EMEM keeps every byte outside the bytes the command in
progress stores to (70_reset_and_hazards.md R341). While idle no byte changes (the model's choice, assumption 12). -/
def Obligations.ResetAbandonsRun : Prop :=
  ∀ (s : State) (rest : List Turn), s.mem.wf = true → s.turns = .host .assertReset :: rest →
    ∃ t, step s = .next t ∧ t.busy = false ∧ t.err = false ∧ t.errCode = 0#8 ∧ t.done = false ∧
      (s.busy = true → ∀ i, fetchInstr s = .ok i → SameMemBut (storeRegion i s) s t) ∧
      (s.busy = true → ∀ e, fetchInstr s = .error e → SameMem s t) ∧
      (s.busy = false → SameMem s t)

/-! ## Sequencing, register and memory commands -/

/-- `NOP` (41_sequencing.md R154): the word `0x04000000` exactly; it retires and changes nothing else. -/
def Obligations.NopRetires : Prop :=
  decodeWord 0x04000000 = .ok .nop ∧
  (∀ w, w < 2 ^ 32 → bits w 31 26 = 0x01 → w ≠ 0x04000000 → illegalWord w = true) ∧
  ∀ s : State, ∃ t, exec .nop s = .next t ∧ WroteV [] s t

/-- `HALT` (41_sequencing.md R155): the word `0x08000000` exactly; it retires, then the run ends; nothing else changes;
at the last word of EMEM it leaves `cptr` at the end of EMEM, where the next run fails at its fetch. -/
def Obligations.HaltEndsRun : Prop :=
  decodeWord 0x08000000 = .ok .halt ∧
  (∀ w, w < 2 ^ 32 → bits w 31 26 = 0x02 → w ≠ 0x08000000 → illegalWord w = true) ∧
  ∀ s : State, ∃ t, exec .halt s = .next t ∧ t.cmdCount = s.cmdCount + 1#32 ∧ t.cptr = s.cptr + 4#32 ∧
    t.busy = false ∧ t.done = true ∧ t.irq = (s.ie && true) ∧ SameErr s t ∧ SameRest s t ∧ SameVBut [] s t ∧ SameMem s t ∧
    t.outCount = s.outCount ∧
    (s.cptr = 0#32 → s.cmdCount = 0#32 → s.err = false →
      t.statusWord = 2#32 ∧ t.cptr = 4#32 ∧ t.cmdCount = 1#32) ∧
    (s.cptr.toNat + 4 = Config.ememBytes → t.cptr.toNat = Config.ememBytes ∧
      ∀ ie, ∃ u, engineStep (t.start ie) = .next u ∧ Errored false (.io 1) (t.start ie) u)

/-- `LI Vd, imm` (42_register_memory.md R161): every format I word with opcode 0x03 is legal; the immediate is
zero-extended to 64 bits and not canonicalised. -/
def Obligations.LiLoadsImmediate : Prop :=
  (∀ w, w < 2 ^ 32 → bits w 31 26 = 0x03 →
    decodeWord w = .ok (.li (Fin.ofNat 16 (bits w 25 22)) (BitVec.ofNat 22 (bits w 21 0)))) ∧
  decodeWord 0x0C001000 = .ok (.li 0 0x1000#22) ∧
  ∀ (rd : VReg) (imm : BitVec 22) (s : State), ∃ t, exec (.li rd imm) s = .next t ∧ WroteV [rd] s t ∧
    t.v[rd] = imm.zeroExtend 64

/-- `MOV Vd, Va` (42_register_memory.md R162): all 64 bits are copied, a NaN pattern too; a nonzero required-zero field
makes the word illegal. -/
def Obligations.MovCopies : Prop :=
  (∀ w, w < 2 ^ 32 → bits w 31 26 = 0x04 → bits w 17 0 = 0 →
    decodeWord w = .ok (.mov (Fin.ofNat 16 (bits w 25 22)) (Fin.ofNat 16 (bits w 21 18)))) ∧
  (∀ w, w < 2 ^ 32 → bits w 31 26 = 0x04 → bits w 17 0 ≠ 0 → illegalWord w = true) ∧
  decodeWord 0x110C0000 = .ok (.mov 4 3) ∧
  ∀ (rd ra : VReg) (s : State), ∃ t, exec (.mov rd ra) s = .next t ∧ WroteV [rd] s t ∧ t.v[rd] = s.v[ra]

/-- The effective address of a format M command: base bits [31:0] plus the sign-extended offset, modulo 2^32
(42_register_memory.md R160, 30_encoding.md R96). -/
def Obligations.EffectiveAddress : Prop :=
  ∀ (s : State) (ra : VReg) (off : BitVec 18),
    ((s.effAddr ra off : Nat) : Int) = (((s.v[ra].toNat % 2 ^ 32 : Nat) : Int) + off.toInt) % 2 ^ 32

/-- `LDW Vd, off(Va)` (42_register_memory.md R163): alignment before bounds, then the little-endian word, zero-extended;
on either error nothing is loaded. -/
def Obligations.LdwLoadsWord : Prop :=
  (∀ w, w < 2 ^ 32 → bits w 31 26 = 0x08 → decodeWord w =
    .ok (.ldw (Fin.ofNat 16 (bits w 25 22)) (Fin.ofNat 16 (bits w 21 18)) (BitVec.ofNat 18 (bits w 17 0)))) ∧
  decodeWord 0x20400000 = .ok (.ldw 1 0 0#18) ∧
  ∀ (rd ra : VReg) (off : BitVec 18) (s : State) (ea : Nat),
    (ea : Int) = (((s.v[ra].toNat % 2 ^ 32 : Nat) : Int) + off.toInt) % 2 ^ 32 →
    (ea % 4 ≠ 0 → ∃ t, exec (.ldw rd ra off) s = .next t ∧ Errored false (.alignment ea) s t) ∧
    (ea % 4 = 0 → Config.ememBytes < ea + 4 → ∃ t, exec (.ldw rd ra off) s = .next t ∧ Errored false (.io 1) s t) ∧
    (ea % 4 = 0 → ea + 4 ≤ Config.ememBytes → ∃ t, exec (.ldw rd ra off) s = .next t ∧ WroteV [rd] s t ∧
      t.v[rd].toNat = (s.mem.byte ea).toNat + 2 ^ 8 * (s.mem.byte (ea + 1)).toNat
        + 2 ^ 16 * (s.mem.byte (ea + 2)).toNat + 2 ^ 24 * (s.mem.byte (ea + 3)).toNat)

/-- `LDF Vd, off(Va)` (42_register_memory.md R164): the checks of `LDW`; the word is read as binary32 and widened
(`Obligations.WidenExact` says what `widen` gives). -/
def Obligations.LdfLoadsWidened : Prop :=
  (∀ w, w < 2 ^ 32 → bits w 31 26 = 0x09 → decodeWord w =
    .ok (.ldf (Fin.ofNat 16 (bits w 25 22)) (Fin.ofNat 16 (bits w 21 18)) (BitVec.ofNat 18 (bits w 17 0)))) ∧
  ∀ (rd ra : VReg) (off : BitVec 18) (s : State),
    let ea := s.effAddr ra off
    (ea % 4 ≠ 0 → ∃ t, exec (.ldf rd ra off) s = .next t ∧ Errored false (.alignment ea) s t) ∧
    (ea % 4 = 0 → Config.ememBytes < ea + 4 → ∃ t, exec (.ldf rd ra off) s = .next t ∧ Errored false (.io 1) s t) ∧
    (ea % 4 = 0 → ea + 4 ≤ Config.ememBytes → ∃ t, exec (.ldf rd ra off) s = .next t ∧ WroteV [rd] s t ∧
      t.v[rd] = widen (s.mem.byte (ea + 3) ++ s.mem.byte (ea + 2) ++ s.mem.byte (ea + 1) ++ s.mem.byte ea))

/-- `LDB Vd, off(Va)` (42_register_memory.md R165): no alignment requirement; one byte, zero-extended. -/
def Obligations.LdbLoadsByte : Prop :=
  (∀ w, w < 2 ^ 32 → bits w 31 26 = 0x0A → decodeWord w =
    .ok (.ldb (Fin.ofNat 16 (bits w 25 22)) (Fin.ofNat 16 (bits w 21 18)) (BitVec.ofNat 18 (bits w 17 0)))) ∧
  ∀ (rd ra : VReg) (off : BitVec 18) (s : State) (ea : Nat),
    (ea : Int) = (((s.v[ra].toNat % 2 ^ 32 : Nat) : Int) + off.toInt) % 2 ^ 32 →
    (Config.ememBytes < ea + 1 → ∃ t, exec (.ldb rd ra off) s = .next t ∧ Errored false (.io 1) s t) ∧
    (ea + 1 ≤ Config.ememBytes → ∃ t, exec (.ldb rd ra off) s = .next t ∧ WroteV [rd] s t ∧
      t.v[rd] = (s.mem.byte ea).zeroExtend 64)

/-- `STW Vs, off(Va)` (42_register_memory.md R166): alignment before bounds; the low 32 bits of the source are stored,
least significant byte at the lowest address; no other byte changes. -/
def Obligations.StwStoresLowWord : Prop :=
  ∀ (rs ra : VReg) (off : BitVec 18) (s : State), s.mem.wf = true →
    let ea := s.effAddr ra off
    (ea % 4 ≠ 0 → ∃ t, exec (.stw rs ra off) s = .next t ∧ Errored false (.alignment ea) s t) ∧
    (ea % 4 = 0 → Config.ememBytes < ea + 4 → ∃ t, exec (.stw rs ra off) s = .next t ∧ Errored false (.io 1) s t) ∧
    (ea % 4 = 0 → ea + 4 ≤ Config.ememBytes → ∃ t, exec (.stw rs ra off) s = .next t ∧ Retired s t ∧
      SameVBut [] s t ∧ t.outCount = s.outCount ∧ SameMemBut (ea, 4) s t ∧
      t.mem.byte ea = s.v[rs].extractLsb' 0 8 ∧ t.mem.byte (ea + 1) = s.v[rs].extractLsb' 8 8 ∧
      t.mem.byte (ea + 2) = s.v[rs].extractLsb' 16 8 ∧ t.mem.byte (ea + 3) = s.v[rs].extractLsb' 24 8)

/-- `STF Vs, off(Va)` (42_register_memory.md R167): the checks of `STW`; the source, read as binary64, is stored as
binary32 (`Obligations.NarrowRounds` says what `narrow` gives); no other byte changes. -/
def Obligations.StfStoresNarrowed : Prop :=
  ∀ (rs ra : VReg) (off : BitVec 18) (s : State), s.mem.wf = true →
    let ea := s.effAddr ra off
    (ea % 4 ≠ 0 → ∃ t, exec (.stf rs ra off) s = .next t ∧ Errored false (.alignment ea) s t) ∧
    (ea % 4 = 0 → Config.ememBytes < ea + 4 → ∃ t, exec (.stf rs ra off) s = .next t ∧ Errored false (.io 1) s t) ∧
    (ea % 4 = 0 → ea + 4 ≤ Config.ememBytes → ∃ t, exec (.stf rs ra off) s = .next t ∧ Retired s t ∧
      SameVBut [] s t ∧ t.outCount = s.outCount ∧ SameMemBut (ea, 4) s t ∧
      t.mem.byte ea = (narrow s.v[rs]).extractLsb' 0 8 ∧ t.mem.byte (ea + 1) = (narrow s.v[rs]).extractLsb' 8 8 ∧
      t.mem.byte (ea + 2) = (narrow s.v[rs]).extractLsb' 16 8 ∧
      t.mem.byte (ea + 3) = (narrow s.v[rs]).extractLsb' 24 8)

/-- A store (`STW`, `STF`) to the address of the next command changes the command fetched there; no fence is needed
(20_memory.md R72, 70_reset_and_hazards.md R347). -/
def Obligations.StoreChangesNextFetch : Prop :=
  ∀ (rs ra : VReg) (off : BitVec 18) (s : State), s.mem.wf = true → s.effAddr ra off = s.cptr.toNat + 4 →
    (s.cptr.toNat + 4) % 4 = 0 → s.cptr.toNat + 8 ≤ Config.ememBytes →
    (∃ t, exec (.stw rs ra off) s = .next t ∧ t.cptr.toNat = s.cptr.toNat + 4 ∧ fetch t = .ok (s.v[rs].toNat % 2 ^ 32)) ∧
    ∃ t, exec (.stf rs ra off) s = .next t ∧ t.cptr.toNat = s.cptr.toNat + 4 ∧ fetch t = .ok (narrow s.v[rs]).toNat

/-! ## Arithmetic -/

/-- `+` and `-` of finite binary64 values give the exact sum or difference rounded to nearest, ties to even; overflow
gives a signed infinity (40_numerics.md R121). -/
def Obligations.AddRounds : Prop :=
  ∀ x y : DWord, Binary64.isFinite x = true → Binary64.isFinite y = true →
    Binary64.Rounds ((Binary64.val x : ℝ) + (Binary64.val y : ℝ)) (F64.add x y) ∧
    Binary64.Rounds ((Binary64.val x : ℝ) - (Binary64.val y : ℝ)) (F64.sub x y)

/-- `*` of finite binary64 values gives the exact product rounded to nearest, ties to even, with the exclusive or of
the signs (40_numerics.md R121; the sign of a zero or infinite product is IEEE 754's, which R121 does not spell out,
assumption 22). -/
def Obligations.MulRounds : Prop :=
  ∀ x y : DWord, Binary64.isFinite x = true → Binary64.isFinite y = true →
    Binary64.Rounds ((Binary64.val x : ℝ) * (Binary64.val y : ℝ)) (F64.mul x y) ∧
    Binary64.signBit (F64.mul x y) = (Binary64.signBit x ^^ Binary64.signBit y)

/-- `/` of a finite binary64 value by a finite nonzero one gives the exact quotient rounded to nearest, ties to even, with
the exclusive or of the signs (40_numerics.md R121, R123; the sign of a zero or infinite quotient is IEEE 754's, which
R121 does not spell out, assumption 22). -/
def Obligations.DivRounds : Prop :=
  ∀ x y : DWord, Binary64.isFinite x = true → Binary64.isFinite y = true → Binary64.val y ≠ 0 →
    Binary64.Rounds ((Binary64.val x : ℝ) / (Binary64.val y : ℝ)) (F64.div x y) ∧
    Binary64.signBit (F64.div x y) = (Binary64.signBit x ^^ Binary64.signBit y)

/-- `SQRT64` is the correctly rounded square root, with the zeros, +infinity, negative values and NaN as
40_numerics.md R130 states. -/
def Obligations.SqrtRounds : Prop :=
  (∀ x : DWord, Binary64.isFinite x = true → 0 ≤ Binary64.val x →
    Binary64.Rounds (Real.sqrt (Binary64.val x : ℝ)) (F64.sqrt x)) ∧
  F64.sqrt 0#64 = 0#64 ∧ F64.sqrt Binary64.negZero = Binary64.negZero ∧
  F64.sqrt Binary64.posInf = Binary64.posInf ∧
  (∀ x : DWord, Binary64.signBit x = true → x ≠ Binary64.negZero → Binary64.isNaN (F64.sqrt x) = true) ∧
  ∀ x : DWord, Binary64.isNaN x = true → Binary64.isNaN (F64.sqrt x) = true

/-- The special operands of 40_numerics.md R121: `x / ±0` for finite nonzero `x` is a signed infinity; `0 / 0`,
`inf - inf`, `0 * inf` give NaN; an exact zero sum of operands of opposite sign is +0. Beyond R121's list, from IEEE 754
(assumption 22): the sign of `x / ±0` is the exclusive or of the signs. Every operation on a NaN gives a NaN (R126: NaN
results; 44_dequant.md R190: any NaN operand gives NaN). -/
def Obligations.SpecialOperands : Prop :=
  (∀ x z : DWord, Binary64.isFinite x = true → Binary64.val x ≠ 0 → (z = 0#64 ∨ z = Binary64.negZero) →
    F64.div x z = if Binary64.signBit x = Binary64.signBit z then Binary64.posInf else Binary64.negInf) ∧
  (∀ z z' : DWord, (z = 0#64 ∨ z = Binary64.negZero) → (z' = 0#64 ∨ z' = Binary64.negZero) →
    Binary64.isNaN (F64.div z z') = true) ∧
  (∀ x : DWord, (x = Binary64.posInf ∨ x = Binary64.negInf) → Binary64.isNaN (F64.sub x x) = true) ∧
  (∀ z x : DWord, (z = 0#64 ∨ z = Binary64.negZero) → (x = Binary64.posInf ∨ x = Binary64.negInf) →
    Binary64.isNaN (F64.mul z x) = true ∧ Binary64.isNaN (F64.mul x z) = true) ∧
  (∀ x y : DWord, (Binary64.isNaN x = true ∨ Binary64.isNaN y = true) →
    Binary64.isNaN (F64.add x y) = true ∧ Binary64.isNaN (F64.sub x y) = true ∧
    Binary64.isNaN (F64.mul x y) = true ∧ Binary64.isNaN (F64.div x y) = true) ∧
  ∀ x y : DWord, Binary64.isFinite x = true → Binary64.isFinite y = true →
    Binary64.signBit x ≠ Binary64.signBit y → Binary64.val x + Binary64.val y = 0 → F64.add x y = 0#64

/-- `widen` (40_numerics.md R124): a binary32 NaN gives the canonical binary64 NaN; every other pattern gives the binary64
value equal to it, of the same sign, infinities included. -/
def Obligations.WidenExact : Prop :=
  ∀ w : Word,
    (Binary64.isNaN32 w = true → widen w = 0x7FF8000000000000#64) ∧
    (Binary64.isFinite32 w = true → Binary64.isFinite (widen w) = true ∧
      Binary64.val (widen w) = Binary64.val32 w ∧ Binary64.signBit (widen w) = Binary64.signBit32 w) ∧
    (w = 0x7F800000#32 → widen w = Binary64.posInf) ∧ (w = 0xFF800000#32 → widen w = Binary64.negInf)

/-- `narrow` (40_numerics.md R125): a NaN gives `0x7FC00000`; a finite value gives its rounding to binary32, nearest, ties
to even, infinite from `2^128 * (1 - 2^-25)` on, with its sign kept; infinities give infinities; the rule's examples. -/
def Obligations.NarrowRounds : Prop :=
  (∀ x : DWord, Binary64.isNaN x = true → narrow x = 0x7FC00000#32) ∧
  (∀ x : DWord, Binary64.isFinite x = true →
    Binary64.Rounds32 (Binary64.val x : ℝ) (narrow x) ∧ Binary64.signBit32 (narrow x) = Binary64.signBit x) ∧
  narrow Binary64.posInf = 0x7F800000#32 ∧ narrow Binary64.negInf = 0xFF800000#32 ∧
  narrow 0x3FF0000000000000#64 = 0x3F800000#32 ∧ narrow 0x8000000000000000#64 = 0x80000000#32 ∧
  narrow 0x366244CE242C5561#64 = 0x00000000#32 ∧ narrow 0x36A1208141E9900B#64 = 0x00000001#32 ∧
  narrow 0x47EFFFFFF0000000#64 = 0x7F800000#32

/-- Loading a binary32 value and storing it back changes no bit, but for NaNs, which come back canonical (40_numerics.md
R124, R125, R126). -/
def Obligations.NarrowOfWiden : Prop :=
  ∀ w : Word, narrow (widen w) = if Binary64.isNaN32 w then 0x7FC00000#32 else w

/-! ## Codec commands -/

/-- `UNPK111011` (43_bitfield_unpack.md R180): with `rd <= 13`, lanes 0, 1, 2 are the fields [31:21], [20:11], [10:0] of
the low word, each divided by its maximum with one rounding; a field of 0 gives +0.0 and a full field exactly 1.0. No word
decodes to the command with `rd > 13` (30_encoding.md R99 (c)); exec of it raises `IllegalCommand` (the model's choice,
assumption 14). -/
def Obligations.Unpk111011Lanes : Prop :=
  ∀ (rd ra : VReg) (s : State),
    (rd.val ≤ 13 → ∃ t, exec (.unpk111011 rd ra) s = .next t ∧
      WroteV [rd, VReg.plus rd 1, VReg.plus rd 2] s t ∧
      let w := s.v[ra].toNat % 2 ^ 32
      Binary64.Rounds ((w / 2 ^ 21 : Nat) / 2047) t.v[rd] ∧
      Binary64.Rounds ((w / 2 ^ 11 % 2 ^ 10 : Nat) / 1023) t.v[VReg.plus rd 1] ∧
      Binary64.Rounds ((w % 2 ^ 11 : Nat) / 2047) t.v[VReg.plus rd 2] ∧
      (w / 2 ^ 21 = 0 → t.v[rd] = 0#64) ∧ (w / 2 ^ 21 = 2047 → t.v[rd] = F64.ONE) ∧
      (w / 2 ^ 11 % 2 ^ 10 = 0 → t.v[VReg.plus rd 1] = 0#64) ∧
      (w / 2 ^ 11 % 2 ^ 10 = 1023 → t.v[VReg.plus rd 1] = F64.ONE) ∧
      (w % 2 ^ 11 = 0 → t.v[VReg.plus rd 2] = 0#64) ∧ (w % 2 ^ 11 = 2047 → t.v[VReg.plus rd 2] = F64.ONE)) ∧
    (13 < rd.val → ∃ t, exec (.unpk111011 rd ra) s = .next t ∧
      Errored false (.illegal (encode (.unpk111011 rd ra))) s t)

/-- `UNPK8888` (43_bitfield_unpack.md R181): with `rd <= 12`, lane `j` is byte `3 - j` of the low word over 255, rounded
once; 0 gives +0.0 and 255 exactly 1.0. No word decodes to the command with `rd > 12`; exec of it raises `IllegalCommand`
(the model's choice, assumption 14). -/
def Obligations.Unpk8888Lanes : Prop :=
  ∀ (rd ra : VReg) (s : State),
    (rd.val ≤ 12 → ∃ t, exec (.unpk8888 rd ra) s = .next t ∧
      WroteV [rd, VReg.plus rd 1, VReg.plus rd 2, VReg.plus rd 3] s t ∧
      ∀ j : Nat, j < 4 →
        let n := s.v[ra].toNat % 2 ^ 32 / 2 ^ (24 - 8 * j) % 2 ^ 8
        Binary64.Rounds ((n : Nat) / 255) t.v[VReg.plus rd j] ∧
        (n = 0 → t.v[VReg.plus rd j] = 0#64) ∧ (n = 255 → t.v[VReg.plus rd j] = F64.ONE)) ∧
    (12 < rd.val → ∃ t, exec (.unpk8888 rd ra) s = .next t ∧
      Errored false (.illegal (encode (.unpk8888 rd ra))) s t)

/-- `UNORM8` (43_bitfield_unpack.md R182): byte `k` of the low word over 255. `U16N` (R183): byte `k` of the two low
words, low byte and high byte, over 65535. Each is rounded once; the ends of the range give exactly 0 and 1. -/
def Obligations.Unorm8AndU16n : Prop :=
  (∀ (rd ra : VReg) (k : Fin 4) (s : State), ∃ t, exec (.unorm8 rd ra k) s = .next t ∧ WroteV [rd] s t ∧
    let n := s.v[ra].toNat / 2 ^ (8 * k.val) % 2 ^ 8
    Binary64.Rounds ((n : Nat) / 255) t.v[rd] ∧ (n = 0 → t.v[rd] = 0#64) ∧ (n = 255 → t.v[rd] = F64.ONE)) ∧
  ∀ (rd ra rb : VReg) (k : Fin 4) (s : State), ∃ t, exec (.u16n rd ra rb k) s = .next t ∧ WroteV [rd] s t ∧
    let n := s.v[ra].toNat / 2 ^ (8 * k.val) % 2 ^ 8 + 256 * (s.v[rb].toNat / 2 ^ (8 * k.val) % 2 ^ 8)
    Binary64.Rounds ((n : Nat) / 65535) t.v[rd] ∧ (n = 0 → t.v[rd] = 0#64) ∧ (n = 65535 → t.v[rd] = F64.ONE)

/-- `DEQUANT` (44_dequant.md R190): `lo + v * (hi - lo)` with three roundings, NaNs canonical; with `lo = +0`, `hi = 1.0`
and `v` in [0, 1] the result is `v` exactly; with `lo = hi` finite it is `lo`'s value for every finite `v`. `DQRANGE`
(R191): the same, but a computed width of ±0 is replaced by 1.0, so that with `lo = hi` finite the result is `lo + v`. -/
def Obligations.DequantAndDqrange : Prop :=
  (∀ (rd ra rb rc : VReg) (s : State), ∃ t, exec (.dequant rd ra rb rc) s = .next t ∧ WroteV [rd] s t ∧
    t.v[rd] = F64.canon (F64.add s.v[rb] (F64.mul s.v[ra] (F64.sub s.v[rc] s.v[rb]))) ∧
    (s.v[rb] = 0#64 → s.v[rc] = F64.ONE → s.v[ra].toNat ≤ F64.ONE.toNat → t.v[rd] = s.v[ra]) ∧
    (s.v[rb] = s.v[rc] → Binary64.isFinite s.v[rb] = true → Binary64.isFinite s.v[ra] = true →
      Binary64.isFinite t.v[rd] = true ∧ Binary64.val t.v[rd] = Binary64.val s.v[rb])) ∧
  ∀ (rd ra rb rc : VReg) (s : State), ∃ t, exec (.dqrange rd ra rb rc) s = .next t ∧ WroteV [rd] s t ∧
    t.v[rd] = F64.canon (F64.add s.v[rb] (F64.mul s.v[ra]
      (if F64.sub s.v[rc] s.v[rb] = 0#64 ∨ F64.sub s.v[rc] s.v[rb] = Binary64.negZero then F64.ONE
        else F64.sub s.v[rc] s.v[rb]))) ∧
    (s.v[rb] = s.v[rc] → Binary64.isFinite s.v[rb] = true → t.v[rd] = F64.canon (F64.add s.v[rb] s.v[ra]))

/-- `CBLK` (44_dequant.md R192): the entry that byte `k` of the index word selects from the table at the base, widened;
alignment before bounds. -/
def Obligations.CblkReadsEntry : Prop :=
  ∀ (rd ra rb : VReg) (k : Fin 4) (s : State) (ea : Nat),
    ea = (s.v[rb].toNat % 2 ^ 32 + 4 * (s.v[ra].toNat / 2 ^ (8 * k.val) % 2 ^ 8)) % 2 ^ 32 →
    (ea % 4 ≠ 0 → ∃ t, exec (.cblk rd ra rb k) s = .next t ∧ Errored false (.alignment ea) s t) ∧
    (ea % 4 = 0 → Config.ememBytes < ea + 4 → ∃ t, exec (.cblk rd ra rb k) s = .next t ∧ Errored false (.io 1) s t) ∧
    (ea % 4 = 0 → ea + 4 ≤ Config.ememBytes → ∃ t, exec (.cblk rd ra rb k) s = .next t ∧ WroteV [rd] s t ∧
      t.v[rd] = widen (s.mem.byte (ea + 3) ++ s.mem.byte (ea + 2) ++ s.mem.byte (ea + 1) ++ s.mem.byte ea))

/-- `INVLOG` (45_transforms.md R200), for every exponential with the properties of 40_numerics.md R131: a NaN gives the
canonical NaN, ±0 gives +0, else `e^|v| - 1` with the sign of `v`; ±infinity and an overflowing `e^|v|` (`|v| >= 710`) give
±infinity; a tiny `v` gives a zero of its sign (tiny reaches to the rule's example 1e-300, the model's reading, assumption
4); any other `|v|` below 2^-53 gives that zero or 2^-52 with its sign, as EXP-FAITHFUL allows. -/
def Obligations.InvlogTransforms : Prop :=
  ∀ (rd ra : VReg) (s : State), ∃ t, exec (.invlog rd ra) s = .next t ∧ WroteV [rd] s t ∧
    (Binary64.isNaN s.v[ra] = true → t.v[rd] = 0x7FF8000000000000#64) ∧
    (s.v[ra] = 0#64 ∨ s.v[ra] = Binary64.negZero → t.v[rd] = 0#64) ∧
    (Binary64.isNaN s.v[ra] = false → Binary64.magnitude s.v[ra] ≠ 0 →
      (Binary64.signBit s.v[ra] = false → t.v[rd] = F64.canon (F64.sub (Config.exp64 s.v[ra]) F64.ONE)) ∧
      (Binary64.signBit s.v[ra] = true →
        t.v[rd] = F64.canon (F64.neg (F64.sub (Config.exp64 (F64.neg s.v[ra])) F64.ONE)))) ∧
    (s.v[ra] = Binary64.posInf ∨ (Binary64.isFinite s.v[ra] = true ∧ 710 ≤ Binary64.val s.v[ra]) →
      t.v[rd] = Binary64.posInf) ∧
    (s.v[ra] = Binary64.negInf ∨ (Binary64.isFinite s.v[ra] = true ∧ Binary64.val s.v[ra] ≤ -710) →
      t.v[rd] = Binary64.negInf) ∧
    (0 < Binary64.magnitude s.v[ra] → Binary64.magnitude s.v[ra] ≤ 0x01A56E1FC2F8F359 →
      t.v[rd] = if Binary64.signBit s.v[ra] then Binary64.negZero else 0#64) ∧
    (Binary64.isFinite s.v[ra] = true → 0 < Binary64.val s.v[ra] → Binary64.val s.v[ra] < 1 / 2 ^ 53 →
      t.v[rd] = 0#64 ∨ t.v[rd] = 0x3CB0000000000000#64) ∧
    (Binary64.isFinite s.v[ra] = true → Binary64.val s.v[ra] < 0 → -(1 / 2 ^ 53) < Binary64.val s.v[ra] →
      t.v[rd] = Binary64.negZero ∨ t.v[rd] = 0xBCB0000000000000#64)

/-- `LOGITOP` (45_transforms.md R201) and `INVSIG` (R202), for every logarithm with the properties of 40_numerics.md R132
and every admitted epsilon: the operand is clamped, then the formula is evaluated as written; a NaN gives the canonical NaN;
`LOGITOP(0.5)` is -0.0 and `INVSIG(0.5)` is +0. -/
def Obligations.LogitopAndInvsig : Prop :=
  (∀ (rd ra : VReg) (s : State), ∃ t, exec (.logitop rd ra) s = .next t ∧ WroteV [rd] s t ∧
    (Binary64.isNaN s.v[ra] = true → t.v[rd] = 0x7FF8000000000000#64) ∧
    (Binary64.isNaN s.v[ra] = false →
      let c := if F64.lt s.v[ra] 0x3F70101010101010#64 then 0x3F70101010101010#64
        else if F64.lt 0x3FEFDFDFDFDFDFE0#64 s.v[ra] then 0x3FEFDFDFDFDFDFE0#64 else s.v[ra]
      t.v[rd] = F64.canon (F64.neg (Config.ln64 (F64.sub (F64.div F64.ONE c) F64.ONE)))) ∧
    (s.v[ra] = F64.HALF → t.v[rd] = Binary64.negZero)) ∧
  ∀ (rd ra : VReg) (s : State), ∃ t, exec (.invsig rd ra) s = .next t ∧ WroteV [rd] s t ∧
    (Binary64.isNaN s.v[ra] = true → t.v[rd] = 0x7FF8000000000000#64) ∧
    (Binary64.isNaN s.v[ra] = false →
      let lo := Config.params.invsigEps
      let hi := F64.sub F64.ONE lo
      let c := if F64.lt s.v[ra] lo then lo else if F64.lt hi s.v[ra] then hi else s.v[ra]
      t.v[rd] = F64.canon (Config.ln64 (F64.div c (F64.sub F64.ONE c)))) ∧
    (s.v[ra] = F64.HALF → t.v[rd] = 0#64)

/-- `SHDC` (45_transforms.md R203): `(c - 0.5) / 0.28209479177387814` in binary64, NaNs canonical; the rule's values at
0.5, 0, 1 and 0.75 and at the infinities. -/
def Obligations.ShdcMapsChannel : Prop :=
  ∀ (rd ra : VReg) (s : State), ∃ t, exec (.shdc rd ra) s = .next t ∧ WroteV [rd] s t ∧
    t.v[rd] = F64.canon (F64.div (F64.sub s.v[ra] 0x3FE0000000000000#64) 0x3FD20DD750429B6D#64) ∧
    (s.v[ra] = F64.HALF → t.v[rd] = 0#64) ∧ (s.v[ra] = 0#64 → t.v[rd] = 0xBFFC5BF891B4EF6B#64) ∧
    (s.v[ra] = F64.ONE → t.v[rd] = 0x3FFC5BF891B4EF6B#64) ∧
    (s.v[ra] = 0x3FE8000000000000#64 → t.v[rd] = 0x3FEC5BF891B4EF6B#64) ∧
    (s.v[ra] = Binary64.posInf → t.v[rd] = Binary64.posInf) ∧ (s.v[ra] = Binary64.negInf → t.v[rd] = Binary64.negInf) ∧
    (Binary64.isNaN s.v[ra] = true → t.v[rd] = 0x7FF8000000000000#64)

/-- `UNPKROT` (46_quaternion.md R213, R211, R212): with `rd <= 12`, the three 10-bit fields become components, the fourth
is recovered from the unit norm in the order of `RECOVER_A`, stands in the slot bits [31:30] select, and all four are
divided by the norm; the rule's two examples. No word decodes to the command with `rd > 12`; exec of it raises
`IllegalCommand` (the model's choice, assumption 14). -/
def Obligations.UnpkrotQuaternion : Prop :=
  ∀ (rd ra : VReg) (s : State),
    (rd.val ≤ 12 → ∃ t, exec (.unpkrot rd ra) s = .next t ∧
      WroteV [rd, VReg.plus rd 1, VReg.plus rd 2, VReg.plus rd 3] s t ∧
      let w := s.v[ra].toNat % 2 ^ 32
      let comp := fun f : Nat => F64.mul (F64.sub (F64.div (F64.ofNat f) F64.K1023) F64.HALF) F64.SQRT2
      let s0 := comp (w / 2 ^ 20 % 2 ^ 10)
      let s1 := comp (w / 2 ^ 10 % 2 ^ 10)
      let s2 := comp (w % 2 ^ 10)
      let m := F64.sqrt (F64.clamp0 (F64.sub (F64.sub (F64.sub F64.ONE (F64.mul s0 s0)) (F64.mul s1 s1)) (F64.mul s2 s2)))
      let sel := w / 2 ^ 30
      let q0 := if sel = 0 then m else s0
      let q1 := if sel = 0 then s0 else if sel = 1 then m else s1
      let q2 := if sel = 0 then s1 else if sel = 1 then s1 else if sel = 2 then m else s2
      let q3 := if sel = 3 then m else s2
      let n := F64.sqrt (F64.add (F64.add (F64.add (F64.mul q0 q0) (F64.mul q1 q1)) (F64.mul q2 q2)) (F64.mul q3 q3))
      t.v[rd] = F64.canon (F64.div q0 n) ∧ t.v[VReg.plus rd 1] = F64.canon (F64.div q1 n) ∧
      t.v[VReg.plus rd 2] = F64.canon (F64.div q2 n) ∧ t.v[VReg.plus rd 3] = F64.canon (F64.div q3 n) ∧
      (w = 0x1FF7FDFF → t.v[rd] = 0x3FEFFFFE7F3FAEDF#64 ∧ t.v[VReg.plus rd 1] = 0xBF46A647F87D5B1E#64 ∧
        t.v[VReg.plus rd 2] = 0xBF46A647F87D5B1E#64 ∧ t.v[VReg.plus rd 3] = 0xBF46A647F87D5B1E#64) ∧
      (w = 0 → t.v[rd] = 0#64 ∧ t.v[VReg.plus rd 1] = 0xBFE279A74590331C#64 ∧
        t.v[VReg.plus rd 2] = 0xBFE279A74590331C#64 ∧ t.v[VReg.plus rd 3] = 0xBFE279A74590331C#64)) ∧
    (12 < rd.val → ∃ t, exec (.unpkrot rd ra) s = .next t ∧
      Errored false (.illegal (encode (.unpkrot rd ra))) s t)

/-- `QUATST` (46_quaternion.md R214, R211, R212): with `rd <= 12`, a tag below 252 gives the identity; else the three
bytes become components, the fourth is recovered in the order of `RECOVER_S` and stands in slot `tag - 252`, without
renormalisation; the rule's example. No word decodes to the command with `rd > 12`; exec of it raises `IllegalCommand`
(the model's choice, assumption 14). -/
def Obligations.QuatstQuaternion : Prop :=
  ∀ (rd ra : VReg) (s : State),
    (rd.val ≤ 12 → ∃ t, exec (.quatst rd ra) s = .next t ∧
      WroteV [rd, VReg.plus rd 1, VReg.plus rd 2, VReg.plus rd 3] s t ∧
      let w := s.v[ra].toNat % 2 ^ 32
      let tag := w / 2 ^ 24
      let comp := fun b : Nat => F64.div (F64.sub (F64.mul (F64.div (F64.ofNat b) F64.K255) F64.TWO) F64.ONE) F64.SQRT2
      let s0 := comp (w % 2 ^ 8)
      let s1 := comp (w / 2 ^ 8 % 2 ^ 8)
      let s2 := comp (w / 2 ^ 16 % 2 ^ 8)
      let m := F64.sqrt (F64.clamp0 (F64.sub F64.ONE (F64.add (F64.add (F64.mul s0 s0) (F64.mul s1 s1)) (F64.mul s2 s2))))
      (tag < 252 → t.v[rd] = F64.ONE ∧ t.v[VReg.plus rd 1] = 0#64 ∧ t.v[VReg.plus rd 2] = 0#64 ∧
        t.v[VReg.plus rd 3] = 0#64) ∧
      (252 ≤ tag → t.v[rd] = F64.canon (if tag = 252 then m else s0) ∧
        t.v[VReg.plus rd 1] = F64.canon (if tag = 252 then s0 else if tag = 253 then m else s1) ∧
        t.v[VReg.plus rd 2] = F64.canon (if tag = 254 then m else if tag = 255 then s2 else s1) ∧
        t.v[VReg.plus rd 3] = F64.canon (if tag = 255 then m else s2)) ∧
      (w = 0xFD808080 → t.v[rd] = 0x3F66B755BC3B772D#64 ∧ t.v[VReg.plus rd 1] = 0x3FEFFFE7CFAE7B26#64 ∧
        t.v[VReg.plus rd 2] = 0x3F66B755BC3B772D#64 ∧ t.v[VReg.plus rd 3] = 0x3F66B755BC3B772D#64)) ∧
    (12 < rd.val → ∃ t, exec (.quatst rd ra) s = .next t ∧
      Errored false (.illegal (encode (.quatst rd ra))) s t)

/-- The commands that read their V operands as `.u32` cannot tell two states apart that differ only in bits [63:32] of the
V registers: they store the same, write the same results, or fail in the same way (00_scope.md R10, 42_register_memory.md
R160, R166). -/
def Obligations.HighHalvesIgnored : Prop :=
  ∀ (i : Instr) (s : State) (v' : Vector DWord 16), readsLowHalves i = true →
    (∀ j : VReg, v'[j].toNat % 2 ^ 32 = s.v[j].toNat % 2 ^ 32) →
    ∃ t t', exec i s = .next t ∧ exec i { s with v := v' } = .next t' ∧ { t with v := t'.v } = t' ∧
      ((∀ d ∈ dests i, t'.v[d] = t.v[d]) ∨ (t.v = s.v ∧ t'.v = v'))

/-- A move of the sequencer that is clear of the read 10_state.md R23 calls a model fault cannot tell two states apart that
differ only in V registers nothing has written since reset: so the values the model gives those registers at reset (its
own choice, assumption 1) decide nothing in a run of a correct host. -/
def Obligations.UnwrittenNotObserved : Prop :=
  ∀ (s : State) (v' : Vector DWord 16), s.turns = [] → SafeStep s →
    (∀ j : VReg, s.vWritten[j] = true → v'[j] = s.v[j]) →
    ∃ t v'', step s = .next t ∧ step { s with v := v' } = .next { t with v := v'' } ∧
      ∀ j : VReg, t.vWritten[j] = true → v''[j] = t.v[j]

/-! ## Frame commands -/

/-- `DECCHK` decodes every frame that passes its checks (47_frame_chunked.md R220, R234 to R237). First, in the parser's
own terms: it retires, `OUT_COUNT` becomes the vertex count, only the output region changes, and value `k` of record `i`,
computed from EMEM as it stood before the command, stands narrowed at `OUT_BASE + 56*i + 4*k`. Then R234 spelled out, for
every frame that meets the conditions of R228 to R233: the chunk row `floor(i/256)` and the vertex row `i`, each field at
its own property's offset, in any order and among any extra properties; with the colour bounding box (`colour`) the
channels r, g, b are expanded through it and the alpha channel is not. -/
def Obligations.DecchkWritesRecords : Prop :=
  (∀ (s : State) (p : ChunkPlan), s.mem.wf = true → validateChunked s = .ok p →
    ∃ t, exec .decchk s = .next t ∧ Retired s t ∧ SameVBut [] s t ∧ t.outCount.toNat = p.vn ∧
      SameMemBut (s.outBase.toNat, 56 * p.vn) s t ∧
      ∀ i, i < p.vn → (chunkRecord p s.mem i).length = 14 ∧
        ∀ k x, (chunkRecord p s.mem i)[k]? = some x → t.mem.word (s.outBase.toNat + 56 * i + 4 * k) = narrow x) ∧
  ∀ (s : State) (c v : Nat) (colour : Bool), s.mem.wf = true → Desc.Frame s c v → (colour = true ↔ Desc.Has s c 13) →
    ∃ t, exec .decchk s = .next t ∧ Retired s t ∧ SameVBut [] s t ∧ t.outCount.toNat = Desc.count s v ∧
      SameMemBut (s.outBase.toNat, 56 * Desc.count s v) s t ∧
      ∀ (i : Nat) (g : Nat → DWord) (h : Nat → Nat), i < Desc.count s v →
        (∀ p, p < Desc.nprop s c → 1 ≤ Desc.field s c p → Desc.field s c p ≤ 18 →
          g (Desc.field s c p) = widen (s.mem.word (Desc.row s c (i / 256) + Desc.offset s c p))) →
        (∀ p, p < Desc.nprop s v → 32 ≤ Desc.field s v p → Desc.field s v p ≤ 35 →
          h (Desc.field s v p) = s.mem.readLE (Desc.row s v i + Desc.offset s v p) 4) →
        let pos := unpack111011 (h 32)
        let rot := unpackRotation (h 33)
        let sca := unpack111011 (h 34)
        let col := unpack8888 (h 35)
        let chan := fun x lo hi => shDc (if colour then dequant x (g lo) (g hi) else x)
        ∀ k x, [dequant pos.1 (g 1) (g 2), dequant pos.2.1 (g 3) (g 4), dequant pos.2.2 (g 5) (g 6),
            chan col.1 13 14, chan col.2.1 15 16, chan col.2.2.1 17 18, logitOpacity col.2.2.2,
            dequant sca.1 (g 7) (g 8), dequant sca.2.1 (g 9) (g 10), dequant sca.2.2 (g 11) (g 12),
            rot.1, rot.2.1, rot.2.2.1, rot.2.2.2][k]? = some x →
          t.mem.word (s.outBase.toNat + 56 * i + 4 * k) = narrow x

/-- What the checks of `DECCHK` guarantee (47_frame_chunked.md R228, R231 to R233, R235): registers aligned, the input, the
header and the output inside EMEM, the output clear of the input and of the descriptor, every chunk row and vertex row that
is read inside the input, every field that is read inside its row; so no read of the decode phase fails. -/
def Obligations.DecchkPlanIsSafe : Prop :=
  ∀ (s : State) (p : ChunkPlan), validateChunked s = .ok p →
    s.descBase.toNat % 4 = 0 ∧ s.outBase.toNat % 4 = 0 ∧ s.descBase.toNat + 8 ≤ Config.ememBytes ∧
    s.inBase.toNat + s.inLen.toNat ≤ Config.ememBytes ∧ s.outBase.toNat + 56 * p.vn ≤ Config.ememBytes ∧
    (0 < p.vn → s.outBase.toNat + 56 * p.vn ≤ s.inBase.toNat ∨ s.inBase.toNat + s.inLen.toNat ≤ s.outBase.toNat) ∧
    (0 < p.vn → s.outBase.toNat + 56 * p.vn ≤ s.descBase.toNat ∨ Desc.addr s (Desc.nelem s) ≤ s.outBase.toNat) ∧
    (∀ i, i < p.vn →
      s.inBase.toNat ≤ p.chunkBase ∧
      p.chunkBase + (i / 256 + 1) * p.chunkStride ≤ s.inBase.toNat + s.inLen.toNat ∧
      s.inBase.toNat ≤ p.vertexBase ∧ p.vertexBase + (i + 1) * p.vertexStride ≤ s.inBase.toNat + s.inLen.toNat) ∧
    (∀ f, 1 ≤ f → f ≤ (if p.hasColor then 18 else 12) → fieldOffset p.cf f + 4 ≤ p.chunkStride) ∧
    ∀ f, 32 ≤ f → f ≤ 35 → fieldOffset p.vf f + 4 ≤ p.vertexStride

/-- The checks of `DECCHK`, in order (47_frame_chunked.md R228 to R233), each clause the first failing check with every
earlier one passed: the command fails as 60_exceptions.md R303 says, with `OUT_COUNT` 0 and nothing written. Registers and
header (R228); the descriptor walk (R229: a word beyond EMEM, a list property, an unknown type); the schema (R230:
reasons 3 to 10); truncation (R231); chunk range (R232); output region (R233). And a frame on which no check fails meets
all the conditions. `Desc` (Sys2Proof/Descriptor.lean) reads the descriptor off EMEM word by word. -/
def Obligations.DecchkChecks : Prop :=
  (∀ (s : State) (e : NceError), validateChunked s = .error e →
    ∃ t, exec .decchk s = .next t ∧ Errored true e s t) ∧
  (∀ (s : State) (p : ChunkPlan), validateChunked s = .ok p → ∃ c v, Desc.Frame s c v) ∧
  ∀ s : State,
    let d := s.descBase.toNat
    let hdr := s.mem.readLE d 4
    let fails := fun e => validateChunked s = .error e
    -- R228
    (d % 4 ≠ 0 → fails (.alignment 0x048)) ∧
    (d % 4 = 0 → s.outBase.toNat % 4 ≠ 0 → fails (.alignment 0x04C)) ∧
    (d % 4 = 0 → s.outBase.toNat % 4 = 0 → Config.ememBytes < s.inBase.toNat + s.inLen.toNat → fails (.io 1)) ∧
    (d % 4 = 0 → s.outBase.toNat % 4 = 0 → s.inBase.toNat + s.inLen.toNat ≤ Config.ememBytes →
      (Config.ememBytes < d + 4 → fails (.io 1)) ∧
      (d + 4 ≤ Config.ememBytes →
        (hdr % 2 ^ 8 ≠ 1 ∨ hdr / 2 ^ 8 % 2 ^ 8 ≠ 1 ∨ hdr / 2 ^ 16 % 2 ^ 8 ≠ 0 → fails (.format hdr)) ∧
        (hdr % 2 ^ 24 = 0x000101 → Config.ememBytes < d + 8 → fails (.io 1)))) ∧
    -- R229
    (∀ e, e < Desc.nelem s → Desc.Reached s e →
      (Config.ememBytes < Desc.addr s e + 8 → fails (.io 1)) ∧
      (Desc.addr s e + 8 ≤ Config.ememBytes → ∀ p, p < Desc.nprop s e → (∀ q, q < p → Desc.PropOk s e q) →
        (Desc.propAddr s e p ≤ Config.ememBytes → Config.ememBytes < Desc.propAddr s e p + 4 → fails (.io 1)) ∧
        (Desc.propAddr s e p + 4 ≤ Config.ememBytes →
          (Desc.list s e p = 1 → fails (.schema 1 (p % 256) e)) ∧
          (Desc.list s e p = 0 → Desc.type s e p < 1 ∨ 8 < Desc.type s e p → fails (.schema 2 (p % 256) e))))) ∧
    -- R230
    (Desc.Reached s (Desc.nelem s) →
      ((∀ e, e < Desc.nelem s → Desc.kind s e ≠ 1) → fails (.schema 3 0 0xFFFF)) ∧
      (∀ e, Desc.Second s 1 e → fails (.schema 4 0 e)) ∧
      ∀ c, Desc.Only s 1 c →
        ((∀ e, e < Desc.nelem s → Desc.kind s e ≠ 2) → fails (.schema 5 0 0xFFFF)) ∧
        (∀ e, Desc.Second s 2 e → fails (.schema 6 0 e)) ∧
        ∀ v, Desc.Only s 2 v →
          (∀ p, p < Desc.nprop s c → Desc.Again s c 1 18 p → (∀ q, q < p → ¬ Desc.Again s c 1 18 q) →
            fails (.schema 7 (Desc.field s c p) c)) ∧
          (Desc.NoneAgain s c 1 18 →
            (∀ f, 1 ≤ f → f ≤ 12 → Desc.AllTyped s c 1 f 7 →
              (¬ Desc.Has s c f → fails (.schema 8 f c)) ∧
              (Desc.Has s c f → ¬ Desc.HasTyped s c f 7 → fails (.schema 9 f c))) ∧
            (Desc.AllTyped s c 1 13 7 →
              (∀ f, 13 ≤ f → f ≤ 18 → ¬ Desc.Has s c f → Desc.AllHad s c 13 f →
                (∃ g, 13 ≤ g ∧ g ≤ 18 ∧ Desc.Has s c g) → fails (.schema 10 f c)) ∧
              (∀ f, 13 ≤ f → f ≤ 18 → Desc.AllHad s c 13 19 → Desc.AllTyped s c 13 f 7 → ¬ Desc.HasTyped s c f 7 →
                fails (.schema 9 f c)))) ∧
          (Desc.ChunkOk s c →
            (∀ p, p < Desc.nprop s v → Desc.Again s v 32 35 p → (∀ q, q < p → ¬ Desc.Again s v 32 35 q) →
              fails (.schema 7 (Desc.field s v p) v)) ∧
            (Desc.NoneAgain s v 32 35 → ∀ f, 32 ≤ f → f ≤ 35 → Desc.AllTyped s v 32 f 6 →
              (¬ Desc.Has s v f → fails (.schema 8 f v)) ∧
              (Desc.Has s v f → ¬ Desc.HasTyped s v f 6 → fails (.schema 9 f v))))) ∧
    ∀ c v, Desc.SchemaOk s c v →
      -- R231
      (s.inLen.toNat < Desc.dataEnd s c → (v < c → Desc.dataEnd s v ≤ s.inLen.toNat) → fails (.truncated c)) ∧
      (s.inLen.toNat < Desc.dataEnd s v → (c < v → Desc.dataEnd s c ≤ s.inLen.toNat) → fails (.truncated v)) ∧
      (Desc.dataEnd s c ≤ s.inLen.toNat → Desc.dataEnd s v ≤ s.inLen.toNat →
        -- R232
        (256 * Desc.count s c < Desc.count s v → fails (.range (256 * Desc.count s c))) ∧
        -- R233
        (Desc.count s v ≤ 256 * Desc.count s c →
          (Config.ememBytes < s.outBase.toNat + 56 * Desc.count s v → fails (.io 1)) ∧
          (s.outBase.toNat + 56 * Desc.count s v ≤ Config.ememBytes → 0 < Desc.count s v →
            ¬ Desc.OutClear s v s.inBase.toNat s.inLen.toNat ∨
              ¬ Desc.OutClear s v s.descBase.toNat (Desc.addr s (Desc.nelem s) - s.descBase.toNat) → fails (.io 2))))

/-- A frame of the plain layout (a chunk element with the twelve bounds in order, then a vertex element with the four
packed words in order) that fits its registers decodes, for every chunk count and vertex count that
47_frame_chunked.md R231 to R233 admit: `DECCHK` retires and every value of every record is the one R234 gives. -/
def Obligations.DecchkPlainFrame : Prop :=
  ∀ (s : State) (cn vn : Nat),
    let d := s.descBase.toNat
    let b := s.inBase.toNat
    let o := s.outBase.toNat
    let r := fun a => s.mem.readLE a 4
    s.mem.wf = true → d % 4 = 0 → o % 4 = 0 → b + s.inLen.toNat ≤ Config.ememBytes → d + 88 ≤ Config.ememBytes →
    r d = 0x101 → r (d + 4) = 2 →
    r (d + 8) = 0x000C0001 → r (d + 12) = cn → (∀ p, p < 12 → r (d + 16 + 4 * p) = 7 + 256 * (p + 1)) →
    r (d + 64) = 0x00040002 → r (d + 68) = vn → (∀ q, q < 4 → r (d + 72 + 4 * q) = 6 + 256 * (32 + q)) →
    48 * cn + 16 * vn ≤ s.inLen.toNat → vn ≤ 256 * cn → o + 56 * vn ≤ Config.ememBytes →
    (0 < vn → (o + 56 * vn ≤ b ∨ b + s.inLen.toNat ≤ o) ∧ (o + 56 * vn ≤ d ∨ d + 88 ≤ o)) →
    ∃ t, exec .decchk s = .next t ∧ Retired s t ∧ SameVBut [] s t ∧ t.outCount.toNat = vn ∧
      SameMemBut (o, 56 * vn) s t ∧
      ∀ i, i < vn →
        let g := fun f => widen (s.mem.word (b + 48 * (i / 256) + 4 * (f - 1)))
        let h := fun q => r (b + 48 * cn + 16 * i + 4 * q)
        let pos := unpack111011 (h 0)
        let rot := unpackRotation (h 1)
        let sca := unpack111011 (h 2)
        let col := unpack8888 (h 3)
        ∀ k x, [dequant pos.1 (g 1) (g 2), dequant pos.2.1 (g 3) (g 4), dequant pos.2.2 (g 5) (g 6),
            shDc col.1, shDc col.2.1, shDc col.2.2.1, logitOpacity col.2.2.2,
            dequant sca.1 (g 7) (g 8), dequant sca.2.1 (g 9) (g 10), dequant sca.2.2 (g 11) (g 12),
            rot.1, rot.2.1, rot.2.2.1, rot.2.2.2][k]? = some x →
          t.mem.word (o + 56 * i + 4 * k) = narrow x

/-- `DECIMG` decodes every frame that passes the checks of 48_frame_image.md R261 and R262, spelled out: it retires,
`OUT_COUNT` becomes `IMG_COUNT`, only the output region changes, and every value of every record is the one R263 to R267
give, computed from EMEM as it stood before the command. -/
def Obligations.DecimgWritesRecords : Prop :=
  ∀ s : State,
    let n := s.imgCount.toNat
    let o := s.outBase.toNat
    let clear := fun a len => o + 56 * n ≤ a ∨ a + len ≤ o
    s.mem.wf = true → o % 4 = 0 → s.scbBase.toNat % 4 = 0 → s.shcbBase.toNat % 4 = 0 →
    (∀ k : Fin 5, s.planes[k].base.toNat % 4 = 0) → 0 < n → s.scbLen = 256#32 → s.shcbLen = 256#32 →
    (∀ k : Fin 5, s.planes[k].ch = 4#32 ∧ n ≤ s.planes[k].npix.toNat) →
    (∀ k : Fin 5, s.planes[k].base.toNat + 4 * n ≤ Config.ememBytes ∧ clear s.planes[k].base.toNat (4 * n)) →
    s.scbBase.toNat + 1024 ≤ Config.ememBytes → clear s.scbBase.toNat 1024 →
    s.shcbBase.toNat + 1024 ≤ Config.ememBytes → clear s.shcbBase.toNat 1024 →
    o + 56 * n ≤ Config.ememBytes →
    ∃ t, exec .decimg s = .next t ∧ Retired s t ∧ SameVBut [] s t ∧ t.outCount = s.imgCount ∧
      SameMemBut (o, 56 * n) s t ∧
      ∀ i, i < n →
        let px := fun k : Fin 5 => s.mem.readLE (s.planes[k].base.toNat + 4 * i) 4
        let pos := fun a : Fin 3 => invLog (dqrange (u16n (px 0) (px 1) a.val) (widen s.mins[a]) (widen s.maxs[a]))
        let sca := fun a => widen (s.mem.word (s.scbBase.toNat + 4 * (px 2 / 2 ^ (8 * a) % 2 ^ 8)))
        let dc := fun a => widen (s.mem.word (s.shcbBase.toNat + 4 * (px 4 / 2 ^ (8 * a) % 2 ^ 8)))
        let q := quatTagged (px 3)
        ∀ k x, [pos 0, pos 1, pos 2, dc 0, dc 1, dc 2, invSigmoid (unorm8 (px 4) 3), sca 0, sca 1, sca 2,
            q.1, q.2.1, q.2.2.1, q.2.2.2][k]? = some x →
          t.mem.word (o + 56 * i + 4 * k) = narrow x

/-- The checks of `DECIMG` in their order (48_frame_image.md R261, R262): whatever check fails, the command fails as
60_exceptions.md R303 says, with `OUT_COUNT` 0 and nothing written; each clause is the first failing check. -/
def Obligations.DecimgChecks : Prop :=
  (∀ (s : State) (e : NceError), validateImage s = .error e →
    ∃ t, exec .decimg s = .next t ∧ Errored true e s t) ∧
  ∀ s : State,
    let n := s.imgCount.toNat
    let o := s.outBase.toNat
    let a1 := o % 4 = 0
    let a2 := a1 ∧ s.scbBase.toNat % 4 = 0
    let a3 := a2 ∧ s.shcbBase.toNat % 4 = 0
    let a4 := a3 ∧ ∀ k : Fin 5, s.planes[k].base.toNat % 4 = 0
    let m1 := a4 ∧ n ≠ 0
    let m2 := m1 ∧ s.scbLen = 256#32
    let m3 := m2 ∧ s.shcbLen = 256#32
    let good := fun k : Fin 5 => s.planes[k].ch = 4#32 ∧ n ≤ s.planes[k].npix.toNat
    let m4 := m3 ∧ ∀ k : Fin 5, good k
    let inside := (∀ k : Fin 5, s.planes[k].base.toNat + 4 * n ≤ Config.ememBytes) ∧
      s.scbBase.toNat + 1024 ≤ Config.ememBytes ∧ s.shcbBase.toNat + 1024 ≤ Config.ememBytes ∧
      o + 56 * n ≤ Config.ememBytes
    let hits := fun a len => o < a + len ∧ a < o + 56 * n
    (¬ a1 → validateImage s = .error (.alignment 0x04C)) ∧
    (a1 → s.scbBase.toNat % 4 ≠ 0 → validateImage s = .error (.alignment 0x09C)) ∧
    (a2 → s.shcbBase.toNat % 4 ≠ 0 → validateImage s = .error (.alignment 0x0A4)) ∧
    (∀ k : Fin 5, a3 → (∀ j : Fin 5, j < k → s.planes[j].base.toNat % 4 = 0) → s.planes[k].base.toNat % 4 ≠ 0 →
      validateImage s = .error (.alignment (0x0C0 + 16 * k.val))) ∧
    (a4 → n = 0 → validateImage s = .error (.manifest 1)) ∧
    (m1 → s.scbLen ≠ 256#32 → validateImage s = .error (.manifest 2)) ∧
    (m2 → s.shcbLen ≠ 256#32 → validateImage s = .error (.manifest 3)) ∧
    (∀ k : Fin 5, m3 → (∀ j : Fin 5, j < k → good j) → s.planes[k].ch ≠ 4#32 →
      validateImage s = .error (.image k.val 1)) ∧
    (∀ k : Fin 5, m3 → (∀ j : Fin 5, j < k → good j) → s.planes[k].ch = 4#32 → s.planes[k].npix.toNat < n →
      validateImage s = .error (.image k.val 2)) ∧
    (m4 → ¬ inside → validateImage s = .error (.io 1)) ∧
    (m4 → inside → ((∃ k : Fin 5, hits s.planes[k].base.toNat (4 * n)) ∨ hits s.scbBase.toNat 1024 ∨
      hits s.shcbBase.toNat 1024) → validateImage s = .error (.io 2))

/-! ## The host's side -/

/-- START (60_exceptions.md R318): a host write to `CTRL` with bit 0 = 1 while idle sets `IE` from bit 1, clears `DONE`,
`ERR`, `ERR_*` and `CMD_COUNT`, sets `BUSY`, and changes nothing else; while busy the same write sets `IE` only. -/
def Obligations.StartBeginsRun : Prop :=
  ∀ (s : State) (x : Nat) (rest : List Turn),
    s.resetHeld = false → s.turns = .host (.write (Config.params.nceBase + 0x008) 4 x) :: rest → x % 2 = 1 →
    (s.busy = false → step s = .next { s with
      ie := x / 2 % 2 == 1, done := false, err := false, errCode := 0#8, errPc := 0#32, errInfo := 0#32,
      cmdCount := 0#32, busy := true, turns := rest }) ∧
    (s.busy = true → step s = .next { s with ie := x / 2 % 2 == 1, turns := rest })

/-- Writes while busy (10_state.md R46): an aligned 32-bit host write at any offset of the block changes at most `CTRL.IE`
(at 0x008) and clears at most `DONE` and `ERR` (at 0x00C, where the written bit is 1). -/
def Obligations.BusyWritesIgnored : Prop :=
  ∀ (s : State) (off x : Nat) (rest : List Turn), s.busy = true → s.resetHeld = false → off < 0x1000 → off % 4 = 0 →
    s.turns = .host (.write (Config.params.nceBase + off) 4 x) :: rest →
    step s = .next { s with
      ie := if off = 0x008 then x / 2 % 2 == 1 else s.ie
      done := s.done && !(off = 0x00C && x / 2 % 2 == 1)
      err := s.err && !(off = 0x00C && x / 4 % 2 == 1)
      turns := rest }

/-- A register that a host write sets while idle reads back what was written, `CPTR` with bits [1:0] 0, and no other
register's read changes, the other half of a V register that has been written included; a host write of one half of a V
register that nothing has written since reset sets that half, the other half is drawn, once, from the free values
(assumption 11), the register counts as written, and nothing else changes (10_state.md R26, R31, R36 to R45). -/
def Obligations.WrittenRegisterReadsBack : Prop :=
  (∀ (s : State) (r : MmioReg) (x : Nat) (rest : List Turn), s.busy = false → s.resetHeld = false → r.isRw = true →
    (∀ i : VReg, r = .vLo i ∨ r = .vHi i → s.vWritten[i] = true) →
    s.turns = .host (.write (Config.params.nceBase + r.offset) 4 x) ::
      .host (.read (Config.params.nceBase + r.offset) 4) :: rest →
    ∃ t u, step s = .next t ∧ step t = .next u ∧ u.turns = rest ∧ u.mem = s.mem ∧ u.busy = false ∧
      u.busData = (if r = .cptr then BitVec.ofNat 32 (x / 4 * 4) else BitVec.ofNat 32 x) ∧
      ∀ r' : MmioReg, r' ≠ r → readReg u r' = readReg s r') ∧
  ∀ (s : State) (i : VReg) (x : Nat) (rest : List Turn) (r other : MmioReg), s.busy = false → s.resetHeld = false →
    s.vWritten[i] = false → (r = .vLo i ∧ other = .vHi i ∨ r = .vHi i ∧ other = .vLo i) →
    s.turns = .host (.write (Config.params.nceBase + r.offset) 4 x) :: rest →
    ∃ t, step s = .next t ∧ readReg t r = BitVec.ofNat 32 x ∧ readReg t other = Config.freeWord s.draws ∧
      t.draws = s.draws + 1 ∧ t.vWritten[i] = true ∧ SameVBut [i] s t ∧
      t = { s with v := t.v, vWritten := t.vWritten, draws := t.draws, turns := rest }

/-- `ID` reads 0x4E430100 and `PARAM` reads k, with `P_EMEM_BYTES = 2^k` and 16 <= k <= 22, at all times (10_state.md R27,
R28); a read-only register and a reserved offset ignore writes, and a reserved offset reads 0 (R26). -/
def Obligations.ConstantsAndReserved : Prop :=
  (∀ s : State, readReg s .id = 0x4E430100#32 ∧ (readReg s .param).toNat = Config.params.ememLog2) ∧
  Config.ememBytes = 2 ^ Config.params.ememLog2 ∧ 16 ≤ Config.params.ememLog2 ∧ Config.params.ememLog2 ≤ 22 ∧
  (∀ (s : State) (off x : Nat) (rest : List Turn), off < 0x1000 → off % 4 = 0 →
    (MmioReg.ofOffset off = none ∨ ∃ r, MmioReg.ofOffset off = some r ∧ r.isRo = true) →
    s.turns = .host (.write (Config.params.nceBase + off) 4 x) :: rest → step s = .next { s with turns := rest }) ∧
  ∀ (s : State) (off : Nat) (rest : List Turn), off < 0x1000 → off % 4 = 0 → MmioReg.ofOffset off = none →
    s.turns = .host (.read (Config.params.nceBase + off) 4) :: rest →
    ∃ t, step s = .next t ∧ t.busData = 0#32

/-- The interrupt is `IE and (DONE or ERR)` (60_exceptions.md R309), and each of the three ways of R310 clears it: writing 1
to the set ones of `DONE` and `ERR`, writing `IE` = 0, START. The writes themselves, busy or idle: a write of `CTRL` with
START 0 sets `IE` and nothing else; a write of `STATUS` clears those of `DONE` and `ERR` where a 1 is written, and nothing
else (10_state.md R26, R29, R30). -/
def Obligations.InterruptCleared : Prop :=
  (∀ s : State, s.irq = (s.ie && (s.done || s.err))) ∧
  (∀ (s : State) (x : Nat) (rest : List Turn), s.resetHeld = false → x % 2 = 0 →
    s.turns = .host (.write (Config.params.nceBase + 0x008) 4 x) :: rest →
    step s = .next { s with ie := x / 2 % 2 == 1, turns := rest }) ∧
  (∀ (s : State) (x : Nat) (rest : List Turn), s.resetHeld = false →
    s.turns = .host (.write (Config.params.nceBase + 0x00C) 4 x) :: rest →
    step s = .next { s with
      done := s.done && !(x / 2 % 2 == 1), err := s.err && !(x / 4 % 2 == 1), turns := rest }) ∧
  (∀ (s : State) (x : Nat) (rest : List Turn), s.resetHeld = false →
    s.turns = .host (.write (Config.params.nceBase + 0x00C) 4 x) :: rest →
    (s.done = true → x / 2 % 2 = 1) → (s.err = true → x / 4 % 2 = 1) →
    ∃ t, step s = .next t ∧ t.done = false ∧ t.err = false ∧ t.irq = false ∧ t.ie = s.ie) ∧
  (∀ (s : State) (x : Nat) (rest : List Turn), s.resetHeld = false →
    s.turns = .host (.write (Config.params.nceBase + 0x008) 4 x) :: rest → x / 2 % 2 = 0 →
    ∃ t, step s = .next t ∧ t.irq = false) ∧
  ∀ (s : State) (x : Nat) (rest : List Turn), s.busy = false → s.resetHeld = false →
    s.turns = .host (.write (Config.params.nceBase + 0x008) 4 x) :: rest → x % 2 = 1 →
    ∃ t, step s = .next t ∧ t.irq = false

/-- The host's EMEM window while idle (20_memory.md R60, R61): an aligned write of 1, 2 or 4 bytes followed by a read of
them gives the value written, least significant byte at the lowest address, and changes no other byte and no register. That
a write takes the low bytes of its value and a read of 1 or 2 bytes is zero-extended is the model's choice (assumption
21). -/
def Obligations.EmemWindow : Prop :=
  ∀ (s : State) (a n x : Nat) (rest : List Turn), s.busy = false → s.resetHeld = false → s.mem.wf = true →
    (n = 1 ∨ n = 2 ∨ n = 4) →
    a % n = 0 → a + n ≤ Config.ememBytes →
    s.turns = .host (.write (Config.params.ememHostBase + a) n x) ::
      .host (.read (Config.params.ememHostBase + a) n) :: rest →
    ∃ t u, step s = .next t ∧ step t = .next u ∧ u.busData.toNat = x % 2 ^ (8 * n) ∧
      (∀ j, j < n → u.mem.byte (a + j) = BitVec.ofNat 8 (x / 2 ^ (8 * j))) ∧ SameMemBut (a, n) s u ∧
      u = { s with mem := u.mem, busData := u.busData, turns := rest }

/-- The host accesses the model has no move for stop by name: an MMIO access that is not an aligned 32-bit one, an EMEM
access that is not an aligned one of 1, 2 or 4 bytes, an EMEM access while busy (10_state.md R26; 20_memory.md R60, R74:
"a model refuses"), an address outside both windows (the model's choice, assumption 15). -/
def Obligations.HostStops : Prop :=
  ∀ (s : State) (addr size x : Nat) (rest : List Turn) (op : HostOp), (op = .read addr size ∨ op = .write addr size x) →
    s.turns = .host op :: rest →
    (∀ off, off < 0x1000 → addr = Config.params.nceBase + off → ¬ (size = 4 ∧ off % 4 = 0) →
      step s = .refused (.hostMmioForm off size)) ∧
    (∀ a, a < Config.ememBytes → addr = Config.params.ememHostBase + a →
      ¬ ((size = 1 ∨ size = 2 ∨ size = 4) ∧ a % size = 0) → step s = .refused (.hostEmemForm a size)) ∧
    (∀ a, a < Config.ememBytes → addr = Config.params.ememHostBase + a → (size = 1 ∨ size = 2 ∨ size = 4) →
      a % size = 0 → s.busy = true → step s = .refused (.hostEmemBusy a)) ∧
    ((addr < Config.params.nceBase ∨ Config.params.nceBase + 0x1000 ≤ addr) →
      (addr < Config.params.ememHostBase ∨ Config.params.ememHostBase + Config.ememBytes ≤ addr) →
      step s = .fault (.hostAddressOutsideWindows addr))

/-- Reads while busy (10_state.md R31, R35, R45, R47), for every value of the free constants: no read changes the engine;
`CPTR` reads some word with bits [1:0] 0; `CMD_COUNT` and `OUT_COUNT` read their value before or after the command in
progress; the configuration registers, `CTRL` and `STATUS` read their values; `ERR_CODE`, `ERR_PC`, `ERR_INFO` read 0. -/
def Obligations.BusyReads : Prop :=
  ∀ (s : State) (r : MmioReg) (rest : List Turn), Inv s → s.busy = true →
    s.turns = .host (.read (Config.params.nceBase + r.offset) 4) :: rest →
    ∃ t, step s = .next t ∧ t = { s with turns := rest, busData := t.busData, draws := t.draws } ∧
      (r = .cptr → t.busData.toNat % 4 = 0) ∧
      (∀ u, engineStep { s with turns := rest } = .next u →
        (r = .cmdCount → t.busData = s.cmdCount ∨ t.busData = u.cmdCount) ∧
        (r = .outCount → t.busData = s.outCount ∨ t.busData = u.outCount)) ∧
      (r = .ctrl → t.busData = s.ctrlWord) ∧ (r = .status → t.busData = s.statusWord) ∧
      (r = .errCode ∨ r = .errPc ∨ r = .errInfo → t.busData = 0#32) ∧
      (r = .inBase → t.busData = s.inBase) ∧ (r = .inLen → t.busData = s.inLen) ∧
      (r = .descBase → t.busData = s.descBase) ∧ (r = .outBase → t.busData = s.outBase) ∧
      (r = .imgCount → t.busData = s.imgCount) ∧
      (∀ a : Fin 3, (r = .min a → t.busData = s.mins[a]) ∧ (r = .max a → t.busData = s.maxs[a])) ∧
      (r = .scbBase → t.busData = s.scbBase) ∧ (r = .scbLen → t.busData = s.scbLen) ∧
      (r = .shcbBase → t.busData = s.shcbBase) ∧ (r = .shcbLen → t.busData = s.shcbLen) ∧
      ∀ k : Fin 5, (r = .planeBase k → t.busData = s.planes[k].base) ∧
        (r = .planeNpix k → t.busData = s.planes[k].npix) ∧ (r = .planeCh k → t.busData = s.planes[k].ch)
end

