-- ==== Sys2Proof/Laws/Memory.lean ====
section
/-! SUPPORT. The laws of EMEM: the canonical form is kept, a read after a write gives the value written, every other
byte is left alone. -/

namespace Sys2Proof.Machine

/-! ## Bounds -/

theorem ememBytes_ge : Config.ememBytesMin ≤ Config.ememBytes :=
  Nat.pow_le_pow_right (by decide) Config.params.ememLog2_ge

theorem ememBytes_le : Config.ememBytes ≤ 2 ^ 22 :=
  Nat.pow_le_pow_right (by decide) Config.params.ememLog2_le

/-- EMEM's size is a multiple of 4. -/
theorem ememBytes_mod_four : Config.ememBytes % 4 = 0 := by
  have h := Config.params.ememLog2_ge
  obtain ⟨k, hk⟩ : ∃ k, Config.params.ememLog2 = k + 2 := ⟨Config.params.ememLog2 - 2, by omega⟩
  unfold Config.ememBytes
  rw [hk, Nat.pow_add]; omega

/-- The bounds check is the rule's: `a + n <= P_EMEM_BYTES` (20_memory.md R63). -/
theorem inEmem_iff (a n : Nat) : inEmem a n = true ↔ a + n ≤ Config.ememBytes := by
  have := ememBytes_ge
  unfold inEmem
  simp only [Bool.or_eq_true, decide_eq_true_eq]
  omega

theorem inEmem_eq_false_iff (a n : Nat) : inEmem a n = false ↔ Config.ememBytes < a + n := by
  rw [← Bool.not_eq_true, inEmem_iff]; omega

/-! ## Single bytes -/

theorem Memory.byte_of_lt : ∀ {m : Memory} {lo a : Nat}, Memory.wfFrom lo m = true → a < lo → Memory.byte m a = 0#8
  | [], _, _, _, _ => rfl
  | (x, b) :: t, lo, a, h, hlt => by
    simp only [Memory.wfFrom, Bool.and_eq_true, decide_eq_true_eq] at h
    simp only [Memory.byte]
    rw [if_pos (by omega)]; rfl

theorem Memory.wfFrom_mono : ∀ {m : Memory} {lo lo' : Nat}, lo' ≤ lo → Memory.wfFrom lo m = true → Memory.wfFrom lo' m = true
  | [], _, _, _, _ => rfl
  | (x, b) :: t, lo, lo', hle, h => by
    simp only [Memory.wfFrom, Bool.and_eq_true, decide_eq_true_eq] at h ⊢
    exact ⟨⟨by omega, h.1.2⟩, h.2⟩

theorem Memory.setByte_wfFrom : ∀ {m : Memory} {lo a : Nat} (b : Byte), Memory.wfFrom lo m = true → lo ≤ a →
    Memory.wfFrom lo (Memory.setByte m a b) = true
  | [], lo, a, b, _, hle => by
    unfold Memory.setByte
    split
    · rfl
    · rename_i hb
      simp only [Memory.wfFrom, Bool.and_eq_true, decide_eq_true_eq]
      exact ⟨⟨hle, hb⟩, trivial⟩
  | (x, y) :: t, lo, a, b, h, hle => by
    have h0 := h
    simp only [Memory.wfFrom, Bool.and_eq_true, decide_eq_true_eq] at h
    unfold Memory.setByte
    split
    · rename_i hlt
      split
      · exact h0
      · rename_i hb
        simp only [Memory.wfFrom, Bool.and_eq_true, decide_eq_true_eq]
        exact ⟨⟨hle, hb⟩, ⟨by omega, h.1.2⟩, h.2⟩
    · split
      · rename_i hax
        subst hax
        split
        · exact Memory.wfFrom_mono (by omega) h.2
        · rename_i hb
          simp only [Memory.wfFrom, Bool.and_eq_true, decide_eq_true_eq]
          exact ⟨⟨hle, hb⟩, h.2⟩
      · simp only [Memory.wfFrom, Bool.and_eq_true, decide_eq_true_eq]
        exact ⟨h.1, Memory.setByte_wfFrom b h.2 (by omega)⟩

/-- Storing a byte keeps the canonical form. -/
theorem Memory.setByte_wf {m : Memory} (a : Nat) (b : Byte) (h : m.wf = true) : (m.setByte a b).wf = true :=
  Memory.setByte_wfFrom b h (Nat.zero_le a)

theorem Memory.byte_setByte_from : ∀ {m : Memory} {lo : Nat} (a c : Nat) (b : Byte), Memory.wfFrom lo m = true →
    Memory.byte (Memory.setByte m a b) c = if c = a then b else Memory.byte m c
  | [], lo, a, c, b, _ => by
    unfold Memory.setByte
    split
    · rename_i hb; subst hb; simp [Memory.byte]
    · simp only [Memory.byte]
      split
      · rw [if_neg (by omega)]
      · rfl
  | (x, y) :: t, lo, a, c, b, h => by
    simp only [Memory.wfFrom, Bool.and_eq_true, decide_eq_true_eq] at h
    unfold Memory.setByte
    split
    · rename_i hlt
      split
      · rename_i hb
        subst hb
        split
        · rename_i hc; subst hc; simp only [Memory.byte]; rw [if_pos hlt]
        · rfl
      · rename_i hb
        rw [Memory.byte]
        split
        · rw [if_neg (by omega), Memory.byte, if_pos (by omega)]
        · rfl
    · split
      · rename_i hax
        subst hax
        split
        · rename_i hb
          subst hb
          by_cases hc : c = a
          · subst hc; rw [if_pos rfl, Memory.byte_of_lt h.2 (by omega)]; rfl
          · rw [if_neg hc, Memory.byte]
            split
            · rw [Memory.byte_of_lt h.2 (by omega)]; rfl
            · rfl
        · rw [Memory.byte, Memory.byte]
          split
          · rw [if_neg (by omega)]
          · rename_i hc
            by_cases hca : c = a
            · simp [hca]
            · simp [hca]
      · rename_i hlt hne
        rw [Memory.byte, Memory.byte]
        split
        · rw [if_neg (by omega)]
        · split
          · rename_i hcx; subst hcx; rw [if_neg (by omega)]
          · exact Memory.byte_setByte_from a c b h.2

/-- Reading a byte after storing one. -/
theorem Memory.byte_setByte {m : Memory} (h : m.wf = true) (a c : Nat) (b : Byte) :
    (m.setByte a b).byte c = if c = a then b else m.byte c := Memory.byte_setByte_from a c b h

/-! ## Several bytes -/

theorem Memory.writeLE_wf : ∀ {m : Memory} (n a v : Nat), m.wf = true → (m.writeLE a n v).wf = true
  | _, 0, _, _, h => h
  | _, n + 1, a, v, h => Memory.writeLE_wf n (a + 1) (v / 256) (Memory.setByte_wf a _ h)

/-- Byte `c` after storing `n` bytes of `v` at `a` (00_scope.md R11). -/
theorem Memory.byte_writeLE : ∀ {m : Memory} (n a v c : Nat), m.wf = true →
    (m.writeLE a n v).byte c = if a ≤ c ∧ c < a + n then BitVec.ofNat 8 (v / 2 ^ (8 * (c - a))) else m.byte c
  | m, 0, a, v, c, _ => by rw [if_neg (by omega)]; rfl
  | m, n + 1, a, v, c, h => by
    rw [Memory.writeLE, Memory.byte_writeLE n (a + 1) (v / 256) c (Memory.setByte_wf a _ h), Memory.byte_setByte h]
    by_cases h1 : a + 1 ≤ c ∧ c < a + 1 + n
    · rw [if_pos h1, if_pos (by omega), Nat.div_div_eq_div_mul]
      have : c - a = (c - (a + 1)) + 1 := by omega
      rw [this, Nat.mul_add, Nat.pow_add, Nat.mul_comm 256]
    · rw [if_neg h1]
      by_cases h2 : c = a
      · subst h2; rw [if_pos rfl, if_pos (by omega)]; simp
      · rw [if_neg h2, if_neg (by omega)]

/-- A read depends only on the bytes it reads. -/
theorem Memory.readLE_congr {m m' : Memory} : ∀ (n a : Nat), (∀ c, a ≤ c → c < a + n → m'.byte c = m.byte c) →
    m'.readLE a n = m.readLE a n
  | 0, _, _ => rfl
  | n + 1, a, h => by
    rw [Memory.readLE, Memory.readLE, h a (le_refl a) (by omega),
      Memory.readLE_congr n (a + 1) fun c h1 h2 => h c (by omega) (by omega)]

/-- A read of bytes that a store leaves alone. -/
theorem Memory.readLE_writeLE_disjoint {m : Memory} (h : m.wf = true) (n a v k b : Nat) (hd : b + k ≤ a ∨ a + n ≤ b) :
    (m.writeLE a n v).readLE b k = m.readLE b k :=
  Memory.readLE_congr k b fun c h1 h2 => by rw [Memory.byte_writeLE n a v c h, if_neg (by omega)]

theorem Memory.readLE_eq : ∀ {m : Memory} (n a v : Nat), (∀ c, a ≤ c → c < a + n → m.byte c = BitVec.ofNat 8 (v / 2 ^ (8 * (c - a)))) →
    m.readLE a n = v % 2 ^ (8 * n)
  | m, 0, a, v, _ => by simp [Memory.readLE, Nat.mod_one]
  | m, n + 1, a, v, h => by
    have h0 := h a (le_refl a) (by omega)
    have ih := Memory.readLE_eq (m := m) n (a + 1) (v / 256) fun c h1 h2 => by
      rw [h c (by omega) (by omega), Nat.div_div_eq_div_mul]
      have : c - a = (c - (a + 1)) + 1 := by omega
      rw [this, Nat.mul_add, Nat.pow_add, Nat.mul_comm 256]
    rw [Memory.readLE, h0, ih]
    simp only [Nat.sub_self, Nat.mul_zero, Nat.pow_zero, Nat.div_one, BitVec.toNat_ofNat]
    rw [show 8 * (n + 1) = 8 + 8 * n by ring, Nat.pow_add, Nat.mod_mul]

/-- A read of the bytes just stored gives the value stored. -/
theorem Memory.readLE_writeLE {m : Memory} (h : m.wf = true) (n a v : Nat) :
    (m.writeLE a n v).readLE a n = v % 2 ^ (8 * n) :=
  Memory.readLE_eq n a v fun c h1 h2 => by rw [Memory.byte_writeLE n a v c h, if_pos ⟨h1, h2⟩]

theorem Memory.readLE_lt (m : Memory) : ∀ (n a : Nat), m.readLE a n < 2 ^ (8 * n)
  | 0, _ => by simp [Memory.readLE]
  | n + 1, a => by
    have ih := Memory.readLE_lt m n (a + 1)
    have hb := (m.byte a).isLt
    rw [Memory.readLE, show 8 * (n + 1) = 8 + 8 * n by ring, Nat.pow_add]
    omega

theorem Memory.setWord_wf {m : Memory} (a : Nat) (w : Word) (h : m.wf = true) : (m.setWord a w).wf = true :=
  Memory.writeLE_wf 4 a _ h

/-- A word reads back as stored. -/
theorem Memory.word_setWord {m : Memory} (h : m.wf = true) (a : Nat) (w : Word) : (m.setWord a w).word a = w := by
  unfold Memory.word Memory.setWord
  rw [Memory.readLE_writeLE h, Nat.mod_eq_of_lt w.isLt, BitVec.ofNat_toNat, BitVec.setWidth_eq]

theorem Memory.byte_setWord {m : Memory} (h : m.wf = true) (a : Nat) (w : Word) (c : Nat) (hc : c < a ∨ a + 4 ≤ c) :
    (m.setWord a w).byte c = m.byte c := by
  unfold Memory.setWord; rw [Memory.byte_writeLE 4 a _ c h, if_neg (by omega)]

/-! ## Records -/

theorem writeRecord_wf : ∀ {m : Memory} (a : Nat) (l : List DWord), m.wf = true → (writeRecord m a l).wf = true
  | _, _, [], h => h
  | _, a, _ :: t, h => writeRecord_wf (a + 4) t (Memory.setWord_wf a _ h)

/-- A record changes only its own bytes. -/
theorem byte_writeRecord : ∀ {m : Memory} (a : Nat) (l : List DWord) (c : Nat), m.wf = true → (c < a ∨ a + 4 * l.length ≤ c) →
    (writeRecord m a l).byte c = m.byte c
  | _, _, [], _, _, _ => rfl
  | m, a, x :: t, c, h, hc => by
    simp only [List.length_cons] at hc
    rw [writeRecord, byte_writeRecord (a + 4) t c (Memory.setWord_wf a _ h) (by omega), Memory.byte_setWord h a _ c (by omega)]

theorem readLE_writeRecord_disjoint {m : Memory} (h : m.wf = true) (a : Nat) (l : List DWord) (b k : Nat)
    (hd : b + k ≤ a ∨ a + 4 * l.length ≤ b) : (writeRecord m a l).readLE b k = m.readLE b k :=
  Memory.readLE_congr k b fun c h1 h2 => byte_writeRecord a l c h (by omega)

/-- Value `k` of a record stands, narrowed, at `a + 4k` (47_frame_chunked.md R236). -/
theorem word_writeRecord : ∀ {m : Memory} (a : Nat) (l : List DWord) (k : Nat) (hk : k < l.length), m.wf = true →
    (writeRecord m a l).word (a + 4 * k) = narrow l[k]
  | _, _, [], _, hk, _ => absurd hk (Nat.not_lt_zero _)
  | m, a, x :: t, 0, _, h => by
    have hw := Memory.setWord_wf a (narrow x) h
    have hr := Memory.word_setWord h a (narrow x)
    unfold Memory.word at hr ⊢
    show BitVec.ofNat 32 ((writeRecord (m.setWord a (narrow x)) (a + 4) t).readLE a 4) = narrow x
    rw [readLE_writeRecord_disjoint hw (a + 4) t a 4 (by omega)]
    exact hr
  | m, a, x :: t, k + 1, hk, h => by
    have hw := Memory.setWord_wf a (narrow x) h
    rw [writeRecord, show a + 4 * (k + 1) = (a + 4) + 4 * k by ring,
      word_writeRecord (a + 4) t k (by simpa using hk) hw, List.getElem_cons_succ]

theorem writeRecords_wf (f : Memory → Nat → List DWord) (out : Nat) : ∀ (n i : Nat) {m : Memory}, m.wf = true →
    (writeRecords f out n i m).wf = true
  | 0, _, _, h => h
  | n + 1, i, _, h => writeRecords_wf f out n (i + 1) (writeRecord_wf _ _ h)

/-- The record loop changes only the bytes of its records. -/
theorem byte_writeRecords {f : Memory → Nat → List DWord} {out : Nat} (hf : ∀ m i, (f m i).length = 14) :
    ∀ (n i : Nat) {m : Memory} (c : Nat), m.wf = true → (c < out + 56 * i ∨ out + 56 * (i + n) ≤ c) →
      (writeRecords f out n i m).byte c = m.byte c
  | 0, _, _, _, _, _ => rfl
  | n + 1, i, m, c, h, hc => by
    rw [writeRecords, byte_writeRecords hf n (i + 1) c (writeRecord_wf _ _ h) (by omega),
      byte_writeRecord _ _ c h (by rw [hf]; unfold recordBytes; omega)]

theorem Memory.drawBytes_wf : ∀ {m : Memory} (n a d : Nat), m.wf = true → (m.drawBytes a d n).wf = true
  | _, 0, _, _, h => h
  | _, n + 1, a, d, h => Memory.drawBytes_wf n (a + 1) (d + 1) (Memory.setByte_wf a _ h)

/-- Drawn bytes change only their own range. -/
theorem Memory.byte_drawBytes : ∀ {m : Memory} (n a d c : Nat), m.wf = true → (c < a ∨ a + n ≤ c) →
    (m.drawBytes a d n).byte c = m.byte c
  | _, 0, _, _, _, _, _ => rfl
  | m, n + 1, a, d, c, h, hc => by
    rw [Memory.drawBytes, Memory.byte_drawBytes n (a + 1) (d + 1) c (Memory.setByte_wf a _ h) (by omega),
      Memory.byte_setByte h, if_neg (by omega)]

end Sys2Proof.Machine
end

