-- ==== Sys2Proof/Laws/State.lean ====
section
/-! SUPPORT. One lemma per field of State per update of Machine/Ops.lean, Operands.lean, Flags.lean and HostPort.lean: no
later proof unfolds a record update. -/

namespace Sys2Proof.Machine

/-! ## setV -/

@[simp] theorem State.setV_v (s : State) (i : VReg) (x : DWord) : (s.setV i x).v = s.v.set i.val x i.isLt := rfl
@[simp] theorem State.setV_vWritten (s : State) (i : VReg) (x : DWord) : (s.setV i x).vWritten = s.vWritten.set i.val true i.isLt := rfl
@[simp] theorem State.setV_cptr (s : State) (i : VReg) (x : DWord) : (s.setV i x).cptr = s.cptr := rfl
@[simp] theorem State.setV_ie (s : State) (i : VReg) (x : DWord) : (s.setV i x).ie = s.ie := rfl
@[simp] theorem State.setV_busy (s : State) (i : VReg) (x : DWord) : (s.setV i x).busy = s.busy := rfl
@[simp] theorem State.setV_done (s : State) (i : VReg) (x : DWord) : (s.setV i x).done = s.done := rfl
@[simp] theorem State.setV_err (s : State) (i : VReg) (x : DWord) : (s.setV i x).err = s.err := rfl
@[simp] theorem State.setV_errCode (s : State) (i : VReg) (x : DWord) : (s.setV i x).errCode = s.errCode := rfl
@[simp] theorem State.setV_errPc (s : State) (i : VReg) (x : DWord) : (s.setV i x).errPc = s.errPc := rfl
@[simp] theorem State.setV_errInfo (s : State) (i : VReg) (x : DWord) : (s.setV i x).errInfo = s.errInfo := rfl
@[simp] theorem State.setV_cmdCount (s : State) (i : VReg) (x : DWord) : (s.setV i x).cmdCount = s.cmdCount := rfl
@[simp] theorem State.setV_inBase (s : State) (i : VReg) (x : DWord) : (s.setV i x).inBase = s.inBase := rfl
@[simp] theorem State.setV_inLen (s : State) (i : VReg) (x : DWord) : (s.setV i x).inLen = s.inLen := rfl
@[simp] theorem State.setV_descBase (s : State) (i : VReg) (x : DWord) : (s.setV i x).descBase = s.descBase := rfl
@[simp] theorem State.setV_outBase (s : State) (i : VReg) (x : DWord) : (s.setV i x).outBase = s.outBase := rfl
@[simp] theorem State.setV_outCount (s : State) (i : VReg) (x : DWord) : (s.setV i x).outCount = s.outCount := rfl
@[simp] theorem State.setV_imgCount (s : State) (i : VReg) (x : DWord) : (s.setV i x).imgCount = s.imgCount := rfl
@[simp] theorem State.setV_mins (s : State) (i : VReg) (x : DWord) : (s.setV i x).mins = s.mins := rfl
@[simp] theorem State.setV_maxs (s : State) (i : VReg) (x : DWord) : (s.setV i x).maxs = s.maxs := rfl
@[simp] theorem State.setV_scbBase (s : State) (i : VReg) (x : DWord) : (s.setV i x).scbBase = s.scbBase := rfl
@[simp] theorem State.setV_scbLen (s : State) (i : VReg) (x : DWord) : (s.setV i x).scbLen = s.scbLen := rfl
@[simp] theorem State.setV_shcbBase (s : State) (i : VReg) (x : DWord) : (s.setV i x).shcbBase = s.shcbBase := rfl
@[simp] theorem State.setV_shcbLen (s : State) (i : VReg) (x : DWord) : (s.setV i x).shcbLen = s.shcbLen := rfl
@[simp] theorem State.setV_planes (s : State) (i : VReg) (x : DWord) : (s.setV i x).planes = s.planes := rfl
@[simp] theorem State.setV_mem (s : State) (i : VReg) (x : DWord) : (s.setV i x).mem = s.mem := rfl
@[simp] theorem State.setV_resetHeld (s : State) (i : VReg) (x : DWord) : (s.setV i x).resetHeld = s.resetHeld := rfl
@[simp] theorem State.setV_turns (s : State) (i : VReg) (x : DWord) : (s.setV i x).turns = s.turns := rfl
@[simp] theorem State.setV_busData (s : State) (i : VReg) (x : DWord) : (s.setV i x).busData = s.busData := rfl
@[simp] theorem State.setV_draws (s : State) (i : VReg) (x : DWord) : (s.setV i x).draws = s.draws := rfl

/-! ## setF -/

@[simp] theorem State.setF_v (s : State) (i : VReg) (x : DWord) : (s.setF i x).v = s.v.set i.val (F64.canon x) i.isLt := rfl
@[simp] theorem State.setF_vWritten (s : State) (i : VReg) (x : DWord) : (s.setF i x).vWritten = s.vWritten.set i.val true i.isLt := rfl
@[simp] theorem State.setF_cptr (s : State) (i : VReg) (x : DWord) : (s.setF i x).cptr = s.cptr := rfl
@[simp] theorem State.setF_ie (s : State) (i : VReg) (x : DWord) : (s.setF i x).ie = s.ie := rfl
@[simp] theorem State.setF_busy (s : State) (i : VReg) (x : DWord) : (s.setF i x).busy = s.busy := rfl
@[simp] theorem State.setF_done (s : State) (i : VReg) (x : DWord) : (s.setF i x).done = s.done := rfl
@[simp] theorem State.setF_err (s : State) (i : VReg) (x : DWord) : (s.setF i x).err = s.err := rfl
@[simp] theorem State.setF_errCode (s : State) (i : VReg) (x : DWord) : (s.setF i x).errCode = s.errCode := rfl
@[simp] theorem State.setF_errPc (s : State) (i : VReg) (x : DWord) : (s.setF i x).errPc = s.errPc := rfl
@[simp] theorem State.setF_errInfo (s : State) (i : VReg) (x : DWord) : (s.setF i x).errInfo = s.errInfo := rfl
@[simp] theorem State.setF_cmdCount (s : State) (i : VReg) (x : DWord) : (s.setF i x).cmdCount = s.cmdCount := rfl
@[simp] theorem State.setF_inBase (s : State) (i : VReg) (x : DWord) : (s.setF i x).inBase = s.inBase := rfl
@[simp] theorem State.setF_inLen (s : State) (i : VReg) (x : DWord) : (s.setF i x).inLen = s.inLen := rfl
@[simp] theorem State.setF_descBase (s : State) (i : VReg) (x : DWord) : (s.setF i x).descBase = s.descBase := rfl
@[simp] theorem State.setF_outBase (s : State) (i : VReg) (x : DWord) : (s.setF i x).outBase = s.outBase := rfl
@[simp] theorem State.setF_outCount (s : State) (i : VReg) (x : DWord) : (s.setF i x).outCount = s.outCount := rfl
@[simp] theorem State.setF_imgCount (s : State) (i : VReg) (x : DWord) : (s.setF i x).imgCount = s.imgCount := rfl
@[simp] theorem State.setF_mins (s : State) (i : VReg) (x : DWord) : (s.setF i x).mins = s.mins := rfl
@[simp] theorem State.setF_maxs (s : State) (i : VReg) (x : DWord) : (s.setF i x).maxs = s.maxs := rfl
@[simp] theorem State.setF_scbBase (s : State) (i : VReg) (x : DWord) : (s.setF i x).scbBase = s.scbBase := rfl
@[simp] theorem State.setF_scbLen (s : State) (i : VReg) (x : DWord) : (s.setF i x).scbLen = s.scbLen := rfl
@[simp] theorem State.setF_shcbBase (s : State) (i : VReg) (x : DWord) : (s.setF i x).shcbBase = s.shcbBase := rfl
@[simp] theorem State.setF_shcbLen (s : State) (i : VReg) (x : DWord) : (s.setF i x).shcbLen = s.shcbLen := rfl
@[simp] theorem State.setF_planes (s : State) (i : VReg) (x : DWord) : (s.setF i x).planes = s.planes := rfl
@[simp] theorem State.setF_mem (s : State) (i : VReg) (x : DWord) : (s.setF i x).mem = s.mem := rfl
@[simp] theorem State.setF_resetHeld (s : State) (i : VReg) (x : DWord) : (s.setF i x).resetHeld = s.resetHeld := rfl
@[simp] theorem State.setF_turns (s : State) (i : VReg) (x : DWord) : (s.setF i x).turns = s.turns := rfl
@[simp] theorem State.setF_busData (s : State) (i : VReg) (x : DWord) : (s.setF i x).busData = s.busData := rfl
@[simp] theorem State.setF_draws (s : State) (i : VReg) (x : DWord) : (s.setF i x).draws = s.draws := rfl

/-! ## setF3 -/

@[simp] theorem State.setF3_cptr (s : State) (i : VReg) (x : DWord × DWord × DWord) : (s.setF3 i x).cptr = s.cptr := rfl
@[simp] theorem State.setF3_ie (s : State) (i : VReg) (x : DWord × DWord × DWord) : (s.setF3 i x).ie = s.ie := rfl
@[simp] theorem State.setF3_busy (s : State) (i : VReg) (x : DWord × DWord × DWord) : (s.setF3 i x).busy = s.busy := rfl
@[simp] theorem State.setF3_done (s : State) (i : VReg) (x : DWord × DWord × DWord) : (s.setF3 i x).done = s.done := rfl
@[simp] theorem State.setF3_err (s : State) (i : VReg) (x : DWord × DWord × DWord) : (s.setF3 i x).err = s.err := rfl
@[simp] theorem State.setF3_errCode (s : State) (i : VReg) (x : DWord × DWord × DWord) : (s.setF3 i x).errCode = s.errCode := rfl
@[simp] theorem State.setF3_errPc (s : State) (i : VReg) (x : DWord × DWord × DWord) : (s.setF3 i x).errPc = s.errPc := rfl
@[simp] theorem State.setF3_errInfo (s : State) (i : VReg) (x : DWord × DWord × DWord) : (s.setF3 i x).errInfo = s.errInfo := rfl
@[simp] theorem State.setF3_cmdCount (s : State) (i : VReg) (x : DWord × DWord × DWord) : (s.setF3 i x).cmdCount = s.cmdCount := rfl
@[simp] theorem State.setF3_inBase (s : State) (i : VReg) (x : DWord × DWord × DWord) : (s.setF3 i x).inBase = s.inBase := rfl
@[simp] theorem State.setF3_inLen (s : State) (i : VReg) (x : DWord × DWord × DWord) : (s.setF3 i x).inLen = s.inLen := rfl
@[simp] theorem State.setF3_descBase (s : State) (i : VReg) (x : DWord × DWord × DWord) : (s.setF3 i x).descBase = s.descBase := rfl
@[simp] theorem State.setF3_outBase (s : State) (i : VReg) (x : DWord × DWord × DWord) : (s.setF3 i x).outBase = s.outBase := rfl
@[simp] theorem State.setF3_outCount (s : State) (i : VReg) (x : DWord × DWord × DWord) : (s.setF3 i x).outCount = s.outCount := rfl
@[simp] theorem State.setF3_imgCount (s : State) (i : VReg) (x : DWord × DWord × DWord) : (s.setF3 i x).imgCount = s.imgCount := rfl
@[simp] theorem State.setF3_mins (s : State) (i : VReg) (x : DWord × DWord × DWord) : (s.setF3 i x).mins = s.mins := rfl
@[simp] theorem State.setF3_maxs (s : State) (i : VReg) (x : DWord × DWord × DWord) : (s.setF3 i x).maxs = s.maxs := rfl
@[simp] theorem State.setF3_scbBase (s : State) (i : VReg) (x : DWord × DWord × DWord) : (s.setF3 i x).scbBase = s.scbBase := rfl
@[simp] theorem State.setF3_scbLen (s : State) (i : VReg) (x : DWord × DWord × DWord) : (s.setF3 i x).scbLen = s.scbLen := rfl
@[simp] theorem State.setF3_shcbBase (s : State) (i : VReg) (x : DWord × DWord × DWord) : (s.setF3 i x).shcbBase = s.shcbBase := rfl
@[simp] theorem State.setF3_shcbLen (s : State) (i : VReg) (x : DWord × DWord × DWord) : (s.setF3 i x).shcbLen = s.shcbLen := rfl
@[simp] theorem State.setF3_planes (s : State) (i : VReg) (x : DWord × DWord × DWord) : (s.setF3 i x).planes = s.planes := rfl
@[simp] theorem State.setF3_mem (s : State) (i : VReg) (x : DWord × DWord × DWord) : (s.setF3 i x).mem = s.mem := rfl
@[simp] theorem State.setF3_resetHeld (s : State) (i : VReg) (x : DWord × DWord × DWord) : (s.setF3 i x).resetHeld = s.resetHeld := rfl
@[simp] theorem State.setF3_turns (s : State) (i : VReg) (x : DWord × DWord × DWord) : (s.setF3 i x).turns = s.turns := rfl
@[simp] theorem State.setF3_busData (s : State) (i : VReg) (x : DWord × DWord × DWord) : (s.setF3 i x).busData = s.busData := rfl
@[simp] theorem State.setF3_draws (s : State) (i : VReg) (x : DWord × DWord × DWord) : (s.setF3 i x).draws = s.draws := rfl

/-! ## setF4 -/

@[simp] theorem State.setF4_cptr (s : State) (i : VReg) (x : DWord × DWord × DWord × DWord) : (s.setF4 i x).cptr = s.cptr := rfl
@[simp] theorem State.setF4_ie (s : State) (i : VReg) (x : DWord × DWord × DWord × DWord) : (s.setF4 i x).ie = s.ie := rfl
@[simp] theorem State.setF4_busy (s : State) (i : VReg) (x : DWord × DWord × DWord × DWord) : (s.setF4 i x).busy = s.busy := rfl
@[simp] theorem State.setF4_done (s : State) (i : VReg) (x : DWord × DWord × DWord × DWord) : (s.setF4 i x).done = s.done := rfl
@[simp] theorem State.setF4_err (s : State) (i : VReg) (x : DWord × DWord × DWord × DWord) : (s.setF4 i x).err = s.err := rfl
@[simp] theorem State.setF4_errCode (s : State) (i : VReg) (x : DWord × DWord × DWord × DWord) : (s.setF4 i x).errCode = s.errCode := rfl
@[simp] theorem State.setF4_errPc (s : State) (i : VReg) (x : DWord × DWord × DWord × DWord) : (s.setF4 i x).errPc = s.errPc := rfl
@[simp] theorem State.setF4_errInfo (s : State) (i : VReg) (x : DWord × DWord × DWord × DWord) : (s.setF4 i x).errInfo = s.errInfo := rfl
@[simp] theorem State.setF4_cmdCount (s : State) (i : VReg) (x : DWord × DWord × DWord × DWord) : (s.setF4 i x).cmdCount = s.cmdCount := rfl
@[simp] theorem State.setF4_inBase (s : State) (i : VReg) (x : DWord × DWord × DWord × DWord) : (s.setF4 i x).inBase = s.inBase := rfl
@[simp] theorem State.setF4_inLen (s : State) (i : VReg) (x : DWord × DWord × DWord × DWord) : (s.setF4 i x).inLen = s.inLen := rfl
@[simp] theorem State.setF4_descBase (s : State) (i : VReg) (x : DWord × DWord × DWord × DWord) : (s.setF4 i x).descBase = s.descBase := rfl
@[simp] theorem State.setF4_outBase (s : State) (i : VReg) (x : DWord × DWord × DWord × DWord) : (s.setF4 i x).outBase = s.outBase := rfl
@[simp] theorem State.setF4_outCount (s : State) (i : VReg) (x : DWord × DWord × DWord × DWord) : (s.setF4 i x).outCount = s.outCount := rfl
@[simp] theorem State.setF4_imgCount (s : State) (i : VReg) (x : DWord × DWord × DWord × DWord) : (s.setF4 i x).imgCount = s.imgCount := rfl
@[simp] theorem State.setF4_mins (s : State) (i : VReg) (x : DWord × DWord × DWord × DWord) : (s.setF4 i x).mins = s.mins := rfl
@[simp] theorem State.setF4_maxs (s : State) (i : VReg) (x : DWord × DWord × DWord × DWord) : (s.setF4 i x).maxs = s.maxs := rfl
@[simp] theorem State.setF4_scbBase (s : State) (i : VReg) (x : DWord × DWord × DWord × DWord) : (s.setF4 i x).scbBase = s.scbBase := rfl
@[simp] theorem State.setF4_scbLen (s : State) (i : VReg) (x : DWord × DWord × DWord × DWord) : (s.setF4 i x).scbLen = s.scbLen := rfl
@[simp] theorem State.setF4_shcbBase (s : State) (i : VReg) (x : DWord × DWord × DWord × DWord) : (s.setF4 i x).shcbBase = s.shcbBase := rfl
@[simp] theorem State.setF4_shcbLen (s : State) (i : VReg) (x : DWord × DWord × DWord × DWord) : (s.setF4 i x).shcbLen = s.shcbLen := rfl
@[simp] theorem State.setF4_planes (s : State) (i : VReg) (x : DWord × DWord × DWord × DWord) : (s.setF4 i x).planes = s.planes := rfl
@[simp] theorem State.setF4_mem (s : State) (i : VReg) (x : DWord × DWord × DWord × DWord) : (s.setF4 i x).mem = s.mem := rfl
@[simp] theorem State.setF4_resetHeld (s : State) (i : VReg) (x : DWord × DWord × DWord × DWord) : (s.setF4 i x).resetHeld = s.resetHeld := rfl
@[simp] theorem State.setF4_turns (s : State) (i : VReg) (x : DWord × DWord × DWord × DWord) : (s.setF4 i x).turns = s.turns := rfl
@[simp] theorem State.setF4_busData (s : State) (i : VReg) (x : DWord × DWord × DWord × DWord) : (s.setF4 i x).busData = s.busData := rfl
@[simp] theorem State.setF4_draws (s : State) (i : VReg) (x : DWord × DWord × DWord × DWord) : (s.setF4 i x).draws = s.draws := rfl

/-! ## raise -/

@[simp] theorem State.raise_v (s : State) (e : NceError) : (s.raise e).v = s.v := rfl
@[simp] theorem State.raise_vWritten (s : State) (e : NceError) : (s.raise e).vWritten = s.vWritten := rfl
@[simp] theorem State.raise_cptr (s : State) (e : NceError) : (s.raise e).cptr = s.cptr := rfl
@[simp] theorem State.raise_ie (s : State) (e : NceError) : (s.raise e).ie = s.ie := rfl
@[simp] theorem State.raise_busy (s : State) (e : NceError) : (s.raise e).busy = false := rfl
@[simp] theorem State.raise_done (s : State) (e : NceError) : (s.raise e).done = s.done := rfl
@[simp] theorem State.raise_err (s : State) (e : NceError) : (s.raise e).err = true := rfl
@[simp] theorem State.raise_errCode (s : State) (e : NceError) : (s.raise e).errCode = e.code := rfl
@[simp] theorem State.raise_errPc (s : State) (e : NceError) : (s.raise e).errPc = s.cptr := rfl
@[simp] theorem State.raise_errInfo (s : State) (e : NceError) : (s.raise e).errInfo = e.info := rfl
@[simp] theorem State.raise_cmdCount (s : State) (e : NceError) : (s.raise e).cmdCount = s.cmdCount := rfl
@[simp] theorem State.raise_inBase (s : State) (e : NceError) : (s.raise e).inBase = s.inBase := rfl
@[simp] theorem State.raise_inLen (s : State) (e : NceError) : (s.raise e).inLen = s.inLen := rfl
@[simp] theorem State.raise_descBase (s : State) (e : NceError) : (s.raise e).descBase = s.descBase := rfl
@[simp] theorem State.raise_outBase (s : State) (e : NceError) : (s.raise e).outBase = s.outBase := rfl
@[simp] theorem State.raise_outCount (s : State) (e : NceError) : (s.raise e).outCount = s.outCount := rfl
@[simp] theorem State.raise_imgCount (s : State) (e : NceError) : (s.raise e).imgCount = s.imgCount := rfl
@[simp] theorem State.raise_mins (s : State) (e : NceError) : (s.raise e).mins = s.mins := rfl
@[simp] theorem State.raise_maxs (s : State) (e : NceError) : (s.raise e).maxs = s.maxs := rfl
@[simp] theorem State.raise_scbBase (s : State) (e : NceError) : (s.raise e).scbBase = s.scbBase := rfl
@[simp] theorem State.raise_scbLen (s : State) (e : NceError) : (s.raise e).scbLen = s.scbLen := rfl
@[simp] theorem State.raise_shcbBase (s : State) (e : NceError) : (s.raise e).shcbBase = s.shcbBase := rfl
@[simp] theorem State.raise_shcbLen (s : State) (e : NceError) : (s.raise e).shcbLen = s.shcbLen := rfl
@[simp] theorem State.raise_planes (s : State) (e : NceError) : (s.raise e).planes = s.planes := rfl
@[simp] theorem State.raise_mem (s : State) (e : NceError) : (s.raise e).mem = s.mem := rfl
@[simp] theorem State.raise_resetHeld (s : State) (e : NceError) : (s.raise e).resetHeld = s.resetHeld := rfl
@[simp] theorem State.raise_turns (s : State) (e : NceError) : (s.raise e).turns = s.turns := rfl
@[simp] theorem State.raise_busData (s : State) (e : NceError) : (s.raise e).busData = s.busData := rfl
@[simp] theorem State.raise_draws (s : State) (e : NceError) : (s.raise e).draws = s.draws := rfl

/-! ## raiseFrame -/

@[simp] theorem State.raiseFrame_v (s : State) (e : NceError) : (s.raiseFrame e).v = s.v := rfl
@[simp] theorem State.raiseFrame_vWritten (s : State) (e : NceError) : (s.raiseFrame e).vWritten = s.vWritten := rfl
@[simp] theorem State.raiseFrame_cptr (s : State) (e : NceError) : (s.raiseFrame e).cptr = s.cptr := rfl
@[simp] theorem State.raiseFrame_ie (s : State) (e : NceError) : (s.raiseFrame e).ie = s.ie := rfl
@[simp] theorem State.raiseFrame_busy (s : State) (e : NceError) : (s.raiseFrame e).busy = false := rfl
@[simp] theorem State.raiseFrame_done (s : State) (e : NceError) : (s.raiseFrame e).done = s.done := rfl
@[simp] theorem State.raiseFrame_err (s : State) (e : NceError) : (s.raiseFrame e).err = true := rfl
@[simp] theorem State.raiseFrame_errCode (s : State) (e : NceError) : (s.raiseFrame e).errCode = e.code := rfl
@[simp] theorem State.raiseFrame_errPc (s : State) (e : NceError) : (s.raiseFrame e).errPc = s.cptr := rfl
@[simp] theorem State.raiseFrame_errInfo (s : State) (e : NceError) : (s.raiseFrame e).errInfo = e.info := rfl
@[simp] theorem State.raiseFrame_cmdCount (s : State) (e : NceError) : (s.raiseFrame e).cmdCount = s.cmdCount := rfl
@[simp] theorem State.raiseFrame_inBase (s : State) (e : NceError) : (s.raiseFrame e).inBase = s.inBase := rfl
@[simp] theorem State.raiseFrame_inLen (s : State) (e : NceError) : (s.raiseFrame e).inLen = s.inLen := rfl
@[simp] theorem State.raiseFrame_descBase (s : State) (e : NceError) : (s.raiseFrame e).descBase = s.descBase := rfl
@[simp] theorem State.raiseFrame_outBase (s : State) (e : NceError) : (s.raiseFrame e).outBase = s.outBase := rfl
@[simp] theorem State.raiseFrame_outCount (s : State) (e : NceError) : (s.raiseFrame e).outCount = 0#32 := rfl
@[simp] theorem State.raiseFrame_imgCount (s : State) (e : NceError) : (s.raiseFrame e).imgCount = s.imgCount := rfl
@[simp] theorem State.raiseFrame_mins (s : State) (e : NceError) : (s.raiseFrame e).mins = s.mins := rfl
@[simp] theorem State.raiseFrame_maxs (s : State) (e : NceError) : (s.raiseFrame e).maxs = s.maxs := rfl
@[simp] theorem State.raiseFrame_scbBase (s : State) (e : NceError) : (s.raiseFrame e).scbBase = s.scbBase := rfl
@[simp] theorem State.raiseFrame_scbLen (s : State) (e : NceError) : (s.raiseFrame e).scbLen = s.scbLen := rfl
@[simp] theorem State.raiseFrame_shcbBase (s : State) (e : NceError) : (s.raiseFrame e).shcbBase = s.shcbBase := rfl
@[simp] theorem State.raiseFrame_shcbLen (s : State) (e : NceError) : (s.raiseFrame e).shcbLen = s.shcbLen := rfl
@[simp] theorem State.raiseFrame_planes (s : State) (e : NceError) : (s.raiseFrame e).planes = s.planes := rfl
@[simp] theorem State.raiseFrame_mem (s : State) (e : NceError) : (s.raiseFrame e).mem = s.mem := rfl
@[simp] theorem State.raiseFrame_resetHeld (s : State) (e : NceError) : (s.raiseFrame e).resetHeld = s.resetHeld := rfl
@[simp] theorem State.raiseFrame_turns (s : State) (e : NceError) : (s.raiseFrame e).turns = s.turns := rfl
@[simp] theorem State.raiseFrame_busData (s : State) (e : NceError) : (s.raiseFrame e).busData = s.busData := rfl
@[simp] theorem State.raiseFrame_draws (s : State) (e : NceError) : (s.raiseFrame e).draws = s.draws := rfl

/-! ## start -/

@[simp] theorem State.start_v (s : State) (b : Bool) : (s.start b).v = s.v := rfl
@[simp] theorem State.start_vWritten (s : State) (b : Bool) : (s.start b).vWritten = s.vWritten := rfl
@[simp] theorem State.start_cptr (s : State) (b : Bool) : (s.start b).cptr = s.cptr := rfl
@[simp] theorem State.start_ie (s : State) (b : Bool) : (s.start b).ie = b := rfl
@[simp] theorem State.start_busy (s : State) (b : Bool) : (s.start b).busy = true := rfl
@[simp] theorem State.start_done (s : State) (b : Bool) : (s.start b).done = false := rfl
@[simp] theorem State.start_err (s : State) (b : Bool) : (s.start b).err = false := rfl
@[simp] theorem State.start_errCode (s : State) (b : Bool) : (s.start b).errCode = 0#8 := rfl
@[simp] theorem State.start_errPc (s : State) (b : Bool) : (s.start b).errPc = 0#32 := rfl
@[simp] theorem State.start_errInfo (s : State) (b : Bool) : (s.start b).errInfo = 0#32 := rfl
@[simp] theorem State.start_cmdCount (s : State) (b : Bool) : (s.start b).cmdCount = 0#32 := rfl
@[simp] theorem State.start_inBase (s : State) (b : Bool) : (s.start b).inBase = s.inBase := rfl
@[simp] theorem State.start_inLen (s : State) (b : Bool) : (s.start b).inLen = s.inLen := rfl
@[simp] theorem State.start_descBase (s : State) (b : Bool) : (s.start b).descBase = s.descBase := rfl
@[simp] theorem State.start_outBase (s : State) (b : Bool) : (s.start b).outBase = s.outBase := rfl
@[simp] theorem State.start_outCount (s : State) (b : Bool) : (s.start b).outCount = s.outCount := rfl
@[simp] theorem State.start_imgCount (s : State) (b : Bool) : (s.start b).imgCount = s.imgCount := rfl
@[simp] theorem State.start_mins (s : State) (b : Bool) : (s.start b).mins = s.mins := rfl
@[simp] theorem State.start_maxs (s : State) (b : Bool) : (s.start b).maxs = s.maxs := rfl
@[simp] theorem State.start_scbBase (s : State) (b : Bool) : (s.start b).scbBase = s.scbBase := rfl
@[simp] theorem State.start_scbLen (s : State) (b : Bool) : (s.start b).scbLen = s.scbLen := rfl
@[simp] theorem State.start_shcbBase (s : State) (b : Bool) : (s.start b).shcbBase = s.shcbBase := rfl
@[simp] theorem State.start_shcbLen (s : State) (b : Bool) : (s.start b).shcbLen = s.shcbLen := rfl
@[simp] theorem State.start_planes (s : State) (b : Bool) : (s.start b).planes = s.planes := rfl
@[simp] theorem State.start_mem (s : State) (b : Bool) : (s.start b).mem = s.mem := rfl
@[simp] theorem State.start_resetHeld (s : State) (b : Bool) : (s.start b).resetHeld = s.resetHeld := rfl
@[simp] theorem State.start_turns (s : State) (b : Bool) : (s.start b).turns = s.turns := rfl
@[simp] theorem State.start_busData (s : State) (b : Bool) : (s.start b).busData = s.busData := rfl
@[simp] theorem State.start_draws (s : State) (b : Bool) : (s.start b).draws = s.draws := rfl

/-! ## retire -/

@[simp] theorem State.retire_v (s : State) : s.retire.v = s.v := rfl
@[simp] theorem State.retire_vWritten (s : State) : s.retire.vWritten = s.vWritten := rfl
@[simp] theorem State.retire_cptr (s : State) : s.retire.cptr = s.cptr + 4#32 := rfl
@[simp] theorem State.retire_ie (s : State) : s.retire.ie = s.ie := rfl
@[simp] theorem State.retire_busy (s : State) : s.retire.busy = s.busy := rfl
@[simp] theorem State.retire_done (s : State) : s.retire.done = s.done := rfl
@[simp] theorem State.retire_err (s : State) : s.retire.err = s.err := rfl
@[simp] theorem State.retire_errCode (s : State) : s.retire.errCode = s.errCode := rfl
@[simp] theorem State.retire_errPc (s : State) : s.retire.errPc = s.errPc := rfl
@[simp] theorem State.retire_errInfo (s : State) : s.retire.errInfo = s.errInfo := rfl
@[simp] theorem State.retire_cmdCount (s : State) : s.retire.cmdCount = s.cmdCount + 1#32 := rfl
@[simp] theorem State.retire_inBase (s : State) : s.retire.inBase = s.inBase := rfl
@[simp] theorem State.retire_inLen (s : State) : s.retire.inLen = s.inLen := rfl
@[simp] theorem State.retire_descBase (s : State) : s.retire.descBase = s.descBase := rfl
@[simp] theorem State.retire_outBase (s : State) : s.retire.outBase = s.outBase := rfl
@[simp] theorem State.retire_outCount (s : State) : s.retire.outCount = s.outCount := rfl
@[simp] theorem State.retire_imgCount (s : State) : s.retire.imgCount = s.imgCount := rfl
@[simp] theorem State.retire_mins (s : State) : s.retire.mins = s.mins := rfl
@[simp] theorem State.retire_maxs (s : State) : s.retire.maxs = s.maxs := rfl
@[simp] theorem State.retire_scbBase (s : State) : s.retire.scbBase = s.scbBase := rfl
@[simp] theorem State.retire_scbLen (s : State) : s.retire.scbLen = s.scbLen := rfl
@[simp] theorem State.retire_shcbBase (s : State) : s.retire.shcbBase = s.shcbBase := rfl
@[simp] theorem State.retire_shcbLen (s : State) : s.retire.shcbLen = s.shcbLen := rfl
@[simp] theorem State.retire_planes (s : State) : s.retire.planes = s.planes := rfl
@[simp] theorem State.retire_mem (s : State) : s.retire.mem = s.mem := rfl
@[simp] theorem State.retire_resetHeld (s : State) : s.retire.resetHeld = s.resetHeld := rfl
@[simp] theorem State.retire_turns (s : State) : s.retire.turns = s.turns := rfl
@[simp] theorem State.retire_busData (s : State) : s.retire.busData = s.busData := rfl
@[simp] theorem State.retire_draws (s : State) : s.retire.draws = s.draws := rfl

/-! ## endRun -/

@[simp] theorem State.endRun_v (s : State) : s.endRun.v = s.v := rfl
@[simp] theorem State.endRun_vWritten (s : State) : s.endRun.vWritten = s.vWritten := rfl
@[simp] theorem State.endRun_cptr (s : State) : s.endRun.cptr = s.cptr := rfl
@[simp] theorem State.endRun_ie (s : State) : s.endRun.ie = s.ie := rfl
@[simp] theorem State.endRun_busy (s : State) : s.endRun.busy = false := rfl
@[simp] theorem State.endRun_done (s : State) : s.endRun.done = true := rfl
@[simp] theorem State.endRun_err (s : State) : s.endRun.err = s.err := rfl
@[simp] theorem State.endRun_errCode (s : State) : s.endRun.errCode = s.errCode := rfl
@[simp] theorem State.endRun_errPc (s : State) : s.endRun.errPc = s.errPc := rfl
@[simp] theorem State.endRun_errInfo (s : State) : s.endRun.errInfo = s.errInfo := rfl
@[simp] theorem State.endRun_cmdCount (s : State) : s.endRun.cmdCount = s.cmdCount := rfl
@[simp] theorem State.endRun_inBase (s : State) : s.endRun.inBase = s.inBase := rfl
@[simp] theorem State.endRun_inLen (s : State) : s.endRun.inLen = s.inLen := rfl
@[simp] theorem State.endRun_descBase (s : State) : s.endRun.descBase = s.descBase := rfl
@[simp] theorem State.endRun_outBase (s : State) : s.endRun.outBase = s.outBase := rfl
@[simp] theorem State.endRun_outCount (s : State) : s.endRun.outCount = s.outCount := rfl
@[simp] theorem State.endRun_imgCount (s : State) : s.endRun.imgCount = s.imgCount := rfl
@[simp] theorem State.endRun_mins (s : State) : s.endRun.mins = s.mins := rfl
@[simp] theorem State.endRun_maxs (s : State) : s.endRun.maxs = s.maxs := rfl
@[simp] theorem State.endRun_scbBase (s : State) : s.endRun.scbBase = s.scbBase := rfl
@[simp] theorem State.endRun_scbLen (s : State) : s.endRun.scbLen = s.scbLen := rfl
@[simp] theorem State.endRun_shcbBase (s : State) : s.endRun.shcbBase = s.shcbBase := rfl
@[simp] theorem State.endRun_shcbLen (s : State) : s.endRun.shcbLen = s.shcbLen := rfl
@[simp] theorem State.endRun_planes (s : State) : s.endRun.planes = s.planes := rfl
@[simp] theorem State.endRun_mem (s : State) : s.endRun.mem = s.mem := rfl
@[simp] theorem State.endRun_resetHeld (s : State) : s.endRun.resetHeld = s.resetHeld := rfl
@[simp] theorem State.endRun_turns (s : State) : s.endRun.turns = s.turns := rfl
@[simp] theorem State.endRun_busData (s : State) : s.endRun.busData = s.busData := rfl
@[simp] theorem State.endRun_draws (s : State) : s.endRun.draws = s.draws := rfl

/-! ## setPlane -/

@[simp] theorem State.setPlane_v (s : State) (k : Fin 5) (p : Plane) : (s.setPlane k p).v = s.v := rfl
@[simp] theorem State.setPlane_vWritten (s : State) (k : Fin 5) (p : Plane) : (s.setPlane k p).vWritten = s.vWritten := rfl
@[simp] theorem State.setPlane_cptr (s : State) (k : Fin 5) (p : Plane) : (s.setPlane k p).cptr = s.cptr := rfl
@[simp] theorem State.setPlane_ie (s : State) (k : Fin 5) (p : Plane) : (s.setPlane k p).ie = s.ie := rfl
@[simp] theorem State.setPlane_busy (s : State) (k : Fin 5) (p : Plane) : (s.setPlane k p).busy = s.busy := rfl
@[simp] theorem State.setPlane_done (s : State) (k : Fin 5) (p : Plane) : (s.setPlane k p).done = s.done := rfl
@[simp] theorem State.setPlane_err (s : State) (k : Fin 5) (p : Plane) : (s.setPlane k p).err = s.err := rfl
@[simp] theorem State.setPlane_errCode (s : State) (k : Fin 5) (p : Plane) : (s.setPlane k p).errCode = s.errCode := rfl
@[simp] theorem State.setPlane_errPc (s : State) (k : Fin 5) (p : Plane) : (s.setPlane k p).errPc = s.errPc := rfl
@[simp] theorem State.setPlane_errInfo (s : State) (k : Fin 5) (p : Plane) : (s.setPlane k p).errInfo = s.errInfo := rfl
@[simp] theorem State.setPlane_cmdCount (s : State) (k : Fin 5) (p : Plane) : (s.setPlane k p).cmdCount = s.cmdCount := rfl
@[simp] theorem State.setPlane_inBase (s : State) (k : Fin 5) (p : Plane) : (s.setPlane k p).inBase = s.inBase := rfl
@[simp] theorem State.setPlane_inLen (s : State) (k : Fin 5) (p : Plane) : (s.setPlane k p).inLen = s.inLen := rfl
@[simp] theorem State.setPlane_descBase (s : State) (k : Fin 5) (p : Plane) : (s.setPlane k p).descBase = s.descBase := rfl
@[simp] theorem State.setPlane_outBase (s : State) (k : Fin 5) (p : Plane) : (s.setPlane k p).outBase = s.outBase := rfl
@[simp] theorem State.setPlane_outCount (s : State) (k : Fin 5) (p : Plane) : (s.setPlane k p).outCount = s.outCount := rfl
@[simp] theorem State.setPlane_imgCount (s : State) (k : Fin 5) (p : Plane) : (s.setPlane k p).imgCount = s.imgCount := rfl
@[simp] theorem State.setPlane_mins (s : State) (k : Fin 5) (p : Plane) : (s.setPlane k p).mins = s.mins := rfl
@[simp] theorem State.setPlane_maxs (s : State) (k : Fin 5) (p : Plane) : (s.setPlane k p).maxs = s.maxs := rfl
@[simp] theorem State.setPlane_scbBase (s : State) (k : Fin 5) (p : Plane) : (s.setPlane k p).scbBase = s.scbBase := rfl
@[simp] theorem State.setPlane_scbLen (s : State) (k : Fin 5) (p : Plane) : (s.setPlane k p).scbLen = s.scbLen := rfl
@[simp] theorem State.setPlane_shcbBase (s : State) (k : Fin 5) (p : Plane) : (s.setPlane k p).shcbBase = s.shcbBase := rfl
@[simp] theorem State.setPlane_shcbLen (s : State) (k : Fin 5) (p : Plane) : (s.setPlane k p).shcbLen = s.shcbLen := rfl
@[simp] theorem State.setPlane_planes (s : State) (k : Fin 5) (p : Plane) : (s.setPlane k p).planes = s.planes.set k.val p k.isLt := rfl
@[simp] theorem State.setPlane_mem (s : State) (k : Fin 5) (p : Plane) : (s.setPlane k p).mem = s.mem := rfl
@[simp] theorem State.setPlane_resetHeld (s : State) (k : Fin 5) (p : Plane) : (s.setPlane k p).resetHeld = s.resetHeld := rfl
@[simp] theorem State.setPlane_turns (s : State) (k : Fin 5) (p : Plane) : (s.setPlane k p).turns = s.turns := rfl
@[simp] theorem State.setPlane_busData (s : State) (k : Fin 5) (p : Plane) : (s.setPlane k p).busData = s.busData := rfl
@[simp] theorem State.setPlane_draws (s : State) (k : Fin 5) (p : Plane) : (s.setPlane k p).draws = s.draws := rfl

end Sys2Proof.Machine
end

