-- ==== Sys2Proof/Laws/Ops.lean ====
section
/-! SUPPORT. One lemma per shared operation: what a completed command answers, when a check passes, what the writes of
the V file leave. -/

namespace Sys2Proof.Machine

/-! ## How a command ends -/

/-- A command that is no frame command answers a next state: its result retired, or its error taken. -/
theorem complete_eq (s : State) (r : Except NceError State) :
    complete s r = .next (match r with | .ok s' => s'.retire | .error e => s.raise e) := by
  cases r <;> rfl

/-- The same of a frame command. -/
theorem completeFrame_eq (s : State) (r : Except NceError State) :
    completeFrame s r = .next (match r with | .ok s' => s'.retire | .error e => s.raiseFrame e) := by
  cases r <;> rfl

@[simp] theorem complete_ok (s t : State) : complete s (.ok t) = .next t.retire := rfl
@[simp] theorem complete_error (s : State) (e : NceError) : complete s (.error e) = .next (s.raise e) := rfl
@[simp] theorem completeFrame_ok (s t : State) : completeFrame s (.ok t) = .next t.retire := rfl
@[simp] theorem completeFrame_error (s : State) (e : NceError) : completeFrame s (.error e) = .next (s.raiseFrame e) := rfl

/-- Everything `complete` can answer. -/
theorem complete_cases {s t : State} {r : Except NceError State} (h : complete s r = .next t) :
    (∃ s', r = .ok s' ∧ t = s'.retire) ∨ (∃ e, r = .error e ∧ t = s.raise e) := by
  cases r with
  | ok s' => exact .inl ⟨s', rfl, by simpa using h.symm⟩
  | error e => exact .inr ⟨e, rfl, by simpa using h.symm⟩

/-- Everything `completeFrame` can answer. -/
theorem completeFrame_cases {s t : State} {r : Except NceError State} (h : completeFrame s r = .next t) :
    (∃ s', r = .ok s' ∧ t = s'.retire) ∨ (∃ e, r = .error e ∧ t = s.raiseFrame e) := by
  cases r with
  | ok s' => exact .inl ⟨s', rfl, by simpa using h.symm⟩
  | error e => exact .inr ⟨e, rfl, by simpa using h.symm⟩

/-- Error entry is R303, whole. -/
theorem raise_errored (s : State) (e : NceError) : Errored false e s (s.raise e) := by
  constructor <;> first | rfl | (intro _ _; exact ⟨rfl, rfl⟩) | (intro _; rfl) | (constructor <;> rfl)

/-- Error entry of a frame command is R303, whole. -/
theorem raiseFrame_errored (s : State) (e : NceError) : Errored true e s (s.raiseFrame e) := by
  constructor <;> first | rfl | (intro _ _; exact ⟨rfl, rfl⟩) | (intro _; rfl) | (constructor <;> rfl)

/-! ## Checks -/

/-- The check of a 4-byte access, case by case, in the order of 60_exceptions.md R306. -/
theorem checkWordAccess_cases (ea : Nat) :
    (ea % 4 ≠ 0 ∧ checkWordAccess ea = .error (.alignment ea)) ∨
    (ea % 4 = 0 ∧ Config.ememBytes < ea + 4 ∧ checkWordAccess ea = .error (.io 1)) ∨
    (ea % 4 = 0 ∧ ea + 4 ≤ Config.ememBytes ∧ checkWordAccess ea = .ok ()) := by
  unfold checkWordAccess
  by_cases h : ea % 4 = 0
  · rw [if_neg (not_not.mpr h)]
    cases hi : inEmem ea 4 with
    | true => exact .inr (.inr ⟨h, (inEmem_iff _ _).mp hi, by simp⟩)
    | false => exact .inr (.inl ⟨h, (inEmem_eq_false_iff _ _).mp hi, by simp⟩)
  · exact .inl ⟨h, by rw [if_pos h]⟩

theorem checkWordAccess_ok {ea : Nat} (h : ea % 4 = 0) (hb : ea + 4 ≤ Config.ememBytes) : checkWordAccess ea = .ok () := by
  rcases checkWordAccess_cases ea with ⟨h1, _⟩ | ⟨_, h2, _⟩ | ⟨_, _, h3⟩
  · exact absurd h h1
  · omega
  · exact h3

theorem checkWordAccess_misaligned {ea : Nat} (h : ea % 4 ≠ 0) : checkWordAccess ea = .error (.alignment ea) := by
  unfold checkWordAccess; rw [if_pos h]

theorem checkWordAccess_beyond {ea : Nat} (h : ea % 4 = 0) (hb : Config.ememBytes < ea + 4) :
    checkWordAccess ea = .error (.io 1) := by
  rcases checkWordAccess_cases ea with ⟨h1, _⟩ | ⟨_, _, h3⟩ | ⟨_, h2, _⟩
  · exact absurd h h1
  · exact h3
  · omega

theorem checkWordAccess_eq_ok_iff (ea : Nat) : checkWordAccess ea = .ok () ↔ ea % 4 = 0 ∧ ea + 4 ≤ Config.ememBytes := by
  constructor
  · intro h
    rcases checkWordAccess_cases ea with ⟨_, h1⟩ | ⟨_, _, h1⟩ | ⟨h2, h3, _⟩
    · simp [h1] at h
    · simp [h1] at h
    · exact ⟨h2, h3⟩
  · exact fun h => checkWordAccess_ok h.1 h.2

theorem checkByteAccess_ok {ea : Nat} (hb : ea + 1 ≤ Config.ememBytes) : checkByteAccess ea = .ok () := by
  unfold checkByteAccess; rw [if_pos ((inEmem_iff _ _).mpr hb)]

theorem checkByteAccess_beyond {ea : Nat} (hb : Config.ememBytes < ea + 1) : checkByteAccess ea = .error (.io 1) := by
  unfold checkByteAccess; rw [(inEmem_eq_false_iff _ _).mpr hb]; rfl

theorem readWordChecked_ok {a : Nat} (m : Memory) (hb : a + 4 ≤ Config.ememBytes) :
    readWordChecked m a = .ok (m.readLE a 4) := by
  unfold readWordChecked; rw [if_pos ((inEmem_iff _ _).mpr hb)]

theorem readWordChecked_beyond {a : Nat} (m : Memory) (hb : Config.ememBytes < a + 4) :
    readWordChecked m a = .error (.io 1) := by
  unfold readWordChecked; rw [(inEmem_eq_false_iff _ _).mpr hb]; rfl

/-- Everything a checked read can answer. -/
theorem readWordChecked_cases {m : Memory} {a w : Nat} (h : readWordChecked m a = .ok w) :
    a + 4 ≤ Config.ememBytes ∧ w = m.readLE a 4 := by
  unfold readWordChecked at h
  split at h
  · rename_i hi; exact ⟨(inEmem_iff _ _).mp hi, by simpa using h.symm⟩
  · simp at h

/-- An effective address is a 32-bit number (42_register_memory.md R160). -/
theorem effAddr_lt (s : State) (ra : VReg) (off : BitVec 18) : s.effAddr ra off < 2 ^ 32 := BitVec.isLt _

/-- A word address that is a multiple of 4 and below the end of EMEM has its whole word in EMEM. -/
theorem word_fits {a : Nat} (ha : a % 4 = 0) (hb : a < Config.ememBytes) : a + 4 ≤ Config.ememBytes := by
  have := ememBytes_mod_four; omega

/-! ## The V file -/

theorem setV_get (s : State) (i j : VReg) (x : DWord) : (s.setV i x).v[j] = if j = i then x else s.v[j] := by
  simp only [State.setV, Fin.getElem_fin, Vector.getElem_set, Fin.ext_iff, eq_comm]

theorem setV_getWritten (s : State) (i j : VReg) (x : DWord) :
    (s.setV i x).vWritten[j] = if j = i then true else s.vWritten[j] := by
  simp only [State.setV, Fin.getElem_fin, Vector.getElem_set, Fin.ext_iff, eq_comm]

theorem setF_get (s : State) (i j : VReg) (x : DWord) : (s.setF i x).v[j] = if j = i then F64.canon x else s.v[j] :=
  setV_get s i j _

theorem setF_getWritten (s : State) (i j : VReg) (x : DWord) :
    (s.setF i x).vWritten[j] = if j = i then true else s.vWritten[j] := setV_getWritten s i j _

/-- The number of the register `k` places on, where it exists. -/
theorem plus_val {i : VReg} {k : Nat} (h : i.val + k ≤ 15) : (VReg.plus i k).val = i.val + k := by
  simp only [VReg.plus, Fin.val_ofNat]; omega

/-- A result is never a NaN other than the canonical one (40_numerics.md R126). -/
theorem canon_nan {x : DWord} (h : F64.isNaN (F64.canon x) = true) : F64.canon x = F64.nan := by
  unfold F64.canon at *
  split
  · rfl
  · rename_i hx; rw [if_neg hx] at h; exact absurd h hx

end Sys2Proof.Machine
end

