-- ==== Sys2Proof/Laws/Chunked.lean ====
section
/-! SUPPORT. What each pass of the parser of Machine/Chunked.lean answers, in the terms of Sys2Proof/Descriptor.lean: the
descriptor walk, the schema checks, the truncation check. One lemma says how a pass goes over a good prefix, and the
lemmas for its results and errors follow from it. -/

namespace Sys2Proof.Machine

/-! ## Addresses -/

theorem Desc.addr_succ (s : State) (e : Nat) : Desc.addr s (e + 1) = Desc.propAddr s e (Desc.nprop s e) := rfl

theorem Desc.addr_mono (s : State) {e e' : Nat} (h : e ≤ e') : Desc.addr s e ≤ Desc.addr s e' := by
  induction h with
  | refl => exact le_rfl
  | step _ ih => exact ih.trans (by rw [Desc.addr_succ]; unfold Desc.propAddr; omega)

theorem Desc.addr_ge (s : State) (e : Nat) : s.descBase.toNat + 8 ≤ Desc.addr s e :=
  Desc.addr_mono s (Nat.zero_le e)

/-! ## The walk over the properties of an element -/

/-- What the walk records of property `p` of element `e`. -/
def Desc.prop (s : State) (e p : Nat) : PropDesc := ⟨Desc.field s e p, Desc.type s e p, Desc.offset s e p⟩

/-- What the walk records of element `e`. -/
def Desc.elem (s : State) (e : Nat) : ElemDesc :=
  ⟨Desc.kind s e, Desc.count s e, Desc.stride s e, (List.range (Desc.nprop s e)).map (Desc.prop s e)⟩

theorem typeWidth_known {t : Nat} (h1 : 1 ≤ t) (h8 : t ≤ 8) : typeWidth t = some (Desc.width t) := by
  interval_cases t <;> rfl

theorem typeWidth_unknown {t : Nat} (h : t < 1 ∨ 8 < t) : typeWidth t = none := by
  unfold typeWidth
  rw [if_neg (by omega), if_neg (by omega), if_neg (by omega), if_neg (by omega)]

/-- The walk goes over `k` good properties. -/
theorem walkProps_prefix (s : State) (e n : Nat) : ∀ k p : Nat, (∀ q, p ≤ q → q < p + k → Desc.PropOk s e q) →
    Desc.propAddr s e (p + k) ≤ Config.ememBytes →
    walkProps s.mem (Desc.addr s e) e (k + n) p (Desc.offset s e p) =
      (walkProps s.mem (Desc.addr s e) e n (p + k) (Desc.offset s e (p + k))).map
        fun r => ((List.range' p k).map (Desc.prop s e) ++ r.1, r.2) := by
  intro k
  induction k with
  | zero =>
    intro p _ _
    rw [Nat.zero_add, Nat.add_zero]
    cases walkProps s.mem (Desc.addr s e) e n p (Desc.offset s e p) <;> rfl
  | succ k ih =>
    intro p hp hfit
    obtain ⟨hl, h1, h8⟩ := hp p le_rfl (by omega)
    have hfit' : Desc.addr s e + 8 + 4 * p + 4 ≤ Config.ememBytes := by unfold Desc.propAddr at hfit; omega
    have hb : bits (s.mem.readLE (Desc.addr s e + 8 + 4 * p) 4) 16 16 ≠ 1 := by
      have : Desc.list s e p = bits (s.mem.readLE (Desc.addr s e + 8 + 4 * p) 4) 16 16 := rfl
      rw [← this, hl]; decide
    have ht : bits (s.mem.readLE (Desc.addr s e + 8 + 4 * p) 4) 7 0 = Desc.type s e p := by
      unfold bits Desc.type Desc.propAddr; simp
    have hf : bits (s.mem.readLE (Desc.addr s e + 8 + 4 * p) 4) 15 8 = Desc.field s e p := rfl
    have ih' := ih (p + 1) (fun q hq hq' => hp q (by omega) (by omega)) (by rwa [show p + 1 + k = p + (k + 1) by omega])
    have ho : Desc.offset s e (p + 1) = Desc.offset s e p + Desc.width (Desc.type s e p) := rfl
    rw [show k + 1 + n = (k + n) + 1 by omega, walkProps, readWordChecked_ok _ hfit']
    simp only [bind, Except.bind, ht, hf, if_neg hb, typeWidth_known h1 h8]
    rw [← ho, ih', show p + 1 + k = p + (k + 1) by omega]
    cases walkProps s.mem (Desc.addr s e) e n (p + (k + 1)) (Desc.offset s e (p + (k + 1))) with
    | error x => rfl
    | ok r => simp [Except.map, List.range'_succ, Desc.prop]

/-- The walk over an element whose properties are all good. -/
theorem walkProps_ok (s : State) (e : Nat) (h : Desc.ElemOk s e) (hfit : Desc.addr s (e + 1) ≤ Config.ememBytes) :
    walkProps s.mem (Desc.addr s e) e (Desc.nprop s e) 0 0 =
      .ok ((List.range (Desc.nprop s e)).map (Desc.prop s e), Desc.stride s e) := by
  have := walkProps_prefix s e 0 (Desc.nprop s e) 0 (fun q _ hq => h q (by omega)) (by rwa [Nat.zero_add])
  rw [Nat.add_zero, Nat.zero_add] at this
  refine this.trans ?_
  simp [walkProps, Except.map, List.range_eq_range', Desc.stride]

/-- The walk stops at property `p` with `x` when the properties before it are good and `p` itself stops it. -/
theorem walkProps_error (s : State) (e p : Nat) (x : NceError) (hp : p < Desc.nprop s e)
    (h : ∀ q, q < p → Desc.PropOk s e q) (hfit : Desc.propAddr s e p ≤ Config.ememBytes)
    (hx : ∀ n, walkProps s.mem (Desc.addr s e) e (n + 1) p (Desc.offset s e p) = .error x) :
    walkProps s.mem (Desc.addr s e) e (Desc.nprop s e) 0 0 = .error x := by
  obtain ⟨n, hn⟩ : ∃ n, Desc.nprop s e = p + (n + 1) := ⟨Desc.nprop s e - p - 1, by omega⟩
  have := walkProps_prefix s e (n + 1) p 0 (fun q _ hq => h q (by omega)) (by rwa [Nat.zero_add])
  rw [Nat.zero_add, hx] at this
  rw [hn]; exact this

theorem walkProps_beyond (s : State) (e p n : Nat) (h : Config.ememBytes < Desc.propAddr s e p + 4) :
    walkProps s.mem (Desc.addr s e) e (n + 1) p (Desc.offset s e p) = .error (.io 1) := by
  rw [walkProps, readWordChecked_beyond _ (by unfold Desc.propAddr at h; omega)]; rfl

theorem walkProps_list (s : State) (e p n : Nat) (hfit : Desc.propAddr s e p + 4 ≤ Config.ememBytes)
    (h : Desc.list s e p = 1) :
    walkProps s.mem (Desc.addr s e) e (n + 1) p (Desc.offset s e p) = .error (.schema 1 (p % 256) e) := by
  have hb : bits (s.mem.readLE (Desc.addr s e + 8 + 4 * p) 4) 16 16 = 1 := h
  rw [walkProps, readWordChecked_ok _ (by unfold Desc.propAddr at hfit; omega)]
  simp only [bind, Except.bind, if_pos hb]

theorem walkProps_type (s : State) (e p n : Nat) (hfit : Desc.propAddr s e p + 4 ≤ Config.ememBytes)
    (h : Desc.list s e p = 0) (ht : Desc.type s e p < 1 ∨ 8 < Desc.type s e p) :
    walkProps s.mem (Desc.addr s e) e (n + 1) p (Desc.offset s e p) = .error (.schema 2 (p % 256) e) := by
  have hb : bits (s.mem.readLE (Desc.addr s e + 8 + 4 * p) 4) 16 16 ≠ 1 := by
    have : Desc.list s e p = bits (s.mem.readLE (Desc.addr s e + 8 + 4 * p) 4) 16 16 := rfl
    rw [← this, h]; decide
  have hty : bits (s.mem.readLE (Desc.addr s e + 8 + 4 * p) 4) 7 0 = Desc.type s e p := by
    unfold bits Desc.type Desc.propAddr; simp
  rw [walkProps, readWordChecked_ok _ (by unfold Desc.propAddr at hfit; omega)]
  simp only [bind, Except.bind, if_neg hb, hty, typeWidth_unknown ht]

/-! ## The walk over the element records -/

theorem nprop_bits (s : State) (e : Nat) : bits (s.mem.readLE (Desc.addr s e) 4) 31 16 = Desc.nprop s e := by
  have := Memory.readLE_lt s.mem 4 (Desc.addr s e)
  unfold bits Desc.nprop
  exact Nat.mod_eq_of_lt (by omega)

theorem kind_bits (s : State) (e : Nat) : bits (s.mem.readLE (Desc.addr s e) 4) 7 0 = Desc.kind s e := by
  unfold bits Desc.kind; simp

/-- The walk goes over `k` good elements. -/
theorem walkElems_prefix (s : State) (n : Nat) : ∀ k e : Nat, (∀ j, e ≤ j → j < e + k → Desc.ElemOk s j) →
    Desc.addr s (e + k) ≤ Config.ememBytes →
    walkElems s.mem (k + n) e (Desc.addr s e) =
      (walkElems s.mem n (e + k) (Desc.addr s (e + k))).map fun r => ((List.range' e k).map (Desc.elem s) ++ r.1, r.2) := by
  intro k
  induction k with
  | zero =>
    intro e _ _
    rw [Nat.zero_add, Nat.add_zero]
    cases walkElems s.mem n e (Desc.addr s e) <;> rfl
  | succ k ih =>
    intro e he hfit
    have hfit1 : Desc.addr s (e + 1) ≤ Config.ememBytes := (Desc.addr_mono s (by omega)).trans hfit
    have hp := walkProps_ok s e (he e le_rfl (by omega)) hfit1
    have h8 : Desc.addr s e + 8 ≤ Config.ememBytes := by
      rw [Desc.addr_succ] at hfit1; unfold Desc.propAddr at hfit1; omega
    have ih' := ih (e + 1) (fun q hq hq' => he q (by omega) (by omega)) (by rwa [show e + 1 + k = e + (k + 1) by omega])
    have ha : Desc.addr s e + 8 + 4 * Desc.nprop s e = Desc.addr s (e + 1) := rfl
    rw [show k + 1 + n = (k + n) + 1 by omega, walkElems, readWordChecked_ok _ (by omega), readWordChecked_ok _ (by omega)]
    simp only [bind, Except.bind, nprop_bits, kind_bits, hp]
    rw [ha, ih', show e + 1 + k = e + (k + 1) by omega]
    cases walkElems s.mem n (e + (k + 1)) (Desc.addr s (e + (k + 1))) with
    | error x => rfl
    | ok r => simp [Except.map, List.range'_succ, Desc.elem, Desc.count]

/-- The walk over a descriptor whose elements are all good. -/
theorem walkElems_ok {s : State} (h : Desc.Reached s (Desc.nelem s)) :
    walkElems s.mem (Desc.nelem s) 0 (s.descBase.toNat + 8) =
      .ok ((List.range (Desc.nelem s)).map (Desc.elem s), Desc.addr s (Desc.nelem s)) := by
  have := walkElems_prefix s 0 (Desc.nelem s) 0 (fun j _ hj => h.elems j (by omega)) (by rw [Nat.zero_add]; exact h.fits)
  rw [Nat.add_zero, Nat.zero_add] at this
  rw [show s.descBase.toNat + 8 = Desc.addr s 0 from rfl, this]
  simp [walkElems, Except.map, List.range_eq_range']

/-- The walk stops at element `e` with `x` when it reaches `e` and `e` itself stops it. -/
theorem walkElems_error {s : State} {e : Nat} {x : NceError} (he : e < Desc.nelem s) (h : Desc.Reached s e)
    (hx : ∀ n, walkElems s.mem (n + 1) e (Desc.addr s e) = .error x) :
    walkElems s.mem (Desc.nelem s) 0 (s.descBase.toNat + 8) = .error x := by
  obtain ⟨n, hn⟩ : ∃ n, Desc.nelem s = e + (n + 1) := ⟨Desc.nelem s - e - 1, by omega⟩
  have := walkElems_prefix s (n + 1) e 0 (fun j _ hj => h.elems j (by omega)) (by rw [Nat.zero_add]; exact h.fits)
  rw [Nat.zero_add, hx] at this
  rw [hn]; exact this

theorem walkElems_beyond (s : State) (e n : Nat) (h : Config.ememBytes < Desc.addr s e + 8) :
    walkElems s.mem (n + 1) e (Desc.addr s e) = .error (.io 1) := by
  rw [walkElems]
  by_cases h4 : Desc.addr s e + 4 ≤ Config.ememBytes
  · rw [readWordChecked_ok _ h4, readWordChecked_beyond _ (by omega)]; rfl
  · rw [readWordChecked_beyond _ (by omega)]; rfl

theorem walkElems_props {s : State} {e : Nat} {x : NceError} (n : Nat) (h : Desc.addr s e + 8 ≤ Config.ememBytes)
    (hx : walkProps s.mem (Desc.addr s e) e (Desc.nprop s e) 0 0 = .error x) :
    walkElems s.mem (n + 1) e (Desc.addr s e) = .error x := by
  rw [walkElems, readWordChecked_ok _ (by omega), readWordChecked_ok _ (by omega)]
  simp only [bind, Except.bind, nprop_bits, hx]

/-! ## The element of a kind -/

/-- The elements of a kind among the elements `e .. e + n - 1`. -/
theorem elemsOfKind_range (s : State) (k : Nat) : ∀ n e : Nat, elemsOfKind k e ((List.range' e n).map (Desc.elem s)) =
    ((List.range' e n).filter fun j => Desc.kind s j == k).map fun j => (j, Desc.elem s j) := by
  intro n
  induction n with
  | zero => intro e; rfl
  | succ n ih =>
    intro e
    rw [List.range'_succ, List.map_cons, elemsOfKind, ih, List.filter_cons]
    by_cases h : Desc.kind s e = k
    · rw [if_pos (show (Desc.elem s e).kind = k from h), if_pos (by simpa using h), List.map_cons]
    · rw [if_neg (show ¬ (Desc.elem s e).kind = k from h), if_neg (by simpa using h)]

/-- A range holds one index with a property, and the filter gives it. -/
theorem filter_range_one {P : Nat → Bool} {x : Nat} : ∀ n a : Nat, a ≤ x → x < a + n → P x = true →
    (∀ j, a ≤ j → j < a + n → P j = true → j = x) → (List.range' a n).filter P = [x] := by
  intro n
  induction n with
  | zero => intro a h1 h2; omega
  | succ n ih =>
    intro a h1 h2 hx hu
    rw [List.range'_succ, List.filter_cons]
    by_cases ha : a = x
    · subst ha
      rw [if_pos hx, List.filter_eq_nil_iff.mpr]
      intro j hj hP
      rw [List.mem_range'_1] at hj
      have := hu j (by omega) (by omega) hP
      omega
    · rw [if_neg (fun hP => ha (hu a le_rfl (by omega) hP)),
        ih (a + 1) (by omega) (by omega) hx (fun j h3 h4 => hu j (by omega) (by omega))]

theorem theElem_none {s : State} {k r1 r2 : Nat} (h : ∀ e, e < Desc.nelem s → Desc.kind s e ≠ k) :
    theElem k r1 r2 ((List.range (Desc.nelem s)).map (Desc.elem s)) = .error (.schema r1 0 0xFFFF) := by
  unfold theElem
  rw [List.range_eq_range', elemsOfKind_range, List.filter_eq_nil_iff.mpr]
  · rfl
  · intro j hj hP
    rw [List.mem_range'_1] at hj
    exact h j (by omega) (by simpa using hP)

theorem theElem_only {s : State} {k r1 r2 e : Nat} (h : Desc.Only s k e) :
    theElem k r1 r2 ((List.range (Desc.nelem s)).map (Desc.elem s)) = .ok (e, Desc.elem s e) := by
  unfold theElem
  rw [List.range_eq_range', elemsOfKind_range, filter_range_one (x := e) _ _ (Nat.zero_le _) (by have := h.1; omega)
    (by simpa using h.2.1) (fun j _ hj hP => h.2.2 j (by omega) (by simpa using hP))]
  rfl

theorem theElem_second {s : State} {k r1 r2 e : Nat} (h : Desc.Second s k e) :
    theElem k r1 r2 ((List.range (Desc.nelem s)).map (Desc.elem s)) = .error (.schema r2 0 e) := by
  obtain ⟨he, hk, e1, h1, hk1, hu⟩ := h
  unfold theElem
  obtain ⟨n, hn⟩ : ∃ n, Desc.nelem s = e + (n + 1) := ⟨Desc.nelem s - e - 1, by omega⟩
  rw [List.range_eq_range', elemsOfKind_range, hn, ← List.range'_append_1, List.filter_append, Nat.zero_add,
    filter_range_one (x := e1) e 0 (Nat.zero_le _) (by omega) (by simpa using hk1)
      (fun j _ hj hP => hu j (by omega) (by simpa using hP)),
    List.range'_succ, List.filter_cons, if_pos (by simpa using hk)]
  rfl

/-! ## The fields of an element -/

/-- The properties before `p` whose field lies in `lo .. hi`, in order. -/
def Desc.seen (s : State) (e lo hi p : Nat) : List PropDesc :=
  ((List.range p).filter fun q => decide (lo ≤ Desc.field s e q ∧ Desc.field s e q ≤ hi)).map (Desc.prop s e)

theorem seen_succ (s : State) (e lo hi p : Nat) : Desc.seen s e lo hi (p + 1) =
    if lo ≤ Desc.field s e p ∧ Desc.field s e p ≤ hi then Desc.seen s e lo hi p ++ [Desc.prop s e p]
    else Desc.seen s e lo hi p := by
  unfold Desc.seen
  rw [List.range_succ, List.filter_append, List.filter_singleton]
  by_cases h : lo ≤ Desc.field s e p ∧ Desc.field s e p ≤ hi
  · rw [if_pos h, decide_eq_true h, List.map_append]; rfl
  · rw [if_neg h, decide_eq_false h]; simp

theorem mem_seen {s : State} {e lo hi p : Nat} {x : PropDesc} : x ∈ Desc.seen s e lo hi p ↔
    ∃ q, q < p ∧ lo ≤ Desc.field s e q ∧ Desc.field s e q ≤ hi ∧ Desc.prop s e q = x := by
  unfold Desc.seen
  simp only [List.mem_map, List.mem_filter, List.mem_range, decide_eq_true_eq]
  constructor
  · rintro ⟨q, ⟨h1, h2, h3⟩, h4⟩; exact ⟨q, h1, h2, h3, h4⟩
  · rintro ⟨q, h1, h2, h3, h4⟩; exact ⟨q, ⟨h1, h2, h3⟩, h4⟩

/-- Whether a field of the range was seen before `p`. -/
theorem seen_any {s : State} {e lo hi p f : Nat} (h1 : lo ≤ f) (h2 : f ≤ hi) :
    ((Desc.seen s e lo hi p).any fun q => q.field == f) = true ↔ ∃ q, q < p ∧ Desc.field s e q = f := by
  rw [List.any_eq_true]
  constructor
  · rintro ⟨x, hx, hf⟩
    obtain ⟨q, hq, -, -, rfl⟩ := mem_seen.mp hx
    exact ⟨q, hq, by simpa [Desc.prop] using hf⟩
  · rintro ⟨q, hq, rfl⟩
    exact ⟨Desc.prop s e q, mem_seen.mpr ⟨q, hq, h1, h2, rfl⟩, by simp [Desc.prop]⟩

/-- Collecting goes over `k` properties that declare no field again. -/
theorem collectFields_prefix (s : State) (e lo hi i : Nat) (rest : List PropDesc) : ∀ k p : Nat,
    (∀ q, p ≤ q → q < p + k → ¬ Desc.Again s e lo hi q) →
    collectFields lo hi i (Desc.seen s e lo hi p) ((List.range' p k).map (Desc.prop s e) ++ rest) =
      collectFields lo hi i (Desc.seen s e lo hi (p + k)) rest := by
  intro k
  induction k with
  | zero => intro p _; rfl
  | succ k ih =>
    intro p hp
    have hp0 := hp p le_rfl (by omega)
    have ih' := ih (p + 1) (fun q hq hq' => hp q (by omega) (by omega))
    rw [show p + (k + 1) = p + 1 + k by omega, ← ih', seen_succ, List.range'_succ, List.map_cons, List.cons_append,
      collectFields]
    show (if lo ≤ Desc.field s e p ∧ Desc.field s e p ≤ hi then _ else _) = _
    by_cases hr : lo ≤ Desc.field s e p ∧ Desc.field s e p ≤ hi
    · rw [if_pos hr, if_pos hr, if_neg]
      intro hany
      exact hp0 ⟨hr.1, hr.2, (seen_any hr.1 hr.2).mp hany⟩
    · rw [if_neg hr, if_neg hr]

theorem collectFields_ok {s : State} {e lo hi : Nat} (i : Nat) (h : Desc.NoneAgain s e lo hi) :
    collectFields lo hi i [] (Desc.elem s e).props = .ok (Desc.seen s e lo hi (Desc.nprop s e)) := by
  have := collectFields_prefix s e lo hi i [] (Desc.nprop s e) 0 (fun q _ hq => h q (by omega))
  rw [List.append_nil, Nat.zero_add, ← List.range_eq_range'] at this
  exact this.trans (by rw [collectFields])

theorem collectFields_again {s : State} {e lo hi p : Nat} (hp : p < Desc.nprop s e) (h : Desc.Again s e lo hi p)
    (hq : ∀ q, q < p → ¬ Desc.Again s e lo hi q) :
    collectFields lo hi e [] (Desc.elem s e).props = .error (.schema 7 (Desc.field s e p) e) := by
  obtain ⟨n, hn⟩ : ∃ n, Desc.nprop s e = p + (n + 1) := ⟨Desc.nprop s e - p - 1, by omega⟩
  have := collectFields_prefix s e lo hi e ((List.range' (0 + p) (n + 1)).map (Desc.prop s e)) p 0
    (fun q _ hq' => hq q (by omega))
  rw [← List.map_append, List.range'_append_1, ← hn, ← List.range_eq_range', Nat.zero_add] at this
  refine this.trans ?_
  rw [List.range'_succ, List.map_cons, collectFields]
  show (if lo ≤ Desc.field s e p ∧ Desc.field s e p ≤ hi then _ else _) = _
  rw [if_pos ⟨h.1, h.2.1⟩]
  exact if_pos ((seen_any h.1 h.2.1).mpr h.2.2)

/-- The seen property of a field of the range: none, or the one property that declares it. -/
theorem find_seen {s : State} {e lo hi f : Nat} (hn : Desc.NoneAgain s e lo hi) (h1 : lo ≤ f) (h2 : f ≤ hi) :
    (¬ Desc.Has s e f ∧ (Desc.seen s e lo hi (Desc.nprop s e)).find? (fun q => q.field == f) = none) ∨
    ∃ p, p < Desc.nprop s e ∧ Desc.field s e p = f ∧ (∀ q, q < Desc.nprop s e → Desc.field s e q = f → q = p) ∧
      (Desc.seen s e lo hi (Desc.nprop s e)).find? (fun q => q.field == f) = some (Desc.prop s e p) := by
  cases hf : (Desc.seen s e lo hi (Desc.nprop s e)).find? (fun q => q.field == f) with
  | none =>
    refine .inl ⟨?_, rfl⟩
    rintro ⟨p, hp, hpf⟩
    have := List.find?_eq_none.mp hf (Desc.prop s e p) (mem_seen.mpr ⟨p, hp, by omega, by omega, rfl⟩)
    simp [Desc.prop, hpf] at this
  | some x =>
    obtain ⟨p, hp, -, -, rfl⟩ := mem_seen.mp (List.mem_of_find?_eq_some hf)
    have hpf : Desc.field s e p = f := by simpa [Desc.prop] using List.find?_some hf
    refine .inr ⟨p, hp, hpf, ?_, rfl⟩
    intro q hq hqf
    rcases lt_trichotomy q p with h | h | h
    · exact absurd ⟨by omega, by omega, q, h, by omega⟩ (hn p hp)
    · exact h
    · exact absurd ⟨by omega, by omega, p, h, by omega⟩ (hn q hq)

theorem hasField_seen {s : State} {e lo hi f : Nat} (h1 : lo ≤ f) (h2 : f ≤ hi) :
    hasField (Desc.seen s e lo hi (Desc.nprop s e)) f = true ↔ Desc.Has s e f := seen_any h1 h2

/-- Requiring goes over fields that are there with the type. -/
theorem requireFields_prefix {s : State} {e lo hi t i : Nat} (hn : Desc.NoneAgain s e lo hi) (rest : List Nat) :
    ∀ k f : Nat, lo ≤ f → f + k ≤ hi + 1 → (∀ g, g < f + k → f ≤ g → Desc.HasTyped s e g t) →
    requireFields (Desc.seen s e lo hi (Desc.nprop s e)) t i (List.range' f k ++ rest) =
      requireFields (Desc.seen s e lo hi (Desc.nprop s e)) t i rest := by
  intro k
  induction k with
  | zero => intro f _ _ _; rfl
  | succ k ih =>
    intro f h1 h2 hg
    obtain ⟨p, hp, hpf, hpt⟩ := hg f (by omega) le_rfl
    rw [List.range'_succ, List.cons_append, requireFields]
    rcases find_seen (f := f) hn h1 (by omega) with ⟨hno, -⟩ | ⟨q, -, -, hu, hfind⟩
    · exact absurd ⟨p, hp, hpf⟩ hno
    · rw [hfind]
      simp only
      rw [if_neg (by rw [show q = p from (hu p hp hpf).symm]; simpa [Desc.prop] using hpt)]
      exact ih (f + 1) (by omega) (by omega) (fun g hg' hg'' => hg g (by omega) (by omega))

theorem requireFields_ok {s : State} {e lo n t : Nat} (i : Nat) (hn : Desc.NoneAgain s e lo (lo + n))
    (f k : Nat) (h1 : lo ≤ f) (h2 : f + k ≤ lo + n + 1) (h : Desc.AllTyped s e f (f + k) t) :
    requireFields (Desc.seen s e lo (lo + n) (Desc.nprop s e)) t i (List.range' f k) = .ok () := by
  have := requireFields_prefix (i := i) hn [] k f h1 h2 h
  rw [List.append_nil] at this
  exact this.trans rfl

/-- Requiring the fields `f0 .. f0 + k - 1` stops at the first that is missing or of the wrong type. -/
theorem requireFields_error {s : State} {e lo n t i f0 k f : Nat} (hn : Desc.NoneAgain s e lo (lo + n))
    (h0 : lo ≤ f0) (h1 : f0 ≤ f) (h2 : f < f0 + k) (h3 : f0 + k ≤ lo + n + 1) (h : Desc.AllTyped s e f0 f t) :
    (¬ Desc.Has s e f →
      requireFields (Desc.seen s e lo (lo + n) (Desc.nprop s e)) t i (List.range' f0 k) = .error (.schema 8 f i)) ∧
    (Desc.Has s e f → ¬ Desc.HasTyped s e f t →
      requireFields (Desc.seen s e lo (lo + n) (Desc.nprop s e)) t i (List.range' f0 k) = .error (.schema 9 f i)) := by
  obtain ⟨r, hr⟩ : ∃ r, k = (f - f0) + (r + 1) := ⟨k - (f - f0) - 1, by omega⟩
  have hf : f0 + (f - f0) = f := by omega
  have := requireFields_prefix (i := i) hn (List.range' f (r + 1)) (f - f0) f0 h0 (by omega)
    (fun g hg hg' => h g (by omega) hg')
  have hsplit : List.range' f0 (f - f0) ++ List.range' f (r + 1) = List.range' f0 k := by
    have := @List.range'_append_1 f0 (f - f0) (r + 1)
    rw [hf] at this; rw [this, hr]
  rw [hsplit, List.range'_succ] at this
  rw [this, requireFields]
  rcases find_seen (f := f) hn (by omega) (by omega) with ⟨hno, hfind⟩ | ⟨q, hq, hqf, hu, hfind⟩
  · rw [hfind]
    exact ⟨fun _ => rfl, fun hh => absurd hh hno⟩
  · rw [hfind]
    refine ⟨fun hh => absurd ⟨q, hq, hqf⟩ hh, fun _ hty => ?_⟩
    simp only
    rw [if_pos]
    intro hqt
    exact hty ⟨q, hq, hqf, by simpa [Desc.prop] using hqt⟩

/-! ## The colour bounding box -/

theorem colour_fields : [13, 14, 15, 16, 17, 18] = List.range' 13 6 := rfl

theorem hasField_colour {s : State} {c f : Nat} (h1 : 13 ≤ f) (h2 : f ≤ 18) :
    hasField (Desc.seen s c 1 18 (Desc.nprop s c)) f = true ↔ Desc.Has s c f := hasField_seen (by omega) h2

theorem missing_nil {s : State} {c : Nat} (h : Desc.AllHad s c 13 19) :
    ([13, 14, 15, 16, 17, 18].filter fun f => !hasField (Desc.seen s c 1 18 (Desc.nprop s c)) f) = [] := by
  rw [colour_fields, List.filter_eq_nil_iff]
  intro f hf
  rw [List.mem_range'_1] at hf
  rw [(hasField_colour (f := f) (by omega) (by omega)).mpr (h f (by omega) (by omega))]; decide

/-- The colour fields from the first missing one on. -/
theorem missing_cons {s : State} {c f : Nat} (h1 : 13 ≤ f) (h2 : f ≤ 18) (hf : ¬ Desc.Has s c f) (hp : Desc.AllHad s c 13 f) :
    ∃ t, ([13, 14, 15, 16, 17, 18].filter fun f => !hasField (Desc.seen s c 1 18 (Desc.nprop s c)) f) = f :: t := by
  obtain ⟨r, hr⟩ : ∃ r, 6 = (f - 13) + (r + 1) := ⟨6 - (f - 13) - 1, by omega⟩
  have hnil : ((List.range' 13 (f - 13)).filter fun f => !hasField (Desc.seen s c 1 18 (Desc.nprop s c)) f) = [] := by
    rw [List.filter_eq_nil_iff]
    intro g hg
    rw [List.mem_range'_1] at hg
    rw [(hasField_colour (f := g) (by omega) (by omega)).mpr (hp g (by omega) (by omega))]; decide
  have hno : hasField (Desc.seen s c 1 18 (Desc.nprop s c)) f = false := by
    rw [Bool.eq_false_iff]; exact fun h => hf ((hasField_colour (by omega) (by omega)).mp h)
  rw [colour_fields, hr, ← List.range'_append_1, List.filter_append, hnil, show 13 + (f - 13) = f by omega,
    List.range'_succ, List.nil_append, List.filter_cons, if_pos (by simp [hno])]
  exact ⟨_, rfl⟩

theorem checkColour_none {s : State} {c : Nat} (h : ∀ f, f < 19 → 13 ≤ f → ¬ Desc.Has s c f) :
    checkColour (Desc.seen s c 1 18 (Desc.nprop s c)) c = .ok false := by
  have hall : ([13, 14, 15, 16, 17, 18].filter fun f => !hasField (Desc.seen s c 1 18 (Desc.nprop s c)) f) =
      [13, 14, 15, 16, 17, 18] := by
    rw [colour_fields, List.filter_eq_self]
    intro f hf
    rw [List.mem_range'_1] at hf
    have : hasField (Desc.seen s c 1 18 (Desc.nprop s c)) f = false := by
      rw [Bool.eq_false_iff]; exact fun hh => h f (by omega) (by omega) ((hasField_colour (by omega) (by omega)).mp hh)
    simp [this]
  unfold checkColour
  simp only [hall]
  rfl

theorem checkColour_all {s : State} {c : Nat} (hn : Desc.NoneAgain s c 1 18) (h : Desc.AllTyped s c 13 19 7) :
    checkColour (Desc.seen s c 1 18 (Desc.nprop s c)) c = .ok true := by
  have hr := requireFields_ok (lo := 1) (n := 17) c hn 13 6 (by omega) (by omega) h
  unfold checkColour
  simp only [missing_nil fun g hg hg' => let ⟨p, hp, hpf, _⟩ := h g hg hg'; ⟨p, hp, hpf⟩]
  simp only [bind, Except.bind, typeFloat32, colour_fields, hr]

theorem checkColour_missing {s : State} {c f : Nat} (h1 : 13 ≤ f) (h2 : f ≤ 18) (hf : ¬ Desc.Has s c f)
    (hp : Desc.AllHad s c 13 f) (hg : ∃ g, 13 ≤ g ∧ g ≤ 18 ∧ Desc.Has s c g) :
    checkColour (Desc.seen s c 1 18 (Desc.nprop s c)) c = .error (.schema 10 f c) := by
  obtain ⟨t, ht⟩ := missing_cons h1 h2 hf hp
  obtain ⟨g, g1, g2, hg⟩ := hg
  have hlen : (f :: t).length < 6 := by
    rw [← ht, show 6 = [13, 14, 15, 16, 17, 18].length from rfl]
    apply List.length_filter_lt_length_iff_exists.mpr
    refine ⟨g, ?_, by rw [(hasField_colour g1 g2).mpr hg]; decide⟩
    rw [colour_fields, List.mem_range'_1]; omega
  unfold checkColour
  simp only [ht]
  rw [if_pos hlen]

theorem checkColour_type {s : State} {c f : Nat} (hn : Desc.NoneAgain s c 1 18) (h1 : 13 ≤ f) (h2 : f ≤ 18)
    (hh : Desc.AllHad s c 13 19) (ht : Desc.AllTyped s c 13 f 7) (hf : ¬ Desc.HasTyped s c f 7) :
    checkColour (Desc.seen s c 1 18 (Desc.nprop s c)) c = .error (.schema 9 f c) := by
  have hr := (requireFields_error (lo := 1) (n := 17) (i := c) (f0 := 13) (k := 6) hn (by omega) h1 (by omega) (by omega)
    ht).2 (hh f (by omega) h1) hf
  unfold checkColour
  simp only [missing_nil hh]
  simp only [bind, Except.bind, typeFloat32, colour_fields, hr]

/-! ## Truncation -/

/-- The truncation check goes over elements that are not read or fit. -/
theorem checkTruncation_prefix (s : State) (c v len : Nat) (rest : List ElemDesc) : ∀ k e : Nat,
    (∀ j, e ≤ j → j < e + k → j = c ∨ j = v → Desc.dataEnd s j ≤ len) →
    checkTruncation c v len e (Desc.data s e) ((List.range' e k).map (Desc.elem s) ++ rest) =
      (checkTruncation c v len (e + k) (Desc.data s (e + k)) rest).map fun r => (List.range' e k).map (Desc.data s) ++ r := by
  intro k
  induction k with
  | zero =>
    intro e _
    rw [Nat.add_zero]
    show checkTruncation c v len e (Desc.data s e) rest = _
    cases checkTruncation c v len e (Desc.data s e) rest <;> rfl
  | succ k ih =>
    intro e he
    have ih' := ih (e + 1) (fun j hj hj' => he j (by omega) (by omega))
    have hd : Desc.data s e + (Desc.elem s e).count * (Desc.elem s e).stride = Desc.data s (e + 1) := rfl
    rw [List.range'_succ, List.map_cons, List.cons_append, checkTruncation, hd, if_neg, ih',
      show e + 1 + k = e + (k + 1) by omega]
    · simp only [bind, Except.bind]
      cases checkTruncation c v len (e + (k + 1)) (Desc.data s (e + (k + 1))) rest with
      | error x => rfl
      | ok r => simp [Except.map]
    · rintro ⟨h1, h2⟩
      exact absurd (he e le_rfl (by omega) h1) (by rw [show Desc.dataEnd s e = Desc.data s (e + 1) from rfl]; omega)

theorem checkTruncation_ok {s : State} {c v len : Nat} (hc : Desc.dataEnd s c ≤ len) (hv : Desc.dataEnd s v ≤ len) :
    checkTruncation c v len 0 0 ((List.range (Desc.nelem s)).map (Desc.elem s)) =
      .ok ((List.range (Desc.nelem s)).map (Desc.data s)) := by
  have := checkTruncation_prefix s c v len [] (Desc.nelem s) 0
    (fun j _ _ hj => by rcases hj with rfl | rfl <;> assumption)
  rw [List.append_nil, ← List.range_eq_range'] at this
  exact this.trans (by simp [checkTruncation, Except.map])

theorem checkTruncation_error {s : State} {c v len e : Nat} (he : e < Desc.nelem s) (hcv : e = c ∨ e = v)
    (h : len < Desc.dataEnd s e) (hj : ∀ j, j < e → j = c ∨ j = v → Desc.dataEnd s j ≤ len) :
    checkTruncation c v len 0 0 ((List.range (Desc.nelem s)).map (Desc.elem s)) = .error (.truncated e) := by
  obtain ⟨n, hn⟩ : ∃ n, Desc.nelem s = e + (n + 1) := ⟨Desc.nelem s - e - 1, by omega⟩
  have := checkTruncation_prefix s c v len ((List.range' (0 + e) (n + 1)).map (Desc.elem s)) e 0
    (fun j _ hj' => hj j (by omega))
  rw [← List.map_append, List.range'_append_1, ← hn, ← List.range_eq_range', Nat.zero_add] at this
  refine this.trans ?_
  rw [List.range'_succ, List.map_cons, checkTruncation, if_pos ⟨hcv, h⟩]
  rfl

/-! ## Registers, header, output -/

/-- The header word of the accepted format, by its three bytes or whole (47_frame_chunked.md R221, R228). -/
theorem header_iff (h : Nat) : h % 2 ^ 24 = 0x000101 ↔ ¬ (bits h 7 0 ≠ 1 ∨ bits h 15 8 ≠ 1 ∨ bits h 23 16 ≠ 0) := by
  unfold bits; omega

theorem checkHeader_ok {s : State} (h : Desc.RegsOk s) : checkHeader s = .ok (Desc.nelem s) := by
  have hf := h.fits
  unfold checkHeader
  rw [if_neg (not_not.mpr h.descAligned), if_neg (not_not.mpr h.outAligned),
    if_neg (not_not.mpr ((inEmem_iff _ _).mpr h.input)), readWordChecked_ok _ (by omega)]
  simp only [bind, Except.bind]
  rw [if_neg ((header_iff _).mp h.header), readWordChecked_ok _ (by omega)]
  rfl

/-- The output checks, case by case, in order (47_frame_chunked.md R233). -/
theorem checkChunkOutput_eq (s : State) (v : Nat) :
    checkChunkOutput s (Desc.count s v) (Desc.addr s (Desc.nelem s)) =
      if Config.ememBytes < s.outBase.toNat + 56 * Desc.count s v then .error (.io 1)
      else if 0 < Desc.count s v ∧ (¬ Desc.OutClear s v s.inBase.toNat s.inLen.toNat ∨
        ¬ Desc.OutClear s v s.descBase.toNat (Desc.addr s (Desc.nelem s) - s.descBase.toNat)) then .error (.io 2)
      else .ok () := by
  have key : ∀ a n : Nat, overlaps s.outBase.toNat (56 * Desc.count s v) a n = true ↔ ¬ Desc.OutClear s v a n := by
    intro a n; unfold overlaps; simp only [Bool.and_eq_true, decide_eq_true_eq]; omega
  unfold checkChunkOutput
  simp only [recordBytes, key, inEmem_iff, not_le]

/-! ## The schema checks and the validation phase as a whole -/

/-- The elements the walk records of a descriptor. -/
def Desc.elems (s : State) : List ElemDesc := (List.range (Desc.nelem s)).map (Desc.elem s)

theorem validateChunked_walk_error {s : State} {x : NceError} (h : Desc.RegsOk s)
    (hx : walkElems s.mem (Desc.nelem s) 0 (s.descBase.toNat + 8) = .error x) : validateChunked s = .error x := by
  unfold validateChunked; simp only [bind, Except.bind, checkHeader_ok h, hx]

theorem validateChunked_schema_error {s : State} {x : NceError} (h : Desc.Reached s (Desc.nelem s))
    (hx : checkSchema (Desc.elems s) = .error x) : validateChunked s = .error x := by
  unfold Desc.elems at hx
  unfold validateChunked; simp only [bind, Except.bind, checkHeader_ok h.regs, walkElems_ok h, hx]

/-- The colour box is complete or absent, and the check says which. -/
theorem checkColour_ok {s : State} {c : Nat} (h : Desc.ChunkOk s c) :
    ∃ b, checkColour (Desc.seen s c 1 18 (Desc.nprop s c)) c = .ok b ∧ (b = true ↔ Desc.Has s c 13) := by
  obtain ⟨hn, -, h | h⟩ := h
  · exact ⟨false, checkColour_none h, by simpa using h 13 (by omega) (by omega)⟩
  · obtain ⟨p, hp, hf, -⟩ := h 13 (by omega) (by omega)
    exact ⟨true, checkColour_all hn h, fun _ => ⟨p, hp, hf⟩, fun _ => rfl⟩

theorem requireBounds_ok {s : State} {c : Nat} (hn : Desc.NoneAgain s c 1 18) (h : Desc.AllTyped s c 1 13 7) :
    requireFields (Desc.seen s c 1 18 (Desc.nprop s c)) typeFloat32 c [1, 2, 3, 4, 5, 6, 7, 8, 9, 10, 11, 12] = .ok () :=
  requireFields_ok (lo := 1) (n := 17) c hn 1 12 (by omega) (by omega) h

theorem requirePacked_ok {s : State} {v : Nat} (h : Desc.VertexOk s v) :
    requireFields (Desc.seen s v 32 35 (Desc.nprop s v)) typeUint32 v [32, 33, 34, 35] = .ok () :=
  requireFields_ok (lo := 32) (n := 3) v h.1 32 4 (by omega) (by omega) h.2

theorem checkSchema_ok {s : State} {c v : Nat} (h : Desc.SchemaOk s c v) : ∃ b, (b = true ↔ Desc.Has s c 13) ∧
    checkSchema (Desc.elems s) = .ok ⟨c, Desc.elem s c, v, Desc.elem s v, Desc.seen s c 1 18 (Desc.nprop s c),
      Desc.seen s v 32 35 (Desc.nprop s v), b⟩ := by
  obtain ⟨b, hb, hb'⟩ := checkColour_ok h.chunkOk
  refine ⟨b, hb', ?_⟩
  unfold checkSchema Desc.elems
  simp only [bind, Except.bind, theElem_only h.chunk, theElem_only h.vertex, collectFields_ok c h.chunkOk.1,
    requireBounds_ok h.chunkOk.1 h.chunkOk.2.1, hb, collectFields_ok v h.vertexOk.1, requirePacked_ok h.vertexOk]

/-- The plan of a frame whose checks pass. -/
def Desc.plan (s : State) (c v : Nat) (b : Bool) : ChunkPlan :=
  ⟨s.inBase.toNat + Desc.data s c, Desc.stride s c, s.inBase.toNat + Desc.data s v, Desc.stride s v,
    Desc.seen s c 1 18 (Desc.nprop s c), Desc.seen s v 32 35 (Desc.nprop s v), b, Desc.count s v⟩

/-- What is left of the validation once the schema is good. -/
theorem validateChunked_checked {s : State} {c v : Nat} (h : Desc.SchemaOk s c v) :
    ∃ b, (b = true ↔ Desc.Has s c 13) ∧ validateChunked s =
      (do let offs ← checkTruncation c v s.inLen.toNat 0 0 (Desc.elems s)
          if 256 * Desc.count s c < Desc.count s v then .error (.range (256 * Desc.count s c))
          else do
            checkChunkOutput s (Desc.count s v) (Desc.addr s (Desc.nelem s))
            .ok { Desc.plan s c v b with
              chunkBase := s.inBase.toNat + offs.getD c 0, vertexBase := s.inBase.toNat + offs.getD v 0 }) := by
  obtain ⟨b, hb, hs⟩ := checkSchema_ok h
  refine ⟨b, hb, ?_⟩
  unfold Desc.elems at hs ⊢
  unfold validateChunked
  simp only [bind, Except.bind, checkHeader_ok h.walked.regs, walkElems_ok h.walked, hs]
  rfl

/-- A frame whose checks pass validates, with its plan. -/
theorem validateChunked_frame {s : State} {c v : Nat} (h : Desc.Frame s c v) :
    ∃ b, (b = true ↔ Desc.Has s c 13) ∧ validateChunked s = .ok (Desc.plan s c v b) := by
  obtain ⟨b, hb, he⟩ := validateChunked_checked h.schema
  have ho := h.output
  have hr := h.range
  refine ⟨b, hb, ?_⟩
  unfold Desc.elems at he
  rw [he, checkTruncation_ok h.chunkRows h.vertexRows, checkChunkOutput_eq]
  simp only [bind, Except.bind]
  rw [if_neg (by omega), if_neg (by omega), if_neg]
  · simp [Desc.plan, h.schema.chunk.1, h.schema.vertex.1]
  · rintro ⟨hp, hx | hx⟩
    · exact hx (h.clearInput hp)
    · exact hx (h.clearDesc hp)

/-- A declared field is read at the offset of the property that declares it. -/
theorem fieldOffset_seen {s : State} {e lo hi p : Nat} (hn : Desc.NoneAgain s e lo hi) (hp : p < Desc.nprop s e)
    (h1 : lo ≤ Desc.field s e p) (h2 : Desc.field s e p ≤ hi) :
    fieldOffset (Desc.seen s e lo hi (Desc.nprop s e)) (Desc.field s e p) = Desc.offset s e p := by
  unfold fieldOffset
  rcases find_seen hn h1 h2 with ⟨hno, -⟩ | ⟨q, -, -, hu, hfind⟩
  · exact absurd ⟨p, hp, rfl⟩ hno
  · rw [hfind, hu p hp rfl]; rfl

end Sys2Proof.Machine
end

