-- ==== Sys2Proof/Laws/Rounding.lean ====
section
/-! SUPPORT. What `roundMag` computes (40_numerics.md R121, R125): the grid point of the format nearest the exact value,
of two equally near ones the even one, cut at the pattern of infinity. The exact value may be given with a last bit that
only says "inexact". -/

namespace Sys2Proof.Machine

/-! ## The grid of a format with `p` fraction bits, in units of its smallest subnormal -/

/-- The value of magnitude pattern `q`. -/
def grid (p q : Nat) : Nat := if q / 2 ^ p = 0 then q else (2 ^ p + q % 2 ^ p) * 2 ^ (q / 2 ^ p - 1)

theorem grid_low {p q : Nat} (h : q < 2 ^ p) : grid p q = q := by
  unfold grid; rw [if_pos (Nat.div_eq_of_lt h)]

theorem grid_high {p k f : Nat} (hf : f < 2 ^ p) : grid p ((k + 1) * 2 ^ p + f) = (2 ^ p + f) * 2 ^ k := by
  have hp : 0 < 2 ^ p := Nat.two_pow_pos p
  have hd : ((k + 1) * 2 ^ p + f) / 2 ^ p = k + 1 := by
    rw [Nat.add_comm, Nat.add_mul_div_right _ _ hp, Nat.div_eq_of_lt hf, Nat.zero_add]
  have hm : ((k + 1) * 2 ^ p + f) % 2 ^ p = f := by
    rw [Nat.add_comm, Nat.add_mul_mod_self_right, Nat.mod_eq_of_lt hf]
  unfold grid
  rw [hd, hm, if_neg (Nat.succ_ne_zero k), Nat.add_sub_cancel]

/-- The grid points of one binade and the next one's first, by their multiple of the spacing `2^k`. -/
theorem grid_binade {p k r : Nat} (h : k = 0 ∨ 2 ^ p ≤ r) (hr : r ≤ 2 ^ (p + 1)) : grid p (k * 2 ^ p + r) = r * 2 ^ k := by
  have hp : 0 < 2 ^ p := Nat.two_pow_pos p
  have h2 : 2 ^ (p + 1) = 2 ^ p + 2 ^ p := by ring
  by_cases hlow : r < 2 ^ p
  · obtain rfl : k = 0 := by omega
    rw [Nat.zero_mul, Nat.zero_add, grid_low hlow]; simp
  · obtain ⟨f, rfl⟩ : ∃ f, r = 2 ^ p + f := ⟨r - 2 ^ p, by omega⟩
    by_cases hf : f < 2 ^ p
    · rw [show k * 2 ^ p + (2 ^ p + f) = (k + 1) * 2 ^ p + f by ring, grid_high hf]
    · obtain rfl : f = 2 ^ p := by omega
      rw [show k * 2 ^ p + (2 ^ p + 2 ^ p) = (k + 1 + 1) * 2 ^ p + 0 by ring, grid_high hp]
      ring

theorem grid_lt_succ (p q : Nat) : grid p q < grid p (q + 1) := by
  have hp : 0 < 2 ^ p := Nat.two_pow_pos p
  have hf := Nat.mod_lt q hp
  have hq := Nat.div_add_mod q (2 ^ p)
  rcases Nat.eq_zero_or_pos (q / 2 ^ p) with h0 | h0
  · have hl : q < 2 ^ p := by rw [h0] at hq; omega
    have h1 := grid_binade (p := p) (k := 0) (r := q) (.inl rfl) (by rw [pow_succ]; omega)
    have h2 := grid_binade (p := p) (k := 0) (r := q + 1) (.inl rfl) (by rw [pow_succ]; omega)
    simp only [Nat.zero_mul, Nat.zero_add, Nat.pow_zero, Nat.mul_one] at h1 h2
    omega
  · obtain ⟨k, hk⟩ : ∃ k, q / 2 ^ p = k + 1 := ⟨q / 2 ^ p - 1, by omega⟩
    have e1 : q = k * 2 ^ p + (2 ^ p + q % 2 ^ p) := by
      conv_lhs => rw [← hq, hk]
      ring
    have h1 := grid_binade (p := p) (k := k) (r := 2 ^ p + q % 2 ^ p) (.inr (by omega)) (by rw [pow_succ]; omega)
    have h2 := grid_binade (p := p) (k := k) (r := 2 ^ p + q % 2 ^ p + 1) (.inr (by omega)) (by rw [pow_succ]; omega)
    rw [show q + 1 = k * 2 ^ p + (2 ^ p + q % 2 ^ p + 1) by omega, h2]
    conv_lhs => rw [e1]
    rw [h1]
    exact Nat.mul_lt_mul_of_pos_right (Nat.lt_succ_self _) (Nat.two_pow_pos k)

theorem grid_strictMono (p : Nat) : StrictMono (grid p) := strictMono_nat_of_lt_succ (grid_lt_succ p)

/-- From a binade on, every grid point is a multiple of the binade's spacing. -/
theorem grid_dvd {p k q : Nat} (h : (k + 1) * 2 ^ p ≤ q) : 2 ^ k ∣ grid p q := by
  have hp : 0 < 2 ^ p := Nat.two_pow_pos p
  have hd : k + 1 ≤ q / 2 ^ p := (Nat.le_div_iff_mul_le hp).mpr h
  unfold grid
  rw [if_neg (by omega)]
  exact Dvd.dvd.mul_left (pow_dvd_pow 2 (by omega)) _

/-! ## The nearest integer -/

/-- `r` is the integer nearest `y`, the even one of two. -/
structure NearNat (r : Nat) (y : ℝ) : Prop where
  half : |(r : ℝ) - y| ≤ 1 / 2
  even : |(r : ℝ) - y| = 1 / 2 → r % 2 = 0

theorem NearNat.le {r : Nat} {y : ℝ} (h : NearNat r y) (j : Nat) : |(r : ℝ) - y| ≤ |(j : ℝ) - y| := by
  by_cases hj : j = r
  · rw [hj]
  · have h1 : (1 : ℝ) ≤ |(j : ℝ) - r| := by
      have : (1 : ℤ) ≤ |(j : ℤ) - r| := Int.one_le_abs (by omega)
      exact_mod_cast this
    have h2 : |(j : ℝ) - r| ≤ |(j : ℝ) - y| + |(r : ℝ) - y| := by
      have := abs_sub_le (j : ℝ) y r
      rwa [abs_sub_comm y r] at this
    have := h.half
    linarith

theorem NearNat.tie {r : Nat} {y : ℝ} (h : NearNat r y) (j : Nat) (he : |(j : ℝ) - y| = |(r : ℝ) - y|) :
    j = r ∨ r % 2 = 0 := by
  by_cases hj : j = r
  · exact .inl hj
  · have h1 : (1 : ℝ) ≤ |(j : ℝ) - r| := by
      have : (1 : ℤ) ≤ |(j : ℤ) - r| := Int.one_le_abs (by omega)
      exact_mod_cast this
    have h2 : |(j : ℝ) - r| ≤ |(j : ℝ) - y| + |(r : ℝ) - y| := by
      have := abs_sub_le (j : ℝ) y r
      rwa [abs_sub_comm y r] at this
    have := h.half
    exact .inr (h.even (by linarith))

theorem NearNat.self (r : Nat) : NearNat r (r : ℝ) := ⟨by simp, by simp⟩

/-- What `roundShift` computes, in integers: twice the distance to `m` is at most `2^s`, and an equal distance goes to
the even result. -/
theorem roundShift_spec (m s : Nat) :
    2 * (roundShift m s * 2 ^ s) ≤ 2 * m + 2 ^ s ∧ 2 * m ≤ 2 * (roundShift m s * 2 ^ s) + 2 ^ s ∧
    ((2 * (roundShift m s * 2 ^ s) = 2 * m + 2 ^ s ∨ 2 * m = 2 * (roundShift m s * 2 ^ s) + 2 ^ s) →
      roundShift m s % 2 = 0) := by
  have hp : 0 < 2 ^ s := Nat.two_pow_pos s
  have hr := Nat.mod_lt m hp
  have hm := Nat.div_add_mod m (2 ^ s)
  generalize hq : m / 2 ^ s = a at *
  generalize hb : m % 2 ^ s = b at *
  generalize hB : 2 ^ s = B at *
  have hR : roundShift m s = if 2 * b < B then a else if B < 2 * b then a + 1 else a + a % 2 := by
    unfold roundShift; simp only [hq, hb, hB]
  rw [hR]
  have hc := Nat.mul_comm B a
  split
  · refine ⟨by omega, by omega, fun h => ?_⟩; omega
  · split
    · have h1 : (a + 1) * B = a * B + B := by ring
      refine ⟨by omega, by omega, fun h => ?_⟩; omega
    · have hb2 : 2 * b = B := by omega
      rcases Nat.mod_two_eq_zero_or_one a with h0 | h0
      · rw [h0, Nat.add_zero]; refine ⟨by omega, by omega, fun _ => h0⟩
      · have h1 : (a + 1) * B = a * B + B := by ring
        rw [h0]; refine ⟨by omega, by omega, fun _ => by omega⟩

theorem roundShift_near (m s : Nat) : NearNat (roundShift m s) ((m : ℝ) / 2 ^ s) := by
  obtain ⟨h1, h2, h3⟩ := roundShift_spec m s
  generalize roundShift m s = r at *
  have hp : (0 : ℝ) < 2 ^ s := by positivity
  have k1 : 2 * ((r : ℝ) * 2 ^ s) ≤ 2 * m + 2 ^ s := by exact_mod_cast h1
  have k2 : 2 * (m : ℝ) ≤ 2 * ((r : ℝ) * 2 ^ s) + 2 ^ s := by exact_mod_cast h2
  have e : (r : ℝ) - m / 2 ^ s = (r * 2 ^ s - m) / 2 ^ s := by field_simp
  refine ⟨?_, fun he => h3 ?_⟩
  · rw [e, abs_div, abs_of_pos hp, div_le_iff₀ hp, abs_le]; constructor <;> linarith
  · rw [e, abs_div, abs_of_pos hp, div_eq_iff hp.ne'] at he
    rcases abs_choice ((r : ℝ) * 2 ^ s - m) with ha | ha
    · left
      have : 2 * ((r : ℝ) * 2 ^ s) = 2 * m + 2 ^ s := by rw [ha] at he; linarith
      exact_mod_cast this
    · right
      have : 2 * (m : ℝ) = 2 * ((r : ℝ) * 2 ^ s) + 2 ^ s := by rw [ha] at he; linarith
      exact_mod_cast this

/-- An odd numerator with at least two bits dropped stands for everything strictly between its even neighbours. -/
theorem roundShift_sticky {m s : Nat} (hs : 2 ≤ s) (ho : m % 2 = 1) {y : ℝ}
    (hl : ((m : ℝ) - 1) / 2 ^ s < y) (hu : y < ((m : ℝ) + 1) / 2 ^ s) : NearNat (roundShift m s) y := by
  obtain ⟨h1, h2, -⟩ := roundShift_spec m s
  generalize roundShift m s = r at *
  obtain ⟨t, rfl⟩ : ∃ t, s = t + 2 := ⟨s - 2, by omega⟩
  have hB : 2 ^ (t + 2) = 4 * 2 ^ t := by ring
  generalize hT : 2 ^ t = T at *
  rw [hB] at h1 h2
  have h1' : 2 * r * (2 * T) + 1 ≤ m + 2 * T := by
    have : 2 * (r * (4 * T)) = 2 * (2 * r * (2 * T)) := by ring
    have h4 : 2 * r * (2 * T) = 2 * (2 * (r * T)) := by ring
    omega
  have h2' : m + 1 ≤ 2 * r * (2 * T) + 2 * T := by
    have : 2 * (r * (4 * T)) = 2 * (2 * r * (2 * T)) := by ring
    have h4 : 2 * r * (2 * T) = 2 * (2 * (r * T)) := by ring
    omega
  have k1 : 2 * (r : ℝ) * (2 * T) + 1 ≤ m + 2 * T := by exact_mod_cast h1'
  have k2 : (m : ℝ) + 1 ≤ 2 * r * (2 * T) + 2 * T := by exact_mod_cast h2'
  have hTp : (0 : ℝ) < T := by rw [← hT]; positivity
  have hB' : (2 : ℝ) ^ (t + 2) = 4 * T := by rw [← hT]; push_cast; ring
  rw [hB', div_lt_iff₀ (by positivity)] at hl
  rw [hB', lt_div_iff₀ (by positivity)] at hu
  have a1 : (r : ℝ) - y < 1 / 2 := by
    by_contra hc
    rw [not_lt] at hc
    have : (1 / 2) * (4 * T) ≤ ((r : ℝ) - y) * (4 * T) := mul_le_mul_of_nonneg_right hc (by positivity)
    linarith
  have a2 : -(1 / 2) < (r : ℝ) - y := by
    by_contra hc
    rw [not_lt] at hc
    have : ((r : ℝ) - y) * (4 * T) ≤ -(1 / 2) * (4 * T) := mul_le_mul_of_nonneg_right hc (by positivity)
    linarith
  exact ⟨(abs_lt.mpr ⟨a2, a1⟩).le, fun he => absurd he (abs_lt.mpr ⟨a2, a1⟩).ne⟩

/-! ## The nearest grid point -/

/-- `U` is the pattern of the grid point nearest `x`, the even one of two; patterns are not cut at infinity here. -/
structure NearGrid (p U : Nat) (x : ℝ) : Prop where
  le : ∀ q, |(grid p U : ℝ) - x| ≤ |(grid p q : ℝ) - x|
  tie : ∀ q, |(grid p q : ℝ) - x| = |(grid p U : ℝ) - x| → q = U ∨ U % 2 = 0

theorem NearGrid.zero (p : Nat) : NearGrid p 0 0 := by
  have h0 : grid p 0 = 0 := grid_low (Nat.two_pow_pos p)
  exact ⟨fun q => by rw [h0]; simp, fun _ _ => .inr rfl⟩

/-- Rounding in a binade rounds on the whole grid. -/
theorem nearGrid_of_nearNat {p k r : Nat} (hp : 1 ≤ p) {y : ℝ} (hn : NearNat r y) (hk : k = 0 ∨ (2 : ℝ) ^ p ≤ y)
    (hr : r ≤ 2 ^ (p + 1)) : NearGrid p (k * 2 ^ p + r) (y * 2 ^ k) := by
  have hkp : (0 : ℝ) < 2 ^ k := by positivity
  have hscale : ∀ j : Nat, |((j * 2 ^ k : Nat) : ℝ) - y * 2 ^ k| = |(j : ℝ) - y| * 2 ^ k := by
    intro j; push_cast; rw [← sub_mul, abs_mul, abs_of_pos hkp]
  have hrk : k = 0 ∨ 2 ^ p ≤ r := by
    rcases hk with h | h
    · exact .inl h
    · right
      by_contra hc
      have h1 : r + 1 ≤ 2 ^ p := by omega
      have h2 : (r : ℝ) + 1 ≤ 2 ^ p := by exact_mod_cast h1
      have := (abs_le.mp hn.half).1
      linarith
  have hU : grid p (k * 2 ^ p + r) = r * 2 ^ k := grid_binade hrk hr
  have heven : r % 2 = 0 → (k * 2 ^ p + r) % 2 = 0 := by
    intro h
    obtain ⟨p', rfl⟩ : ∃ p', p = p' + 1 := ⟨p - 1, by omega⟩
    have : k * 2 ^ (p' + 1) = 2 * (k * 2 ^ p') := by ring
    omega
  -- a grid point is a multiple of the spacing, or below the binade
  have hpt : ∀ q, (∃ j, grid p q = j * 2 ^ k ∧ (j = r → q = k * 2 ^ p + r)) ∨ (k ≠ 0 ∧ (grid p q : ℝ) < 2 ^ p * 2 ^ k) := by
    intro q
    by_cases hq : (k + 1) * 2 ^ p ≤ q
    · left
      obtain ⟨j, hj⟩ := grid_dvd hq
      refine ⟨j, by rw [hj, Nat.mul_comm], fun h => (grid_strictMono p).injective ?_⟩
      rw [hU, hj, h, Nat.mul_comm]
    · by_cases hk0 : k = 0
      · left
        subst hk0
        refine ⟨grid p q, by simp, fun h => (grid_strictMono p).injective ?_⟩
        rw [hU, h]; simp
      · right
        refine ⟨hk0, ?_⟩
        have h1 : grid p q < grid p (k * 2 ^ p + 2 ^ p) := grid_strictMono p (by
          have : (k + 1) * 2 ^ p = k * 2 ^ p + 2 ^ p := by ring
          omega)
        rw [grid_binade (.inr le_rfl) (by rw [pow_succ]; omega)] at h1
        exact_mod_cast h1
  have hfar : ∀ q, k ≠ 0 → (grid p q : ℝ) < 2 ^ p * 2 ^ k →
      |((r * 2 ^ k : Nat) : ℝ) - y * 2 ^ k| < |(grid p q : ℝ) - y * 2 ^ k| := by
    intro q hk0 hlt
    have hy : (2 : ℝ) ^ p ≤ y := hk.resolve_left hk0
    have hbase := hn.le (2 ^ p)
    push_cast at hbase
    rw [hscale]
    have e1 : |(2 : ℝ) ^ p - y| = y - 2 ^ p := by rw [abs_sub_comm, abs_of_nonneg (by linarith)]
    have e2 : |(grid p q : ℝ) - y * 2 ^ k| = y * 2 ^ k - grid p q := by
      rw [abs_sub_comm, abs_of_nonneg]
      have := mul_le_mul_of_nonneg_right hy hkp.le
      linarith
    rw [e2]
    calc |(r : ℝ) - y| * 2 ^ k ≤ (y - 2 ^ p) * 2 ^ k := mul_le_mul_of_nonneg_right (by linarith) hkp.le
      _ < y * 2 ^ k - grid p q := by rw [sub_mul]; linarith
  constructor
  · intro q
    rw [hU]
    rcases hpt q with ⟨j, hj, _⟩ | ⟨hk0, hlt⟩
    · rw [hj, hscale, hscale]; exact mul_le_mul_of_nonneg_right (hn.le j) hkp.le
    · exact (hfar q hk0 hlt).le
  · intro q he
    rw [hU] at he
    rcases hpt q with ⟨j, hj, hq⟩ | ⟨hk0, hlt⟩
    · rw [hj, hscale, hscale] at he
      rcases hn.tie j (mul_right_cancel₀ hkp.ne' he) with h | h
      · exact .inl (hq h)
      · exact .inr (heven h)
    · exact absurd he (hfar q hk0 hlt).ne'

/-! ## `roundMag` -/

/-- The real `x` is what `m * 2^e` stands for: that value, or, when the last bit of `m` only says "inexact", any value
strictly between its even neighbours. -/
def StandsFor (p m : Nat) (e : Int) (x : ℝ) : Prop :=
  x = m * 2 ^ e ∨ (m % 2 = 1 ∧ 2 ^ (p + 3) ≤ m ∧ ((m : ℝ) - 1) * 2 ^ e < x ∧ x < ((m : ℝ) + 1) * 2 ^ e)

/-- `roundMag` gives the nearest grid point, cut at the pattern of infinity. -/
theorem roundMag_spec (w p : Nat) (emin : Int) (m : Nat) (e : Int) (hp : 1 ≤ p) {x : ℝ} (hx : StandsFor p m e x) :
    ∃ U, roundMag w p emin m e = min U ((2 ^ w - 1) * 2 ^ p) ∧ NearGrid p U (x * 2 ^ (-emin)) := by
  by_cases hm : m = 0
  · subst hm
    refine ⟨0, by simp [roundMag], ?_⟩
    rcases hx with h | h
    · rw [h]; simpa using NearGrid.zero p
    · have := h.1; simp at this
  have hlog1 : 2 ^ Nat.log2 m ≤ m := Nat.log2_self_le hm
  have hlog2 : m < 2 ^ (Nat.log2 m + 1) := Nat.lt_log2_self
  generalize hL : Nat.log2 m = L at *
  set q : Int := max (e + (L : Int) - p) emin with hq
  set k : Nat := (q - emin).toNat with hk
  have hkq : (k : Int) = q - emin := Int.toNat_of_nonneg (by omega)
  set r : Nat := if q ≤ e then m * 2 ^ (e - q).toNat else roundShift m (q - e).toNat with hr
  have hdef : roundMag w p emin m e = min (k * 2 ^ p + r) ((2 ^ w - 1) * 2 ^ p) := by
    unfold roundMag; rw [if_neg hm]; simp only [hL]; rfl
  set y : ℝ := x * 2 ^ (-q) with hy
  have hxy : x * 2 ^ (-emin) = y * 2 ^ k := by
    rw [hy, mul_assoc, ← zpow_natCast, ← zpow_add₀ (by norm_num : (2 : ℝ) ≠ 0), hkq]; ring_nf
  refine ⟨k * 2 ^ p + r, hdef, ?_⟩
  rw [hxy]
  by_cases hqe : q ≤ e
  · -- no bit is dropped: the value is exact
    have hLp : L ≤ p := by omega
    have hxe : x = m * 2 ^ e := by
      rcases hx with h | ⟨_, h2, _⟩
      · exact h
      · have h3 : 2 ^ (p + 3) < 2 ^ (L + 1) := lt_of_le_of_lt h2 hlog2
        have := (Nat.pow_lt_pow_iff_right (by norm_num)).mp h3
        omega
    have hrd : r = m * 2 ^ (e - q).toNat := by rw [hr, if_pos hqe]
    have hyr : y = (r : ℝ) := by
      rw [hy, hxe, hrd]; push_cast
      rw [mul_assoc, ← zpow_natCast, ← zpow_add₀ (by norm_num : (2 : ℝ) ≠ 0), Int.toNat_of_nonneg (by omega)]
      ring_nf
    rw [hyr]
    apply nearGrid_of_nearNat hp (NearNat.self r)
    · by_cases hk0 : k = 0
      · exact .inl hk0
      · right
        have hqL : q = e + L - p := by omega
        have hd : (e - q).toNat = p - L := by omega
        have : 2 ^ p ≤ r := by
          rw [hrd, hd]
          calc 2 ^ p = 2 ^ L * 2 ^ (p - L) := by rw [← pow_add]; congr 1; omega
            _ ≤ _ := Nat.mul_le_mul_right _ hlog1
        exact_mod_cast this
    · have hd : (e - q).toNat ≤ p - L := by omega
      rw [hrd]
      calc m * 2 ^ (e - q).toNat ≤ 2 ^ (L + 1) * 2 ^ (p - L) :=
            Nat.mul_le_mul hlog2.le (Nat.pow_le_pow_right (by norm_num) hd)
        _ = 2 ^ (p + 1) := by rw [← pow_add]; congr 1; omega
  · -- bits are dropped
    have hrd : r = roundShift m (q - e).toNat := by rw [hr, if_neg hqe]
    set s : Nat := (q - e).toNat with hs
    have hsq : (s : Int) = q - e := Int.toNat_of_nonneg (by omega)
    have hsL : (L : Int) - p ≤ s := by omega
    have hsp : (0 : ℝ) < 2 ^ s := by positivity
    have hscale : ∀ c : ℝ, c * 2 ^ e * 2 ^ (-q) = c / 2 ^ s := by
      intro c
      rw [mul_assoc, ← zpow_add₀ (by norm_num : (2 : ℝ) ≠ 0), div_eq_mul_inv, ← zpow_natCast, ← zpow_neg, hsq]
      ring_nf
    have hqp : (0 : ℝ) < 2 ^ (-q) := by positivity
    -- the quotient is at least 2^p in a normal binade
    have hbase : k = 0 ∨ 2 ^ p * 2 ^ s ≤ m := by
      by_cases hk0 : k = 0
      · exact .inl hk0
      · right
        have : s + p = L := by omega
        rw [← pow_add, Nat.add_comm, this]; exact hlog1
    have hnear : NearNat r y := by
      rw [hrd]
      rcases hx with h | ⟨h1, h2, h3, h4⟩
      · have : y = (m : ℝ) / 2 ^ s := by rw [hy, h, hscale]
        rw [this]; exact roundShift_near m s
      · have hL3 : p + 3 ≤ L := by
          have h5 : 2 ^ (p + 3) < 2 ^ (L + 1) := lt_of_le_of_lt h2 hlog2
          have := (Nat.pow_lt_pow_iff_right (by norm_num)).mp h5
          omega
        apply roundShift_sticky (by omega) h1
        · rw [← hscale]; exact mul_lt_mul_of_pos_right h3 hqp
        · rw [← hscale]; exact mul_lt_mul_of_pos_right h4 hqp
    apply nearGrid_of_nearNat hp hnear
    · rcases hbase with h | h
      · exact .inl h
      · right
        rcases hx with h1 | ⟨h1, h2, h3, h4⟩
        · rw [hy, h1, hscale, le_div_iff₀ hsp]; exact_mod_cast h
        · have hL3 : p + 3 ≤ L := by
            have h5 : 2 ^ (p + 3) < 2 ^ (L + 1) := lt_of_le_of_lt h2 hlog2
            have := (Nat.pow_lt_pow_iff_right (by norm_num)).mp h5
            omega
          have h5 : 2 ^ p * 2 ^ s + 1 ≤ m := by
            obtain ⟨s', hs'⟩ : ∃ s', s = s' + 1 := ⟨s - 1, by omega⟩
            have : 2 ^ p * 2 ^ s = 2 * (2 ^ p * 2 ^ s') := by rw [hs']; ring
            omega
          have h6 : (2 : ℝ) ^ p * 2 ^ s + 1 ≤ m := by exact_mod_cast h5
          have h7 : ((m : ℝ) - 1) / 2 ^ s < y := by rw [← hscale]; exact mul_lt_mul_of_pos_right h3 hqp
          rw [div_lt_iff₀ hsp] at h7
          have : (2 : ℝ) ^ p * 2 ^ s ≤ y * 2 ^ s := by linarith
          exact le_of_mul_le_mul_right this hsp
    · have h1 := (roundShift_spec m s).1
      rw [← hrd] at h1
      have h2 : m < 2 ^ (p + 1) * 2 ^ s := lt_of_lt_of_le hlog2 (by
        rw [← pow_add]; exact Nat.pow_le_pow_right (by norm_num) (by omega))
      by_contra hc
      have h3 : 2 ^ (p + 1) + 1 ≤ r := by omega
      have h4 := Nat.mul_le_mul_right (2 ^ s) h3
      have h5 : (2 ^ (p + 1) + 1) * 2 ^ s = 2 ^ (p + 1) * 2 ^ s + 2 ^ s := by ring
      have h6 := Nat.two_pow_pos s
      omega

theorem StandsFor.nonneg {p m : Nat} {e : Int} {x : ℝ} (h : StandsFor p m e x) : 0 ≤ x := by
  rcases h with h | ⟨h1, _, h2, _⟩
  · rw [h]; positivity
  · have : (1 : ℝ) ≤ m := by exact_mod_cast (by omega : 1 ≤ m)
    have h3 : (0 : ℝ) ≤ ((m : ℝ) - 1) * 2 ^ e := mul_nonneg (by linarith) (by positivity)
    linarith

/-- The cut at the pattern of infinity falls where the value is half a spacing above the largest finite one. -/
theorem nearGrid_cut {p n U : Nat} (hp : 1 ≤ p) {x : ℝ} (h : NearGrid p U x) :
    U < (n + 2) * 2 ^ p ↔ x < (2 ^ (p + 1) - 1 / 2) * 2 ^ n := by
  have hpp : 0 < 2 ^ p := Nat.two_pow_pos p
  have h2 : 2 ^ (p + 1) = 2 ^ p + 2 ^ p := by ring
  have hM : grid p ((n + 2) * 2 ^ p) = 2 ^ (p + 1) * 2 ^ n := by
    rw [show (n + 2) * 2 ^ p = n * 2 ^ p + 2 ^ (p + 1) by ring, grid_binade (.inr (by omega)) le_rfl]
  have hL : grid p ((n + 2) * 2 ^ p - 1) = (2 ^ (p + 1) - 1) * 2 ^ n := by
    have : (n + 2) * 2 ^ p = n * 2 ^ p + 2 ^ (p + 1) := by ring
    rw [show (n + 2) * 2 ^ p - 1 = n * 2 ^ p + (2 ^ (p + 1) - 1) by omega, grid_binade (.inr (by omega)) (by omega)]
  have hn : (0 : ℝ) < 2 ^ n := by positivity
  have eM : (grid p ((n + 2) * 2 ^ p) : ℝ) = 2 ^ (p + 1) * 2 ^ n := by rw [hM]; push_cast; ring
  have eL : (grid p ((n + 2) * 2 ^ p - 1) : ℝ) = 2 ^ (p + 1) * 2 ^ n - 2 ^ n := by
    rw [hL]; push_cast [Nat.cast_sub (show 1 ≤ 2 ^ (p + 1) by omega)]; ring
  have hMpos : 2 ≤ (n + 2) * 2 ^ p := by nlinarith
  generalize hMd : (n + 2) * 2 ^ p = M at *
  have hT : ((2 : ℝ) ^ (p + 1) - 1 / 2) * 2 ^ n = 2 ^ (p + 1) * 2 ^ n - 2 ^ n / 2 := by ring
  rw [hT]
  generalize (2 : ℝ) ^ (p + 1) * 2 ^ n = A at *
  generalize (2 : ℝ) ^ n = B at *
  constructor
  · intro hU
    by_contra hc
    rw [not_lt] at hc
    have h1 : (grid p U : ℝ) ≤ A - B := by
      rw [← eL]; exact_mod_cast (grid_strictMono p).monotone (by omega)
    have h3 := h.le M
    rw [eM] at h3
    have e1 : |(grid p U : ℝ) - x| = x - grid p U := by rw [abs_sub_comm, abs_of_nonneg (by linarith)]
    rw [e1] at h3
    rcases le_total x A with hxA | hxA
    · rw [abs_of_nonneg (by linarith)] at h3
      have hxe : x = A - B / 2 := by linarith
      have hUe : (grid p U : ℝ) = A - B := by linarith
      have htie := h.tie M (by rw [eM, e1, abs_of_nonneg (by linarith)]; linarith)
      rw [← eL] at hUe
      have hUM : U = M - 1 := (grid_strictMono p).injective (by exact_mod_cast hUe)
      have hodd : M % 2 = 0 := by
        obtain ⟨p', rfl⟩ : ∃ p', p = p' + 1 := ⟨p - 1, by omega⟩
        rw [← hMd, pow_succ, ← Nat.mul_assoc, Nat.mul_mod_left]
      omega
    · rw [abs_sub_comm, abs_of_nonneg (by linarith)] at h3
      linarith
  · intro hx
    by_contra hc
    rw [not_lt] at hc
    have h1 : A ≤ (grid p U : ℝ) := by rw [← eM]; exact_mod_cast (grid_strictMono p).monotone hc
    have h3 := h.le (M - 1)
    rw [eL, abs_of_nonneg (by linarith : (0 : ℝ) ≤ (grid p U : ℝ) - x)] at h3
    rcases le_total x (A - B) with hxA | hxA
    · rw [abs_of_nonneg (by linarith)] at h3; linarith
    · rw [abs_sub_comm, abs_of_nonneg (by linarith)] at h3; linarith

/-- Nearest among the non-negative grid points is nearest among all signed ones. -/
theorem nearGrid_signed {p U q : Nat} {c x b : ℝ} (hc : 0 < c) (h : NearGrid p U (x * c)) (hx : 0 ≤ x)
    (hb : b = grid p q / c ∨ b = -(grid p q / c)) :
    |(grid p U : ℝ) / c - x| ≤ |b - x| ∧
    (|b - x| = |(grid p U : ℝ) / c - x| → b = grid p U / c ∨ U % 2 = 0) := by
  have hs : ∀ j : Nat, |(grid p j : ℝ) / c - x| = |(grid p j : ℝ) - x * c| / c := by
    intro j
    rw [show (grid p j : ℝ) / c - x = ((grid p j : ℝ) - x * c) / c by field_simp, abs_div, abs_of_pos hc]
  have hpos : ∀ j : Nat, |(grid p U : ℝ) / c - x| ≤ |(grid p j : ℝ) / c - x| := fun j => by
    rw [hs, hs]; exact div_le_div_of_nonneg_right (h.le j) hc.le
  have htie : ∀ j : Nat, |(grid p j : ℝ) / c - x| = |(grid p U : ℝ) / c - x| → j = U ∨ U % 2 = 0 := fun j he => by
    rw [hs, hs, div_left_inj' hc.ne'] at he; exact h.tie j he
  rcases hb with hb | hb
  · rw [hb]
    exact ⟨hpos q, fun he => (htie q he).imp (fun h => by rw [h]) id⟩
  · have h0 : grid p 0 = 0 := grid_low (Nat.two_pow_pos p)
    have hz := hpos 0
    rw [h0] at hz
    have e0 : |((0 : Nat) : ℝ) / c - x| = x := by simp [abs_of_nonneg hx]
    rw [e0] at hz
    have hg : (0 : ℝ) ≤ grid p q / c := by positivity
    have eb : |b - x| = grid p q / c + x := by
      rw [hb, show -((grid p q : ℝ) / c) - x = -(grid p q / c + x) by ring, abs_neg, abs_of_nonneg (by linarith)]
    rw [eb]
    refine ⟨by linarith, fun he => ?_⟩
    have hgz : (grid p q : ℝ) / c = 0 := by linarith
    rw [hgz, neg_zero] at hb
    rcases htie 0 (by rw [h0, e0]; linarith) with h1 | h1
    · left; rw [hb, ← h1, h0]; simp
    · exact .inr h1

/-! ## The two formats -/

theorem round64_toNat (neg : Bool) (m : Nat) (e : Int) :
    (round64 neg m e).toNat = (if neg then 2 ^ 63 else 0) + roundMag 11 52 (-1074) m e := by
  have : roundMag 11 52 (-1074) m e ≤ 2047 * 2 ^ 52 := by
    unfold roundMag; split
    · omega
    · exact Nat.min_le_right _ _
  unfold round64
  rw [BitVec.toNat_ofNat, Nat.mod_eq_of_lt]
  split <;> omega

theorem roundMag64_le (m : Nat) (e : Int) : roundMag 11 52 (-1074) m e ≤ 2047 * 2 ^ 52 := by
  unfold roundMag; split
  · omega
  · exact Nat.min_le_right _ _

/-- The sign of a rounded value is the sign given (40_numerics.md R121: also of a zero or an infinity). -/
theorem signBit_round64 (neg : Bool) (m : Nat) (e : Int) : Binary64.signBit (round64 neg m e) = neg := by
  have := roundMag64_le m e
  unfold Binary64.signBit
  rw [round64_toNat]
  generalize roundMag 11 52 (-1074) m e = P at *
  cases neg
  · simp only [Bool.false_eq_true, if_false, Nat.zero_add, beq_eq_false_iff_ne]; omega
  · simp only [if_true, beq_iff_eq]; omega

theorem magnitude_round64 (neg : Bool) (m : Nat) (e : Int) :
    Binary64.magnitude (round64 neg m e) = roundMag 11 52 (-1074) m e := by
  have := roundMag64_le m e
  unfold Binary64.magnitude
  rw [round64_toNat]
  split <;> omega

theorem isFinite_iff (v : DWord) : Binary64.isFinite v = true ↔ Binary64.magnitude v < 2047 * 2 ^ 52 := by
  unfold Binary64.isFinite Binary64.expField Binary64.magnitude
  have := v.isLt
  rw [bne_iff_ne]
  omega

theorem fracField_mod_two (v : DWord) : Binary64.fracField v % 2 = Binary64.magnitude v % 2 := by
  unfold Binary64.fracField Binary64.magnitude; omega

theorem val_eq (v : DWord) :
    ((Binary64.val v : ℚ) : ℝ) = (if Binary64.signBit v then -1 else 1) * ((grid 52 (Binary64.magnitude v) : ℝ) / 2 ^ 1074) := by
  unfold Binary64.val
  split <;> (push_cast; rfl)

/-- `round64` is `RN` (40_numerics.md R121) of every value its arguments stand for. -/
theorem round64_rounds (neg : Bool) (m : Nat) (e : Int) {x : ℝ} (hx : StandsFor 52 m e x) :
    Binary64.Rounds (if neg then -x else x) (round64 neg m e) := by
  obtain ⟨U, hU, hn⟩ := roundMag_spec 11 52 (-1074) m e (by norm_num) hx
  have hx0 := hx.nonneg
  have hmag := magnitude_round64 neg m e
  have hsign := signBit_round64 neg m e
  have hnat := round64_toNat neg m e
  rw [neg_neg, zpow_ofNat] at hn
  have hT : ((2 : ℝ) ^ (52 + 1) - 1 / 2) * 2 ^ 2045 = (2 ^ 1024 - 2 ^ 970) * 2 ^ 1074 := by
    rw [show (2 : ℝ) ^ 1024 = 2 ^ 54 * 2 ^ 970 by rw [← pow_add],
      show (2 : ℝ) ^ 2045 = 2 * (2 ^ 970 * 2 ^ 1074) by rw [← pow_add, ← pow_succ']]
    generalize (2 : ℝ) ^ 970 = a
    generalize (2 : ℝ) ^ 1074 = b
    ring
  have hcut := nearGrid_cut (n := 2045) (by norm_num) hn
  rw [hT, mul_lt_mul_iff_left₀ (by positivity)] at hcut
  have hbig : (0 : ℝ) < 2 ^ 1024 - 2 ^ 970 := sub_pos.mpr (pow_lt_pow_right₀ (by norm_num) (by norm_num))
  norm_num only at hU
  rw [show (2045 + 2) * 2 ^ 52 = 9218868437227405312 by norm_num] at hcut
  have habs : |(if neg then -x else x)| = x := by cases neg <;> simp [abs_of_nonneg hx0]
  generalize hv : round64 neg m e = v at *
  have hsub : ∀ y : ℝ, |(if neg then -1 else 1) * y - (if neg then -x else x)| = |y - x| := by
    intro y
    cases neg
    · simp
    · simp only [if_true]; rw [show -1 * y - -x = -(y - x) by ring, abs_neg]
  by_cases hfin : x < 2 ^ 1024 - 2 ^ 970
  · have hlt := hcut.mpr hfin
    have hUm : roundMag 11 52 (-1074) m e = U := by rw [hU]; exact Nat.min_eq_left hlt.le
    rw [hUm] at hmag
    have hvv : ((Binary64.val v : ℚ) : ℝ) = (if neg then -1 else 1) * ((grid 52 U : ℝ) / 2 ^ 1074) := by
      rw [val_eq, hsign, hmag]
    have hw : ∀ w : DWord, ∃ b : ℝ, ((Binary64.val w : ℚ) : ℝ) = (if neg then -1 else 1) * b ∧
        (b = grid 52 (Binary64.magnitude w) / 2 ^ 1074 ∨ b = -((grid 52 (Binary64.magnitude w) : ℝ) / 2 ^ 1074)) := by
      intro w
      rw [val_eq]
      cases neg <;> cases Binary64.signBit w
      · exact ⟨_, by simp, .inl rfl⟩
      · exact ⟨_, by simp, .inr rfl⟩
      · exact ⟨_, by simp, .inr rfl⟩
      · exact ⟨_, by simp, .inl rfl⟩
    refine ⟨fun _ => ?_, fun _ => ?_, fun _ => ?_, fun h => ?_, fun h => ?_⟩
    · rw [isFinite_iff, hmag]; omega
    · intro w _
      obtain ⟨b, hb, hbb⟩ := hw w
      rw [hvv, hb, hsub, hsub]
      exact (nearGrid_signed (by positivity) hn hx0 hbb).1
    · intro w _ he
      obtain ⟨b, hb, hbb⟩ := hw w
      rw [hvv, hb, hsub, hsub] at he
      rcases (nearGrid_signed (by positivity) hn hx0 hbb).2 he with h | h
      · left
        have : ((Binary64.val w : ℚ) : ℝ) = (Binary64.val v : ℚ) := by rw [hb, hvv, h]
        exact_mod_cast this
      · right; rw [fracField_mod_two, hmag]; exact h
    · generalize (2 : ℝ) ^ 1024 - 2 ^ 970 = R at *
      cases neg
      · simp only [Bool.false_eq_true, if_false] at h; linarith only [h, hx0, hbig, hfin]
      · simp only [if_true] at h; linarith only [h, hx0, hbig, hfin]
    · generalize (2 : ℝ) ^ 1024 - 2 ^ 970 = R at *
      cases neg
      · simp only [Bool.false_eq_true, if_false] at h; linarith only [h, hx0, hbig, hfin]
      · simp only [if_true] at h; linarith only [h, hx0, hbig, hfin]
  · have hge : ¬ U < 9218868437227405312 := fun h => hfin (hcut.mp h)
    have hUm : roundMag 11 52 (-1074) m e = 9218868437227405312 := by rw [hU]; omega
    rw [hUm] at hnat
    rw [not_lt] at hfin
    refine ⟨fun h => ?_, fun h => ?_, fun h => ?_, fun h => ?_, fun h => ?_⟩
    · rw [habs] at h; exact absurd h (not_lt.mpr hfin)
    · rw [habs] at h; exact absurd h (not_lt.mpr hfin)
    · rw [habs] at h; exact absurd h (not_lt.mpr hfin)
    · cases neg
      · apply BitVec.eq_of_toNat_eq; rw [hnat]; rfl
      · generalize (2 : ℝ) ^ 1024 - 2 ^ 970 = R at *
        simp only [if_true] at h; linarith only [h, hx0, hbig, hfin]
    · cases neg
      · generalize (2 : ℝ) ^ 1024 - 2 ^ 970 = R at *
        simp only [Bool.false_eq_true, if_false] at h; linarith only [h, hx0, hbig, hfin]
      · apply BitVec.eq_of_toNat_eq; rw [hnat]; rfl

/-! The same for binary32. -/

theorem round32_toNat (neg : Bool) (m : Nat) (e : Int) :
    (round32 neg m e).toNat = (if neg then 2 ^ 31 else 0) + roundMag 8 23 (-149) m e := by
  have : roundMag 8 23 (-149) m e ≤ 255 * 2 ^ 23 := by
    unfold roundMag; split
    · omega
    · exact Nat.min_le_right _ _
  unfold round32
  rw [BitVec.toNat_ofNat, Nat.mod_eq_of_lt]
  split <;> omega

theorem roundMag32_le (m : Nat) (e : Int) : roundMag 8 23 (-149) m e ≤ 255 * 2 ^ 23 := by
  unfold roundMag; split
  · omega
  · exact Nat.min_le_right _ _

/-- The sign of a rounded value is the sign given (40_numerics.md R125: also of a zero or an infinity). -/
theorem signBit_round32 (neg : Bool) (m : Nat) (e : Int) : Binary64.signBit32 (round32 neg m e) = neg := by
  have := roundMag32_le m e
  unfold Binary64.signBit32
  rw [round32_toNat]
  generalize roundMag 8 23 (-149) m e = P at *
  cases neg
  · simp only [Bool.false_eq_true, if_false, Nat.zero_add, beq_eq_false_iff_ne]; omega
  · simp only [if_true, beq_iff_eq]; omega

theorem magnitude_round32 (neg : Bool) (m : Nat) (e : Int) :
    (round32 neg m e).toNat % 2 ^ 31 = roundMag 8 23 (-149) m e := by
  have := roundMag32_le m e
  rw [round32_toNat]
  split <;> omega

theorem isFinite32_iff (v : Word) : Binary64.isFinite32 v = true ↔ (v.toNat % 2 ^ 31) < 255 * 2 ^ 23 := by
  unfold Binary64.isFinite32 Binary64.expField32
  have := v.isLt
  rw [bne_iff_ne]
  omega

theorem fracField32_mod_two (v : Word) : Binary64.fracField32 v % 2 = (v.toNat % 2 ^ 31) % 2 := by
  unfold Binary64.fracField32; omega

theorem val32_eq (v : Word) :
    ((Binary64.val32 v : ℚ) : ℝ) = (if Binary64.signBit32 v then -1 else 1) * ((grid 23 ((v.toNat % 2 ^ 31)) : ℝ) / 2 ^ 149) := by
  unfold Binary64.val32
  split <;> (push_cast; rfl)

/-- `round32` rounds to binary32 (40_numerics.md R125) of every value its arguments stand for. -/
theorem round32_rounds (neg : Bool) (m : Nat) (e : Int) {x : ℝ} (hx : StandsFor 23 m e x) :
    Binary64.Rounds32 (if neg then -x else x) (round32 neg m e) := by
  obtain ⟨U, hU, hn⟩ := roundMag_spec 8 23 (-149) m e (by norm_num) hx
  have hx0 := hx.nonneg
  have hmag := magnitude_round32 neg m e
  have hsign := signBit_round32 neg m e
  have hnat := round32_toNat neg m e
  rw [neg_neg, zpow_ofNat] at hn
  have hT : ((2 : ℝ) ^ (23 + 1) - 1 / 2) * 2 ^ 253 = (2 ^ 128 - 2 ^ 103) * 2 ^ 149 := by
    rw [show (2 : ℝ) ^ 128 = 2 ^ 25 * 2 ^ 103 by rw [← pow_add],
      show (2 : ℝ) ^ 253 = 2 * (2 ^ 103 * 2 ^ 149) by rw [← pow_add, ← pow_succ']]
    generalize (2 : ℝ) ^ 103 = a
    generalize (2 : ℝ) ^ 149 = b
    ring
  have hcut := nearGrid_cut (n := 253) (by norm_num) hn
  rw [hT, mul_lt_mul_iff_left₀ (by positivity)] at hcut
  have hbig : (0 : ℝ) < 2 ^ 128 - 2 ^ 103 := sub_pos.mpr (pow_lt_pow_right₀ (by norm_num) (by norm_num))
  norm_num only at hU
  rw [show (253 + 2) * 2 ^ 23 = 2139095040 by norm_num] at hcut
  have habs : |(if neg then -x else x)| = x := by cases neg <;> simp [abs_of_nonneg hx0]
  generalize hv : round32 neg m e = v at *
  have hsub : ∀ y : ℝ, |(if neg then -1 else 1) * y - (if neg then -x else x)| = |y - x| := by
    intro y
    cases neg
    · simp
    · simp only [if_true]; rw [show -1 * y - -x = -(y - x) by ring, abs_neg]
  by_cases hfin : x < 2 ^ 128 - 2 ^ 103
  · have hlt := hcut.mpr hfin
    have hUm : roundMag 8 23 (-149) m e = U := by rw [hU]; exact Nat.min_eq_left hlt.le
    rw [hUm] at hmag
    have hvv : ((Binary64.val32 v : ℚ) : ℝ) = (if neg then -1 else 1) * ((grid 23 U : ℝ) / 2 ^ 149) := by
      rw [val32_eq, hsign, hmag]
    have hw : ∀ w : Word, ∃ b : ℝ, ((Binary64.val32 w : ℚ) : ℝ) = (if neg then -1 else 1) * b ∧
        (b = grid 23 ((w.toNat % 2 ^ 31)) / 2 ^ 149 ∨ b = -((grid 23 ((w.toNat % 2 ^ 31)) : ℝ) / 2 ^ 149)) := by
      intro w
      rw [val32_eq]
      cases neg <;> cases Binary64.signBit32 w
      · exact ⟨_, by simp, .inl rfl⟩
      · exact ⟨_, by simp, .inr rfl⟩
      · exact ⟨_, by simp, .inr rfl⟩
      · exact ⟨_, by simp, .inl rfl⟩
    refine ⟨fun _ => ?_, fun _ => ?_, fun _ => ?_, fun h => ?_, fun h => ?_⟩
    · rw [isFinite32_iff, hmag]; omega
    · intro w _
      obtain ⟨b, hb, hbb⟩ := hw w
      rw [hvv, hb, hsub, hsub]
      exact (nearGrid_signed (by positivity) hn hx0 hbb).1
    · intro w _ he
      obtain ⟨b, hb, hbb⟩ := hw w
      rw [hvv, hb, hsub, hsub] at he
      rcases (nearGrid_signed (by positivity) hn hx0 hbb).2 he with h | h
      · left
        have : ((Binary64.val32 w : ℚ) : ℝ) = (Binary64.val32 v : ℚ) := by rw [hb, hvv, h]
        exact_mod_cast this
      · right; rw [fracField32_mod_two, hmag]; exact h
    · generalize (2 : ℝ) ^ 128 - 2 ^ 103 = R at *
      cases neg
      · simp only [Bool.false_eq_true, if_false] at h; linarith only [h, hx0, hbig, hfin]
      · simp only [if_true] at h; linarith only [h, hx0, hbig, hfin]
    · generalize (2 : ℝ) ^ 128 - 2 ^ 103 = R at *
      cases neg
      · simp only [Bool.false_eq_true, if_false] at h; linarith only [h, hx0, hbig, hfin]
      · simp only [if_true] at h; linarith only [h, hx0, hbig, hfin]
  · have hge : ¬ U < 2139095040 := fun h => hfin (hcut.mp h)
    have hUm : roundMag 8 23 (-149) m e = 2139095040 := by rw [hU]; omega
    rw [hUm] at hnat
    rw [not_lt] at hfin
    refine ⟨fun h => ?_, fun h => ?_, fun h => ?_, fun h => ?_, fun h => ?_⟩
    · rw [habs] at h; exact absurd h (not_lt.mpr hfin)
    · rw [habs] at h; exact absurd h (not_lt.mpr hfin)
    · rw [habs] at h; exact absurd h (not_lt.mpr hfin)
    · cases neg
      · apply BitVec.eq_of_toNat_eq; rw [hnat]; rfl
      · generalize (2 : ℝ) ^ 128 - 2 ^ 103 = R at *
        simp only [if_true] at h; linarith only [h, hx0, hbig, hfin]
    · cases neg
      · generalize (2 : ℝ) ^ 128 - 2 ^ 103 = R at *
        simp only [Bool.false_eq_true, if_false] at h; linarith only [h, hx0, hbig, hfin]
      · apply BitVec.eq_of_toNat_eq; rw [hnat]; rfl

end Sys2Proof.Machine
end

