-- ==== Sys2Proof/Laws/Float.lean ====
section
/-! SUPPORT. What `Num.of64` and `Num.of32` read from a pattern, case by case (40_numerics.md R120), and that the
quotient and the root that `div` and `sqrt` round stand for the exact ones. -/

namespace Sys2Proof.Machine

/-- A NaN pattern reads as a NaN. -/
theorem of64_nan {x : DWord} (h : Binary64.isNaN x = true) : Num.of64 x = .nan := by
  have hx := x.isLt
  simp only [Binary64.isNaN, Binary64.expField, Binary64.fracField, Bool.and_eq_true, beq_iff_eq, bne_iff_ne] at h
  unfold Num.of64 Num.ofPattern
  rw [if_pos (by omega), if_neg (by omega)]

/-- An infinite pattern reads as an infinity of its sign. -/
theorem of64_inf {x : DWord} (hf : Binary64.isFinite x = false) (hn : Binary64.isNaN x = false) :
    Num.of64 x = .inf (Binary64.signBit x) := by
  have hx := x.isLt
  simp only [Binary64.isFinite, bne_eq_false_iff_eq] at hf
  simp only [Binary64.isNaN, hf, beq_self_eq_true, Bool.true_and, bne_eq_false_iff_eq] at hn
  unfold Binary64.expField at hf
  unfold Binary64.fracField at hn
  unfold Num.of64 Num.ofPattern Binary64.signBit
  rw [if_pos (by omega), if_pos (by omega)]

/-- A finite pattern reads as its exact value, with a significand of at most 53 bits. -/
theorem of64_fin {x : DWord} (hf : Binary64.isFinite x = true) :
    ∃ m e, Num.of64 x = .fin (Binary64.signBit x) m e ∧ m < 2 ^ 53 ∧ -1074 ≤ e ∧
      (Binary64.magnitude x = 0 ↔ m = 0) ∧
      ((Binary64.val x : ℚ) : ℝ) = (if Binary64.signBit x then -1 else 1) * (m * 2 ^ e) := by
  have hx := x.isLt
  simp only [Binary64.isFinite, bne_iff_ne] at hf
  unfold Binary64.expField at hf
  have hmag : Binary64.magnitude x = x.toNat / 2 ^ 52 % 2 ^ 11 * 2 ^ 52 + x.toNat % 2 ^ 52 := by
    unfold Binary64.magnitude; omega
  have hfr : x.toNat % 2 ^ 52 < 2 ^ 52 := Nat.mod_lt _ (by norm_num)
  rw [val_eq]
  unfold Num.of64 Num.ofPattern Binary64.signBit
  by_cases h0 : x.toNat / 2 ^ 52 % 2 ^ 11 = 0
  · refine ⟨x.toNat % 2 ^ 52, -1074, ?_, by omega, le_rfl, by omega, ?_⟩
    · rw [if_neg (by omega), if_pos h0]
    · rw [hmag, h0, Nat.zero_mul, Nat.zero_add, grid_low hfr, zpow_neg, div_eq_mul_inv]; rfl
  · obtain ⟨k, hk⟩ : ∃ k, x.toNat / 2 ^ 52 % 2 ^ 11 = k + 1 := ⟨_, (Nat.succ_pred h0).symm⟩
    refine ⟨2 ^ 52 + x.toNat % 2 ^ 52, -1074 + k, ?_, by omega, by omega, by omega, ?_⟩
    · rw [if_neg (by omega), if_neg h0, hk, Nat.add_sub_cancel]
    · rw [hmag, hk, grid_high hfr, zpow_add₀ (by norm_num), zpow_neg, zpow_natCast]
      push_cast
      rw [div_eq_mul_inv]
      congr 1
      rw [mul_assoc, mul_comm ((2 : ℝ) ^ k)]
      rfl

theorem of32_nan {x : Word} (h : Binary64.isNaN32 x = true) : Num.of32 x = .nan := by
  have hx := x.isLt
  simp only [Binary64.isNaN32, Binary64.expField32, Binary64.fracField32, Bool.and_eq_true, beq_iff_eq, bne_iff_ne] at h
  unfold Num.of32 Num.ofPattern
  rw [if_pos (by omega), if_neg (by omega)]

theorem of32_inf {x : Word} (hf : Binary64.isFinite32 x = false) (hn : Binary64.isNaN32 x = false) :
    Num.of32 x = .inf (Binary64.signBit32 x) := by
  have hx := x.isLt
  simp only [Binary64.isFinite32, bne_eq_false_iff_eq] at hf
  simp only [Binary64.isNaN32, hf, beq_self_eq_true, Bool.true_and, bne_eq_false_iff_eq] at hn
  unfold Binary64.expField32 at hf
  unfold Binary64.fracField32 at hn
  unfold Num.of32 Num.ofPattern Binary64.signBit32
  rw [if_pos (by omega), if_pos (by omega)]
  congr 1
  rw [Bool.eq_iff_iff, beq_iff_eq, beq_iff_eq]
  omega

/-- A finite binary32 pattern reads as its exact value. -/
theorem of32_fin {x : Word} (hf : Binary64.isFinite32 x = true) :
    ∃ m e, Num.of32 x = .fin (Binary64.signBit32 x) m e ∧ m < 2 ^ 24 ∧ -149 ≤ e ∧ e ≤ 104 ∧
      ((Binary64.val32 x : ℚ) : ℝ) = (if Binary64.signBit32 x then -1 else 1) * (m * 2 ^ e) := by
  have hx := x.isLt
  simp only [Binary64.isFinite32, bne_iff_ne] at hf
  unfold Binary64.expField32 at hf
  have hmag : x.toNat % 2 ^ 31 = x.toNat / 2 ^ 23 % 2 ^ 8 * 2 ^ 23 + x.toNat % 2 ^ 23 := by omega
  have hfr : x.toNat % 2 ^ 23 < 2 ^ 23 := Nat.mod_lt _ (by norm_num)
  have hs : (x.toNat / 2 ^ (8 + 23) % 2 == 1) = (x.toNat / 2 ^ 31 == 1) := by
    rw [Bool.eq_iff_iff, beq_iff_eq, beq_iff_eq]; omega
  rw [val32_eq]
  unfold Num.of32 Num.ofPattern Binary64.signBit32
  rw [hs]
  by_cases h0 : x.toNat / 2 ^ 23 % 2 ^ 8 = 0
  · refine ⟨x.toNat % 2 ^ 23, -149, ?_, by omega, le_rfl, by omega, ?_⟩
    · rw [if_neg (by omega), if_pos h0]
    · rw [hmag, h0, Nat.zero_mul, Nat.zero_add, grid_low hfr, zpow_neg, div_eq_mul_inv]; rfl
  · obtain ⟨k, hk⟩ : ∃ k, x.toNat / 2 ^ 23 % 2 ^ 8 = k + 1 := ⟨_, (Nat.succ_pred h0).symm⟩
    refine ⟨2 ^ 23 + x.toNat % 2 ^ 23, -149 + k, ?_, by omega, by omega, by omega, ?_⟩
    · rw [if_neg (by omega), if_neg h0, hk, Nat.add_sub_cancel]
    · rw [hmag, hk, grid_high hfr, zpow_add₀ (by norm_num), zpow_neg, zpow_natCast]
      push_cast
      rw [div_eq_mul_inv]
      congr 1
      rw [mul_assoc, mul_comm ((2 : ℝ) ^ k)]
      rfl

/-! ## Division and square root -/

/-- The digits `quotient` gives stand for the exact quotient. -/
theorem quotient_standsFor (m1 : Nat) (e1 : Int) {m2 : Nat} (e2 : Int) (h2 : 0 < m2) :
    StandsFor 52 (F64.quotient m1 e1 m2 e2).1 (F64.quotient m1 e1 m2 e2).2 ((m1 : ℝ) * 2 ^ e1 / (m2 * 2 ^ e2)) := by
  set k := 56 + Nat.log2 m2 - Nat.log2 m1 with hk
  have hq : F64.quotient m1 e1 m2 e2 =
      (2 * (m1 * 2 ^ k / m2) + (if m1 * 2 ^ k % m2 = 0 then 0 else 1), e1 - e2 - k - 1) := rfl
  rw [hq]
  have hm2 : (0 : ℝ) < m2 := by exact_mod_cast h2
  have hz : (2 : ℝ) ≠ 0 := by norm_num
  have hE : (2 : ℝ) ^ (e1 - e2 - k - 1) = 2 ^ e1 / (2 ^ e2 * 2 ^ k * 2) := by
    rw [zpow_sub₀ hz, zpow_sub₀ hz, zpow_sub₀ hz, zpow_natCast, zpow_one, div_div, div_div, mul_assoc]
  have hx : (m1 : ℝ) * 2 ^ e1 / (m2 * 2 ^ e2) = 2 * ((m1 * 2 ^ k : Nat) / m2 : ℝ) * 2 ^ (e1 - e2 - k - 1) := by
    rw [hE]; push_cast; field_simp
  have hEp : (0 : ℝ) < 2 ^ (e1 - e2 - k - 1) := by positivity
  rw [hx]
  have hdm := Nat.div_add_mod (m1 * 2 ^ k) m2
  have hml := Nat.mod_lt (m1 * 2 ^ k) h2
  by_cases h0 : m1 * 2 ^ k % m2 = 0
  · left
    rw [h0, Nat.add_zero] at hdm
    have : ((m1 * 2 ^ k : Nat) : ℝ) = m2 * (m1 * 2 ^ k / m2 : Nat) := by exact_mod_cast hdm.symm
    rw [if_pos h0, Nat.add_zero, this]; push_cast
    field_simp
  · right
    rw [if_neg h0]
    have hm1 : m1 ≠ 0 := fun h => h0 (by rw [h, Nat.zero_mul, Nat.zero_mod])
    have hbig : 2 ^ 54 ≤ m1 * 2 ^ k / m2 := by
      rw [Nat.le_div_iff_mul_le h2]
      have ha := Nat.log2_self_le hm1
      have hb : m2 < 2 ^ (Nat.log2 m2 + 1) := Nat.lt_log2_self
      calc 2 ^ 54 * m2 ≤ 2 ^ 54 * 2 ^ (Nat.log2 m2 + 1) := Nat.mul_le_mul_left _ hb.le
        _ = 2 ^ (54 + (Nat.log2 m2 + 1)) := (pow_add _ _ _).symm
        _ ≤ 2 ^ (Nat.log2 m1 + k) := Nat.pow_le_pow_right (by norm_num) (by omega)
        _ = 2 ^ Nat.log2 m1 * 2 ^ k := pow_add _ _ _
        _ ≤ m1 * 2 ^ k := Nat.mul_le_mul_right _ ha
    generalize m1 * 2 ^ k = n at *
    generalize hQ : n / m2 = Q at *
    have c1 : (m2 : ℝ) * Q < n := by
      have : m2 * Q < n := by omega
      exact_mod_cast this
    have c2 : (n : ℝ) < m2 * (Q + 1) := by
      have : n < m2 * (Q + 1) := by rw [Nat.mul_add, Nat.mul_one]; omega
      exact_mod_cast this
    refine ⟨by omega, by omega, ?_, ?_⟩
    · apply mul_lt_mul_of_pos_right _ hEp
      push_cast
      rw [add_sub_cancel_right]
      apply mul_lt_mul_of_pos_left _ (by norm_num)
      rw [lt_div_iff₀ hm2]; linarith
    · apply mul_lt_mul_of_pos_right _ hEp
      push_cast
      rw [show 2 * (Q : ℝ) + 1 + 1 = 2 * (Q + 1) by ring]
      apply mul_lt_mul_of_pos_left _ (by norm_num)
      rw [div_lt_iff₀ hm2]; linarith

/-- `isqrt` is the integer square root. -/
theorem isqrt_spec (n : Nat) : ∀ k r, r * r ≤ n → n < (r + 2 ^ k) * (r + 2 ^ k) →
    F64.isqrt n k r * F64.isqrt n k r ≤ n ∧ n < (F64.isqrt n k r + 1) * (F64.isqrt n k r + 1)
  | 0, r, h1, h2 => ⟨h1, h2⟩
  | k + 1, r, h1, h2 => by
    rw [F64.isqrt]
    split
    · rename_i h
      exact isqrt_spec n k _ h (by rwa [Nat.add_assoc, ← Nat.two_mul, ← pow_succ'])
    · rename_i h
      exact isqrt_spec n k r h1 (by omega)

/-- The digits `root` gives stand for the exact square root. -/
theorem root_standsFor {m : Nat} (e : Int) (h0 : 0 < m) (h53 : m < 2 ^ 53) :
    StandsFor 52 (F64.root m e).1 (F64.root m e).2 (Real.sqrt ((m : ℝ) * 2 ^ e)) := by
  obtain ⟨k, hkd, hk1, hk2, hpar⟩ : ∃ k : Nat, k = (if e % 2 = 0 then 120 else 121) ∧ 120 ≤ k ∧ k ≤ 121 ∧ (e - k) % 2 = 0 := by
    refine ⟨_, rfl, ?_, ?_, ?_⟩ <;> split <;> omega
  set r := F64.isqrt (m * 2 ^ k) 88 0 with hr
  have hroot : F64.root m e = (2 * r + (if r * r = m * 2 ^ k then 0 else 1), (e - k) / 2 - 1) := by
    unfold F64.root; rw [← hkd]
  have hn : m * 2 ^ k < 2 ^ 88 * 2 ^ 88 := by
    calc m * 2 ^ k ≤ m * 2 ^ 121 := Nat.mul_le_mul_left _ (Nat.pow_le_pow_right (by norm_num) hk2)
      _ < 2 ^ 88 * 2 ^ 88 := by omega
  obtain ⟨hlo, hhi⟩ := isqrt_spec (m * 2 ^ k) 88 0 (by omega) (by rwa [Nat.zero_add])
  rw [← hr] at hlo hhi
  have hrbig : 2 ^ 59 ≤ r := by
    by_contra hc
    have h1 : r + 1 ≤ 2 ^ 59 := by omega
    have h2 := Nat.mul_le_mul h1 h1
    have h3 : 1 * 2 ^ 120 ≤ m * 2 ^ k := Nat.mul_le_mul h0 (Nat.pow_le_pow_right (by norm_num) hk1)
    omega
  rw [hroot]
  set g : Int := (e - k) / 2 with hg
  have hge : e = g + g + k := by omega
  have hz : (2 : ℝ) ≠ 0 := by norm_num
  have hgp : (0 : ℝ) < 2 ^ g := by positivity
  have hx : (m : ℝ) * 2 ^ e = ((m * 2 ^ k : Nat) : ℝ) * (2 ^ g * 2 ^ g) := by
    rw [hge, zpow_add₀ hz, zpow_add₀ hz, zpow_natCast]; push_cast; ring
  have hsq : Real.sqrt ((m : ℝ) * 2 ^ e) = Real.sqrt ((m * 2 ^ k : Nat) : ℝ) * 2 ^ g := by
    rw [hx, Real.sqrt_mul (by positivity), Real.sqrt_mul_self hgp.le]
  have hE : (2 : ℝ) ^ (g - 1) = 2 ^ g / 2 := by rw [zpow_sub₀ hz, zpow_one]
  rw [hsq]
  generalize m * 2 ^ k = n at *
  by_cases hs : r * r = n
  · left
    rw [if_pos hs, ← hs]
    push_cast
    rw [Real.sqrt_mul_self (by positivity), hE]; ring
  · right
    rw [if_neg hs]
    have hlo' : (r : ℝ) < Real.sqrt (n : ℝ) := by
      apply Real.lt_sqrt_of_sq_lt
      have : r * r < n := by omega
      rw [sq]; exact_mod_cast this
    have hhi' : Real.sqrt (n : ℝ) < r + 1 := by
      rw [Real.sqrt_lt' (by positivity), sq]; exact_mod_cast hhi
    refine ⟨by omega, by omega, ?_, ?_⟩
    · rw [hE]; push_cast
      have := mul_lt_mul_of_pos_right hlo' hgp
      linarith
    · rw [hE]; push_cast
      have := mul_lt_mul_of_pos_right hhi' hgp
      linarith

end Sys2Proof.Machine
end

