-- ==== Sys2Proof/Laws/PerInstr.lean ====
section
/-! SUPPORT. Per-instruction facts about the encoding, one lemma per constructor: the word of a command fits 32 bits and
its bits [31:26] are its row's opcode (30_encoding.md R90, R91, R98). -/

namespace Sys2Proof.Laws

/-- The operand bits of format R lie below the opcode. -/
theorem packR_lt (rd ra rb rc : VReg) (sel : Fin 4) : packR rd ra rb rc sel < 2 ^ 26 := by
  unfold packR; omega

/-- The operand bits of format M lie below the opcode. -/
theorem packM_lt (rd ra : VReg) (off : BitVec 18) : packM rd ra off < 2 ^ 26 := by
  have := off.isLt
  unfold packM; omega

/-- The operand bits of format I lie below the opcode. -/
theorem packI_lt (rd : VReg) (imm : BitVec 22) : rd.val * 2 ^ 22 + imm.toNat < 2 ^ 26 := by
  have := imm.isLt
  omega

/-- An opcode number over operand bits below it. -/
theorem opcode_field (o : Opcode) {n : Nat} (h : n < 2 ^ 26) :
    bits (o.code * 2 ^ 26 + n) 31 26 = o.code ∧ o.code * 2 ^ 26 + n < 2 ^ 32 := by
  have hc : o.code < 64 := by cases o <;> decide
  unfold bits
  norm_num at *
  omega

/-- Bits [31:26] of a command's word are its opcode, and the word has 32 bits. -/
def EncodeField.Statement (i : Instr) : Prop :=
  bits (encode i) 31 26 = i.opcode.code ∧ encode i < 2 ^ 32

theorem EncodeField.nop : EncodeField.Statement .nop :=
  opcode_field _ (by decide)

theorem EncodeField.halt : EncodeField.Statement .halt :=
  opcode_field _ (by decide)

theorem EncodeField.li (rd : VReg) (imm : BitVec 22) : EncodeField.Statement (.li rd imm) :=
  opcode_field _ (packI_lt _ _)

theorem EncodeField.mov (rd ra : VReg) : EncodeField.Statement (.mov rd ra) :=
  opcode_field _ (packR_lt _ _ _ _ _)

theorem EncodeField.ldw (rd ra : VReg) (off : BitVec 18) : EncodeField.Statement (.ldw rd ra off) :=
  opcode_field _ (packM_lt _ _ _)

theorem EncodeField.ldf (rd ra : VReg) (off : BitVec 18) : EncodeField.Statement (.ldf rd ra off) :=
  opcode_field _ (packM_lt _ _ _)

theorem EncodeField.ldb (rd ra : VReg) (off : BitVec 18) : EncodeField.Statement (.ldb rd ra off) :=
  opcode_field _ (packM_lt _ _ _)

theorem EncodeField.stw (rs ra : VReg) (off : BitVec 18) : EncodeField.Statement (.stw rs ra off) :=
  opcode_field _ (packM_lt _ _ _)

theorem EncodeField.stf (rs ra : VReg) (off : BitVec 18) : EncodeField.Statement (.stf rs ra off) :=
  opcode_field _ (packM_lt _ _ _)

theorem EncodeField.unpk111011 (rd ra : VReg) : EncodeField.Statement (.unpk111011 rd ra) :=
  opcode_field _ (packR_lt _ _ _ _ _)

theorem EncodeField.unpk8888 (rd ra : VReg) : EncodeField.Statement (.unpk8888 rd ra) :=
  opcode_field _ (packR_lt _ _ _ _ _)

theorem EncodeField.unorm8 (rd ra : VReg) (sel : Fin 4) : EncodeField.Statement (.unorm8 rd ra sel) :=
  opcode_field _ (packR_lt _ _ _ _ _)

theorem EncodeField.u16n (rd ra rb : VReg) (sel : Fin 4) : EncodeField.Statement (.u16n rd ra rb sel) :=
  opcode_field _ (packR_lt _ _ _ _ _)

theorem EncodeField.dequant (rd ra rb rc : VReg) : EncodeField.Statement (.dequant rd ra rb rc) :=
  opcode_field _ (packR_lt _ _ _ _ _)

theorem EncodeField.dqrange (rd ra rb rc : VReg) : EncodeField.Statement (.dqrange rd ra rb rc) :=
  opcode_field _ (packR_lt _ _ _ _ _)

theorem EncodeField.cblk (rd ra rb : VReg) (sel : Fin 4) : EncodeField.Statement (.cblk rd ra rb sel) :=
  opcode_field _ (packR_lt _ _ _ _ _)

theorem EncodeField.invlog (rd ra : VReg) : EncodeField.Statement (.invlog rd ra) :=
  opcode_field _ (packR_lt _ _ _ _ _)

theorem EncodeField.logitop (rd ra : VReg) : EncodeField.Statement (.logitop rd ra) :=
  opcode_field _ (packR_lt _ _ _ _ _)

theorem EncodeField.invsig (rd ra : VReg) : EncodeField.Statement (.invsig rd ra) :=
  opcode_field _ (packR_lt _ _ _ _ _)

theorem EncodeField.shdc (rd ra : VReg) : EncodeField.Statement (.shdc rd ra) :=
  opcode_field _ (packR_lt _ _ _ _ _)

theorem EncodeField.unpkrot (rd ra : VReg) : EncodeField.Statement (.unpkrot rd ra) :=
  opcode_field _ (packR_lt _ _ _ _ _)

theorem EncodeField.quatst (rd ra : VReg) : EncodeField.Statement (.quatst rd ra) :=
  opcode_field _ (packR_lt _ _ _ _ _)

theorem EncodeField.decchk : EncodeField.Statement .decchk :=
  opcode_field _ (by decide)

theorem EncodeField.decimg : EncodeField.Statement .decimg :=
  opcode_field _ (by decide)

end Sys2Proof.Laws
end

