-- ==== Sys2Proof/Machine/Assembler.lean ====
section
/-! DEFINITION. The assembler syntax of 30_encoding.md R102 and the pseudo-instructions of R103: the notation in which
command lists are written, and the words it stands for. No step of the machine uses it. Spacing, and that mnemonics are
read in capitals only, are a DESIGN CHOICE, safe (assumption 23). -/

namespace Sys2Proof.Machine

/-- A pseudo-instruction (30_encoding.md R103). -/
inductive Pseudo where
  | clr (rd : VReg)
  | la (rd : VReg) (a : Nat)
  | stop
  deriving DecidableEq, Repr

/-- The one command a pseudo-instruction stands for; `LA` requires `a < 2^22` (30_encoding.md R103). -/
def Pseudo.expand : Pseudo → Option Instr
  | .clr rd => some (.li rd 0#22)
  | .la rd a => if a < 2 ^ 22 then some (.li rd (BitVec.ofNat 22 a)) else none
  | .stop => some .halt

/-- What one line places: a word, or a new assembly address (30_encoding.md R102). -/
inductive AsmItem where
  | word (w : Nat)
  | org (a : Nat)
  deriving DecidableEq, Repr

/-- The pieces of a line. -/
inductive AsmToken where
  | text (cs : List Char)
  | comma
  | lpar
  | rpar
  deriving DecidableEq, Repr

/-- A token of the characters gathered so far, newest first. -/
def AsmToken.flush (acc : List Char) (rest : List AsmToken) : List AsmToken :=
  if acc.isEmpty then rest else .text acc.reverse :: rest

/-- Cut a line into tokens; `;` starts a comment (30_encoding.md R102). -/
def AsmToken.ofLine (acc : List Char) : List Char → List AsmToken
  | [] => AsmToken.flush acc []
  | c :: cs =>
    if c = ';' then AsmToken.flush acc []
    else if c = ' ' || c = '\t' || c = '\r' then AsmToken.flush acc (AsmToken.ofLine [] cs)
    else if c = ',' then AsmToken.flush acc (.comma :: AsmToken.ofLine [] cs)
    else if c = '(' then AsmToken.flush acc (.lpar :: AsmToken.ofLine [] cs)
    else if c = ')' then AsmToken.flush acc (.rpar :: AsmToken.ofLine [] cs)
    else AsmToken.ofLine (c :: acc) cs

/-- The value of a digit in base 10 or 16. -/
def asmDigit (base : Nat) (c : Char) : Option Nat :=
  let v : Option Nat :=
    if '0' ≤ c ∧ c ≤ '9' then some (c.toNat - '0'.toNat)
    else if 'a' ≤ c ∧ c ≤ 'f' then some (c.toNat - 'a'.toNat + 10)
    else if 'A' ≤ c ∧ c ≤ 'F' then some (c.toNat - 'A'.toNat + 10)
    else none
  v.bind fun d => if d < base then some d else none

/-- A run of digits after the value `n`. -/
def asmDigits (base n : Nat) : List Char → Option Nat
  | [] => some n
  | c :: cs => (asmDigit base c).bind fun d => asmDigits base (base * n + d) cs

/-- An unsigned number, decimal or `0x` hex. -/
def asmNat : List Char → Option Nat
  | '0' :: 'x' :: c :: cs => asmDigits 16 0 (c :: cs)
  | c :: cs => asmDigits 10 0 (c :: cs)
  | [] => none

/-- A number that may be negative. -/
def asmInt : List Char → Option Int
  | '-' :: cs => (asmNat cs).map fun n => -(n : Int)
  | cs => (asmNat cs).map fun n => (n : Int)

/-- A register, `V0` to `V15`. -/
def asmReg : List Char → Option VReg
  | ['V', c] => (asmDigit 10 c).map (Fin.ofNat 16)
  | ['V', '1', c] => (asmDigit 10 c).bind fun d => if d < 6 then some (Fin.ofNat 16 (10 + d)) else none
  | _ => none

/-- An operand. -/
inductive AsmOperand where
  | reg (r : VReg)
  | int (x : Int)
  | mem (off : Int) (ra : VReg)
  deriving DecidableEq, Repr

/-- Read an operand: a register, a number, `off(Va)`, or `(Va)` for offset 0. -/
def asmOperand : List AsmToken → Option AsmOperand
  | [.text cs] => ((asmReg cs).map .reg).orElse fun _ => (asmInt cs).map .int
  | [.text cs, .lpar, .text r, .rpar] => (asmInt cs).bind fun x => (asmReg r).map (.mem x)
  | [.lpar, .text r, .rpar] => (asmReg r).map (.mem 0)
  | _ => none

/-- Cut the operand tokens at the commas. -/
def asmSplit (acc : List AsmToken) : List AsmToken → List (List AsmToken)
  | [] => [acc.reverse]
  | .comma :: ts => acc.reverse :: asmSplit [] ts
  | t :: ts => asmSplit (t :: acc) ts

/-- The operands of a line. -/
def asmOperands : List AsmToken → Option (List AsmOperand)
  | [] => some []
  | ts => (asmSplit [] ts).mapM asmOperand

/-- The 22-bit immediate, when it fits (30_encoding.md R96). -/
def asmImm (x : Int) : Option (BitVec 22) := if 0 ≤ x ∧ x < 2 ^ 22 then some (BitVec.ofInt 22 x) else none

/-- The signed 18-bit offset, when it fits. -/
def asmOff (x : Int) : Option (BitVec 18) := if -131072 ≤ x ∧ x ≤ 131071 then some (BitVec.ofInt 18 x) else none

/-- The byte index, when it fits. -/
def asmSel (x : Int) : Option (Fin 4) := if 0 ≤ x ∧ x < 4 then some (Fin.ofNat 4 x.toNat) else none

/-- The commands with two register operands. -/
def asmRegReg : List (List Char × (VReg → VReg → Instr)) :=
  [(['M', 'O', 'V'], .mov), (['U', 'N', 'P', 'K', '1', '1', '1', '0', '1', '1'], .unpk111011),
    (['U', 'N', 'P', 'K', '8', '8', '8', '8'], .unpk8888), (['I', 'N', 'V', 'L', 'O', 'G'], .invlog),
    (['L', 'O', 'G', 'I', 'T', 'O', 'P'], .logitop), (['I', 'N', 'V', 'S', 'I', 'G'], .invsig),
    (['S', 'H', 'D', 'C'], .shdc), (['U', 'N', 'P', 'K', 'R', 'O', 'T'], .unpkrot),
    (['Q', 'U', 'A', 'T', 'S', 'T'], .quatst)]

/-- The commands with a register and a memory operand. -/
def asmMem : List (List Char × (VReg → VReg → BitVec 18 → Instr)) :=
  [(['L', 'D', 'W'], .ldw), (['L', 'D', 'F'], .ldf), (['L', 'D', 'B'], .ldb), (['S', 'T', 'W'], .stw),
    (['S', 'T', 'F'], .stf)]

/-- The commands with three registers and a byte index. -/
def asmRegs3Sel : List (List Char × (VReg → VReg → VReg → Fin 4 → Instr)) :=
  [(['U', '1', '6', 'N'], .u16n), (['C', 'B', 'L', 'K'], .cblk)]

/-- The commands with four registers. -/
def asmRegs4 : List (List Char × (VReg → VReg → VReg → VReg → Instr)) :=
  [(['D', 'E', 'Q', 'U', 'A', 'N', 'T'], .dequant), (['D', 'Q', 'R', 'A', 'N', 'G', 'E'], .dqrange)]

/-- The commands and pseudo-instructions without operands. -/
def asmPlain : List (List Char × Instr) :=
  [(['N', 'O', 'P'], .nop), (['H', 'A', 'L', 'T'], .halt), (['D', 'E', 'C', 'C', 'H', 'K'], .decchk),
    (['D', 'E', 'C', 'I', 'M', 'G'], .decimg)]

/-- The entry of a mnemonic. -/
def asmFind {α : Type} (m : List Char) (t : List (List Char × α)) : Option α := (t.find? fun e => e.1 == m).map (·.2)

/-- The command a mnemonic and its operands stand for, by form (30_encoding.md R102, R103). -/
def asmCommand (m : List Char) : List AsmOperand → Option Instr
  | [] => if m = ['S', 'T', 'O', 'P'] then Pseudo.stop.expand else asmFind m asmPlain
  | [.reg d] => if m = ['C', 'L', 'R'] then (Pseudo.clr d).expand else none
  | [.reg d, .int x] =>
    if m = ['L', 'I'] then (asmImm x).map (.li d)
    else if m = ['L', 'A'] ∧ 0 ≤ x then (Pseudo.la d x.toNat).expand
    else none
  | [.reg d, .reg a] => (asmFind m asmRegReg).map fun f => f d a
  | [.reg d, .mem x a] => (asmFind m asmMem).bind fun f => (asmOff x).map (f d a)
  | [.reg d, .reg a, .int k] => if m = ['U', 'N', 'O', 'R', 'M', '8'] then (asmSel k).map (.unorm8 d a) else none
  | [.reg d, .reg a, .reg b, .int k] => (asmFind m asmRegs3Sel).bind fun f => (asmSel k).map (f d a b)
  | [.reg d, .reg a, .reg b, .reg c] => (asmFind m asmRegs4).map fun f => f d a b c
  | _ => none

/-- The binary32 pattern nearest the decimal number `(-1)^neg * m / 10^k`, ties to even. -/
def asmFloatPattern (neg : Bool) (m k : Nat) : Word :=
  if m = 0 then round32 neg 0 0
  else
    let q := F64.quotient m 0 (10 ^ k) 0
    round32 neg q.1 q.2

/-- A decimal number with digits after an optional point: its digits as one number, and how many stand after the point. -/
def asmDecimal (n k : Nat) (point : Bool) : List Char → Option (Nat × Nat)
  | [] => some (n, k)
  | '.' :: cs => if point then none else asmDecimal n k true cs
  | c :: cs => (asmDigit 10 c).bind fun d => asmDecimal (10 * n + d) (if point then k + 1 else k) point cs

/-- `.float x`. -/
def asmFloat : List Char → Option Word
  | '-' :: c :: cs => (asmDecimal 0 0 false (c :: cs)).map fun p => asmFloatPattern true p.1 p.2
  | c :: cs => (asmDecimal 0 0 false (c :: cs)).map fun p => asmFloatPattern false p.1 p.2
  | [] => none

/-- What a line of tokens places: nothing (an empty line), a directive's item, or a well-formed command's word; `none` for
a line that is none of these. -/
def asmLine : List AsmToken → Option (List AsmItem)
  | [] => some []
  | .text m :: ts =>
    if m = ['.', 'w', 'o', 'r', 'd'] then
      match ts with
      | [.text cs] => (asmNat cs).bind fun w => if w < 2 ^ 32 then some [.word w] else none
      | _ => none
    else if m = ['.', 'f', 'l', 'o', 'a', 't'] then
      match ts with
      | [.text cs] => (asmFloat cs).map fun w => [.word w.toNat]
      | _ => none
    else if m = ['.', 'o', 'r', 'g'] then
      match ts with
      | [.text cs] => (asmNat cs).map fun a => [.org a]
      | _ => none
    else (asmOperands ts).bind fun os => (asmCommand m os).bind fun i =>
      if i.wellFormed then some [.word (encode i)] else none
  | _ => none

/-- Read one line of text. -/
def assembleLine (line : String) : Option (List AsmItem) := asmLine (AsmToken.ofLine [] line.toList)

/-- Place items from address `a` on: each word and the address it stands at. -/
def placeItems (a : Nat) : List AsmItem → List (Nat × Nat)
  | [] => []
  | .word w :: is => (a, w) :: placeItems (a + 4) is
  | .org b :: is => placeItems b is

/-- Assemble lines from address 0: the words and their addresses, or `none` when a line does not assemble. -/
def assemble (lines : List String) : Option (List (Nat × Nat)) :=
  (lines.mapM assembleLine).map fun is => placeItems 0 is.flatten

end Sys2Proof.Machine
end

