-- ==== Sys2Proof/Tests/Slice0.lean ====
section
/-! SUPPORT. Tests: the smoke test of WellFormed, words written out from the encoding tables, one or two values per command
taken from the spec's examples, and for every statement with hypotheses a state and operands that meet them. -/

namespace Sys2Proof.Tests

open Sys2Proof.Machine

/-! ## WellFormed refuses each ill-formed shape (30_encoding.md R97) -/

theorem test_wf_unpk111011 : (Instr.unpk111011 14 0).wellFormed = false ∧ (Instr.unpk111011 13 0).wellFormed = true := by decide
theorem test_wf_unpk8888 : (Instr.unpk8888 13 0).wellFormed = false ∧ (Instr.unpk8888 12 0).wellFormed = true := by decide
theorem test_wf_unpkrot : (Instr.unpkrot 13 0).wellFormed = false ∧ (Instr.unpkrot 12 0).wellFormed = true := by decide
theorem test_wf_quatst : (Instr.quatst 15 0).wellFormed = false ∧ (Instr.quatst 12 0).wellFormed = true := by decide

/-! ## Decoding, each word written out field by field: op, rd, ra, rb, rc, sel, zero (30_encoding.md R92 to R98) -/

theorem test_decode_nop : decodeWord 0b000001_00000000000000000000000000 = .ok .nop := by decide
theorem test_decode_halt : decodeWord 0b000010_00000000000000000000000000 = .ok .halt := by decide
theorem test_decode_li : decodeWord 0b000011_1111_1000000000000000000001 = .ok (.li 15 0x200001#22) := by decide
theorem test_decode_mov : decodeWord 0b000100_0100_0011_0000_0000_00_00000000 = .ok (.mov 4 3) := by decide
theorem test_decode_ldw : decodeWord 0b001000_0001_0010_111111111111111100 = .ok (.ldw 1 2 0x3FFFC#18) := by decide
theorem test_decode_ldf : decodeWord 0b001001_0101_0000_000000000000000100 = .ok (.ldf 5 0 4#18) := by decide
theorem test_decode_ldb : decodeWord 0b001010_0010_0000_000000000000000011 = .ok (.ldb 2 0 3#18) := by decide
theorem test_decode_stw : decodeWord 0b001100_0001_0000_000000000000001000 = .ok (.stw 1 0 8#18) := by decide
theorem test_decode_stf : decodeWord 0b001101_0111_0000_000000000100000000 = .ok (.stf 7 0 0x100#18) := by decide
theorem test_decode_unpk111011 : decodeWord 0b010000_1101_0001_0000_0000_00_00000000 = .ok (.unpk111011 13 1) := by decide
theorem test_decode_unpk8888 : decodeWord 0b010001_1100_0010_0000_0000_00_00000000 = .ok (.unpk8888 12 2) := by decide
theorem test_decode_unorm8 : decodeWord 0b010010_0010_0001_0000_0000_11_00000000 = .ok (.unorm8 2 1 3) := by decide
theorem test_decode_u16n : decodeWord 0b010011_0011_0001_0010_0000_10_00000000 = .ok (.u16n 3 1 2 2) := by decide
theorem test_decode_dequant : decodeWord 0b011000_0111_0010_0101_0110_00_00000000 = .ok (.dequant 7 2 5 6) := by decide
theorem test_decode_dqrange : decodeWord 0b011001_0110_0011_0100_0101_00_00000000 = .ok (.dqrange 6 3 4 5) := by decide
theorem test_decode_cblk : decodeWord 0b011010_1000_0001_1010_0000_01_00000000 = .ok (.cblk 8 1 10 1) := by decide
theorem test_decode_invlog : decodeWord 0b100000_0111_0110_0000_0000_00_00000000 = .ok (.invlog 7 6) := by decide
theorem test_decode_logitop : decodeWord 0b100001_0001_0010_0000_0000_00_00000000 = .ok (.logitop 1 2) := by decide
theorem test_decode_invsig : decodeWord 0b100010_0011_0100_0000_0000_00_00000000 = .ok (.invsig 3 4) := by decide
theorem test_decode_shdc : decodeWord 0b100011_0101_0110_0000_0000_00_00000000 = .ok (.shdc 5 6) := by decide
theorem test_decode_unpkrot : decodeWord 0b101000_1100_1111_0000_0000_00_00000000 = .ok (.unpkrot 12 15) := by decide
theorem test_decode_quatst : decodeWord 0b101001_1100_0001_0000_0000_00_00000000 = .ok (.quatst 12 1) := by decide
theorem test_decode_decchk : decodeWord 0b110000_00000000000000000000000000 = .ok .decchk := by decide
theorem test_decode_decimg : decodeWord 0b110001_00000000000000000000000000 = .ok .decimg := by decide

theorem test_illegal_opcode : decodeWord 0x00000000 = .error .illegalOpcode ∧ decodeWord 0xFC000000 = .error .illegalOpcode := by decide
theorem test_illegal_zero_field : decodeWord 0x04000001 = .error .nonzeroField ∧ decodeWord 0x110C0400 = .error .nonzeroField := by decide
theorem test_illegal_dest : decodeWord 0b010000_1110_0001_0000_0000_00_00000000 = .error .destOutOfRange := by decide
theorem test_encode_spec_words : encode (.cblk 8 1 10 1) = 0x6A068100 ∧ encode (.stf 7 0 0x100#18) = 0x35C00100 := by decide
theorem test_decode_bytes_le : decodeBytes [0x00#8, 0x10#8, 0x00#8, 0x0C#8, 0xAA#8] = .ok (.li 0 0x1000#22, [0xAA#8]) := by decide

/-- 95_test_vectors.md P6, third line. -/
theorem test_assemble_store : assembleLine "STW V1, -0xF4(V0) ; ea = 0x0C" = some [.word 0x3043FF0C] := by decide
/-- 30_encoding.md R103. -/
theorem test_assemble_pseudo : assembleLine "STOP" = some [.word 0x08000000] ∧ assembleLine "LA V0, 0x400000" = none := by decide
/-- 95_test_vectors.md P1: `.float -1.0` is `0xBF800000`. -/
theorem test_assemble_float : assembleLine ".float -1.0" = some [.word 0xBF800000] := by decide +kernel

/-! ## Values -/

/-- A busy engine with some V registers and EMEM words written. -/
def machine (v : List (VReg × DWord)) (m : List (Nat × Nat)) : State :=
  v.foldl (fun s p => s.setV p.1 p.2)
    { State.reset with busy := true, mem := m.foldl (fun a p => a.writeLE p.1 4 p.2) ([] : Memory) }

/-- Register `d` after a command, with `ERR_CODE`. -/
def after (i : Instr) (s : State) (d : VReg) : Option (DWord × BitVec 8) :=
  match exec i s with
  | .next t => some (t.v[d], t.errCode)
  | .fault _ => none
  | .refused _ => none

/-- `ERR_CODE` and `ERR_INFO` after a command. -/
def failure (i : Instr) (s : State) : Option (BitVec 8 × Word) :=
  match exec i s with
  | .next t => some (t.errCode, t.errInfo)
  | .fault _ => none
  | .refused _ => none

/-- The 4 bytes at `a` after a command, lowest address first. -/
def bytesAfter (i : Instr) (s : State) (a : Nat) : Option (List Byte) :=
  match exec i s with
  | .next t => some [t.mem.byte a, t.mem.byte (a + 1), t.mem.byte (a + 2), t.mem.byte (a + 3)]
  | .fault _ => none
  | .refused _ => none

/-- `STATUS`, `CPTR`, `CMD_COUNT` and `OUT_COUNT` after a command. -/
def counters (i : Instr) (s : State) : Option (Word × Word × Word × Word) :=
  match exec i s with
  | .next t => some (t.statusWord, t.cptr, t.cmdCount, t.outCount)
  | .fault _ => none
  | .refused _ => none

/-- The example of R154. -/
theorem test_nop : counters .nop { machine [] [] with cptr := 0x10#32 } = some (1#32, 0x14#32, 1#32, 0#32) := by decide
/-- The example of R155. -/
theorem test_halt : counters .halt (machine [] []) = some (2#32, 4#32, 1#32, 0#32) := by decide
/-- The example of R161. -/
theorem test_li : after (.li 0 0x1000#22) (machine [] []) 0 = some (0x1000#64, 0#8) := by decide
/-- R162: a signalling NaN is copied as it is. -/
theorem test_mov : after (.mov 4 3) (machine [(3, 0xFFF0000000000001#64)] []) 4 = some (0xFFF0000000000001#64, 0#8) := by decide
/-- The example of R163. -/
theorem test_ldw : after (.ldw 1 0 0#18) (machine [(0, 0x1000#64)] [(0x1000, 0x80100400)]) 1 = some (0x80100400#64, 0#8) := by
  decide
/-- R163: alignment is checked before bounds; a negative offset below 0 wraps. -/
theorem test_ldw_errors : failure (.ldw 1 0 0x3FFFF#18) (machine [] []) = some (9#8, 0xFFFFFFFF#32) := by decide
/-- The example of R164. -/
theorem test_ldf : after (.ldf 5 0 4#18) (machine [(0, 0x1000#64)] [(0x1004, 0xBF800000)]) 5 =
    some (0xBFF0000000000000#64, 0#8) := by decide +kernel
/-- R164: a NaN of any payload loads as the canonical one. -/
theorem test_ldf_nan : after (.ldf 5 0 0#18) (machine [] [(0, 0xFF800001)]) 5 = some (0x7FF8000000000000#64, 0#8) := by
  decide +kernel
/-- The example of R165. -/
theorem test_ldb : after (.ldb 2 0 3#18) (machine [(0, 0x3300#64)] [(0x3300, 0xFD000000)]) 2 = some (0xFD#64, 0#8) := by decide
/-- The example of R166. -/
theorem test_stw : bytesAfter (.stw 1 0 8#18) (machine [(0, 0x2000#64), (1, 0xFFFFFFFF12345678#64)] []) 0x2008 =
    some [0x78#8, 0x56#8, 0x34#8, 0x12#8] := by decide
/-- The example of R167. -/
theorem test_stf : bytesAfter (.stf 7 0 0x100#18) (machine [(0, 0x1000#64), (7, 0x3FF0040080100200#64)] []) 0x1100 =
    some [0x04#8, 0x20#8, 0x80#8, 0x3F#8] := by decide +kernel
/-- The example of R180, lanes 0 and 1. -/
theorem test_unpk111011 : after (.unpk111011 0 0) (machine [(0, 0x80100400#64)] []) 0 = some (0x3FE0020040080100#64, 0#8) ∧
    after (.unpk111011 0 0) (machine [(0, 0x80100400#64)] []) 1 = some (0x3FE0040100401004#64, 0#8) := by decide +kernel
/-- The example of R181, lanes 0 and 3. -/
theorem test_unpk8888 : after (.unpk8888 1 0) (machine [(0, 0x80FF0040#64)] []) 1 = some (0x3FE0101010101010#64, 0#8) ∧
    after (.unpk8888 1 0) (machine [(0, 0x80FF0040#64)] []) 4 = some (0x3FD0101010101010#64, 0#8) := by decide +kernel
/-- The examples of R182. -/
theorem test_unorm8 : after (.unorm8 1 0 0) (machine [(0, 0x11223344#64)] []) 1 = some (0x3FD1111111111111#64, 0#8) ∧
    after (.unorm8 1 0 3) (machine [(0, 0x11223344#64)] []) 1 = some (0x3FB1111111111111#64, 0#8) := by decide +kernel
/-- The examples of R183. -/
theorem test_u16n : after (.u16n 2 0 1 1) (machine [(1, 0x8000#64)] []) 2 = some (0x3FE0001000100010#64, 0#8) ∧
    after (.u16n 2 0 1 0) (machine [(0, 1#64)] []) 2 = some (0x3EF0001000100010#64, 0#8) := by decide +kernel
/-- The example of R190. -/
theorem test_dequant : after (.dequant 3 0 1 2)
    (machine [(0, 0x3FE0020040080100#64), (1, 0xBFF0000000000000#64), (2, 0x4008000000000000#64)] []) 3 =
    some (0x3FF0040080100200#64, 0#8) := by decide +kernel
/-- The example of R191. -/
theorem test_dqrange : after (.dqrange 3 0 1 1) (machine [(0, 0x3FD0000000000000#64), (1, 0x4000000000000000#64)] []) 3 =
    some (0x4002000000000000#64, 0#8) := by decide +kernel
/-- The table of R192's example, entry 129: 1/16. -/
theorem test_cblk : after (.cblk 8 1 10 1) (machine [(1, 0x8100#64), (10, 0x2000#64)] [(0x2204, 0x3D800000)]) 8 =
    some (0x3FB0000000000000#64, 0#8) := by decide +kernel
/-- R200: -0 gives +0, a NaN the canonical NaN. -/
theorem test_invlog : after (.invlog 1 0) (machine [(0, 0x8000000000000000#64)] []) 1 = some (0#64, 0#8) ∧
    after (.invlog 1 0) (machine [(0, 0xFFF8000000000001#64)] []) 1 = some (0x7FF8000000000000#64, 0#8) := by decide +kernel
/-- R201: a NaN gives the canonical NaN. -/
theorem test_logitop : after (.logitop 1 0) (machine [(0, 0xFFF8000000000001#64)] []) 1 = some (0x7FF8000000000000#64, 0#8) := by
  decide +kernel
/-- R202: a NaN gives the canonical NaN. -/
theorem test_invsig : after (.invsig 1 0) (machine [(0, 0xFFF8000000000001#64)] []) 1 = some (0x7FF8000000000000#64, 0#8) := by
  decide +kernel
/-- R203's values at 0.75 and at 0. -/
theorem test_shdc : after (.shdc 1 0) (machine [(0, 0x3FE8000000000000#64)] []) 1 = some (0x3FEC5BF891B4EF6B#64, 0#8) ∧
    after (.shdc 1 0) (machine [] []) 1 = some (0xBFFC5BF891B4EF6B#64, 0#8) := by decide +kernel
/-- The example of R213, slots 0 and 3. -/
theorem test_unpkrot : after (.unpkrot 1 0) (machine [(0, 0x1FF7FDFF#64)] []) 1 = some (0x3FEFFFFE7F3FAEDF#64, 0#8) ∧
    after (.unpkrot 1 0) (machine [(0, 0x1FF7FDFF#64)] []) 4 = some (0xBF46A647F87D5B1E#64, 0#8) := by decide +kernel
/-- The example of R214, slot 1; and the identity for tag 251 (C1). -/
theorem test_quatst : after (.quatst 1 0) (machine [(0, 0xFD808080#64)] []) 2 = some (0x3FEFFFE7CFAE7B26#64, 0#8) ∧
    after (.quatst 1 0) (machine [(0, 0xFB123456#64)] []) 1 = some (0x3FF0000000000000#64, 0#8) := by decide +kernel

/-- The words of an element record with `KIND` `k`, `COUNT` `n` and the property words `ps` (47_frame_chunked.md R222). -/
def element (k n : Nat) (ps : List Nat) : List Nat := (ps.length * 2 ^ 16 + k) :: n :: ps

/-- The property words of `n` fields from `f` on, of type `ty` (47_frame_chunked.md R223). -/
def fields (ty f n : Nat) : List Nat := (List.range n).map fun p => ty + 256 * (f + p)

/-- A machine whose descriptor, at 0x100, holds the given element records; `l` bytes of input at 0x1000, the output at `o`.
The element data are zeros, which EMEM lists nothing for. -/
def described (els : List (List Nat)) (l o : Nat) : State :=
  { machine [] ((0x101 :: els.length :: els.flatten).zipIdx.map fun w => (0x100 + 4 * w.2, w.1)) with
    descBase := 0x100#32, inBase := 0x1000#32, inLen := BitVec.ofNat 32 l, outBase := BitVec.ofNat 32 o }

/-- A plain chunked frame (47_frame_chunked.md R239's descriptor without its third element): one chunk row, `n`
vertices. -/
def chunkedFrame (n : Nat) : State :=
  described [element 1 1 (fields 7 1 12), element 2 n (fields 6 32 4)] (48 + 16 * n) 0x4000

/-- A frame with a colour bounding box: a byte property of no known field, then the eighteen bounds from the last to the
first, and the packed words from the last to the first. -/
def colourFrame : State :=
  described [element 1 1 (1 :: (fields 7 1 18).reverse), element 2 1 (fields 6 32 4).reverse] (73 + 16) 0x4000

/-- One more vertex than a chunk row serves is a `RangeError(256)` (R232). -/
theorem test_decchk_range : failure .decchk { chunkedFrame 257 with inLen := 0x2000#32 } = some (4#8, 256#32) := by decide +kernel
/-- R230: a colour bound that is missing where another is there is reason 10; a missing bound is reason 8. -/
theorem test_decchk_schema :
    failure .decchk (described [element 1 1 (fields 7 1 17), element 2 1 (fields 6 32 4)] 84 0x4000) = some (2#8, 0x120A#32) ∧
    failure .decchk (described [element 1 1 (fields 7 1 11), element 2 1 (fields 6 32 4)] 60 0x4000) = some (2#8, 0x0C08#32) := by
  decide +kernel
/-- A frame of one vertex decodes (R237). -/
theorem test_decchk : counters .decchk (chunkedFrame 1) = some (1#32, 4#32, 1#32, 1#32) := by decide +kernel

/-- An image frame of one splat whose planes and codebooks lie at 0x1000 to 0x2FFF. -/
def imageFrame : State :=
  { machine [] [] with
    imgCount := 1#32, outBase := 0x4000#32, scbBase := 0x2000#32, scbLen := 256#32, shcbBase := 0x2800#32
    shcbLen := 256#32, planes := Vector.replicate 5 ⟨0x1000#32, 1#32, 4#32⟩ }

/-- A frame of one splat decodes (48_frame_image.md R267). -/
theorem test_decimg : counters .decimg imageFrame = some (1#32, 4#32, 1#32, 1#32) := by decide +kernel
/-- R261: a scale codebook of 255 entries is a `ManifestError(2)`. -/
theorem test_decimg_manifest : failure .decimg { imageFrame with scbLen := 255#32 } = some (5#8, 2#32) := by decide +kernel

/-- The first step after reset runs the word placed for it. -/
theorem test_fetch_word : (match step (State.reset.withFetchWord 32 0x0C001000) with
    | .next t => some (t.v[(0 : VReg)], t.cptr)
    | .fault _ => none
    | .refused _ => none) = some (0x1000#64, 4#32) := by decide

/-! ## Witnesses: for each statement with hypotheses, states and operands that meet them, clause by clause -/

/-- A machine with `V[0]` given. -/
def atV0 (x : Nat) : State := machine [(0, BitVec.ofNat 64 x)] []

/-- A machine with `cptr` given. -/
def atPtr (x : Nat) : State := { machine [] [] with cptr := BitVec.ofNat 32 x }

theorem atV0_get (x : Nat) : (atV0 x).v[(0 : VReg)] = BitVec.ofNat 64 x := rfl

theorem atV0_addr {x : Nat} (h : x < 2 ^ 32) : (atV0 x).effAddr 0 0#18 = x := by
  have e : (atV0 x).effAddr 0 0#18 = (BitVec.ofNat 32 ((BitVec.ofNat 64 x).toNat % 2 ^ 32) + 0#32).toNat := rfl
  rw [e, BitVec.add_zero, BitVec.toNat_ofNat, BitVec.toNat_ofNat]
  omega

theorem atV0_rule {x : Nat} (h : x < 2 ^ 32) :
    (x : Int) = ((((atV0 x).v[(0 : VReg)].toNat % 2 ^ 32 : Nat) : Int) + (0#18).toInt) % 2 ^ 32 := by
  rw [atV0_get, BitVec.toNat_ofNat, show (0#18).toInt = 0 from rfl, Int.add_zero]
  omega

theorem atPtr_toNat {x : Nat} (h : x < 2 ^ 32) : (atPtr x).cptr.toNat = x := by
  show (BitVec.ofNat 32 x).toNat = x
  rw [BitVec.toNat_ofNat]; omega

/-- The last word address of EMEM, and the first address beyond it, are 32-bit numbers and multiples of 4. -/
theorem last_word : Config.ememBytes - 4 < 2 ^ 32 ∧ (Config.ememBytes - 4) % 4 = 0 ∧
    Config.ememBytes - 4 + 4 = Config.ememBytes ∧ Config.ememBytes < 2 ^ 32 ∧ Config.ememBytes % 4 = 0 := by
  have h1 := ememBytes_ge
  have h2 := ememBytes_le
  have h3 := ememBytes_mod_four
  have h4 : Config.ememBytesMin = 65536 := rfl
  omega

theorem witness_DecodeOfEncode : (Instr.unpk111011 13 15).wellFormed = true ∧ (Instr.quatst 12 0).wellFormed = true := by decide
theorem witness_EncodeOfDecode : (0xC4000000 < 2 ^ 32 ∧ decodeWord 0xC4000000 = .ok .decimg) ∧
    (0x0FFFFFFF < 2 ^ 32 ∧ decodeWord 0x0FFFFFFF = .ok (.li 15 0x3FFFFF#22)) := by decide
theorem witness_IllegalWords : (0xFFFFFFFF < 2 ^ 32 ∧ illegalWord 0xFFFFFFFF = true) ∧
    ((atPtr 0).turns = [] ∧ (atPtr 0).busy = true ∧ fetch (atPtr 0) = .ok 0 ∧ illegalWord 0 = true) := by decide

/-- `NOP` in the last word of EMEM, and `cptr` there. -/
def nopAtEnd : State := { atPtr (Config.ememBytes - 4) with mem := [(Config.ememBytes - 4 + 3, 4#8)] }

theorem nopAtEnd_word : nopAtEnd.mem.readLE nopAtEnd.cptr.toNat 4 = 0x04000000 := by
  have e : nopAtEnd.cptr.toNat = Config.ememBytes - 4 := atPtr_toNat last_word.1
  rw [e]
  show Memory.readLE [(Config.ememBytes - 4 + 3, 4#8)] (Config.ememBytes - 4) 4 = 0x04000000
  generalize Config.ememBytes - 4 = a
  simp [Memory.readLE, Memory.byte, Memory.unlisted]

theorem witness_StepRunsDecoded :
    (nopAtEnd.turns = [] ∧ nopAtEnd.busy = true ∧ nopAtEnd.cptr.toNat + 4 ≤ Config.ememBytes ∧
      decodeWord (nopAtEnd.mem.readLE nopAtEnd.cptr.toNat 4) = .ok .nop) ∧
    ({ nopAtEnd with turns := [.engine] }.turns = .engine :: []) ∧
    (State.reset.turns = [] ∧ State.reset.busy = false) := by
  refine ⟨⟨rfl, rfl, ?_, by rw [nopAtEnd_word]; decide⟩, rfl, rfl, rfl⟩
  rw [show nopAtEnd.cptr.toNat = Config.ememBytes - 4 from atPtr_toNat last_word.1]
  exact last_word.2.2.1.le

theorem witness_FetchReadsEmem :
    ((atPtr Config.ememBytes).turns = [] ∧ (atPtr Config.ememBytes).busy = true ∧
      Config.ememBytes < (atPtr Config.ememBytes).cptr.toNat + 4) ∧
    (atPtr (Config.ememBytes - 4)).cptr.toNat + 4 ≤ Config.ememBytes := by
  obtain ⟨h1, _, h3, h4, _⟩ := last_word
  refine ⟨⟨rfl, rfl, ?_⟩, ?_⟩
  · rw [atPtr_toNat h4]; omega
  · rw [atPtr_toNat h1]; omega

theorem witness_ErrorsByCommand :
    fetch (atPtr Config.ememBytes) = .error (.io 1) ∧ decodeFetched 0 = .error (.illegal 0) ∧
    ((Instr.ldw 1 0 1#18).wellFormed = true ∧ (atV0 0).err = false ∧
      ∃ t, exec (.ldw 1 0 1#18) (atV0 0) = .next t ∧ t.err = true) := by
  refine ⟨?_, by decide, by decide, by decide, _, rfl, by decide⟩
  unfold fetch
  rw [atPtr_toNat last_word.2.2.2.1]
  exact readWordChecked_beyond _ (by omega)

theorem witness_ErrorNumbers : 255 < 256 ∧ (NceError.schema 10 255 0xFFFF).info = 0xFFFFFF0A#32 := by decide
theorem witness_CommandFrame : (atV0 0).mem.wf = true ∧ (∃ t, exec (.stw 0 0 0#18) (atV0 0) = .next t ∧ t.err = false) ∧
    (Instr.stw 0 0 0#18).isFrame = false := ⟨by decide, ⟨_, rfl, by decide⟩, rfl⟩

theorem inv_reset_start (ie : Bool) : Inv (State.reset.start ie) where
  memWf := rfl
  memIn := fun _ h => absurd h List.not_mem_nil
  cptrAligned := rfl
  busyClean := fun _ => ⟨rfl, rfl, rfl⟩
  doneNoErr := fun _ => ⟨rfl, rfl⟩
  errHasCode := fun h => absurd h Bool.false_ne_true
  noCodeNoInfo := fun _ => ⟨rfl, rfl⟩
  codeRange := Nat.zero_le _
  errPcAligned := rfl
  heldReset := fun h => absurd h Bool.false_ne_true

theorem witness_EveryRunEnds : Inv (State.reset.start true) ∧ (State.reset.start true).busy = true ∧
    (State.reset.start true).turns = [] := ⟨inv_reset_start true, rfl, rfl⟩
theorem witness_StepKeepsInvariant : Inv (State.reset.start false) ∧ ∃ t, step (State.reset.start false) = .next t ∧
    t.err = true := ⟨inv_reset_start false, _, rfl, by decide⟩

/-- RESET is asserted, and the host is about to move. -/
def heldState (ops : List HostOp) : State := { State.reset with resetHeld := true, turns := ops.map .host }

theorem reset_values : ResetValues State.reset := by constructor <;> decide

theorem inv_held (ops : List HostOp) : Inv (heldState ops) :=
  { inv_reset_start false with
    busyClean := fun h => absurd h Bool.false_ne_true
    heldReset := fun _ => { reset_values with } }

theorem witness_ResetGivesR340 :
    ({ atV0 5 with turns := [.host .assertReset] }.turns = .host .assertReset :: []) ∧
    ((∀ ops, Inv (heldState ops) ∧ (heldState ops).resetHeld = true) ∧ (heldState []).turns = [] ∧
      0x008 < 0x1000 ∧ 0x008 % 4 = 0 ∧
      (heldState [.write (Config.params.nceBase + 0x008) 4 3]).turns =
        .host (.write (Config.params.nceBase + 0x008) 4 3) :: [] ∧
      ((4 = 1 ∨ 4 = 2 ∨ 4 = 4) ∧ (Config.ememBytes - 4) % 4 = 0 ∧ Config.ememBytes - 4 + 4 ≤ Config.ememBytes) ∧
      (heldState [.releaseReset]).turns = .host .releaseReset :: []) := by
  have h := last_word
  exact ⟨rfl, fun ops => ⟨inv_held ops, rfl⟩, rfl, by omega, rfl, rfl, ⟨.inr (.inr rfl), h.2.1, by omega⟩, rfl⟩

/-- A run about to execute `STW V0, 0x40(V0)` when RESET comes. -/
def storeThenReset : State := { machine [] [(0, 0x30000040)] with turns := [.host .assertReset] }

theorem witness_ResetAbandonsRun :
    (storeThenReset.mem.wf = true ∧ storeThenReset.turns = .host .assertReset :: [] ∧ storeThenReset.busy = true ∧
      fetchInstr storeThenReset = .ok (.stw 0 0 0x40#18)) ∧
    ({ atV0 0 with turns := [.host .assertReset] }.busy = true ∧
      fetchInstr { atV0 0 with turns := [.host .assertReset] } = .error (.illegal 0)) ∧
    State.reset.busy = false := by decide

theorem witness_NopRetires : 0x04000001 < 2 ^ 32 ∧ bits 0x04000001 31 26 = 0x01 ∧ 0x04000001 ≠ 0x04000000 := by decide
theorem witness_HaltEndsRun :
    (0x0BFFFFFF < 2 ^ 32 ∧ bits 0x0BFFFFFF 31 26 = 0x02 ∧ 0x0BFFFFFF ≠ 0x08000000) ∧
    ((atPtr 0).cptr = 0#32 ∧ (atPtr 0).cmdCount = 0#32 ∧ (atPtr 0).err = false) ∧
    (atPtr (Config.ememBytes - 4)).cptr.toNat + 4 = Config.ememBytes := by
  refine ⟨by decide, by decide, ?_⟩
  rw [atPtr_toNat last_word.1]; exact last_word.2.2.1
theorem witness_LiLoadsImmediate : 0x0FFFFFFF < 2 ^ 32 ∧ bits 0x0FFFFFFF 31 26 = 0x03 := by decide
theorem witness_MovCopies : (0x13FC0000 < 2 ^ 32 ∧ bits 0x13FC0000 31 26 = 0x04 ∧ bits 0x13FC0000 17 0 = 0) ∧
    (0x10000001 < 2 ^ 32 ∧ bits 0x10000001 31 26 = 0x04 ∧ bits 0x10000001 17 0 ≠ 0) := by decide

/-- The three clauses of a 4-byte access: misaligned (one off 0, and the highest address), the first word beyond EMEM, the
last word of EMEM. -/
theorem word_clauses :
    (atV0 1).effAddr 0 0#18 % 4 ≠ 0 ∧ (atV0 0xFFFFFFFF).effAddr 0 0#18 % 4 ≠ 0 ∧
    ((atV0 Config.ememBytes).effAddr 0 0#18 % 4 = 0 ∧ Config.ememBytes < (atV0 Config.ememBytes).effAddr 0 0#18 + 4) ∧
    ((atV0 (Config.ememBytes - 4)).effAddr 0 0#18 % 4 = 0 ∧
      (atV0 (Config.ememBytes - 4)).effAddr 0 0#18 + 4 ≤ Config.ememBytes) := by
  obtain ⟨h1, h2, h3, h4, h5⟩ := last_word
  rw [atV0_addr h1, atV0_addr h4, atV0_addr (by norm_num), atV0_addr (by norm_num)]
  exact ⟨by decide, by decide, ⟨h5, by omega⟩, h2, by omega⟩

theorem witness_LdwLoadsWord :
    (0x23FFFFFF < 2 ^ 32 ∧ bits 0x23FFFFFF 31 26 = 0x08) ∧
    (((1 : Nat) : Int) = ((((atV0 1).v[(0 : VReg)].toNat % 2 ^ 32 : Nat) : Int) + (0#18).toInt) % 2 ^ 32 ∧ 1 % 4 ≠ 0) ∧
    (((Config.ememBytes : Nat) : Int) =
        ((((atV0 Config.ememBytes).v[(0 : VReg)].toNat % 2 ^ 32 : Nat) : Int) + (0#18).toInt) % 2 ^ 32 ∧
      Config.ememBytes % 4 = 0 ∧ Config.ememBytes < Config.ememBytes + 4) ∧
    (((Config.ememBytes - 4 : Nat) : Int) =
        ((((atV0 (Config.ememBytes - 4)).v[(0 : VReg)].toNat % 2 ^ 32 : Nat) : Int) + (0#18).toInt) % 2 ^ 32 ∧
      (Config.ememBytes - 4) % 4 = 0 ∧ Config.ememBytes - 4 + 4 ≤ Config.ememBytes) := by
  obtain ⟨h1, h2, h3, h4, h5⟩ := last_word
  exact ⟨by decide, ⟨atV0_rule (by norm_num), by decide⟩, ⟨atV0_rule h4, h5, by omega⟩, atV0_rule h1, h2, by omega⟩

theorem witness_LdfLoadsWidened : (0x27FFFFFF < 2 ^ 32 ∧ bits 0x27FFFFFF 31 26 = 0x09) ∧
    (atV0 1).effAddr 0 0#18 % 4 ≠ 0 := ⟨by decide, word_clauses.1⟩

theorem witness_LdbLoadsByte :
    (0x2BFFFFFF < 2 ^ 32 ∧ bits 0x2BFFFFFF 31 26 = 0x0A) ∧
    (((Config.ememBytes : Nat) : Int) =
        ((((atV0 Config.ememBytes).v[(0 : VReg)].toNat % 2 ^ 32 : Nat) : Int) + (0#18).toInt) % 2 ^ 32 ∧
      Config.ememBytes < Config.ememBytes + 1) ∧
    (((Config.ememBytes - 1 : Nat) : Int) =
        ((((atV0 (Config.ememBytes - 1)).v[(0 : VReg)].toNat % 2 ^ 32 : Nat) : Int) + (0#18).toInt) % 2 ^ 32 ∧
      Config.ememBytes - 1 + 1 ≤ Config.ememBytes) := by
  obtain ⟨h1, h2, h3, h4, h5⟩ := last_word
  exact ⟨by decide, ⟨atV0_rule h4, by omega⟩, atV0_rule (by omega), by omega⟩

theorem witness_StwStoresLowWord : (∀ x, (atV0 x).mem.wf = true) ∧ (atV0 1).effAddr 0 0#18 % 4 ≠ 0 ∧
    ((atV0 Config.ememBytes).effAddr 0 0#18 % 4 = 0 ∧ Config.ememBytes < (atV0 Config.ememBytes).effAddr 0 0#18 + 4) ∧
    ((atV0 (Config.ememBytes - 4)).effAddr 0 0#18 % 4 = 0 ∧
      (atV0 (Config.ememBytes - 4)).effAddr 0 0#18 + 4 ≤ Config.ememBytes) :=
  ⟨fun _ => rfl, word_clauses.1, word_clauses.2.2.1, word_clauses.2.2.2⟩

theorem witness_StfStoresNarrowed : (atV0 0xFFFFFFFF).mem.wf = true ∧ (atV0 0xFFFFFFFF).effAddr 0 0#18 % 4 ≠ 0 :=
  ⟨rfl, word_clauses.2.1⟩

/-- `cptr` one word before the last one, `V[0]` the last word's address. -/
def nextIsLast : State := { atV0 (Config.ememBytes - 4) with cptr := BitVec.ofNat 32 (Config.ememBytes - 8) }

theorem witness_StoreChangesNextFetch : nextIsLast.mem.wf = true ∧
    nextIsLast.effAddr 0 0#18 = nextIsLast.cptr.toNat + 4 ∧ (nextIsLast.cptr.toNat + 4) % 4 = 0 ∧
    nextIsLast.cptr.toNat + 8 ≤ Config.ememBytes := by
  obtain ⟨h1, h2, h3, h4, h5⟩ := last_word
  have hmin := ememBytes_ge
  have h6 : Config.ememBytesMin = 65536 := rfl
  have e1 : nextIsLast.effAddr 0 0#18 = Config.ememBytes - 4 := atV0_addr h1
  have e2 : nextIsLast.cptr.toNat = Config.ememBytes - 8 := by
    show (BitVec.ofNat 32 (Config.ememBytes - 8)).toNat = _
    rw [BitVec.toNat_ofNat]; omega
  rw [e1, e2]
  exact ⟨rfl, by omega, by omega, by omega⟩

/-- The value of a finite pattern, from its units. -/
theorem val_pos {x : DWord} (h : Binary64.signBit x = false) :
    Binary64.val x = (Binary64.units (Binary64.magnitude x) : ℚ) / 2 ^ 1074 := by
  unfold Binary64.val; rw [h]; simp

theorem val_one_unit : Binary64.val 1#64 = 1 / 2 ^ 1074 := by
  rw [val_pos (by decide), show Binary64.units (Binary64.magnitude 1#64) = 1 by decide]; norm_num

theorem val_710 : Binary64.val 0x4086300000000000#64 = 710 := by
  rw [val_pos (by decide), show Binary64.units (Binary64.magnitude 0x4086300000000000#64) = 710 * 2 ^ 1074 by decide +kernel]
  push_cast
  rw [mul_div_assoc, div_self (by positivity), mul_one]

theorem val_neg_710 : Binary64.val 0xC086300000000000#64 = -710 := by
  unfold Binary64.val
  rw [show Binary64.signBit 0xC086300000000000#64 = true by decide,
    show Binary64.units (Binary64.magnitude 0xC086300000000000#64) = 710 * 2 ^ 1074 by decide +kernel]
  push_cast
  rw [mul_div_assoc, div_self (by positivity)]
  norm_num

theorem val_neg_unit : Binary64.val 0x8000000000000001#64 = -(1 / 2 ^ 1074) := by
  unfold Binary64.val
  rw [show Binary64.signBit 0x8000000000000001#64 = true by decide,
    show Binary64.units (Binary64.magnitude 0x8000000000000001#64) = 1 by decide]
  norm_num

theorem unit_pos : (0 : ℚ) < 1 / 2 ^ 1074 := by positivity

theorem unit_lt : (1 : ℚ) / 2 ^ 1074 < 1 / 2 ^ 53 := by
  apply one_div_lt_one_div_of_lt (by positivity)
  exact pow_lt_pow_right₀ (by norm_num) (by norm_num)

theorem witness_AddRounds : Binary64.isFinite 0x7FEFFFFFFFFFFFFF#64 = true ∧ Binary64.isFinite 1#64 = true := by decide
theorem witness_MulRounds : Binary64.isFinite 0xFFEFFFFFFFFFFFFF#64 = true ∧ Binary64.isFinite 0#64 = true := by decide
theorem witness_DivRounds : Binary64.isFinite 0x7FEFFFFFFFFFFFFF#64 = true ∧ Binary64.isFinite 1#64 = true ∧
    Binary64.val 1#64 ≠ 0 := ⟨by decide, by decide, by rw [val_one_unit]; exact unit_pos.ne'⟩
theorem witness_SqrtRounds : (Binary64.isFinite 1#64 = true ∧ 0 ≤ Binary64.val 1#64) ∧
    (Binary64.signBit 0x8000000000000001#64 = true ∧ 0x8000000000000001#64 ≠ Binary64.negZero) ∧
    Binary64.isNaN 0x7FF0000000000001#64 = true := ⟨⟨by decide, by rw [val_one_unit]; exact unit_pos.le⟩, by decide, by decide⟩
theorem witness_SpecialOperands :
    (Binary64.isFinite 1#64 = true ∧ Binary64.val 1#64 ≠ 0) ∧ (Binary64.negZero = 0#64 ∨ Binary64.negZero = Binary64.negZero) ∧
    (Binary64.isNaN 0xFFF8000000000000#64 = true) ∧
    (Binary64.isFinite 0#64 = true ∧ Binary64.isFinite Binary64.negZero = true ∧
      Binary64.signBit 0#64 ≠ Binary64.signBit Binary64.negZero ∧ Binary64.val 0#64 + Binary64.val Binary64.negZero = 0) := by
  refine ⟨⟨by decide, by rw [val_one_unit]; exact unit_pos.ne'⟩, .inr rfl, by decide, by decide, by decide, by decide, ?_⟩
  unfold Binary64.val
  rw [show Binary64.units (Binary64.magnitude 0#64) = 0 by decide,
    show Binary64.units (Binary64.magnitude Binary64.negZero) = 0 by decide]
  norm_num
theorem witness_WidenExact : Binary64.isNaN32 0x7F800001#32 = true ∧ Binary64.isFinite32 0xFF7FFFFF#32 = true := by decide
theorem witness_NarrowRounds : Binary64.isNaN 0xFFF0000000000001#64 = true ∧ Binary64.isFinite 0x7FEFFFFFFFFFFFFF#64 = true := by
  decide

theorem witness_Unpk111011Lanes : (13 : VReg).val ≤ 13 ∧ 13 < (14 : VReg).val ∧
    (atV0 0).v[(0 : VReg)].toNat % 2 ^ 32 / 2 ^ 21 = 0 ∧ (atV0 0xFFFFFFFF).v[(0 : VReg)].toNat % 2 ^ 32 / 2 ^ 21 = 2047 ∧
    (atV0 0xFFFFFFFF).v[(0 : VReg)].toNat % 2 ^ 32 / 2 ^ 11 % 2 ^ 10 = 1023 ∧
    (atV0 0xFFFFFFFF).v[(0 : VReg)].toNat % 2 ^ 32 % 2 ^ 11 = 2047 := by decide
theorem witness_Unpk8888Lanes : (12 : VReg).val ≤ 12 ∧ 12 < (13 : VReg).val ∧ 3 < 4 ∧
    (atV0 0xFF).v[(0 : VReg)].toNat % 2 ^ 32 / 2 ^ (24 - 8 * 3) % 2 ^ 8 = 255 ∧
    (atV0 0xFF).v[(0 : VReg)].toNat % 2 ^ 32 / 2 ^ (24 - 8 * 0) % 2 ^ 8 = 0 := by decide
theorem witness_Unorm8AndU16n : (atV0 0xFF000000).v[(0 : VReg)].toNat / 2 ^ (8 * 3) % 2 ^ 8 = 255 ∧
    (atV0 0xFF000000).v[(0 : VReg)].toNat / 2 ^ (8 * 0) % 2 ^ 8 = 0 ∧
    (atV0 0xFF000000).v[(0 : VReg)].toNat / 2 ^ (8 * 3) % 2 ^ 8 +
      256 * ((atV0 0xFF000000).v[(0 : VReg)].toNat / 2 ^ (8 * 3) % 2 ^ 8) = 65535 := by decide

/-- `V[0]` = +0, `V[1]` = 1.0. -/
def zeroOne : State := machine [(0, 0#64), (1, 0x3FF0000000000000#64)] []

theorem witness_DequantAndDqrange :
    (zeroOne.v[(0 : VReg)] = 0#64 ∧ zeroOne.v[(1 : VReg)] = F64.ONE ∧ zeroOne.v[(1 : VReg)].toNat ≤ F64.ONE.toNat) ∧
    (zeroOne.v[(1 : VReg)] = zeroOne.v[(1 : VReg)] ∧ Binary64.isFinite zeroOne.v[(1 : VReg)] = true ∧
      Binary64.isFinite zeroOne.v[(0 : VReg)] = true) := by decide

/-- The index word in `V[1]` is 0, so that the entry's address is the base in `V[0]`. -/
theorem codebook_rule {x : Nat} (h : x < 2 ^ 32) :
    x = ((atV0 x).v[(0 : VReg)].toNat % 2 ^ 32 + 4 * ((atV0 x).v[(1 : VReg)].toNat / 2 ^ (8 * (0 : Fin 4).val) % 2 ^ 8)) % 2 ^ 32 := by
  rw [atV0_get, show (atV0 x).v[(1 : VReg)] = 0#64 from rfl, BitVec.toNat_ofNat]
  simp only [BitVec.toNat_ofNat, Nat.zero_mod, Nat.zero_div, Nat.mul_zero, Nat.add_zero]
  omega

theorem witness_CblkReadsEntry :
    (1 = ((atV0 1).v[(0 : VReg)].toNat % 2 ^ 32 + 4 * ((atV0 1).v[(1 : VReg)].toNat / 2 ^ (8 * (0 : Fin 4).val) % 2 ^ 8)) % 2 ^ 32
      ∧ 1 % 4 ≠ 0) ∧
    (Config.ememBytes = ((atV0 Config.ememBytes).v[(0 : VReg)].toNat % 2 ^ 32 +
        4 * ((atV0 Config.ememBytes).v[(1 : VReg)].toNat / 2 ^ (8 * (0 : Fin 4).val) % 2 ^ 8)) % 2 ^ 32 ∧
      Config.ememBytes % 4 = 0 ∧ Config.ememBytes < Config.ememBytes + 4) ∧
    (Config.ememBytes - 4 = ((atV0 (Config.ememBytes - 4)).v[(0 : VReg)].toNat % 2 ^ 32 +
        4 * ((atV0 (Config.ememBytes - 4)).v[(1 : VReg)].toNat / 2 ^ (8 * (0 : Fin 4).val) % 2 ^ 8)) % 2 ^ 32 ∧
      (Config.ememBytes - 4) % 4 = 0 ∧ Config.ememBytes - 4 + 4 ≤ Config.ememBytes) := by
  obtain ⟨h1, h2, h3, h4, h5⟩ := last_word
  exact ⟨⟨codebook_rule (by norm_num), by decide⟩, ⟨codebook_rule h4, h5, by omega⟩, codebook_rule h1, h2, by omega⟩

theorem witness_InvlogTransforms :
    Binary64.isNaN (atV0 0x7FF0000000000001).v[(0 : VReg)] = true ∧ (atV0 0).v[(0 : VReg)] = 0#64 ∧
    (Binary64.isNaN (atV0 1).v[(0 : VReg)] = false ∧ Binary64.magnitude (atV0 1).v[(0 : VReg)] ≠ 0 ∧
      Binary64.signBit (atV0 1).v[(0 : VReg)] = false) ∧
    Binary64.signBit (atV0 0xFFF0000000000000).v[(0 : VReg)] = true ∧
    (Binary64.isFinite (atV0 0x4086300000000000).v[(0 : VReg)] = true ∧
      710 ≤ Binary64.val (atV0 0x4086300000000000).v[(0 : VReg)]) ∧
    (Binary64.isFinite (atV0 0xC086300000000000).v[(0 : VReg)] = true ∧
      Binary64.val (atV0 0xC086300000000000).v[(0 : VReg)] ≤ -710) ∧
    (Binary64.isFinite (atV0 1).v[(0 : VReg)] = true ∧ 0 < Binary64.val (atV0 1).v[(0 : VReg)] ∧
      Binary64.val (atV0 1).v[(0 : VReg)] < 1 / 2 ^ 53) ∧
    (Binary64.isFinite (atV0 0x8000000000000001).v[(0 : VReg)] = true ∧
      Binary64.val (atV0 0x8000000000000001).v[(0 : VReg)] < 0 ∧
      -(1 / 2 ^ 53) < Binary64.val (atV0 0x8000000000000001).v[(0 : VReg)]) ∧
    (0 < Binary64.magnitude (atV0 1).v[(0 : VReg)] ∧
      Binary64.magnitude (atV0 0x81A56E1FC2F8F359).v[(0 : VReg)] = 0x01A56E1FC2F8F359) := by
  refine ⟨by decide, by decide, by decide, by decide, ⟨by decide, ?_⟩, ⟨by decide, ?_⟩, ⟨by decide, ?_, ?_⟩,
    ⟨by decide, ?_, ?_⟩, by decide⟩
  · exact (le_of_eq val_710.symm)
  · exact (le_of_eq val_neg_710)
  · exact lt_of_lt_of_eq unit_pos val_one_unit.symm
  · exact lt_of_eq_of_lt val_one_unit unit_lt
  · exact lt_of_eq_of_lt val_neg_unit (neg_lt_zero.mpr unit_pos)
  · exact lt_of_lt_of_eq (neg_lt_neg unit_lt) val_neg_unit.symm

theorem witness_LogitopAndInvsig : Binary64.isNaN (atV0 0x7FF0000000000001).v[(0 : VReg)] = true ∧
    Binary64.isNaN (atV0 0x7FF0000000000000).v[(0 : VReg)] = false ∧ (atV0 0x3FE0000000000000).v[(0 : VReg)] = F64.HALF := by
  decide
theorem witness_ShdcMapsChannel : (atV0 0x3FE0000000000000).v[(0 : VReg)] = F64.HALF ∧
    (atV0 0x3FF0000000000000).v[(0 : VReg)] = F64.ONE ∧ (atV0 0xFFF0000000000000).v[(0 : VReg)] = Binary64.negInf ∧
    Binary64.isNaN (atV0 0x7FF0000000000001).v[(0 : VReg)] = true := by decide
theorem witness_UnpkrotQuaternion : (12 : VReg).val ≤ 12 ∧ 12 < (13 : VReg).val ∧
    (atV0 0x1FF7FDFF).v[(0 : VReg)].toNat % 2 ^ 32 = 0x1FF7FDFF ∧ (atV0 0).v[(0 : VReg)].toNat % 2 ^ 32 = 0 := by decide
theorem witness_QuatstQuaternion : (12 : VReg).val ≤ 12 ∧ 12 < (13 : VReg).val ∧
    (atV0 0xFB000000).v[(0 : VReg)].toNat % 2 ^ 32 / 2 ^ 24 < 252 ∧
    252 ≤ (atV0 0xFC000000).v[(0 : VReg)].toNat % 2 ^ 32 / 2 ^ 24 ∧
    (atV0 0xFD808080).v[(0 : VReg)].toNat % 2 ^ 32 = 0xFD808080 := by decide
theorem witness_HighHalvesIgnored : readsLowHalves (.stw 0 0 0#18) = true ∧
    (∀ j : VReg, ((atV0 7).v.set 0 0xFFFFFFFF00000007#64)[j].toNat % 2 ^ 32 = (atV0 7).v[j].toNat % 2 ^ 32) := by decide

/-- About to run `MOV V4, V3` with `V[3]` alone written. -/
def movReady : State := machine [(3, 7#64)] [(0, 0x110C0000)]

theorem witness_UnwrittenNotObserved : movReady.turns = [] ∧ SafeStep movReady ∧ movReady.busy = true ∧
    (∀ j : VReg, movReady.vWritten[j] = true → (movReady.v.set 0 1#64)[j] = movReady.v[j]) := by
  refine ⟨rfl, fun _ i h => ?_, rfl, by decide⟩
  have e : fetchInstr movReady = .ok (.mov 4 3) := by decide
  rw [e] at h
  cases h
  decide

/-- Whether a frame passes the checks of `DECCHK`, with its vertex count. -/
def planCount (s : State) : Option Nat :=
  match validateChunked s with
  | .ok p => some p.vn
  | .error _ => none

theorem plan_of_count {s : State} {n : Nat} (h : planCount s = some n) : ∃ p, validateChunked s = .ok p ∧ p.vn = n := by
  unfold planCount at h
  split at h
  · rename_i p hp; exact ⟨p, hp, by simpa using h⟩
  · simp at h

/-- The conditions of `Desc.Reached` with the smallest EMEM in place of EMEM, so that they can be decided. -/
abbrev ReachedMin (s : State) (e : Nat) : Prop :=
  s.descBase.toNat % 4 = 0 ∧ s.outBase.toNat % 4 = 0 ∧ s.inBase.toNat + s.inLen.toNat ≤ 65536 ∧
    s.mem.readLE s.descBase.toNat 4 % 2 ^ 24 = 0x000101 ∧ s.descBase.toNat + 8 ≤ 65536 ∧ Desc.addr s e ≤ 65536 ∧
    ∀ j, j < e → Desc.ElemOk s j

theorem ReachedMin.reached {s : State} {e : Nat} (h : ReachedMin s e) : Desc.Reached s e :=
  have hm : 65536 ≤ Config.ememBytes := ememBytes_ge
  ⟨⟨h.1, h.2.1, h.2.2.1.trans hm, h.2.2.2.1, h.2.2.2.2.1.trans hm⟩, h.2.2.2.2.2.1.trans hm, h.2.2.2.2.2.2⟩

/-- The conditions of `Desc.SchemaOk`, likewise. -/
def schemaMin (s : State) (c v : Nat) : Bool :=
  decide (ReachedMin s (Desc.nelem s)) && decide (Desc.Only s 1 c) && decide (Desc.Only s 2 v) &&
    decide (Desc.ChunkOk s c) && decide (Desc.VertexOk s v)

theorem schemaOk_of_min {s : State} {c v : Nat} (h : schemaMin s c v = true) : Desc.SchemaOk s c v := by
  simp only [schemaMin, Bool.and_eq_true, decide_eq_true_eq] at h
  obtain ⟨⟨⟨⟨h1, h2⟩, h3⟩, h4⟩, h5⟩ := h
  exact ⟨h1.reached, h2, h3, h4, h5⟩

/-- The conditions of `Desc.Frame`, likewise. -/
def frameMin (s : State) (c v : Nat) : Bool :=
  schemaMin s c v && decide (Desc.dataEnd s c ≤ s.inLen.toNat) && decide (Desc.dataEnd s v ≤ s.inLen.toNat) &&
    decide (Desc.count s v ≤ 256 * Desc.count s c) && decide (s.outBase.toNat + 56 * Desc.count s v ≤ 65536) &&
    decide (Desc.OutClear s v s.inBase.toNat s.inLen.toNat) &&
    decide (Desc.OutClear s v s.descBase.toNat (Desc.addr s (Desc.nelem s) - s.descBase.toNat))

theorem frame_of_min {s : State} {c v : Nat} (h : frameMin s c v = true) : Desc.Frame s c v := by
  simp only [frameMin, Bool.and_eq_true, decide_eq_true_eq] at h
  obtain ⟨⟨⟨⟨⟨⟨h1, h2⟩, h3⟩, h4⟩, h5⟩, h6⟩, h7⟩ := h
  have hm : 65536 ≤ Config.ememBytes := ememBytes_ge
  exact ⟨schemaOk_of_min h1, h2, h3, h4, h5.trans hm, fun _ => h6, fun _ => h7⟩

theorem witness_DecchkWritesRecords :
    ((chunkedFrame 2).mem.wf = true ∧ ∃ p, validateChunked (chunkedFrame 2) = .ok p ∧ p.vn = 2) ∧
    (Desc.Frame (chunkedFrame 256) 0 1 ∧ ¬ Desc.Has (chunkedFrame 256) 0 13 ∧ 255 < Desc.count (chunkedFrame 256) 1) ∧
    (colourFrame.mem.wf = true ∧ Desc.Frame colourFrame 0 1 ∧ Desc.Has colourFrame 0 13 ∧ 0 < Desc.count colourFrame 1 ∧
      Desc.field colourFrame 0 1 = 18 ∧ Desc.offset colourFrame 0 1 = 1) :=
  ⟨⟨by decide, plan_of_count (by decide +kernel)⟩,
    ⟨frame_of_min (by decide +kernel), by decide +kernel, by decide +kernel⟩,
    by decide +kernel, frame_of_min (by decide +kernel), by decide +kernel⟩
theorem witness_DecchkPlanIsSafe : ∃ p, validateChunked (chunkedFrame 256) = .ok p ∧ p.vn = 256 :=
  plan_of_count (by decide +kernel)

/-- A machine whose frame registers are given. -/
def frameRegs (d o b l : Nat) (m : Memory) : State :=
  { machine [] [] with
    descBase := BitVec.ofNat 32 d, outBase := BitVec.ofNat 32 o, inBase := BitVec.ofNat 32 b, inLen := BitVec.ofNat 32 l
    mem := m }

theorem desc_toNat {d o b l : Nat} {m : Memory} (h : d < 2 ^ 32) : (frameRegs d o b l m).descBase.toNat = d := by
  show (BitVec.ofNat 32 d).toNat = d
  rw [BitVec.toNat_ofNat]; omega

/-- A header at `a` alone; with `NELEM` 1; with one element record of one property. -/
def headAt (a : Nat) : Memory := [(a, 1#8), (a + 1, 1#8)]
def oneElemAt (a : Nat) : Memory := headAt a ++ [(a + 4, 1#8)]
def onePropAt (a : Nat) : Memory := oneElemAt a ++ [(a + 8, 1#8), (a + 10, 1#8)]

theorem headAt_header (a : Nat) : Memory.readLE (headAt a) a 4 = 0x101 := by
  simp [headAt, Memory.readLE, Memory.byte, Memory.unlisted, Nat.add_assoc]
theorem oneElemAt_words (a : Nat) : Memory.readLE (oneElemAt a) a 4 = 0x101 ∧ Memory.readLE (oneElemAt a) (a + 4) 4 = 1 := by
  simp [oneElemAt, headAt, Memory.readLE, Memory.byte, Memory.unlisted, Nat.add_assoc]
theorem onePropAt_words (a : Nat) : Memory.readLE (onePropAt a) a 4 = 0x101 ∧ Memory.readLE (onePropAt a) (a + 4) 4 = 1 ∧
    Memory.readLE (onePropAt a) (a + 8) 4 = 0x10001 := by
  simp [onePropAt, oneElemAt, headAt, Memory.readLE, Memory.byte, Memory.unlisted, Nat.add_assoc]

theorem witness_DecchkChecks :
    (frameRegs 2 0 0 0 []).descBase.toNat % 4 ≠ 0 ∧
    ((frameRegs 0 2 0 0 []).descBase.toNat % 4 = 0 ∧ (frameRegs 0 2 0 0 []).outBase.toNat % 4 ≠ 0) ∧
    ((frameRegs 0 0 0 0xFFFFFFFF []).outBase.toNat % 4 = 0 ∧
      Config.ememBytes < (frameRegs 0 0 0 0xFFFFFFFF []).inBase.toNat + (frameRegs 0 0 0 0xFFFFFFFF []).inLen.toNat) ∧
    ((frameRegs Config.ememBytes 0 0 0 []).descBase.toNat % 4 = 0 ∧
      (frameRegs Config.ememBytes 0 0 0 []).inBase.toNat + (frameRegs Config.ememBytes 0 0 0 []).inLen.toNat ≤ Config.ememBytes ∧
      Config.ememBytes < (frameRegs Config.ememBytes 0 0 0 []).descBase.toNat + 4) ∧
    ((frameRegs (Config.ememBytes - 4) 0 0 0 []).descBase.toNat + 4 ≤ Config.ememBytes ∧
      (frameRegs (Config.ememBytes - 4) 0 0 0 []).mem.readLE
        (frameRegs (Config.ememBytes - 4) 0 0 0 []).descBase.toNat 4 % 2 ^ 8 ≠ 1) ∧
    (let s := frameRegs (Config.ememBytes - 4) 0 0 0 (headAt (Config.ememBytes - 4))
     s.mem.readLE s.descBase.toNat 4 % 2 ^ 24 = 0x000101 ∧ Config.ememBytes < s.descBase.toNat + 8) := by
  obtain ⟨h1, h2, h3, h4, h5⟩ := last_word
  have hle := ememBytes_le
  refine ⟨by decide, by decide, ⟨by decide, ?_⟩, ⟨?_, ?_, ?_⟩, ⟨?_, ?_⟩, ?_⟩
  · show Config.ememBytes < 0 + 0xFFFFFFFF; omega
  · rw [desc_toNat h4]; exact h5
  · show 0 + 0 ≤ Config.ememBytes; omega
  · rw [desc_toNat h4]; omega
  · rw [desc_toNat h1]; omega
  · show 0 % 2 ^ 8 ≠ 1; decide
  · intro s
    have e : s.descBase.toNat = Config.ememBytes - 4 := desc_toNat h1
    rw [e]
    exact ⟨by show Memory.readLE (headAt _) _ 4 % 2 ^ 24 = _; rw [headAt_header]; decide, by omega⟩

/-- R229 at the end of EMEM: an element record beyond it, a property word beyond it. -/
theorem witness_DecchkChecks_walkEnd :
    (let s := frameRegs (Config.ememBytes - 8) 0 0 0 (oneElemAt (Config.ememBytes - 8))
     0 < Desc.nelem s ∧ Desc.Reached s 0 ∧ Config.ememBytes < Desc.addr s 0 + 8) ∧
    (let s := frameRegs (Config.ememBytes - 16) 0 0 0 (onePropAt (Config.ememBytes - 16))
     0 < Desc.nelem s ∧ Desc.Reached s 0 ∧ Desc.addr s 0 + 8 ≤ Config.ememBytes ∧ 0 < Desc.nprop s 0 ∧
     Desc.propAddr s 0 0 ≤ Config.ememBytes ∧ Config.ememBytes < Desc.propAddr s 0 0 + 4) := by
  have h := last_word
  have hm : 65536 ≤ Config.ememBytes := ememBytes_ge
  constructor
  · intro s
    have e : s.descBase.toNat = Config.ememBytes - 8 := desc_toNat (by omega)
    have w := oneElemAt_words (Config.ememBytes - 8)
    have n : Desc.nelem s = 1 := by unfold Desc.nelem; rw [e]; exact w.2
    have a : Desc.addr s 0 = Config.ememBytes := by unfold Desc.addr; omega
    refine ⟨by omega, ⟨⟨by omega, rfl, Nat.zero_le _, ?_, by omega⟩, by omega, fun j hj => absurd hj (Nat.not_lt_zero j)⟩,
      by omega⟩
    rw [e]; show Memory.readLE (oneElemAt _) _ 4 % 2 ^ 24 = _; rw [w.1]; rfl
  · intro s
    have e : s.descBase.toNat = Config.ememBytes - 16 := desc_toNat (by omega)
    have w := onePropAt_words (Config.ememBytes - 16)
    have n : Desc.nelem s = 1 := by unfold Desc.nelem; rw [e]; exact w.2.1
    have a : Desc.addr s 0 = Config.ememBytes - 8 := by unfold Desc.addr; omega
    have a' : Desc.addr s 0 = Config.ememBytes - 16 + 8 := by omega
    have m : Desc.nprop s 0 = 1 := by
      unfold Desc.nprop; rw [a']; show Memory.readLE (onePropAt _) _ 4 / 2 ^ 16 = 1; rw [w.2.2]; rfl
    have q : Desc.propAddr s 0 0 = Config.ememBytes := by unfold Desc.propAddr; omega
    refine ⟨by omega, ⟨⟨by omega, rfl, Nat.zero_le _, ?_, by omega⟩, by omega, fun j hj => absurd hj (Nat.not_lt_zero j)⟩,
      by omega, by omega, by omega, by omega⟩
    rw [e]; show Memory.readLE (onePropAt _) _ 4 % 2 ^ 24 = _; rw [w.1]; rfl

/-- R229: the last property of the second element is a list; it has no known type. -/
theorem witness_DecchkChecks_walk :
    (let s := described [element 1 1 (fields 7 1 12), element 2 1 (fields 6 32 3 ++ [0x12306])] 64 0x4000
     1 < Desc.nelem s ∧ Desc.Reached s 1 ∧ 3 < Desc.nprop s 1 ∧ (∀ q, q < 3 → Desc.PropOk s 1 q) ∧ Desc.list s 1 3 = 1) ∧
    (let s := described [element 1 1 (fields 7 1 12), element 2 1 (fields 6 32 3 ++ [0x2309])] 64 0x4000
     1 < Desc.nelem s ∧ Desc.Reached s 1 ∧ 3 < Desc.nprop s 1 ∧ (∀ q, q < 3 → Desc.PropOk s 1 q) ∧ Desc.list s 1 3 = 0 ∧
     8 < Desc.type s 1 3) :=
  ⟨⟨by decide +kernel, ReachedMin.reached (by decide +kernel), by decide +kernel⟩,
    by decide +kernel, ReachedMin.reached (by decide +kernel), by decide +kernel⟩

/-- R230: no chunk element, a second one, no vertex element, a second one. -/
theorem witness_DecchkChecks_elements :
    (let s := described [element 2 1 (fields 6 32 4)] 64 0x4000
     Desc.Reached s (Desc.nelem s) ∧ ∀ e, e < Desc.nelem s → Desc.kind s e ≠ 1) ∧
    (let s := described [element 1 1 (fields 7 1 12), element 3 0 [], element 1 1 []] 64 0x4000
     Desc.Reached s (Desc.nelem s) ∧ Desc.Second s 1 2) ∧
    (let s := described [element 1 1 (fields 7 1 12)] 64 0x4000
     Desc.Reached s (Desc.nelem s) ∧ Desc.Only s 1 0 ∧ ∀ e, e < Desc.nelem s → Desc.kind s e ≠ 2) ∧
    (let s := described [element 2 1 [], element 1 1 [], element 2 1 []] 64 0x4000
     Desc.Reached s (Desc.nelem s) ∧ Desc.Only s 1 1 ∧ Desc.Second s 2 2) :=
  ⟨⟨ReachedMin.reached (by decide +kernel), by decide +kernel⟩, ⟨ReachedMin.reached (by decide +kernel), by decide +kernel⟩,
    ⟨ReachedMin.reached (by decide +kernel), by decide +kernel⟩, ReachedMin.reached (by decide +kernel), by decide +kernel⟩

/-- A descriptor with one chunk element of the given properties, and a vertex element of the given ones after it. -/
def schema (cs vs : List Nat) : State := described [element 1 1 cs, element 2 1 vs] 64 0x4000

/-- R230, the chunk element: a field twice, a bound missing, a bound of another type, a colour bound missing, a colour
bound of another type. -/
theorem witness_DecchkChecks_chunk :
    (let s := schema (fields 7 1 12 ++ [0x1207, 0x107]) []
     Desc.Reached s (Desc.nelem s) ∧ Desc.Only s 1 0 ∧ Desc.Only s 2 1 ∧ 13 < Desc.nprop s 0 ∧ Desc.Again s 0 1 18 13 ∧
       ∀ q, q < 13 → ¬ Desc.Again s 0 1 18 q) ∧
    (let s := schema (fields 7 1 11) []
     Desc.Reached s (Desc.nelem s) ∧ Desc.Only s 1 0 ∧ Desc.Only s 2 1 ∧ Desc.NoneAgain s 0 1 18 ∧ Desc.AllTyped s 0 1 12 7 ∧
       ¬ Desc.Has s 0 12) ∧
    (let s := schema (fields 7 2 11 ++ [0x106]) []
     Desc.Reached s (Desc.nelem s) ∧ Desc.Only s 1 0 ∧ Desc.Only s 2 1 ∧ Desc.NoneAgain s 0 1 18 ∧ Desc.AllTyped s 0 1 1 7 ∧
       Desc.Has s 0 1 ∧ ¬ Desc.HasTyped s 0 1 7) ∧
    (let s := schema (fields 7 1 12 ++ [0x1207]) []
     Desc.Reached s (Desc.nelem s) ∧ Desc.Only s 1 0 ∧ Desc.Only s 2 1 ∧ Desc.NoneAgain s 0 1 18 ∧ Desc.AllTyped s 0 1 13 7 ∧
       ¬ Desc.Has s 0 13 ∧ Desc.AllHad s 0 13 13 ∧ Desc.Has s 0 18) ∧
    (let s := schema (fields 7 1 17 ++ [0x1206]) []
     Desc.Reached s (Desc.nelem s) ∧ Desc.Only s 1 0 ∧ Desc.Only s 2 1 ∧ Desc.NoneAgain s 0 1 18 ∧ Desc.AllTyped s 0 1 13 7 ∧
       Desc.AllHad s 0 13 19 ∧ Desc.AllTyped s 0 13 18 7 ∧ ¬ Desc.HasTyped s 0 18 7) :=
  ⟨⟨ReachedMin.reached (by decide +kernel), by decide +kernel⟩, ⟨ReachedMin.reached (by decide +kernel), by decide +kernel⟩,
    ⟨ReachedMin.reached (by decide +kernel), by decide +kernel⟩, ⟨ReachedMin.reached (by decide +kernel), by decide +kernel⟩,
    ReachedMin.reached (by decide +kernel), by decide +kernel⟩

/-- R230, the vertex element: a field twice, a packed word missing, one of another type. -/
theorem witness_DecchkChecks_vertex :
    (let s := schema (fields 7 1 12) (fields 6 32 4 ++ [0x2301])
     Desc.Reached s (Desc.nelem s) ∧ Desc.Only s 1 0 ∧ Desc.Only s 2 1 ∧ Desc.ChunkOk s 0 ∧ 4 < Desc.nprop s 1 ∧
       Desc.Again s 1 32 35 4 ∧ ∀ q, q < 4 → ¬ Desc.Again s 1 32 35 q) ∧
    (let s := schema (fields 7 1 18) (fields 6 32 3)
     Desc.Reached s (Desc.nelem s) ∧ Desc.Only s 1 0 ∧ Desc.Only s 2 1 ∧ Desc.ChunkOk s 0 ∧ Desc.NoneAgain s 1 32 35 ∧
       Desc.AllTyped s 1 32 35 6 ∧ ¬ Desc.Has s 1 35) ∧
    (let s := schema (fields 7 1 12) (fields 5 32 4)
     Desc.Reached s (Desc.nelem s) ∧ Desc.Only s 1 0 ∧ Desc.Only s 2 1 ∧ Desc.ChunkOk s 0 ∧ Desc.NoneAgain s 1 32 35 ∧
       Desc.AllTyped s 1 32 32 6 ∧ Desc.Has s 1 32 ∧ ¬ Desc.HasTyped s 1 32 6) :=
  ⟨⟨ReachedMin.reached (by decide +kernel), by decide +kernel, by decide +kernel, by decide +kernel, by decide +kernel⟩,
    ⟨ReachedMin.reached (by decide +kernel), by decide +kernel, by decide +kernel, by decide +kernel, by decide +kernel⟩,
    ReachedMin.reached (by decide +kernel), by decide +kernel, by decide +kernel, by decide +kernel, by decide +kernel⟩

/-- A plain frame with `n` vertices, `l` bytes of input, its output at `o`. -/
def plainData (n l o : Nat) : State := described [element 1 1 (fields 7 1 12), element 2 n (fields 6 32 4)] l o

/-- R231 to R233: the chunk row cut off, the vertex row cut off, one vertex too many, the output beyond EMEM, over the
input, over the descriptor. -/
theorem witness_DecchkChecks_data :
    (Desc.SchemaOk (plainData 1 47 0x4000) 0 1 ∧ (plainData 1 47 0x4000).inLen.toNat < Desc.dataEnd (plainData 1 47 0x4000) 0) ∧
    (Desc.SchemaOk (plainData 1 63 0x4000) 0 1 ∧ (plainData 1 63 0x4000).inLen.toNat < Desc.dataEnd (plainData 1 63 0x4000) 1 ∧
      Desc.dataEnd (plainData 1 63 0x4000) 0 ≤ (plainData 1 63 0x4000).inLen.toNat) ∧
    (let s := plainData 257 0x2000 0x4000
     Desc.SchemaOk s 0 1 ∧ Desc.dataEnd s 0 ≤ s.inLen.toNat ∧ Desc.dataEnd s 1 ≤ s.inLen.toNat ∧
       256 * Desc.count s 0 < Desc.count s 1) ∧
    (let s := plainData 256 0x2000 0xFFFFFFFC
     Desc.SchemaOk s 0 1 ∧ Desc.dataEnd s 1 ≤ s.inLen.toNat ∧ Desc.count s 1 ≤ 256 * Desc.count s 0 ∧
       Config.ememBytes < s.outBase.toNat + 56 * Desc.count s 1) ∧
    (let s := plainData 1 64 0x103C
     Desc.SchemaOk s 0 1 ∧ s.outBase.toNat + 56 * Desc.count s 1 ≤ Config.ememBytes ∧ 0 < Desc.count s 1 ∧
       ¬ Desc.OutClear s 1 s.inBase.toNat s.inLen.toNat) ∧
    (let s := plainData 1 64 0x154
     Desc.SchemaOk s 0 1 ∧ s.outBase.toNat + 56 * Desc.count s 1 ≤ Config.ememBytes ∧ 0 < Desc.count s 1 ∧
       ¬ Desc.OutClear s 1 s.descBase.toNat (Desc.addr s (Desc.nelem s) - s.descBase.toNat)) := by
  have hm : 65536 ≤ Config.ememBytes := ememBytes_ge
  have hle := ememBytes_le
  refine ⟨⟨schemaOk_of_min (by decide +kernel), by decide +kernel⟩,
    ⟨schemaOk_of_min (by decide +kernel), by decide +kernel⟩,
    ⟨schemaOk_of_min (by decide +kernel), by decide +kernel⟩,
    ⟨schemaOk_of_min (by decide +kernel), by decide +kernel, by decide +kernel, ?_⟩,
    ⟨schemaOk_of_min (by decide +kernel), le_trans (by decide +kernel) hm, by decide +kernel⟩,
    schemaOk_of_min (by decide +kernel), le_trans (by decide +kernel) hm, by decide +kernel⟩
  have e : (plainData 256 0x2000 0xFFFFFFFC).outBase.toNat = 0xFFFFFFFC := rfl
  show Config.ememBytes < (plainData 256 0x2000 0xFFFFFFFC).outBase.toNat + _
  omega

theorem witness_DecchkPlainFrame :
    let s := chunkedFrame 256
    s.mem.wf = true ∧ s.descBase.toNat % 4 = 0 ∧ s.outBase.toNat % 4 = 0 ∧
    s.inBase.toNat + s.inLen.toNat ≤ Config.ememBytes ∧ s.descBase.toNat + 88 ≤ Config.ememBytes ∧
    (s.mem.readLE s.descBase.toNat 4 = 0x101 ∧ s.mem.readLE (s.descBase.toNat + 4) 4 = 2 ∧
      s.mem.readLE (s.descBase.toNat + 8) 4 = 0x000C0001 ∧ s.mem.readLE (s.descBase.toNat + 12) 4 = 1 ∧
      (∀ p, p < 12 → s.mem.readLE (s.descBase.toNat + 16 + 4 * p) 4 = 7 + 256 * (p + 1)) ∧
      s.mem.readLE (s.descBase.toNat + 64) 4 = 0x00040002 ∧ s.mem.readLE (s.descBase.toNat + 68) 4 = 256 ∧
      (∀ q, q < 4 → s.mem.readLE (s.descBase.toNat + 72 + 4 * q) 4 = 6 + 256 * (32 + q))) ∧
    48 * 1 + 16 * 256 ≤ s.inLen.toNat ∧ 256 ≤ 256 * 1 ∧ s.outBase.toNat + 56 * 256 ≤ Config.ememBytes ∧
    (s.inBase.toNat + s.inLen.toNat ≤ s.outBase.toNat ∧ s.descBase.toNat + 88 ≤ s.outBase.toNat) := by
  have h := ememBytes_ge
  have h6 : Config.ememBytesMin = 65536 := rfl
  rw [h6] at h
  refine ⟨by decide +kernel, by decide +kernel, by decide +kernel, ?_, ?_, by decide +kernel, by decide +kernel, by decide,
    ?_, by decide +kernel⟩
  · show 0x1000 + (48 + 16 * 256) ≤ Config.ememBytes; omega
  · show 0x100 + 88 ≤ Config.ememBytes; omega
  · show 0x4000 + 56 * 256 ≤ Config.ememBytes; omega

theorem witness_DecimgWritesRecords :
    let s := imageFrame
    s.mem.wf = true ∧ s.outBase.toNat % 4 = 0 ∧ s.scbBase.toNat % 4 = 0 ∧ s.shcbBase.toNat % 4 = 0 ∧
    (∀ k : Fin 5, s.planes[k].base.toNat % 4 = 0) ∧ 0 < s.imgCount.toNat ∧ s.scbLen = 256#32 ∧ s.shcbLen = 256#32 ∧
    (∀ k : Fin 5, s.planes[k].ch = 4#32 ∧ s.imgCount.toNat ≤ s.planes[k].npix.toNat) ∧
    (∀ k : Fin 5, s.planes[k].base.toNat + 4 * s.imgCount.toNat ≤ 65536 ∧
      s.planes[k].base.toNat + 4 * s.imgCount.toNat ≤ s.outBase.toNat) ∧
    s.scbBase.toNat + 1024 ≤ s.outBase.toNat ∧ s.shcbBase.toNat + 1024 ≤ s.outBase.toNat ∧
    s.outBase.toNat + 56 * s.imgCount.toNat ≤ 65536 ∧ 65536 ≤ Config.ememBytes :=
  ⟨by decide, by decide, by decide, by decide, by decide, by decide, by decide, by decide, by decide, by decide, by decide,
    by decide, by decide, ememBytes_ge⟩

/-- Plane `k` of the image frame replaced. -/
def withPlane (k : Fin 5) (p : Plane) : State := imageFrame.setPlane k p

/-- Each clause of the checks of `DECIMG` on a frame that fails there and no earlier. -/
theorem witness_DecimgChecks :
    ¬ { imageFrame with outBase := 2#32 }.outBase.toNat % 4 = 0 ∧
    { imageFrame with scbBase := 1#32 }.scbBase.toNat % 4 ≠ 0 ∧
    { imageFrame with shcbBase := 3#32 }.shcbBase.toNat % 4 ≠ 0 ∧
    ((∀ j : Fin 5, j < 4 → (withPlane 4 ⟨2#32, 1#32, 4#32⟩).planes[j].base.toNat % 4 = 0) ∧
      (withPlane 4 ⟨2#32, 1#32, 4#32⟩).planes[(4 : Fin 5)].base.toNat % 4 ≠ 0) ∧
    { imageFrame with imgCount := 0#32 }.imgCount.toNat = 0 ∧
    { imageFrame with scbLen := 255#32 }.scbLen ≠ 256#32 ∧ { imageFrame with shcbLen := 257#32 }.shcbLen ≠ 256#32 ∧
    ((∀ j : Fin 5, j < 4 → (withPlane 4 ⟨0x1000#32, 1#32, 3#32⟩).planes[j].ch = 4#32 ∧
        1 ≤ (withPlane 4 ⟨0x1000#32, 1#32, 3#32⟩).planes[j].npix.toNat) ∧
      (withPlane 4 ⟨0x1000#32, 1#32, 3#32⟩).planes[(4 : Fin 5)].ch ≠ 4#32) ∧
    (withPlane 0 ⟨0x1000#32, 0#32, 4#32⟩).planes[(0 : Fin 5)].npix.toNat < 1 ∧
    Config.ememBytes < (withPlane 0 ⟨0xFFFFFFFC#32, 1#32, 4#32⟩).planes[(0 : Fin 5)].base.toNat + 4 * 1 ∧
    ({ imageFrame with outBase := 0x1000#32 }.outBase.toNat < imageFrame.planes[(0 : Fin 5)].base.toNat + 4 * 1 ∧
      imageFrame.planes[(0 : Fin 5)].base.toNat < { imageFrame with outBase := 0x1000#32 }.outBase.toNat + 56 * 1) := by
  have hle := ememBytes_le
  refine ⟨by decide, by decide, by decide, by decide, by decide, by decide, by decide, by decide, by decide, ?_, by decide⟩
  show Config.ememBytes < 0xFFFFFFFC + 4 * 1; omega

/-- The host is about to make an access. -/
def hostMoves (busy : Bool) (ops : List HostOp) : State :=
  { State.reset with busy := busy, vWritten := Vector.replicate 16 true, turns := ops.map .host }

theorem witness_StartBeginsRun :
    (hostMoves false [.write (Config.params.nceBase + 0x008) 4 3]).turns =
      .host (.write (Config.params.nceBase + 0x008) 4 3) :: [] ∧ 3 % 2 = 1 ∧ (hostMoves false []).busy = false ∧
    (hostMoves true []).busy = true ∧ (hostMoves true []).resetHeld = false := by
  exact ⟨rfl, rfl, rfl, rfl, rfl⟩
theorem witness_BusyWritesIgnored :
    (hostMoves true [.write (Config.params.nceBase + 0xFFC) 4 6]).busy = true ∧ (hostMoves true []).resetHeld = false ∧
    0xFFC < 0x1000 ∧ 0xFFC % 4 = 0 ∧
    (hostMoves true [.write (Config.params.nceBase + 0xFFC) 4 6]).turns =
      .host (.write (Config.params.nceBase + 0xFFC) 4 6) :: [] := by
  exact ⟨rfl, rfl, by decide, rfl, rfl⟩

/-- The host is about to write the high half of `V[15]`, which nothing has written. -/
def halfMove : State := { State.reset with turns := [.host (.write (Config.params.nceBase + MmioReg.offset (.vHi 15)) 4 7)] }

theorem witness_WrittenRegisterReadsBack :
    let ops := [HostOp.write (Config.params.nceBase + MmioReg.offset (.vHi 15)) 4 7,
      HostOp.read (Config.params.nceBase + MmioReg.offset (.vHi 15)) 4]
    (hostMoves false ops).busy = false ∧ MmioReg.isRw (.vHi 15) = true ∧ (∀ i : VReg, (hostMoves false ops).vWritten[i] = true) ∧
    (hostMoves false ops).turns = ops.map Turn.host ++ [] ∧ (hostMoves false ops).resetHeld = false ∧
    (halfMove.busy = false ∧ halfMove.resetHeld = false ∧ halfMove.vWritten[(15 : VReg)] = false ∧
      halfMove.turns = .host (.write (Config.params.nceBase + MmioReg.offset (.vHi 15)) 4 7) :: []) := by
  refine ⟨rfl, rfl, ?_, rfl, rfl, rfl, rfl, by decide, rfl⟩
  intro i
  show (Vector.replicate 16 true)[i.val] = true
  exact Vector.getElem_replicate _
theorem witness_ConstantsAndReserved :
    (0xFFC < 0x1000 ∧ 0xFFC % 4 = 0 ∧ MmioReg.ofOffset 0xFFC = none) ∧
    (0x050 < 0x1000 ∧ 0x050 % 4 = 0 ∧ MmioReg.ofOffset 0x050 = some .outCount ∧ MmioReg.isRo .outCount = true) := by decide

/-- `DONE` is set and the interrupt enabled. -/
def doneState (x : Nat) : State :=
  { hostMoves false [.write (Config.params.nceBase + 0x00C) 4 x] with ie := true, done := true }

theorem witness_InterruptCleared : (doneState 2).irq = true ∧
    (doneState 2).turns = .host (.write (Config.params.nceBase + 0x00C) 4 2) :: [] ∧
    ((doneState 2).done = true → 2 / 2 % 2 = 1) ∧ ((doneState 2).err = true → 2 / 4 % 2 = 1) ∧
    1 / 2 % 2 = 0 ∧ (doneState 2).busy = false ∧ 3 % 2 = 1 ∧ (doneState 2).resetHeld = false ∧
    (2 % 2 = 0 ∧ (hostMoves true [.write (Config.params.nceBase + 0x008) 4 2]).turns =
      .host (.write (Config.params.nceBase + 0x008) 4 2) :: []) :=
  ⟨rfl, rfl, fun _ => rfl, fun h => absurd h Bool.false_ne_true, rfl, rfl, rfl, rfl, rfl, rfl⟩
theorem witness_EmemWindow : (∀ n, n = 1 ∨ n = 2 ∨ n = 4 → (Config.ememBytes - n) % n = 0 ∧ Config.ememBytes - n + n ≤ Config.ememBytes) ∧
    (hostMoves false []).busy = false ∧ (hostMoves false []).mem.wf = true ∧ (hostMoves false []).resetHeld = false := by
  have h := last_word
  refine ⟨?_, rfl, rfl, rfl⟩
  rintro n (rfl | rfl | rfl) <;> omega
theorem witness_HostStops :
    (HostOp.read 0 8 = .read 0 8 ∨ HostOp.read 0 8 = .write 0 8 0) ∧
    (0xFFF < 0x1000 ∧ ¬ (4 = 4 ∧ 0xFFF % 4 = 0)) ∧
    (Config.ememBytes - 1 < Config.ememBytes ∧ ¬ ((2 = 1 ∨ 2 = 2 ∨ 2 = 4) ∧ (Config.ememBytes - 1) % 2 = 0)) ∧
    (Config.ememBytes - 4 < Config.ememBytes ∧ (Config.ememBytes - 4) % 4 = 0 ∧ (hostMoves true []).busy = true) ∧
    (let addr := Config.params.nceBase + 0x1000 + Config.params.ememHostBase + Config.ememBytes
     Config.params.nceBase + 0x1000 ≤ addr ∧ Config.params.ememHostBase + Config.ememBytes ≤ addr) := by
  have h := last_word
  exact ⟨.inl rfl, by decide, ⟨by omega, by omega⟩, ⟨by omega, by omega, rfl⟩, by omega, by omega⟩
theorem witness_BusyReads :
    let s := { State.reset.start true with turns := [.host (.read (Config.params.nceBase + MmioReg.offset .cptr) 4)] }
    Inv s ∧ s.busy = true ∧ s.turns = .host (.read (Config.params.nceBase + MmioReg.offset .cptr) 4) :: [] :=
  ⟨{ inv_reset_start true with heldReset := fun h => absurd h Bool.false_ne_true }, rfl, rfl⟩

end Sys2Proof.Tests
end

section
/-! The commands that read their V operands as `.u32` (00_scope.md R10) run twice, from two states that differ only in bits
[63:32] of the V registers: their effective addresses and results are the same, so both runs make the same check and then
either fail with the same error, or make the same writes. -/

namespace Sys2Proof.Machine

/-! ## Another V file -/

/-- The state with another V file. -/
def State.withV (s : State) (v' : Vector DWord 16) : State := { s with v := v' }

@[simp] theorem State.withV_mem (s : State) (v' : Vector DWord 16) : (s.withV v').mem = s.mem := rfl

theorem State.withV_retire (s : State) (v' : Vector DWord 16) : (s.withV v').retire = s.retire.withV v' := rfl
theorem State.withV_setV (s : State) (v' : Vector DWord 16) (i : VReg) (x : DWord) :
    (s.withV v').setV i x = (s.setV i x).withV (v'.set i.val x i.isLt) := rfl

/-! ## The same low halves -/

/-- The two V files agree in bits [31:0] of every register. -/
def SameLow (v v' : Vector DWord 16) : Prop := ∀ j : VReg, v'[j].toNat % 2 ^ 32 = v[j].toNat % 2 ^ 32

section
variable {s : State} {v' : Vector DWord 16}

theorem SameLow.u32_eq (h : SameLow s.v v') (i : VReg) : (s.withV v').u32 i = s.u32 i := h i

theorem SameLow.effAddr_eq (h : SameLow s.v v') (ra : VReg) (off : BitVec 18) :
    (s.withV v').effAddr ra off = s.effAddr ra off := by
  simp only [State.effAddr, h.u32_eq]

theorem SameLow.codebookAddr_eq (h : SameLow s.v v') (ra rb : VReg) (sel : Fin 4) :
    (s.withV v').codebookAddr ra rb sel = s.codebookAddr ra rb sel := by
  simp only [State.codebookAddr, h.u32_eq]

end

/-! ## States that agree on written registers -/

/-- The states differ in the V file alone, and not in its registers `ds`. -/
structure AgreeOn (ds : List VReg) (t t' : State) : Prop where
  rest : t.withV t'.v = t'
  regs : ∀ d ∈ ds, t'.v[d] = t.v[d]

theorem agreeOn_withV (s : State) (v' : Vector DWord 16) : AgreeOn [] s (s.withV v') :=
  ⟨rfl, fun _ hd => absurd hd List.not_mem_nil⟩

section
variable {ds : List VReg} {t t' : State}

/-- A write of one value makes the register written agree, and keeps every register that did. -/
theorem AgreeOn.setV (h : AgreeOn ds t t') (i : VReg) (x : DWord) : AgreeOn (ds ++ [i]) (t.setV i x) (t'.setV i x) where
  rest := by rw [← h.rest, State.withV_setV]; rfl
  regs d hd := by
    rw [setV_get, setV_get]
    split
    · rfl
    · next hne => exact h.regs d ((List.mem_append.mp hd).resolve_right fun hi => hne (List.mem_singleton.mp hi))

theorem AgreeOn.setF (h : AgreeOn ds t t') (i : VReg) (x : DWord) : AgreeOn (ds ++ [i]) (t.setF i x) (t'.setF i x) :=
  h.setV i (F64.canon x)

theorem AgreeOn.setF3 (h : AgreeOn [] t t') (rd : VReg) (x : DWord × DWord × DWord) :
    AgreeOn [rd, VReg.plus rd 1, VReg.plus rd 2] (t.setF3 rd x) (t'.setF3 rd x) :=
  ((h.setF _ _).setF _ _).setF _ _

theorem AgreeOn.setF4 (h : AgreeOn [] t t') (rd : VReg) (x : DWord × DWord × DWord × DWord) :
    AgreeOn [rd, VReg.plus rd 1, VReg.plus rd 2, VReg.plus rd 3] (t.setF4 rd x) (t'.setF4 rd x) :=
  (((h.setF _ _).setF _ _).setF _ _).setF _ _

theorem AgreeOn.setMem (h : AgreeOn ds t t') (m : Memory) : AgreeOn ds { t with mem := m } { t' with mem := m } where
  rest := by rw [← h.rest]; rfl
  regs := h.regs

theorem AgreeOn.retire (h : AgreeOn ds t t') : AgreeOn ds t.retire t'.retire where
  rest := by rw [← h.rest, State.withV_retire]; rfl
  regs := h.regs

end

/-! ## Outcomes that cannot be told apart -/

/-- Run from `s` and from `s` with the V file `v'`, a command answered `o` and `o'`: two next states that differ in the V
file alone, and there either not in its registers `ds`, or because neither run wrote any register. -/
def SameAnswer (ds : List VReg) (s : State) (v' : Vector DWord 16) (o o' : Host.Outcome State Fault Refusal) : Prop :=
  ∃ t t', o = .next t ∧ o' = .next t' ∧ t.withV t'.v = t' ∧
    ((∀ d ∈ ds, t'.v[d] = t.v[d]) ∨ (t.v = s.v ∧ t'.v = v'))

section
variable {ds : List VReg} {s t t' : State} {v' : Vector DWord 16}

theorem AgreeOn.sameAnswer (h : AgreeOn ds t t') :
    SameAnswer ds s v' (complete s (.ok t)) (complete (s.withV v') (.ok t')) :=
  ⟨_, _, complete_ok _ _, complete_ok _ _, h.retire.rest, .inl h.retire.regs⟩

theorem raise_sameAnswer (ds : List VReg) (s : State) (v' : Vector DWord 16) (e : NceError) :
    SameAnswer ds s v' (complete s (.error e)) (complete (s.withV v') (.error e)) :=
  ⟨_, _, complete_error _ _, complete_error _ _, rfl, .inr ⟨rfl, rfl⟩⟩

/-- The same check in both runs: where it fails both take its error, where it passes both retire. -/
theorem AgreeOn.sameAnswer_checked (h : AgreeOn ds t t') (c : Except NceError Unit) :
    SameAnswer ds s v' (complete s do c; .ok t) (complete (s.withV v') do c; .ok t') := by
  cases c with
  | error e => exact raise_sameAnswer ds s v' e
  | ok u => exact h.sameAnswer

end

/-! ## The commands -/

theorem exec_sameAnswer_of_sameLow {i : Instr} {s : State} {v' : Vector DWord 16} (hi : readsLowHalves i = true)
    (h : SameLow s.v v') : SameAnswer (dests i) s v' (exec i s) (exec i (s.withV v')) := by
  have hs : AgreeOn [] s (s.withV v') := agreeOn_withV s v'
  cases i with
  | ldw rd ra off =>
    simp only [exec, execLdw, h.effAddr_eq, State.withV_mem]
    exact (hs.setV rd _).sameAnswer_checked _
  | ldf rd ra off =>
    simp only [exec, execLdf, h.effAddr_eq, State.withV_mem]
    exact (hs.setF rd _).sameAnswer_checked _
  | ldb rd ra off =>
    simp only [exec, execLdb, h.effAddr_eq, State.withV_mem]
    exact (hs.setV rd _).sameAnswer_checked _
  | stw rs ra off =>
    simp only [exec, execStw, h.effAddr_eq, h.u32_eq, State.withV_mem]
    exact (hs.setMem _).sameAnswer_checked _
  | cblk rd ra rb sel =>
    simp only [exec, execCblk, h.codebookAddr_eq, State.withV_mem]
    exact (hs.setF rd _).sameAnswer_checked _
  | unorm8 rd ra sel =>
    simp only [exec, execUnorm8, h.u32_eq]
    exact (hs.setF rd _).sameAnswer
  | u16n rd ra rb sel =>
    simp only [exec, execU16n, h.u32_eq]
    exact (hs.setF rd _).sameAnswer
  | unpk111011 rd ra =>
    simp only [exec, execUnpk111011, h.u32_eq]
    exact (hs.setF3 rd _).sameAnswer_checked _
  | unpk8888 rd ra =>
    simp only [exec, execUnpk8888, h.u32_eq]
    exact (hs.setF4 rd _).sameAnswer_checked _
  | unpkrot rd ra =>
    simp only [exec, execUnpkrot, h.u32_eq]
    exact (hs.setF4 rd _).sameAnswer_checked _
  | quatst rd ra =>
    simp only [exec, execQuatst, h.u32_eq]
    exact (hs.setF4 rd _).sameAnswer_checked _
  | nop | halt | li | mov | stf | dequant | dqrange | invlog | logitop | invsig | shdc | decchk | decimg =>
    exact absurd hi Bool.false_ne_true

/-- Settles O45: the two runs make the same check and the same writes (`exec_sameAnswer_of_sameLow`). -/
theorem highHalvesIgnored : Obligations.HighHalvesIgnored := by
  unfold Obligations.HighHalvesIgnored
  intro i s v' hi hlow
  exact exec_sameAnswer_of_sameLow hi hlow

end Sys2Proof.Machine
end

section
/-! What a command can do (41_sequencing.md R150, R153; 60_exceptions.md R303), said once for all 24 of them: it retires
with writes to its destinations and its store region, ends the run, or takes an error. The frame of every command
follows. -/

namespace Sys2Proof.Machine

/-! ## What a retiring command has written -/

/-- The writes of a command that retires: they lie in its destinations, its store region and, for a frame command,
`OUT_COUNT`. -/
structure Wrote (i : Instr) (s t : State) : Prop where
  eq : t = { s with v := t.v, vWritten := t.vWritten, mem := t.mem, outCount := t.outCount }
  regs : SameVBut (dests i) s t
  memWf : t.mem.wf = true
  mem : SameMemBut (storeRegion i s) s t
  outCount : i.isFrame = false → t.outCount = s.outCount

theorem SameVBut.refl (ds : List VReg) (s : State) : SameVBut ds s s := fun _ _ => ⟨rfl, rfl⟩

theorem SameMemBut.refl (r : Nat × Nat) (s : State) : SameMemBut r s s := fun _ _ => rfl

/-- After a write of `V[i]` one more register may differ. -/
theorem SameVBut.setV {ds : List VReg} {s t : State} (h : SameVBut ds s t) (i : VReg) (x : DWord) :
    SameVBut (ds ++ [i]) s (t.setV i x) := by
  intro j hj
  simp only [List.mem_append, List.mem_singleton, not_or] at hj
  rw [setV_get, setV_getWritten, if_neg hj.2, if_neg hj.2]
  exact h j hj.1

section
variable {i : Instr} {s : State}

theorem wrote_self (i : Instr) (hwf : s.mem.wf = true) : Wrote i s s :=
  ⟨rfl, .refl _ s, hwf, .refl _ s, fun _ => rfl⟩

theorem wrote_setV {rd : VReg} (hd : dests i = [rd]) (hwf : s.mem.wf = true) (x : DWord) : Wrote i s (s.setV rd x) :=
  ⟨rfl, hd ▸ (SameVBut.refl [] s).setV rd x, hwf, .refl _ s, fun _ => rfl⟩

theorem wrote_setF {rd : VReg} (hd : dests i = [rd]) (hwf : s.mem.wf = true) (x : DWord) : Wrote i s (s.setF rd x) :=
  wrote_setV hd hwf _

theorem wrote_setF3 {rd : VReg} (hd : dests i = [rd, VReg.plus rd 1, VReg.plus rd 2]) (hwf : s.mem.wf = true)
    (x : DWord × DWord × DWord) : Wrote i s (s.setF3 rd x) :=
  ⟨rfl, hd ▸ (((SameVBut.refl [] s).setV _ _).setV _ _).setV _ _, hwf, .refl _ s, fun _ => rfl⟩

theorem wrote_setF4 {rd : VReg} (hd : dests i = [rd, VReg.plus rd 1, VReg.plus rd 2, VReg.plus rd 3])
    (hwf : s.mem.wf = true) (x : DWord × DWord × DWord × DWord) : Wrote i s (s.setF4 rd x) :=
  ⟨rfl, hd ▸ ((((SameVBut.refl [] s).setV _ _).setV _ _).setV _ _).setV _ _, hwf, .refl _ s, fun _ => rfl⟩

theorem wrote_setWord {ea : Nat} (hr : storeRegion i s = (ea, 4)) (hwf : s.mem.wf = true) (w : Word) :
    Wrote i s { s with mem := s.mem.setWord ea w } :=
  ⟨rfl, .refl _ _, Memory.setWord_wf ea w hwf, hr ▸ fun c hc => Memory.byte_setWord hwf ea w c hc, fun _ => rfl⟩

/-- The record loop of a frame command writes its output region and `OUT_COUNT`. -/
theorem wrote_records {f : Memory → Nat → List DWord} {n : Nat} (hf : ∀ m k, (f m k).length = 14)
    (hi : i.isFrame = true) (hr : storeRegion i s = (s.outBase.toNat, recordBytes * n)) (hwf : s.mem.wf = true)
    (c : Word) : Wrote i s { s with mem := writeRecords f s.outBase.toNat n 0 s.mem, outCount := c } where
  eq := rfl
  regs := .refl _ _
  memWf := writeRecords_wf _ _ _ _ hwf
  mem := hr ▸ fun a ha => byte_writeRecords hf n 0 a hwf (by simp only [recordBytes] at ha; omega)
  outCount h := absurd hi (by rw [h]; exact Bool.false_ne_true)

end

section
variable {i : Instr} {s t : State}

theorem Wrote.sameRest (h : Wrote i s t) : SameRest s t := by
  rw [h.eq]; constructor <;> rfl

theorem Wrote.sameErr (h : Wrote i s t) : SameErr s t := by
  rw [h.eq]; constructor <;> rfl

theorem Wrote.cptr_eq (h : Wrote i s t) : t.cptr = s.cptr := by rw [h.eq]

theorem Wrote.busy_eq (h : Wrote i s t) : t.busy = s.busy := by rw [h.eq]

theorem Wrote.done_eq (h : Wrote i s t) : t.done = s.done := by rw [h.eq]

end

/-! ## How a command ends -/

/-- The states in which command `i`, begun in `s`, can end. -/
inductive Ended (i : Instr) (s : State) : State → Prop
  | retired {s' : State} (w : Wrote i s s') : Ended i s s'.retire
  | halted : Ended i s s.retire.endRun
  | raised (e : NceError) : Ended i s (s.raise e)
  | raisedFrame (e : NceError) (hi : i.isFrame = true) : Ended i s (s.raiseFrame e)

section
variable {i : Instr} {s s' t : State}

theorem Wrote.ended (w : Wrote i s s') (h : complete s (.ok s') = .next t) : Ended i s t := by
  cases h
  exact .retired w

/-- A command that writes once its check has passed. -/
theorem ended_of_checked {c : Except NceError Unit} (w : c = .ok () → Wrote i s s')
    (h : complete s (do c; .ok s') = .next t) : Ended i s t := by
  cases c with
  | ok u => exact (w rfl).ended h
  | error e => cases h; exact .raised e

theorem ended_of_frame {r : Except NceError State} (hi : i.isFrame = true) (w : ∀ s', r = .ok s' → Wrote i s s')
    (h : completeFrame s r = .next t) : Ended i s t := by
  rcases completeFrame_cases h with ⟨s', hr, rfl⟩ | ⟨e, -, rfl⟩
  · exact .retired (w s' hr)
  · exact .raisedFrame e hi

end

/-! ## The store region of a command whose checks pass -/

theorem storeRegion_stw {s : State} {ra : VReg} {off : BitVec 18} (rs : VReg)
    (h : checkWordAccess (s.effAddr ra off) = .ok ()) : storeRegion (.stw rs ra off) s = (s.effAddr ra off, 4) := by
  simp only [storeRegion, h, regionIf]

theorem storeRegion_stf {s : State} {ra : VReg} {off : BitVec 18} (rs : VReg)
    (h : checkWordAccess (s.effAddr ra off) = .ok ()) : storeRegion (.stf rs ra off) s = (s.effAddr ra off, 4) := by
  simp only [storeRegion, h, regionIf]

theorem storeRegion_decchk {s : State} {p : ChunkPlan} (h : validateChunked s = .ok p) :
    storeRegion .decchk s = (s.outBase.toNat, recordBytes * p.vn) := by
  simp only [storeRegion, h]

theorem storeRegion_decimg {s : State} (h : validateImage s = .ok ()) :
    storeRegion .decimg s = (s.outBase.toNat, recordBytes * s.imgCount.toNat) := by
  simp only [storeRegion, h, regionIf]

/-! ## Every command -/

theorem decchk_wrote {s s' : State} (hwf : s.mem.wf = true) (h : (validateChunked s).map (decodeChunked s) = .ok s') :
    Wrote .decchk s s' := by
  cases hp : validateChunked s with
  | error e => rw [hp] at h; cases h
  | ok p =>
    rw [hp] at h
    cases h
    exact wrote_records (fun _ _ => rfl) rfl (storeRegion_decchk hp) hwf _

theorem decimg_wrote {s s' : State} (hwf : s.mem.wf = true)
    (h : ((validateImage s).map fun _ => decodeImage s) = .ok s') :
    Wrote .decimg s s' := by
  cases hp : validateImage s with
  | error e => rw [hp] at h; cases h
  | ok u =>
    rw [hp] at h
    cases h
    exact wrote_records (fun _ _ => rfl) rfl (storeRegion_decimg hp) hwf _

/-- Everything a command can answer. -/
theorem exec_ended {i : Instr} {s t : State} (hwf : s.mem.wf = true) (h : exec i s = .next t) : Ended i s t := by
  cases i with
  | nop => exact (wrote_self _ hwf).ended h
  | halt => cases h; exact .halted
  | li | mov => exact (wrote_setV rfl hwf _).ended h
  | unorm8 | u16n | dequant | dqrange | invlog | logitop | invsig | shdc => exact (wrote_setF rfl hwf _).ended h
  | ldw | ldb => exact ended_of_checked (fun _ => wrote_setV rfl hwf _) h
  | ldf | cblk => exact ended_of_checked (fun _ => wrote_setF rfl hwf _) h
  | unpk111011 => exact ended_of_checked (fun _ => wrote_setF3 rfl hwf _) h
  | unpk8888 | unpkrot | quatst => exact ended_of_checked (fun _ => wrote_setF4 rfl hwf _) h
  | stw rs => exact ended_of_checked (fun hc => wrote_setWord (storeRegion_stw rs hc) hwf _) h
  | stf rs => exact ended_of_checked (fun hc => wrote_setWord (storeRegion_stf rs hc) hwf _) h
  | decchk => exact ended_of_frame rfl (fun _ hr => decchk_wrote hwf hr) h
  | decimg => exact ended_of_frame rfl (fun _ hr => decimg_wrote hwf hr) h

/-! ## The frame -/

theorem SameVBut.weaken {s t : State} (ds : List VReg) (h : SameVBut [] s t) : SameVBut ds s t :=
  fun j _ => h j List.not_mem_nil

theorem SameMem.sameMemBut {s t : State} (r : Nat × Nat) (h : SameMem s t) : SameMemBut r s t := fun a _ => h a

/-- Settles O10: each way a command can end (`exec_ended`) stays inside the frame. -/
theorem commandFrame : Obligations.CommandFrame := by
  unfold Obligations.CommandFrame
  intro i s t hwf h
  cases exec_ended hwf h with
  | retired w => exact ⟨{ w.sameRest with }, w.regs, w.mem, w.outCount⟩
  | halted => exact ⟨by constructor <;> rfl, .refl _ s, .refl _ s, fun _ => rfl⟩
  | raised e =>
    have he := raise_errored s e
    exact ⟨he.rest, he.v.weaken _, he.mem.sameMemBut _, fun _ => rfl⟩
  | raisedFrame e hi =>
    have he := raiseFrame_errored s e
    exact ⟨he.rest, he.v.weaken _, he.mem.sameMemBut _, fun hn => absurd hi (by rw [hn]; exact Bool.false_ne_true)⟩

end Sys2Proof.Machine
end

section
/-! The host's side, one lemma per operation of Machine/HostPort.lean: what a host address names, which register an
offset names, and what a step does when the host's access is an aligned one of the register block. The statements about
the register block follow. -/

namespace Sys2Proof.Machine

/-! ## Host addresses -/

/-- An offset of the register block, from its host address (10_state.md R26). -/
theorem hostTarget_mmio {off : Nat} (h : off < 0x1000) : hostTarget (Config.params.nceBase + off) = .mmio off := by
  unfold hostTarget
  rw [if_pos (by omega), Nat.add_sub_cancel_left]

/-- An engine address of EMEM, from its host address (20_memory.md R60); the two windows are disjoint. -/
theorem hostTarget_emem {a : Nat} (h : a < Config.ememBytes) :
    hostTarget (Config.params.ememHostBase + a) = .emem a := by
  have hd : Config.params.nceBase + 4096 ≤ Config.params.ememHostBase ∨
      Config.params.ememHostBase + Config.ememBytes ≤ Config.params.nceBase := Config.params.windows_disjoint
  unfold hostTarget
  rw [if_neg (by omega), if_pos (by omega), Nat.add_sub_cancel_left]

theorem hostTarget_outside {addr : Nat}
    (hm : addr < Config.params.nceBase ∨ Config.params.nceBase + 0x1000 ≤ addr)
    (he : addr < Config.params.ememHostBase ∨ Config.params.ememHostBase + Config.ememBytes ≤ addr) :
    hostTarget addr = .outside := by
  unfold hostTarget
  rw [if_neg (by omega), if_neg (by omega)]

/-- A host address that names an engine address names one of EMEM. -/
theorem lt_of_hostTarget_emem {addr a : Nat} (h : hostTarget addr = .emem a) : a < Config.ememBytes := by
  unfold hostTarget at h
  split at h
  · cases h
  · split at h
    · next he => cases h; omega
    · cases h

theorem mmioFormOk_iff {off size : Nat} : mmioFormOk off size = true ↔ size = 4 ∧ off % 4 = 0 := by
  simp [mmioFormOk]

theorem ememFormOk_iff {a size : Nat} :
    ememFormOk a size = true ↔ (size = 1 ∨ size = 2 ∨ size = 4) ∧ a % size = 0 := by
  simp [ememFormOk, or_assoc]

/-! ## Registers and offsets -/

/-- The register at an offset has that offset. -/
theorem offset_of_ofOffset {off : Nat} {r : MmioReg} (h : MmioReg.ofOffset off = some r) : r.offset = off := by
  unfold MmioReg.ofOffset at h
  simpa using List.find?_some h

/-- No two registers share an offset, and each is listed. -/
theorem ofOffset_offset (r : MmioReg) : MmioReg.ofOffset r.offset = some r := by
  cases r with
  | min k | max k | planeBase k | planeNpix k | planeCh k | vLo k | vHi k => revert k; decide
  | _ => decide

theorem offset_lt (r : MmioReg) : r.offset < 0x1000 := by
  cases r <;> simp only [MmioReg.offset] <;> omega

theorem offset_mod_four (r : MmioReg) : r.offset % 4 = 0 := by
  cases r <;> simp only [MmioReg.offset] <;> omega

theorem mmioRead_offset (s : State) (r : MmioReg) : mmioRead s r.offset = readReg s r := by
  rw [mmioRead, ofOffset_offset]

theorem mmioWrite_offset (s : State) (r : MmioReg) (w : Word) : mmioWrite s r.offset w = writeReg s w r := by
  rw [mmioWrite, ofOffset_offset]

/-! ## Steps of the host -/

section
variable {s : State} {rest : List Turn}

theorem step_host {op : HostOp} (h : s.turns = .host op :: rest) : step s = hostStep op { s with turns := rest } := by
  rw [step, h]

/-- An aligned 32-bit read of the register block (10_state.md R26). -/
theorem step_mmioRead {off : Nat} (hlt : off < 0x1000) (hal : off % 4 = 0)
    (h : s.turns = .host (.read (Config.params.nceBase + off) 4) :: rest) :
    step s = .next { s with
      turns := rest, busData := mmioRead { s with turns := rest } off
      draws := if s.busy then s.draws + 1 else s.draws } := by
  simp only [step_host h, hostStep, hostRead, hostTarget_mmio hlt, mmioFormOk_iff.mpr ⟨rfl, hal⟩, if_true]

/-- An aligned 32-bit write of the register block (10_state.md R26). -/
theorem step_mmioWrite {off x : Nat} (hlt : off < 0x1000) (hal : off % 4 = 0)
    (h : s.turns = .host (.write (Config.params.nceBase + off) 4 x) :: rest) :
    step s = .next (State.unlessHeld { s with turns := rest }
      (mmioWrite { s with turns := rest } off (BitVec.ofNat 32 x))) := by
  simp only [step_host h, hostStep, hostWrite, hostTarget_mmio hlt, mmioFormOk_iff.mpr ⟨rfl, hal⟩, if_true]

end

theorem unlessHeld_released {s : State} (h : s.resetHeld = false) (t : State) : s.unlessHeld t = t := by
  rw [State.unlessHeld, h]; rfl

/-- The same with RESET released. -/
theorem step_mmioWrite_released {s : State} {rest : List Turn} {off x : Nat} (hr : s.resetHeld = false)
    (hlt : off < 0x1000) (hal : off % 4 = 0)
    (h : s.turns = .host (.write (Config.params.nceBase + off) 4 x) :: rest) :
    step s = .next (mmioWrite { s with turns := rest } off (BitVec.ofNat 32 x)) := by
  rw [step_mmioWrite hlt hal h]
  exact congrArg _ (unlessHeld_released (s := { s with turns := rest }) hr _)

theorem unlessHeld_self (s : State) : s.unlessHeld s = s := by
  unfold State.unlessHeld; split <;> rfl

/-! ## Writes of the register block -/

theorem getLsbD_ofNat_word {i : Nat} (hi : i < 32) (x : Nat) :
    (BitVec.ofNat 32 x).getLsbD i = (x / 2 ^ i % 2 == 1) := by
  rw [BitVec.getLsbD_ofNat, decide_eq_true hi, Bool.true_and, Nat.testBit_eq_decide_div_mod_eq]
  rfl

section
variable {s : State}

theorem writeReg_ctrl (s : State) (w : Word) : writeReg s w .ctrl = writeCtrl s w := rfl

theorem writeReg_status (s : State) (w : Word) : writeReg s w .status = writeStatus s w := rfl

/-- A register other than `CTRL` and `STATUS` ignores a write while busy (10_state.md R46). -/
theorem writeReg_busy (hb : s.busy = true) {r : MmioReg} (hc : r ≠ .ctrl) (hs : r ≠ .status) (w : Word) :
    writeReg s w r = s := by
  rw [writeReg, if_neg hc, if_neg hs, if_pos hb]

theorem writeReg_idle (hb : s.busy = false) {r : MmioReg} (hc : r ≠ .ctrl) (hs : r ≠ .status) (w : Word) :
    writeReg s w r = writeIdle s w r := by
  rw [writeReg, if_neg hc, if_neg hs, hb]; rfl

theorem writeCtrl_busy (hb : s.busy = true) (w : Word) : writeCtrl s w = { s with ie := w.getLsbD 1 } := by
  rw [writeCtrl, hb, Bool.not_true, Bool.and_false]; rfl

/-- A read-only register ignores every write (10_state.md R26). -/
theorem writeReg_ro {r : MmioReg} (hr : r.isRo = true) (s : State) (w : Word) : writeReg s w r = s := by
  have hc : r ≠ .ctrl := by rintro rfl; exact Bool.false_ne_true hr
  have hs : r ≠ .status := by rintro rfl; exact Bool.false_ne_true hr
  cases hb : s.busy with
  | true => exact writeReg_busy hb hc hs w
  | false =>
    rw [writeReg_idle hb hc hs]
    cases r with
    | id | param | errCode | errPc | errInfo | cmdCount | outCount => rfl
    | _ => exact absurd hr Bool.false_ne_true

/-- A write while busy, at any offset: `CTRL.IE` is set, `DONE` and `ERR` are cleared, nothing else is taken. -/
theorem mmioWrite_busy (hb : s.busy = true) (off x : Nat) :
    mmioWrite s off (BitVec.ofNat 32 x) = { s with
      ie := if off = 0x008 then x / 2 % 2 == 1 else s.ie
      done := s.done && !(off = 0x00C && x / 2 % 2 == 1)
      err := s.err && !(off = 0x00C && x / 4 % 2 == 1) } := by
  by_cases hc : off = 0x008
  · subst hc
    rw [show (0x008 : Nat) = MmioReg.offset .ctrl from rfl, mmioWrite_offset, writeReg_ctrl, writeCtrl_busy hb,
      getLsbD_ofNat_word (by omega)]
    simp [MmioReg.offset]
  · by_cases hs : off = 0x00C
    · subst hs
      rw [show (0x00C : Nat) = MmioReg.offset .status from rfl, mmioWrite_offset, writeReg_status, writeStatus,
        getLsbD_ofNat_word (by omega), getLsbD_ofNat_word (by omega)]
      simp [MmioReg.offset]
    · have hsame : mmioWrite s off (BitVec.ofNat 32 x) = s := by
        unfold mmioWrite
        split
        · next r hr =>
          have ho := offset_of_ofOffset hr
          exact writeReg_busy hb (by rintro rfl; exact hc ho.symm) (by rintro rfl; exact hs ho.symm) _
        · rfl
      simp [hsame, hc, hs]

end

/-- Settles O54. -/
theorem busyWritesIgnored : Obligations.BusyWritesIgnored := by
  unfold Obligations.BusyWritesIgnored
  intro s off x rest hb hr hlt hal h
  rw [step_mmioWrite_released hr hlt hal h]
  exact congrArg _ (mmioWrite_busy (s := { s with turns := rest }) hb off x)

/-! ## Constants and reserved offsets -/

theorem readReg_param_toNat (s : State) : (readReg s .param).toNat = Config.params.ememLog2 := by
  have hle := Config.params.ememLog2_le
  rw [readReg, BitVec.toNat_ofNat, Nat.mod_eq_of_lt (by omega)]

/-- An offset that names no register, or a read-only one, ignores every write (10_state.md R26). -/
theorem mmioWrite_ignored {off : Nat}
    (h : MmioReg.ofOffset off = none ∨ ∃ r, MmioReg.ofOffset off = some r ∧ r.isRo = true)
    (s : State) (w : Word) : mmioWrite s off w = s := by
  unfold mmioWrite
  rcases h with h | ⟨r, h, hr⟩
  · rw [h]
  · rw [h]; exact writeReg_ro hr s w

/-- Settles O56. -/
theorem constantsAndReserved : Obligations.ConstantsAndReserved := by
  unfold Obligations.ConstantsAndReserved
  refine ⟨fun s => ⟨rfl, readReg_param_toNat s⟩, rfl, Config.params.ememLog2_ge, Config.params.ememLog2_le,
    fun s off x rest hlt hal hign h => ?_, fun s off rest hlt hal hnone h => ⟨_, step_mmioRead hlt hal h, ?_⟩⟩
  · rw [step_mmioWrite hlt hal h, mmioWrite_ignored hign, unlessHeld_self]
  · simp only [mmioRead, hnone]

/-! ## Accesses that stop -/

/-- Settles O59: a read and a write of the host look at the address, its form and `BUSY` in the same order. -/
theorem hostStops : Obligations.HostStops := by
  unfold Obligations.HostStops
  intro s addr size x rest op hop h
  rw [step_host h]
  refine ⟨fun off hlt haddr hform => ?_, fun a ha haddr hform => ?_, fun a ha haddr hsize hal hb => ?_,
    fun hm he => ?_⟩
  · have hf : mmioFormOk off size = false := by rw [← Bool.not_eq_true, mmioFormOk_iff]; exact hform
    rcases hop with rfl | rfl <;> simp [hostStep, hostRead, hostWrite, haddr, hostTarget_mmio hlt, hf]
  · have hf : ememFormOk a size = false := by rw [← Bool.not_eq_true, ememFormOk_iff]; exact hform
    rcases hop with rfl | rfl <;> simp [hostStep, hostRead, hostWrite, haddr, hostTarget_emem ha, hf]
  · have hf := ememFormOk_iff.mpr ⟨hsize, hal⟩
    rcases hop with rfl | rfl <;> simp [hostStep, hostRead, hostWrite, haddr, hostTarget_emem ha, hf, hb]
  · rcases hop with rfl | rfl <;> simp only [hostStep, hostRead, hostWrite, hostTarget_outside hm he]

/-! ## Reads while busy -/

theorem clearLow2_toNat (x : Word) : (clearLow2 x).toNat = x.toNat / 4 * 4 := by
  have hdiv : (x.toNat &&& 0xFFFFFFFC) / 2 ^ 2 = x.toNat / 2 ^ 2 := by
    have hlt := x.isLt
    rw [Nat.and_div_two_pow, show 0xFFFFFFFC / 2 ^ 2 = 2 ^ 30 - 1 from rfl, Nat.and_two_pow_sub_one_eq_mod,
      Nat.mod_eq_of_lt (by omega)]
  have hmod : (x.toNat &&& 0xFFFFFFFC) % 2 ^ 2 = 0 := by
    rw [Nat.and_mod_two_pow, show 0xFFFFFFFC % 2 ^ 2 = 0 from rfl, Nat.and_zero]
  rw [clearLow2, BitVec.toNat_and, show (0xFFFFFFFC#32).toNat = 0xFFFFFFFC from rfl]
  omega

theorem clearLow2_mod_four (x : Word) : (clearLow2 x).toNat % 4 = 0 := by
  rw [clearLow2_toNat]; omega

/-- A read that may fall before or after the command in progress (10_state.md R35, R47). -/
theorem before_or_after {s u : State} (hu : engineStep s = .next u) (f : State → Word) (b : Bool) :
    (if b then f (afterCurrent s) else f s) = f s ∨ (if b then f (afterCurrent s) else f s) = f u := by
  have ha : afterCurrent s = u := by rw [afterCurrent, hu]
  cases b with
  | false => exact .inl rfl
  | true => exact .inr (by rw [ha]; rfl)

/-- Settles O60. -/
theorem busyReads : Obligations.BusyReads := by
  unfold Obligations.BusyReads
  intro s r rest hinv hb h
  obtain ⟨hdone, herr, hcode⟩ := hinv.busyClean hb
  obtain ⟨hpc, hinfo⟩ := hinv.noCodeNoInfo hcode
  refine ⟨_, step_mmioRead (offset_lt r) (offset_mod_four r) h, rfl, ?_⟩
  rw [mmioRead_offset]
  refine ⟨?_, fun u hu => ⟨?_, ?_⟩, ?_, ?_, ?_, ?_⟩
  · rintro rfl; simp only [readReg, hb, if_true]; exact clearLow2_mod_four _
  · rintro rfl; exact before_or_after hu State.cmdCount _
  · rintro rfl; exact before_or_after hu State.outCount _
  · rintro rfl; rfl
  · rintro rfl; rfl
  · rintro (rfl | rfl | rfl)
    · simp only [readReg, hcode]; rfl
    · exact hpc
    · exact hinfo
  · refine ⟨?_, ?_, ?_, ?_, ?_, fun a => ⟨?_, ?_⟩, ?_, ?_, ?_, ?_, fun k => ⟨?_, ?_, ?_⟩⟩
    all_goals rintro rfl; rfl

end Sys2Proof.Machine
end

section
/-! Host writes of the registers while idle (10_state.md R31 to R45): what a write sets, field by field, and what every
read of the block returns after it. -/

namespace Sys2Proof.Machine

/-! ## The halves of a V register -/

theorem lowHalf_joinHalves (hi lo : Word) : lowHalf (joinHalves hi lo) = lo := by
  have h1 := hi.isLt
  have h2 := lo.isLt
  apply BitVec.eq_of_toNat_eq
  simp only [lowHalf, joinHalves, BitVec.toNat_ofNat]
  omega

theorem highHalf_joinHalves (hi lo : Word) : highHalf (joinHalves hi lo) = hi := by
  have h1 := hi.isLt
  have h2 := lo.isLt
  apply BitVec.eq_of_toNat_eq
  simp only [highHalf, joinHalves, BitVec.toNat_ofNat]
  omega

theorem clearLow2_ofNat (x : Nat) : clearLow2 (BitVec.ofNat 32 x) = BitVec.ofNat 32 (x / 4 * 4) := by
  apply BitVec.eq_of_toNat_eq
  rw [clearLow2_toNat, BitVec.toNat_ofNat, BitVec.toNat_ofNat]
  omega

theorem otherHalf_written {s : State} {i : VReg} (h : s.vWritten[i] = true) (half : DWord → Word) :
    s.otherHalf i half = half s.v[i] := by rw [State.otherHalf, if_pos h]

theorem otherHalf_unwritten {s : State} {i : VReg} (h : s.vWritten[i] = false) (half : DWord → Word) :
    s.otherHalf i half = Config.freeWord s.draws := by rw [State.otherHalf, h]; rfl

theorem halfDraws_unwritten {s : State} {i : VReg} (h : s.vWritten[i] = false) : s.halfDraws i = s.draws + 1 := by
  rw [State.halfDraws, h]; rfl

/-! ## writeIdle, field by field -/

section
variable (s : State) (w : Word) (r : MmioReg)

theorem writeIdle_ie : (writeIdle s w r).ie = s.ie := by cases r <;> rfl
theorem writeIdle_busy : (writeIdle s w r).busy = s.busy := by cases r <;> rfl
theorem writeIdle_done : (writeIdle s w r).done = s.done := by cases r <;> rfl
theorem writeIdle_err : (writeIdle s w r).err = s.err := by cases r <;> rfl
theorem writeIdle_errCode : (writeIdle s w r).errCode = s.errCode := by cases r <;> rfl
theorem writeIdle_errPc : (writeIdle s w r).errPc = s.errPc := by cases r <;> rfl
theorem writeIdle_errInfo : (writeIdle s w r).errInfo = s.errInfo := by cases r <;> rfl
theorem writeIdle_cmdCount : (writeIdle s w r).cmdCount = s.cmdCount := by cases r <;> rfl
theorem writeIdle_outCount : (writeIdle s w r).outCount = s.outCount := by cases r <;> rfl
theorem writeIdle_mem : (writeIdle s w r).mem = s.mem := by cases r <;> rfl
theorem writeIdle_resetHeld : (writeIdle s w r).resetHeld = s.resetHeld := by cases r <;> rfl
theorem writeIdle_turns : (writeIdle s w r).turns = s.turns := by cases r <;> rfl

theorem writeIdle_cptr : (writeIdle s w r).cptr = if r = .cptr then clearLow2 w else s.cptr := by cases r <;> rfl
theorem writeIdle_inBase : (writeIdle s w r).inBase = if r = .inBase then w else s.inBase := by cases r <;> rfl
theorem writeIdle_inLen : (writeIdle s w r).inLen = if r = .inLen then w else s.inLen := by cases r <;> rfl
theorem writeIdle_descBase : (writeIdle s w r).descBase = if r = .descBase then w else s.descBase := by cases r <;> rfl
theorem writeIdle_outBase : (writeIdle s w r).outBase = if r = .outBase then w else s.outBase := by cases r <;> rfl
theorem writeIdle_imgCount : (writeIdle s w r).imgCount = if r = .imgCount then w else s.imgCount := by cases r <;> rfl
theorem writeIdle_scbBase : (writeIdle s w r).scbBase = if r = .scbBase then w else s.scbBase := by cases r <;> rfl
theorem writeIdle_scbLen : (writeIdle s w r).scbLen = if r = .scbLen then w else s.scbLen := by cases r <;> rfl
theorem writeIdle_shcbBase : (writeIdle s w r).shcbBase = if r = .shcbBase then w else s.shcbBase := by cases r <;> rfl
theorem writeIdle_shcbLen : (writeIdle s w r).shcbLen = if r = .shcbLen then w else s.shcbLen := by cases r <;> rfl

theorem writeIdle_mins (a : Fin 3) : (writeIdle s w r).mins[a] = if r = .min a then w else s.mins[a] := by
  cases r with
  | min b => simp [writeIdle, Vector.getElem_set, Fin.ext_iff]
  | _ => rfl

theorem writeIdle_maxs (a : Fin 3) : (writeIdle s w r).maxs[a] = if r = .max a then w else s.maxs[a] := by
  cases r with
  | max b => simp [writeIdle, Vector.getElem_set, Fin.ext_iff]
  | _ => rfl

/-- A plane after a write of plane `j`. -/
theorem setPlane_get (j k : Fin 5) (p : Plane) : (s.setPlane j p).planes[k] = if k = j then p else s.planes[k] := by
  simp only [State.setPlane, Fin.getElem_fin, Vector.getElem_set, Fin.ext_iff, eq_comm]

theorem writeIdle_planes (k : Fin 5) : (writeIdle s w r).planes[k] =
    { base := if r = .planeBase k then w else s.planes[k].base
      npix := if r = .planeNpix k then w else s.planes[k].npix
      ch := if r = .planeCh k then w else s.planes[k].ch } := by
  cases r with
  | planeBase j | planeNpix j | planeCh j =>
    rw [writeIdle, setPlane_get]
    by_cases h : k = j
    · subst h; simp
    · simp [h, Ne.symm h]
  | _ => rfl

/-- A V register after a host write: one half written, the other its old value or drawn (10_state.md R45). -/
theorem writeIdle_v (i : VReg) : (writeIdle s w r).v[i] =
    if r = .vLo i then joinHalves (s.otherHalf i highHalf) w
    else if r = .vHi i then joinHalves w (s.otherHalf i lowHalf) else s.v[i] := by
  cases r with
  | vLo j | vHi j =>
    show (s.setV j _).v[i] = _
    rw [setV_get]
    by_cases h : i = j
    · subst h; simp
    · simp [h, Ne.symm h]
  | _ => rfl

end

/-! ## Reads after a write -/

section
variable {s : State} {r : MmioReg}

theorem readReg_cptr_idle (hb : s.busy = false) : readReg s .cptr = s.cptr := by rw [readReg, hb]; rfl

theorem readReg_vLo_idle (hb : s.busy = false) (i : VReg) : readReg s (.vLo i) = lowHalf s.v[i] := by
  rw [readReg, hb]; rfl

theorem readReg_vHi_idle (hb : s.busy = false) (i : VReg) : readReg s (.vHi i) = highHalf s.v[i] := by
  rw [readReg, hb]; rfl

/-- While idle no read depends on the schedule, the bus or the draws. -/
theorem readReg_idle_congr (hb : s.busy = false) (r : MmioReg) (rest : List Turn) (b : Word) (d : Nat) :
    readReg { s with turns := rest, busData := b, draws := d } r = readReg s r := by
  cases r with
  | cptr | cmdCount | outCount | vLo i | vHi i => simp only [readReg, hb, Bool.false_and, Bool.false_eq_true, if_false]
  | _ => rfl

/-- The register written reads back. -/
theorem readReg_writeIdle_same (hb : s.busy = false) (hr : r.isRw = true) (w : Word) :
    readReg (writeIdle s w r) r = if r = .cptr then clearLow2 w else w := by
  have hb' : (writeIdle s w r).busy = false := (writeIdle_busy s w r).trans hb
  cases r with
  | id | param | ctrl | status | errCode | errPc | errInfo | cmdCount | outCount => exact absurd hr Bool.false_ne_true
  | cptr => exact readReg_cptr_idle hb'
  | inBase | inLen | descBase | outBase | imgCount | scbBase | scbLen | shcbBase | shcbLen => rfl
  | min a => simp only [readReg, writeIdle_mins, reduceCtorEq, if_true, if_false]
  | max a => simp only [readReg, writeIdle_maxs, reduceCtorEq, if_true, if_false]
  | planeBase k | planeNpix k | planeCh k => simp only [readReg, writeIdle_planes, reduceCtorEq, if_true, if_false]
  | vLo i => simp only [readReg_vLo_idle hb', writeIdle_v, lowHalf_joinHalves, reduceCtorEq, if_true, if_false]
  | vHi i => simp only [readReg_vHi_idle hb', writeIdle_v, highHalf_joinHalves, reduceCtorEq, if_true, if_false]

/-- Every other register reads as before; of a V register this needs that it has been written. -/
theorem readReg_writeIdle_ne (hb : s.busy = false)
    (hw : ∀ i : VReg, r = .vLo i ∨ r = .vHi i → s.vWritten[i] = true)
    {r' : MmioReg} (hne : r' ≠ r) (w : Word) : readReg (writeIdle s w r) r' = readReg s r' := by
  have hb' : (writeIdle s w r).busy = false := (writeIdle_busy s w r).trans hb
  have hne' : r ≠ r' := hne.symm
  cases r' with
  | id | param => rfl
  | ctrl => simp only [readReg, State.ctrlWord, writeIdle_ie]
  | status => simp only [readReg, State.statusWord, writeIdle_busy, writeIdle_done, writeIdle_err]
  | errCode => simp only [readReg, writeIdle_errCode]
  | errPc => simp only [readReg, writeIdle_errPc]
  | errInfo => simp only [readReg, writeIdle_errInfo]
  | cmdCount => simp [readReg, hb, hb', writeIdle_cmdCount]
  | outCount => simp [readReg, hb, hb', writeIdle_outCount]
  | cptr => rw [readReg_cptr_idle hb', readReg_cptr_idle hb, writeIdle_cptr, if_neg hne']
  | inBase => simp only [readReg, writeIdle_inBase, if_neg hne']
  | inLen => simp only [readReg, writeIdle_inLen, if_neg hne']
  | descBase => simp only [readReg, writeIdle_descBase, if_neg hne']
  | outBase => simp only [readReg, writeIdle_outBase, if_neg hne']
  | imgCount => simp only [readReg, writeIdle_imgCount, if_neg hne']
  | min a => simp only [readReg, writeIdle_mins, if_neg hne']
  | max a => simp only [readReg, writeIdle_maxs, if_neg hne']
  | scbBase => simp only [readReg, writeIdle_scbBase, if_neg hne']
  | scbLen => simp only [readReg, writeIdle_scbLen, if_neg hne']
  | shcbBase => simp only [readReg, writeIdle_shcbBase, if_neg hne']
  | shcbLen => simp only [readReg, writeIdle_shcbLen, if_neg hne']
  | planeBase k | planeNpix k | planeCh k => simp only [readReg, writeIdle_planes, if_neg hne']
  | vLo i =>
    rw [readReg_vLo_idle hb', readReg_vLo_idle hb, writeIdle_v, if_neg hne']
    split
    · next h => rw [lowHalf_joinHalves, otherHalf_written (hw i (.inr h))]
    · rfl
  | vHi i =>
    rw [readReg_vHi_idle hb', readReg_vHi_idle hb, writeIdle_v, if_neg hne']
    split
    · next h => rw [highHalf_joinHalves, otherHalf_written (hw i (.inl h))]
    · rfl

end

/-! ## The step of an idle write -/

/-- A host write of a register that an idle engine takes (10_state.md R26, R46). -/
theorem step_writeIdle {s : State} {r : MmioReg} {x : Nat} {rest : List Turn} (hb : s.busy = false)
    (hr : s.resetHeld = false) (hrw : r.isRw = true)
    (h : s.turns = .host (.write (Config.params.nceBase + r.offset) 4 x) :: rest) :
    step s = .next (writeIdle { s with turns := rest } (BitVec.ofNat 32 x) r) := by
  have hc : r ≠ .ctrl := by rintro rfl; exact Bool.false_ne_true hrw
  have hs : r ≠ .status := by rintro rfl; exact Bool.false_ne_true hrw
  rw [step_mmioWrite_released hr (offset_lt r) (offset_mod_four r) h, mmioWrite_offset]
  exact congrArg _ (writeReg_idle (s := { s with turns := rest }) hb hc hs _)

/-- An idle write, by what the host can read after it. -/
theorem step_writeIdle_reads {s : State} {r : MmioReg} {x : Nat} {rest : List Turn} (hb : s.busy = false)
    (hr : s.resetHeld = false) (hrw : r.isRw = true)
    (hw : ∀ i : VReg, r = .vLo i ∨ r = .vHi i → s.vWritten[i] = true)
    (h : s.turns = .host (.write (Config.params.nceBase + r.offset) 4 x) :: rest) :
    ∃ t, step s = .next t ∧ t.turns = rest ∧ t.mem = s.mem ∧ t.busy = false ∧
      readReg t r = (if r = .cptr then BitVec.ofNat 32 (x / 4 * 4) else BitVec.ofNat 32 x) ∧
      ∀ r', r' ≠ r → readReg t r' = readReg s r' := by
  refine ⟨_, step_writeIdle hb hr hrw h, writeIdle_turns _ _ r, writeIdle_mem _ _ r,
    (writeIdle_busy _ _ r).trans hb, ?_, fun r' hne => ?_⟩
  · rw [readReg_writeIdle_same (s := { s with turns := rest }) hb hrw, clearLow2_ofNat]
  · rw [readReg_writeIdle_ne (s := { s with turns := rest }) hb hw hne]
    exact readReg_idle_congr hb r' rest s.busData s.draws

/-- A read of a register while idle puts it on the bus and changes no register. -/
theorem step_readIdle {s : State} {r : MmioReg} {rest : List Turn} (hb : s.busy = false)
    (h : s.turns = .host (.read (Config.params.nceBase + r.offset) 4) :: rest) :
    ∃ t, step s = .next t ∧ t.turns = rest ∧ t.mem = s.mem ∧ t.busy = false ∧ t.busData = readReg s r ∧
      ∀ r', readReg t r' = readReg s r' := by
  refine ⟨_, step_mmioRead (offset_lt r) (offset_mod_four r) h, rfl, rfl, hb, ?_, fun r' =>
    readReg_idle_congr hb r' _ _ _⟩
  rw [mmioRead_offset]
  exact readReg_idle_congr hb r rest s.busData s.draws

/-- A half write of a V register that nothing has written: the other half is drawn. -/
theorem writeIdle_half_unwritten {s : State} {i : VReg} (hu : s.vWritten[i] = false) (w : Word) :
    writeIdle s w (.vLo i) = { s.setV i (joinHalves (Config.freeWord s.draws) w) with draws := s.draws + 1 } ∧
    writeIdle s w (.vHi i) = { s.setV i (joinHalves w (Config.freeWord s.draws)) with draws := s.draws + 1 } := by
  simp only [writeIdle, otherHalf_unwritten hu, halfDraws_unwritten hu, and_self]

/-- What a half write that drew the other half leaves: the state `t` with the halves `hi` and `lo` in `V[i]`. -/
theorem drawnHalf_state {s t : State} {i : VReg} {rest : List Turn} (hi lo : Word) (hb : s.busy = false)
    (ht : t = { State.setV { s with turns := rest } i (joinHalves hi lo) with draws := s.draws + 1 }) :
    readReg t (.vLo i) = lo ∧ readReg t (.vHi i) = hi ∧ t.draws = s.draws + 1 ∧ t.vWritten[i] = true ∧
      SameVBut [i] s t ∧ t = { s with v := t.v, vWritten := t.vWritten, draws := t.draws, turns := rest } := by
  have hbt : t.busy = false := by rw [ht]; exact hb
  have hv : t.v[i] = joinHalves hi lo := by rw [ht]; exact (setV_get _ i i _).trans (if_pos rfl)
  have hw : t.vWritten[i] = true := by rw [ht]; exact (setV_getWritten _ i i (joinHalves hi lo)).trans (if_pos rfl)
  refine ⟨?_, ?_, by rw [ht], hw, ?_, by rw [ht]; rfl⟩
  · rw [readReg_vLo_idle hbt, hv, lowHalf_joinHalves]
  · rw [readReg_vHi_idle hbt, hv, highHalf_joinHalves]
  · rw [ht]; exact SameVBut.setV (SameVBut.refl [] _) i _

/-- Settles O55: the write and the read one after the other, and the draw of a half. -/
theorem writtenRegisterReadsBack : Obligations.WrittenRegisterReadsBack := by
  unfold Obligations.WrittenRegisterReadsBack
  refine ⟨fun s r x rest hb hr hrw hw h => ?_, fun s i x rest r other hb hr hu hro h => ?_⟩
  · obtain ⟨t, hst, htt, htm, htb, hsame, hother⟩ := step_writeIdle_reads hb hr hrw hw h
    obtain ⟨u, htu, hut, hum, hub, hbus, hreads⟩ := step_readIdle htb htt
    exact ⟨t, u, hst, htu, hut, hum.trans htm, hub, hbus.trans hsame,
      fun r' hne => (hreads r').trans (hother r' hne)⟩
  · obtain ⟨hlo, hhi⟩ := writeIdle_half_unwritten (s := { s with turns := rest }) hu (BitVec.ofNat 32 x)
    rcases hro with ⟨rfl, rfl⟩ | ⟨rfl, rfl⟩
    · obtain ⟨hl, hh, hrest⟩ := drawnHalf_state _ _ hb hlo
      exact ⟨_, step_writeIdle hb hr rfl h, hl, hh, hrest⟩
    · obtain ⟨hl, hh, hrest⟩ := drawnHalf_state _ _ hb hhi
      exact ⟨_, step_writeIdle hb hr rfl h, hh, hl, hrest⟩

end Sys2Proof.Machine
end

section
/-! The invariant of the machine's states (10_state.md, 60_exceptions.md, 70_reset_and_hazards.md R340): every way a step
can end keeps it. EMEM stays inside its size because no store region leaves EMEM. -/

namespace Sys2Proof.Machine

/-! ## The listed addresses -/

theorem Memory.byte_of_not_listed {a : Nat} : ∀ {m : Memory}, (∀ c ∈ m, c.1 ≠ a) → m.byte a = 0#8
  | [], _ => rfl
  | (x, b) :: t, h => by
    have ht : Memory.byte t a = 0#8 := Memory.byte_of_not_listed fun c hc => h c (List.mem_cons_of_mem _ hc)
    rw [Memory.byte, if_neg (h (x, b) List.mem_cons_self).symm, ht]
    split <;> rfl

theorem Memory.byte_of_listed {c : Host.Cell} : ∀ {m : Memory} {lo : Nat}, Memory.wfFrom lo m = true → c ∈ m →
    lo ≤ c.1 ∧ m.byte c.1 ≠ 0#8
  | (x, b) :: t, lo, h, hc => by
    simp only [Memory.wfFrom, Bool.and_eq_true, decide_eq_true_eq] at h
    obtain ⟨⟨hlo, hb⟩, ht⟩ := h
    rcases List.mem_cons.mp hc with rfl | hc
    · exact ⟨hlo, by rw [Memory.byte, if_neg (Nat.lt_irrefl x), if_pos rfl]; exact hb⟩
    · obtain ⟨hx, hne⟩ := Memory.byte_of_listed ht hc
      exact ⟨by omega, by rw [Memory.byte, if_neg (by omega), if_neg (by omega)]; exact hne⟩

/-- In canonical form no byte is listed from `n` on exactly when every byte from `n` on reads 0. -/
theorem Memory.listed_lt_iff {m : Memory} (h : m.wf = true) (n : Nat) :
    (∀ c ∈ m, c.1 < n) ↔ ∀ a, n ≤ a → m.byte a = 0#8 := by
  constructor
  · intro hin a ha
    exact Memory.byte_of_not_listed fun c hc he => by have := hin c hc; omega
  · intro hz c hc
    by_contra hge
    exact (Memory.byte_of_listed h hc).2 (hz c.1 (by omega))

/-- A change inside EMEM lists no byte outside it. -/
theorem memIn_of_sameMemBut {s t : State} {r : Nat × Nat} (h : Inv s) (hwf : t.mem.wf = true) (hm : SameMemBut r s t)
    (hr : r.1 + r.2 ≤ Config.ememBytes) : ∀ c ∈ t.mem, c.1 < Config.ememBytes := by
  rw [Memory.listed_lt_iff hwf]
  intro a ha
  rw [hm a (.inr (hr.trans ha))]
  exact (Memory.listed_lt_iff h.memWf _).mp h.memIn a ha

/-! ## Store regions lie in EMEM -/

theorem bind_eq_ok_iff {α β : Type} {x : Except NceError α} {f : α → Except NceError β} {b : β} :
    (x >>= f) = .ok b ↔ ∃ a, x = .ok a ∧ f a = .ok b := by
  cases x with
  | error e => exact ⟨fun h => (nomatch h), fun ⟨_, h, _⟩ => (nomatch h)⟩
  | ok a => exact ⟨fun h => ⟨a, rfl, h⟩, fun ⟨a', ha, h⟩ => by cases ha; exact h⟩

theorem regionIf_le {c : Except NceError Unit} {r : Nat × Nat} (h : c = .ok () → r.1 + r.2 ≤ Config.ememBytes) :
    (regionIf c r).1 + (regionIf c r).2 ≤ Config.ememBytes := by
  cases c with
  | ok u => exact h rfl
  | error e => exact Nat.zero_le _

/-- The output of a frame that passes the checks of `DECCHK` lies in EMEM (47_frame_chunked.md R233). -/
theorem output_in_emem_of_validateChunked {s : State} {p : ChunkPlan} (h : validateChunked s = .ok p) :
    s.outBase.toNat + recordBytes * p.vn ≤ Config.ememBytes := by
  unfold validateChunked at h
  simp only [bind_eq_ok_iff] at h
  obtain ⟨nelem, -, els, -, sc, -, offs, -, h⟩ := h
  split at h
  · cases h
  · obtain ⟨_, hout, hp⟩ := bind_eq_ok_iff.mp h
    cases hp
    dsimp only [checkChunkOutput] at hout
    split at hout
    · cases hout
    · next hin => exact (inEmem_iff _ _).mp (not_not.mp hin)

/-- The output of `DECIMG` lies in EMEM once its checks pass (48_frame_image.md R262). -/
theorem output_in_emem_of_validateImage {s : State} (h : validateImage s = .ok ()) :
    s.outBase.toNat + recordBytes * s.imgCount.toNat ≤ Config.ememBytes := by
  unfold validateImage at h
  obtain ⟨_, -, h⟩ := bind_eq_ok_iff.mp h
  dsimp only [checkRegions] at h
  split at h
  · cases h
  · next hin =>
    have hout := List.all_eq_true.mp (not_not.mp hin) _ (List.mem_append_right _ List.mem_cons_self)
    exact (inEmem_iff _ _).mp hout

theorem storeRegion_le (i : Instr) (s : State) : (storeRegion i s).1 + (storeRegion i s).2 ≤ Config.ememBytes := by
  cases i with
  | stw rs ra off | stf rs ra off => exact regionIf_le fun h => ((checkWordAccess_eq_ok_iff _).mp h).2
  | decchk =>
    cases hp : validateChunked s with
    | ok p => rw [storeRegion_decchk hp]; exact output_in_emem_of_validateChunked hp
    | error e => simp only [storeRegion, hp]; exact Nat.zero_le _
  | decimg => exact regionIf_le output_in_emem_of_validateImage
  | _ => exact Nat.zero_le _

theorem inFlight_le (s : State) : (inFlight s).1 + (inFlight s).2 ≤ Config.ememBytes := by
  unfold inFlight
  split
  · split
    · exact storeRegion_le _ _
    · exact Nat.zero_le _
  · exact Nat.zero_le _

/-! ## The moves of the sequencer -/

theorem NceError.code_ne_zero (e : NceError) : e.code ≠ 0#8 := by cases e <;> simp [NceError.code]

theorem NceError.code_le (e : NceError) : e.code.toNat ≤ 9 := by cases e <;> simp [NceError.code]

section
variable {i : Instr} {s t : State}

/-- A busy engine is not held in reset. -/
theorem Inv.released (h : Inv s) (hb : s.busy = true) : s.resetHeld = false := by
  by_contra hr
  have hbusy := (h.heldReset (by simpa using hr)).status.1
  exact Bool.false_ne_true (hbusy.symm.trans hb)

theorem inv_raise (h : Inv s) (hb : s.busy = true) (e : NceError) : Inv (s.raise e) where
  memWf := h.memWf
  memIn := h.memIn
  cptrAligned := h.cptrAligned
  busyClean hf := absurd hf Bool.false_ne_true
  doneNoErr hd := absurd ((h.busyClean hb).1.symm.trans hd) Bool.false_ne_true
  errHasCode _ := e.code_ne_zero
  noCodeNoInfo h0 := absurd h0 e.code_ne_zero
  codeRange := e.code_le
  errPcAligned := h.cptrAligned
  heldReset hr := absurd ((h.released hb).symm.trans hr) Bool.false_ne_true

theorem inv_raiseFrame (h : Inv s) (hb : s.busy = true) (e : NceError) : Inv (s.raiseFrame e) :=
  { inv_raise h hb e with
    heldReset := fun hr => absurd ((h.released hb).symm.trans hr) Bool.false_ne_true }

theorem next_cptr_aligned {x : Word} (h : x.toNat % 4 = 0) : (x + 4#32).toNat % 4 = 0 := by
  rw [BitVec.toNat_add]
  simp only [BitVec.toNat_ofNat]
  omega

theorem inv_retire (h : Inv s) (hb : s.busy = true) (w : Wrote i s t) : Inv t.retire := by
  obtain ⟨hdone, herr, hcode⟩ := h.busyClean hb
  have herrs := w.sameErr
  exact {
    memWf := w.memWf
    memIn := memIn_of_sameMemBut h w.memWf w.mem (storeRegion_le i s)
    cptrAligned := by rw [State.retire_cptr, w.cptr_eq]; exact next_cptr_aligned h.cptrAligned
    busyClean := fun _ => ⟨w.done_eq.trans hdone, herrs.err.trans herr, herrs.errCode.trans hcode⟩
    doneNoErr := fun _ => ⟨herrs.err.trans herr, herrs.errCode.trans hcode⟩
    errHasCode := fun he => absurd ((herrs.err.trans herr).symm.trans he) Bool.false_ne_true
    noCodeNoInfo := fun _ => by
      obtain ⟨hpc, hinfo⟩ := h.noCodeNoInfo hcode
      exact ⟨herrs.errPc.trans hpc, herrs.errInfo.trans hinfo⟩
    codeRange := by rw [State.retire_errCode, herrs.errCode]; exact h.codeRange
    errPcAligned := by rw [State.retire_errPc, herrs.errPc]; exact h.errPcAligned
    heldReset := fun hr =>
      absurd ((w.sameRest.resetHeld.trans (h.released hb)).symm.trans hr) Bool.false_ne_true }

theorem inv_endRun (h : Inv s) (hb : s.busy = true) : Inv s.endRun :=
  { h with
    busyClean := fun hf => absurd hf Bool.false_ne_true
    doneNoErr := fun _ => (h.busyClean hb).2
    heldReset := fun hr => absurd ((h.released hb).symm.trans hr) Bool.false_ne_true }

/-- Every command keeps the invariant. -/
theorem inv_exec (h : Inv s) (hb : s.busy = true) (he : exec i s = .next t) : Inv t := by
  cases exec_ended h.memWf he with
  | retired w => exact inv_retire h hb w
  | halted => exact inv_endRun (inv_retire h hb (wrote_self .halt h.memWf)) hb
  | raised e => exact inv_raise h hb e
  | raisedFrame e => exact inv_raiseFrame h hb e

/-- Everything a move of the sequencer can do (41_sequencing.md R150; 60_exceptions.md R317). -/
theorem engineStep_cases (h : engineStep s = .next t) :
    (s.busy = false ∧ t = s) ∨ (s.busy = true ∧ ∃ e, fetchInstr s = .error e ∧ t = s.raise e) ∨
      (s.busy = true ∧ ∃ i, fetchInstr s = .ok i ∧ exec i s = .next t) := by
  unfold engineStep at h
  split at h
  · next hb =>
    split at h
    · next i hi => exact .inr (.inr ⟨hb, i, hi, h⟩)
    · next e he => exact .inr (.inl ⟨hb, e, he, by cases h; rfl⟩)
  · next hb => exact .inl ⟨Bool.eq_false_iff.mpr hb, by cases h; rfl⟩

theorem inv_engineStep (h : Inv s) (hs : engineStep s = .next t) : Inv t := by
  rcases engineStep_cases hs with ⟨-, rfl⟩ | ⟨hb, e, -, rfl⟩ | ⟨hb, i, -, he⟩
  · exact h
  · exact inv_raise h hb e
  · exact inv_exec h hb he

end

/-! ## The moves of the host -/

section
variable {s t : State}

/-- The model's own fields are no part of the invariant. -/
theorem inv_modelFields (h : Inv s) (rest : List Turn) (b : Word) (d : Nat) :
    Inv { s with turns := rest, busData := b, draws := d } :=
  { h with heldReset := fun hr => { h.heldReset hr with } }

theorem inv_writeCtrl (h : Inv s) (hr : s.resetHeld = false) (w : Word) : Inv (writeCtrl s w) := by
  have hheld : s.resetHeld ≠ true := by rw [hr]; exact Bool.false_ne_true
  unfold writeCtrl
  split
  · exact {
      memWf := h.memWf
      memIn := h.memIn
      cptrAligned := h.cptrAligned
      busyClean := fun _ => ⟨rfl, rfl, rfl⟩
      doneNoErr := fun _ => ⟨rfl, rfl⟩
      errHasCode := fun he => absurd he Bool.false_ne_true
      noCodeNoInfo := fun _ => ⟨rfl, rfl⟩
      codeRange := Nat.zero_le _
      errPcAligned := rfl
      heldReset := fun hh => absurd hh hheld }
  · exact { h with heldReset := fun hh => absurd hh hheld }

theorem inv_writeStatus (h : Inv s) (hr : s.resetHeld = false) (w : Word) : Inv (writeStatus s w) :=
  { h with
    busyClean := fun hb => by
      obtain ⟨hdone, herr, hcode⟩ := h.busyClean hb
      exact ⟨by simp only [writeStatus, hdone, Bool.false_and], by simp only [writeStatus, herr, Bool.false_and],
        hcode⟩
    doneNoErr := fun hd => by
      obtain ⟨herr, hcode⟩ := h.doneNoErr (Bool.and_eq_true_iff.mp hd).1
      exact ⟨by simp only [writeStatus, herr, Bool.false_and], hcode⟩
    errHasCode := fun he => h.errHasCode (Bool.and_eq_true_iff.mp he).1
    heldReset := fun hh => absurd (hr.symm.trans hh) Bool.false_ne_true }

theorem inv_writeIdle (h : Inv s) (hr : s.resetHeld = false) (w : Word) (r : MmioReg) : Inv (writeIdle s w r) where
  memWf := by rw [writeIdle_mem]; exact h.memWf
  memIn := by rw [writeIdle_mem]; exact h.memIn
  cptrAligned := by
    rw [writeIdle_cptr]
    split
    · exact clearLow2_mod_four w
    · exact h.cptrAligned
  busyClean := by rw [writeIdle_busy, writeIdle_done, writeIdle_err, writeIdle_errCode]; exact h.busyClean
  doneNoErr := by rw [writeIdle_done, writeIdle_err, writeIdle_errCode]; exact h.doneNoErr
  errHasCode := by rw [writeIdle_err, writeIdle_errCode]; exact h.errHasCode
  noCodeNoInfo := by rw [writeIdle_errCode, writeIdle_errPc, writeIdle_errInfo]; exact h.noCodeNoInfo
  codeRange := by rw [writeIdle_errCode]; exact h.codeRange
  errPcAligned := by rw [writeIdle_errPc]; exact h.errPcAligned
  heldReset hh := by rw [writeIdle_resetHeld, hr] at hh; exact absurd hh Bool.false_ne_true

theorem inv_mmioWrite (h : Inv s) (hr : s.resetHeld = false) (off : Nat) (w : Word) : Inv (mmioWrite s off w) := by
  unfold mmioWrite
  split
  · next r _ =>
    unfold writeReg
    split
    · exact inv_writeCtrl h hr w
    · split
      · exact inv_writeStatus h hr w
      · split
        · exact h
        · exact inv_writeIdle h hr w r
  · exact h

theorem inv_writeEmem (h : Inv s) (hr : s.resetHeld = false) {a n : Nat} (ha : a + n ≤ Config.ememBytes) (v : Nat) :
    Inv { s with mem := s.mem.writeLE a n v } :=
  have hwf : (s.mem.writeLE a n v).wf = true := Memory.writeLE_wf n a v h.memWf
  { h with
    memWf := hwf
    memIn := memIn_of_sameMemBut (t := { s with mem := s.mem.writeLE a n v }) (r := (a, n)) h hwf
      (fun c hc => (Memory.byte_writeLE n a v c h.memWf).trans (if_neg (by omega))) ha
    heldReset := fun hh => absurd (hr.symm.trans hh) Bool.false_ne_true }

theorem inv_unlessHeld (h : Inv s) (ht : s.resetHeld = false → Inv t) : Inv (s.unlessHeld t) := by
  unfold State.unlessHeld
  split
  · exact h
  · next hr => exact ht (Bool.eq_false_iff.mpr hr)

theorem resetValues_applyReset (s : State) : ResetValues (applyReset s) where
  ctrl := rfl
  status := ⟨rfl, rfl, rfl⟩
  cptr := rfl
  errors := ⟨rfl, rfl, rfl⟩
  cmdCount := rfl
  frame := ⟨rfl, rfl, rfl, rfl⟩
  outCount := rfl
  imgCount := rfl
  bounds := by show ∀ a : Fin 3, State.reset.mins[a] = 0#32 ∧ State.reset.maxs[a] = 0#32; decide
  codebooks := ⟨rfl, rfl, rfl, rfl⟩
  planes := by
    show ∀ k : Fin 5, State.reset.planes[k].base = 0#32 ∧ State.reset.planes[k].npix = 0#32 ∧
      State.reset.planes[k].ch = 0#32
    decide
  vWritten := by show ∀ i : VReg, State.reset.vWritten[i] = false; decide
  irq := rfl

theorem inv_applyReset (h : Inv s) : Inv (applyReset s) :=
  have hwf : (applyReset s).mem.wf = true := Memory.drawBytes_wf _ _ _ h.memWf
  { memWf := hwf
    memIn := memIn_of_sameMemBut h hwf (fun c hc => Memory.byte_drawBytes _ _ _ c h.memWf hc) (inFlight_le s)
    cptrAligned := rfl
    busyClean := fun hb => absurd hb Bool.false_ne_true
    doneNoErr := fun hd => absurd hd Bool.false_ne_true
    errHasCode := fun he => absurd he Bool.false_ne_true
    noCodeNoInfo := fun _ => ⟨rfl, rfl⟩
    codeRange := Nat.zero_le _
    errPcAligned := rfl
    heldReset := fun _ => resetValues_applyReset s }

/-- A host read that is answered changes the bus and the draws only. -/
theorem hostRead_cases {addr size : Nat} (h : hostRead addr size s = .next t) :
    ∃ b d, t = { s with busData := b, draws := d } := by
  unfold hostRead at h
  split at h
  · split at h
    · cases h; exact ⟨_, _, rfl⟩
    · cases h
  · split at h
    · split at h
      · cases h
      · cases h; exact ⟨_, s.draws, rfl⟩
    · cases h
  · cases h

/-- An aligned access that begins in EMEM ends in EMEM. -/
theorem emem_access_fits {a n : Nat} (ha : a < Config.ememBytes) (hf : ememFormOk a n = true) :
    a + n ≤ Config.ememBytes := by
  have h4 := ememBytes_mod_four
  obtain ⟨hn, hal⟩ := ememFormOk_iff.mp hf
  rcases hn with rfl | rfl | rfl <;> omega

/-- A host write that is answered writes the register block or bytes of EMEM. -/
theorem hostWrite_cases {addr size v : Nat} (h : hostWrite addr size v s = .next t) :
    (∃ off w, t = s.unlessHeld (mmioWrite s off w)) ∨
      ∃ a n, a + n ≤ Config.ememBytes ∧ t = s.unlessHeld { s with mem := s.mem.writeLE a n v } := by
  unfold hostWrite at h
  split at h
  · split at h
    · cases h; exact .inl ⟨_, _, rfl⟩
    · cases h
  · next a ht =>
    split at h
    · next hf =>
      split at h
      · cases h
      · cases h; exact .inr ⟨a, size, emem_access_fits (lt_of_hostTarget_emem ht) hf, rfl⟩
    · cases h
  · cases h

theorem inv_hostStep {op : HostOp} (h : Inv s) (hs : hostStep op s = .next t) : Inv t := by
  cases op with
  | read addr size =>
    obtain ⟨b, d, rfl⟩ := hostRead_cases hs
    exact inv_modelFields h s.turns b d
  | write addr size v =>
    rcases hostWrite_cases hs with ⟨off, w, rfl⟩ | ⟨a, n, ha, rfl⟩
    · exact inv_unlessHeld h fun hr => inv_mmioWrite h hr off w
    · exact inv_unlessHeld h fun hr => inv_writeEmem h hr ha v
  | assertReset => cases hs; exact inv_applyReset h
  | releaseReset => cases hs; exact { h with heldReset := fun hh => absurd hh Bool.false_ne_true }

end

/-- Settles O12: the turn is used up, and the move, the sequencer's or the host's, keeps the invariant. -/
theorem stepKeepsInvariant : Obligations.StepKeepsInvariant := by
  unfold Obligations.StepKeepsInvariant
  intro s t h hs
  have hturn : ∀ rest, Inv { s with turns := rest } := fun rest => inv_modelFields h rest s.busData s.draws
  unfold step at hs
  split at hs
  · exact inv_engineStep h hs
  · exact inv_engineStep (hturn _) hs
  · exact inv_hostStep (hturn _) hs

end Sys2Proof.Machine
end

section
/-! A V register that nothing has written since reset (10_state.md R23): a command that reads written registers only
runs alike from two states that differ in unwritten registers alone. Both runs make the same check and the same
writes. -/

namespace Sys2Proof.Machine

/-! ## States that agree on what has been written -/

/-- The states differ in the V file alone, and there in unwritten registers only. -/
structure AgreeWritten (t t' : State) : Prop where
  rest : t.withV t'.v = t'
  regs : ∀ j : VReg, t.vWritten[j] = true → t'.v[j] = t.v[j]

/-- Two runs answer next states that agree on what has been written. -/
def RunAlike (o o' : Host.Outcome State Fault Refusal) : Prop :=
  ∃ t t', o = .next t ∧ o' = .next t' ∧ AgreeWritten t t'

section
variable {s s' t t' : State}

/-- A write of one value in both. -/
theorem AgreeWritten.setV (h : AgreeWritten t t') (i : VReg) (x : DWord) : AgreeWritten (t.setV i x) (t'.setV i x) where
  rest := by rw [← h.rest, State.withV_setV]; rfl
  regs j hj := by
    rw [setV_get, setV_get]
    rw [setV_getWritten] at hj
    split
    · rfl
    · next hne => rw [if_neg hne] at hj; exact h.regs j hj

theorem AgreeWritten.setF (h : AgreeWritten t t') (i : VReg) (x : DWord) : AgreeWritten (t.setF i x) (t'.setF i x) :=
  h.setV i (F64.canon x)

theorem AgreeWritten.setF3 (h : AgreeWritten t t') (rd : VReg) (x : DWord × DWord × DWord) :
    AgreeWritten (t.setF3 rd x) (t'.setF3 rd x) :=
  ((h.setF _ _).setF _ _).setF _ _

theorem AgreeWritten.setF4 (h : AgreeWritten t t') (rd : VReg) (x : DWord × DWord × DWord × DWord) :
    AgreeWritten (t.setF4 rd x) (t'.setF4 rd x) :=
  (((h.setF _ _).setF _ _).setF _ _).setF _ _

theorem AgreeWritten.setOutput (h : AgreeWritten t t') (m : Memory) (c : Word) :
    AgreeWritten { t with mem := m, outCount := c } { t' with mem := m, outCount := c } where
  rest := by rw [← h.rest]; rfl
  regs := h.regs

theorem AgreeWritten.setMem (h : AgreeWritten t t') (m : Memory) :
    AgreeWritten { t with mem := m } { t' with mem := m } where
  rest := by rw [← h.rest]; rfl
  regs := h.regs

theorem AgreeWritten.retire (h : AgreeWritten t t') : AgreeWritten t.retire t'.retire where
  rest := by rw [← h.rest]; rfl
  regs := h.regs

theorem AgreeWritten.endRun (h : AgreeWritten t t') : AgreeWritten t.endRun t'.endRun where
  rest := by rw [← h.rest]; rfl
  regs := h.regs

theorem AgreeWritten.raise (h : AgreeWritten t t') (e : NceError) : AgreeWritten (t.raise e) (t'.raise e) where
  rest := by rw [← h.rest]; rfl
  regs := h.regs

theorem AgreeWritten.raiseFrame (h : AgreeWritten t t') (e : NceError) :
    AgreeWritten (t.raiseFrame e) (t'.raiseFrame e) where
  rest := by rw [← h.rest]; rfl
  regs := h.regs

/-! ## How a command ends, run twice -/

theorem AgreeWritten.alike (h : AgreeWritten t t') : RunAlike (complete s (.ok t)) (complete s' (.ok t')) :=
  ⟨_, _, complete_ok _ _, complete_ok _ _, h.retire⟩

/-- The same check in both runs: where it fails both take its error, where it passes both retire. -/
theorem AgreeWritten.alike_checked (h : AgreeWritten t t') (hs : AgreeWritten s s') (c : Except NceError Unit) :
    RunAlike (complete s do c; .ok t) (complete s' do c; .ok t') := by
  cases c with
  | error e => exact ⟨_, _, complete_error _ _, complete_error _ _, hs.raise e⟩
  | ok u => exact h.alike

/-- The same validation in both runs of a frame command. -/
theorem AgreeWritten.alike_frame {α : Type} {f f' : α → State} (hs : AgreeWritten s s')
    (h : ∀ a, AgreeWritten (f a) (f' a)) (c : Except NceError α) :
    RunAlike (completeFrame s (c.map f)) (completeFrame s' (c.map f')) := by
  cases c with
  | error e => exact ⟨_, _, completeFrame_error _ _, completeFrame_error _ _, hs.raiseFrame e⟩
  | ok a => exact ⟨_, _, completeFrame_ok _ _, completeFrame_ok _ _, (h a).retire⟩

end

/-! ## Operands in the two runs -/

section
variable {s : State} {v' : Vector DWord 16} {ra rb : VReg}

theorem u32_withV (h : v'[ra] = s.v[ra]) : (s.withV v').u32 ra = s.u32 ra := by
  unfold State.u32
  exact congrArg (fun x : DWord => x.toNat % 2 ^ 32) h

theorem f64_withV (h : v'[ra] = s.v[ra]) : (s.withV v').f64 ra = s.f64 ra := h

theorem effAddr_withV (h : v'[ra] = s.v[ra]) (off : BitVec 18) : (s.withV v').effAddr ra off = s.effAddr ra off := by
  rw [State.effAddr, State.effAddr, u32_withV h]

theorem codebookAddr_withV (ha : v'[ra] = s.v[ra]) (hb : v'[rb] = s.v[rb]) (sel : Fin 4) :
    (s.withV v').codebookAddr ra rb sel = s.codebookAddr ra rb sel := by
  rw [State.codebookAddr, State.codebookAddr, u32_withV ha, u32_withV hb]

end

/-! ## The commands -/

theorem exec_runAlike {i : Instr} {s : State} {v' : Vector DWord 16} (hs : AgreeWritten s (s.withV v'))
    (hr : readsWritten i s = true) : RunAlike (exec i s) (exec i (s.withV v')) := by
  have src : ∀ r ∈ sources i, v'[r] = s.v[r] := fun r hmem => hs.regs r (List.all_eq_true.mp hr r hmem)
  cases i with
  | nop =>
    simp only [exec, execNop]
    exact hs.alike
  | halt => exact ⟨_, _, rfl, rfl, hs.retire.endRun⟩
  | li rd imm =>
    simp only [exec, execLi]
    exact (hs.setV rd _).alike
  | mov rd ra =>
    have ha : (s.withV v').v[ra] = s.v[ra] := src ra (by simp [sources])
    simp only [exec, execMov, ha]
    exact (hs.setV rd _).alike
  | ldw rd ra off =>
    simp only [exec, execLdw, effAddr_withV (src ra (by simp [sources])), State.withV_mem]
    exact (hs.setV rd _).alike_checked hs _
  | ldf rd ra off =>
    simp only [exec, execLdf, effAddr_withV (src ra (by simp [sources])), State.withV_mem]
    exact (hs.setF rd _).alike_checked hs _
  | ldb rd ra off =>
    simp only [exec, execLdb, effAddr_withV (src ra (by simp [sources])), State.withV_mem]
    exact (hs.setV rd _).alike_checked hs _
  | stw rs ra off =>
    simp only [exec, execStw, effAddr_withV (src ra (by simp [sources])), u32_withV (src rs (by simp [sources])),
      State.withV_mem]
    exact (hs.setMem _).alike_checked hs _
  | stf rs ra off =>
    simp only [exec, execStf, effAddr_withV (src ra (by simp [sources])), f64_withV (src rs (by simp [sources])),
      State.withV_mem]
    exact (hs.setMem _).alike_checked hs _
  | cblk rd ra rb sel =>
    simp only [exec, execCblk, codebookAddr_withV (src ra (by simp [sources])) (src rb (by simp [sources])),
      State.withV_mem]
    exact (hs.setF rd _).alike_checked hs _
  | unpk111011 rd ra =>
    simp only [exec, execUnpk111011, u32_withV (src ra (by simp [sources]))]
    exact (hs.setF3 rd _).alike_checked hs _
  | unpk8888 rd ra | unpkrot rd ra | quatst rd ra =>
    simp only [exec, execUnpk8888, execUnpkrot, execQuatst, u32_withV (src ra (by simp [sources]))]
    exact (hs.setF4 rd _).alike_checked hs _
  | unorm8 rd ra sel =>
    simp only [exec, execUnorm8, u32_withV (src ra (by simp [sources]))]
    exact (hs.setF rd _).alike
  | u16n rd ra rb sel =>
    simp only [exec, execU16n, u32_withV (src ra (by simp [sources])), u32_withV (src rb (by simp [sources]))]
    exact (hs.setF rd _).alike
  | dequant rd ra rb rc | dqrange rd ra rb rc =>
    simp only [exec, execDequant, execDqrange, f64_withV (src ra (by simp [sources])),
      f64_withV (src rb (by simp [sources])), f64_withV (src rc (by simp [sources]))]
    exact (hs.setF rd _).alike
  | invlog rd ra | logitop rd ra | invsig rd ra | shdc rd ra =>
    simp only [exec, execInvlog, execLogitop, execInvsig, execShdc, f64_withV (src ra (by simp [sources]))]
    exact (hs.setF rd _).alike
  | decchk => exact hs.alike_frame (fun p => hs.setOutput _ _) (validateChunked s)
  | decimg => exact hs.alike_frame (fun _ => hs.setOutput _ _) (validateImage s)

/-- A move of the sequencer that is clear of the model fault of R23. -/
theorem engineStep_runAlike {s : State} {v' : Vector DWord 16} (hs : AgreeWritten s (s.withV v')) (hsafe : SafeStep s) :
    RunAlike (engineStep s) (engineStep (s.withV v')) := by
  have hfetch : fetchInstr (s.withV v') = fetchInstr s := rfl
  have hbusy : (s.withV v').busy = s.busy := rfl
  rw [engineStep, engineStep, hfetch, hbusy]
  cases hb : s.busy with
  | false => exact ⟨_, _, rfl, rfl, hs⟩
  | true =>
    cases hi : fetchInstr s with
    | error e => exact ⟨_, _, rfl, rfl, hs.raise e⟩
    | ok i => exact exec_runAlike hs (hsafe hb i hi)

/-- Settles O46: the two moves run alike (`engineStep_runAlike`). -/
theorem unwrittenNotObserved : Obligations.UnwrittenNotObserved := by
  unfold Obligations.UnwrittenNotObserved
  intro s v' hturns hsafe hv
  have hs : AgreeWritten s (s.withV v') := ⟨rfl, hv⟩
  obtain ⟨t, t', ht, ht', hrest, hregs⟩ := engineStep_runAlike hs hsafe
  have hstep : ∀ u : State, u.turns = [] → step u = engineStep u := fun u hu => by rw [step, hu]
  exact ⟨t, t'.v, (hstep s hturns).trans ht,
    (hstep (s.withV v') hturns).trans (ht'.trans (congrArg _ hrest.symm)), hregs⟩

end Sys2Proof.Machine
end

section
/-! EMEM as the sequencer and the host see it (20_memory.md): a word stored at the next command's address is the word
fetched there, and the host's window, while idle, reads back what it wrote. -/

namespace Sys2Proof.Machine

/-- A word reads back, as a number, as stored. -/
theorem Memory.readLE_setWord {m : Memory} (h : m.wf = true) (a : Nat) (w : Word) :
    (m.setWord a w).readLE a 4 = w.toNat := by
  rw [Memory.setWord, Memory.readLE_writeLE h, Nat.mod_eq_of_lt w.isLt]

/-! ## Stores whose checks pass -/

section
variable {s : State} {ra : VReg} {off : BitVec 18}

/-- A command whose one check is that of a 4-byte access retires where the access is aligned and in EMEM. -/
theorem complete_checkWordAccess_ok {ea : Nat} (ha : ea % 4 = 0) (hb : ea + 4 ≤ Config.ememBytes) (t : State) :
    (complete s do checkWordAccess ea; .ok t) = .next t.retire := by
  rw [checkWordAccess_ok ha hb]; rfl

/-- `STW` to an aligned word of EMEM (42_register_memory.md R166). -/
theorem exec_stw_ok (rs : VReg) (ha : s.effAddr ra off % 4 = 0) (hb : s.effAddr ra off + 4 ≤ Config.ememBytes) :
    exec (.stw rs ra off) s =
      .next (State.retire { s with mem := s.mem.setWord (s.effAddr ra off) (BitVec.ofNat 32 (s.u32 rs)) }) :=
  complete_checkWordAccess_ok ha hb _

/-- `STF` to an aligned word of EMEM (42_register_memory.md R167). -/
theorem exec_stf_ok (rs : VReg) (ha : s.effAddr ra off % 4 = 0) (hb : s.effAddr ra off + 4 ≤ Config.ememBytes) :
    exec (.stf rs ra off) s =
      .next (State.retire { s with mem := s.mem.setWord (s.effAddr ra off) (narrow (s.f64 rs)) }) :=
  complete_checkWordAccess_ok ha hb _

end

/-! ## A store to the next command -/

/-- The sequencer fetches the word at `cptr`, when it lies in EMEM (41_sequencing.md R151). -/
theorem fetch_ok {s : State} (h : s.cptr.toNat + 4 ≤ Config.ememBytes) : fetch s = .ok (s.mem.readLE s.cptr.toNat 4) :=
  readWordChecked_ok s.mem h

/-- `cptr` does not wrap when it advances inside EMEM. -/
theorem next_cptr_toNat {x : Word} (h : x.toNat + 4 ≤ Config.ememBytes) : (x + 4#32).toNat = x.toNat + 4 := by
  have hmax := ememBytes_le
  rw [BitVec.toNat_add, BitVec.toNat_ofNat]
  omega

/-- A command that stores a word where the next command stands, and retires: that word is fetched next. -/
theorem fetch_retire_setWord {s : State} (hwf : s.mem.wf = true) (hb : s.cptr.toNat + 8 ≤ Config.ememBytes) (w : Word) :
    let t := State.retire { s with mem := s.mem.setWord (s.cptr.toNat + 4) w }
    t.cptr.toNat = s.cptr.toNat + 4 ∧ fetch t = .ok w.toNat := by
  intro t
  have hcptr : t.cptr.toNat = s.cptr.toNat + 4 := next_cptr_toNat (x := s.cptr) (by omega)
  have hfetch : fetch t = .ok (t.mem.readLE t.cptr.toNat 4) := fetch_ok (by rw [hcptr]; exact hb)
  exact ⟨hcptr, by rw [hfetch, hcptr, State.retire_mem, Memory.readLE_setWord hwf]⟩

/-- Settles O26: both stores write their word at the next command's address and retire (`exec_stw_ok`, `exec_stf_ok`),
so that word is fetched next (`fetch_retire_setWord`). -/
theorem storeChangesNextFetch : Obligations.StoreChangesNextFetch := by
  unfold Obligations.StoreChangesNextFetch
  intro rs ra off s hwf hea hal hb
  have ha : s.effAddr ra off % 4 = 0 := by rw [hea]; exact hal
  have hfit : s.effAddr ra off + 4 ≤ Config.ememBytes := by omega
  have hnext := fetch_retire_setWord hwf hb
  have hu32 : (BitVec.ofNat 32 (s.u32 rs)).toNat = s.v[rs].toNat % 2 ^ 32 := by
    rw [BitVec.toNat_ofNat, State.u32, Nat.mod_mod]
  rw [← hea] at hnext ⊢
  refine ⟨⟨_, exec_stw_ok rs ha hfit, ?_⟩, ⟨_, exec_stf_ok rs ha hfit, hnext _⟩⟩
  rw [← hu32]
  exact hnext _

/-! ## The host's EMEM window -/

section
variable {s : State} {a n : Nat}

/-- An aligned host read of EMEM while idle puts the bytes on the bus (20_memory.md R60). -/
theorem hostRead_emem (hb : s.busy = false) (ha : a < Config.ememBytes) (hf : ememFormOk a n = true) :
    hostRead (Config.params.ememHostBase + a) n s = .next { s with busData := BitVec.ofNat 32 (s.mem.readLE a n) } := by
  rw [hostRead, hostTarget_emem ha]
  simp only [hf, hb, if_true, Bool.false_eq_true, if_false]

/-- An aligned host write of EMEM while idle, RESET released, stores the bytes (20_memory.md R60). -/
theorem hostWrite_emem (hb : s.busy = false) (hr : s.resetHeld = false) (ha : a < Config.ememBytes)
    (hf : ememFormOk a n = true) (x : Nat) :
    hostWrite (Config.params.ememHostBase + a) n x s = .next { s with mem := s.mem.writeLE a n x } := by
  rw [hostWrite, hostTarget_emem ha]
  simp only [hf, hb, unlessHeld_released hr, if_true, Bool.false_eq_true, if_false]

/-- The step of an aligned host read of EMEM while idle. -/
theorem step_ememRead {rest : List Turn} (hb : s.busy = false) (ha : a < Config.ememBytes) (hf : ememFormOk a n = true)
    (h : s.turns = .host (.read (Config.params.ememHostBase + a) n) :: rest) :
    step s = .next { s with turns := rest, busData := BitVec.ofNat 32 (s.mem.readLE a n) } :=
  (step_host h).trans (hostRead_emem (s := { s with turns := rest }) hb ha hf)

/-- The step of an aligned host write of EMEM while idle, RESET released. -/
theorem step_ememWrite {rest : List Turn} {x : Nat} (hb : s.busy = false) (hr : s.resetHeld = false)
    (ha : a < Config.ememBytes) (hf : ememFormOk a n = true)
    (h : s.turns = .host (.write (Config.params.ememHostBase + a) n x) :: rest) :
    step s = .next { s with turns := rest, mem := s.mem.writeLE a n x } :=
  (step_host h).trans (hostWrite_emem (s := { s with turns := rest }) hb hr ha hf x)

end

/-- The bytes of a store, by their distance from its address, least significant first (20_memory.md R61). -/
theorem Memory.byte_writeLE_add {m : Memory} (h : m.wf = true) {n j : Nat} (a v : Nat) (hj : j < n) :
    (m.writeLE a n v).byte (a + j) = BitVec.ofNat 8 (v / 2 ^ (8 * j)) := by
  rw [Memory.byte_writeLE n a v _ h, if_pos (by omega), Nat.add_sub_cancel_left]

/-- Settles O58: the write leaves its bytes in EMEM (`step_ememWrite`) and the read puts them on the bus
(`step_ememRead`). -/
theorem ememWindow : Obligations.EmemWindow := by
  unfold Obligations.EmemWindow
  intro s a n x rest hb hr hwf hn hal hfit hturns
  have ha : a < Config.ememBytes := by omega
  have hf : ememFormOk a n = true := ememFormOk_iff.mpr ⟨hn, hal⟩
  have hbus : 2 ^ (8 * n) ≤ 2 ^ 32 := Nat.pow_le_pow_right (by decide) (by omega)
  have hlt : x % 2 ^ (8 * n) < 2 ^ 32 := (Nat.mod_lt x (Nat.two_pow_pos _)).trans_le hbus
  refine ⟨_, _, step_ememWrite hb hr ha hf hturns, step_ememRead hb ha hf rfl, ?_, ?_, ?_, rfl⟩
  · rw [Memory.readLE_writeLE hwf, BitVec.toNat_ofNat, Nat.mod_eq_of_lt hlt]
  · exact fun j hj => Memory.byte_writeLE_add hwf a x hj
  · exact fun c hc => (Memory.byte_writeLE n a x c hwf).trans (if_neg (by simp only at hc; omega))

end Sys2Proof.Machine
end

section
/-! The encoding (30_encoding.md): a word is its opcode over 26 operand bits, and the operand bits of a format are its
fields side by side. So a row reads a command off a word, with its required-zero fields zero, exactly when the word's
operand bits are the command's: decoding and encoding are one relation, and the statements about either follow. -/

namespace Sys2Proof

/-! ## Bit ranges -/

theorem bits_lt (w hi lo : Nat) : bits w hi lo < 2 ^ (hi + 1 - lo) := Nat.mod_lt _ (Nat.two_pow_pos _)

/-- A bit range is its upper part over its lower part. -/
theorem bits_split (w : Nat) {hi mid lo : Nat} (h1 : lo ≤ mid) (h2 : mid ≤ hi) :
    bits w hi lo = bits w hi (mid + 1) * 2 ^ (mid + 1 - lo) + bits w mid lo := by
  have hlen : hi + 1 - lo = (mid + 1 - lo) + (hi + 1 - (mid + 1)) := by omega
  have hpos : mid + 1 = lo + (mid + 1 - lo) := by omega
  unfold bits
  rw [hlen, Nat.pow_add, Nat.mod_mul, Nat.div_div_eq_div_mul, ← Nat.pow_add, ← hpos]
  ring

/-- A bit range is zero when both its parts are. -/
theorem bits_eq_zero_split (w : Nat) {hi mid lo : Nat} (h1 : lo ≤ mid) (h2 : mid ≤ hi) :
    bits w hi lo = 0 ↔ bits w hi (mid + 1) = 0 ∧ bits w mid lo = 0 := by
  simp [bits_split w h1 h2]

/-! ## Fields -/

theorem fieldRd_val (w : Nat) : (fieldRd w).val = bits w 25 22 := Nat.mod_eq_of_lt (bits_lt w 25 22)
theorem fieldRa_val (w : Nat) : (fieldRa w).val = bits w 21 18 := Nat.mod_eq_of_lt (bits_lt w 21 18)
theorem fieldRb_val (w : Nat) : (fieldRb w).val = bits w 17 14 := Nat.mod_eq_of_lt (bits_lt w 17 14)
theorem fieldRc_val (w : Nat) : (fieldRc w).val = bits w 13 10 := Nat.mod_eq_of_lt (bits_lt w 13 10)
theorem fieldSel_val (w : Nat) : (fieldSel w).val = bits w 9 8 := Nat.mod_eq_of_lt (bits_lt w 9 8)
theorem fieldImm_toNat (w : Nat) : (fieldImm w).toNat = bits w 21 0 := Nat.mod_eq_of_lt (bits_lt w 21 0)
theorem fieldOff_toNat (w : Nat) : (fieldOff w).toNat = bits w 17 0 := Nat.mod_eq_of_lt (bits_lt w 17 0)

theorem fieldRb_eq_zero (w : Nat) : fieldRb w = 0 ↔ bits w 17 14 = 0 := by rw [Fin.ext_iff, fieldRb_val]; rfl
theorem fieldRc_eq_zero (w : Nat) : fieldRc w = 0 ↔ bits w 13 10 = 0 := by rw [Fin.ext_iff, fieldRc_val]; rfl
theorem fieldSel_eq_zero (w : Nat) : fieldSel w = 0 ↔ bits w 9 8 = 0 := by rw [Fin.ext_iff, fieldSel_val]; rfl

/-! ## Formats -/

/-- The operand bits of a word, by the fields of format R (R94). -/
theorem operand_fieldsR (w : Nat) :
    bits w 25 0 = packR (fieldRd w) (fieldRa w) (fieldRb w) (fieldRc w) (fieldSel w) + bits w 7 0 := by
  have h25 : bits w 25 0 = bits w 25 22 * 2 ^ 22 + bits w 21 0 := bits_split w (by decide) (by decide)
  have h21 : bits w 21 0 = bits w 21 18 * 2 ^ 18 + bits w 17 0 := bits_split w (by decide) (by decide)
  have h17 : bits w 17 0 = bits w 17 14 * 2 ^ 14 + bits w 13 0 := bits_split w (by decide) (by decide)
  have h13 : bits w 13 0 = bits w 13 10 * 2 ^ 10 + bits w 9 0 := bits_split w (by decide) (by decide)
  have h9 : bits w 9 0 = bits w 9 8 * 2 ^ 8 + bits w 7 0 := bits_split w (by decide) (by decide)
  rw [h25, h21, h17, h13, h9, packR, fieldRd_val, fieldRa_val, fieldRb_val, fieldRc_val, fieldSel_val]
  ring

/-- The operand bits of a word, by the fields of format M (R95). -/
theorem operand_fieldsM (w : Nat) : bits w 25 0 = packM (fieldRd w) (fieldRa w) (fieldOff w) := by
  have h25 : bits w 25 0 = bits w 25 22 * 2 ^ 22 + bits w 21 0 := bits_split w (by decide) (by decide)
  have h21 : bits w 21 0 = bits w 21 18 * 2 ^ 18 + bits w 17 0 := bits_split w (by decide) (by decide)
  rw [h25, h21, packM, fieldRd_val, fieldRa_val, fieldOff_toNat]
  ring

/-- The operand bits of a word, by the fields of format I (R93). -/
theorem operand_fieldsI (w : Nat) : bits w 25 0 = (fieldRd w).val * 2 ^ 22 + (fieldImm w).toNat := by
  rw [fieldRd_val, fieldImm_toNat]
  exact bits_split w (by decide) (by decide)

theorem operand_eq_packR_iff (w : Nat) (rd ra rb rc : VReg) (sel : Fin 4) :
    bits w 25 0 = packR rd ra rb rc sel ↔ fieldRd w = rd ∧ fieldRa w = ra ∧ fieldRb w = rb ∧ fieldRc w = rc ∧
      fieldSel w = sel ∧ bits w 7 0 = 0 := by
  have hlow := bits_lt w 7 0
  simp only [operand_fieldsR w, packR, Fin.ext_iff]
  omega

theorem operand_eq_packM_iff (w : Nat) (rd ra : VReg) (off : BitVec 18) :
    bits w 25 0 = packM rd ra off ↔ fieldRd w = rd ∧ fieldRa w = ra ∧ fieldOff w = off := by
  have hoff := off.isLt
  have hfield := (fieldOff w).isLt
  simp only [operand_fieldsM w, packM, Fin.ext_iff, BitVec.toNat_eq]
  omega

theorem operand_eq_packI_iff (w : Nat) (rd : VReg) (imm : BitVec 22) :
    bits w 25 0 = rd.val * 2 ^ 22 + imm.toNat ↔ fieldRd w = rd ∧ fieldImm w = imm := by
  have himm := imm.isLt
  have hfield := (fieldImm w).isLt
  simp only [operand_fieldsI w, Fin.ext_iff, BitVec.toNat_eq]
  omega

/-! ## Rows -/

theorem Opcode.ofCode_eq_some_iff (c : Nat) (o : Opcode) : Opcode.ofCode c = some o ↔ o.code = c := by
  constructor
  · exact fun h => by simpa using List.find?_some h
  · rintro rfl
    cases o <;> rfl

theorem Opcode.opcode_build (o : Opcode) (w : Nat) : (o.build w).opcode = o := by cases o <;> rfl

theorem Opcode.zerosOk_iff (o : Opcode) (w : Nat) : o.zerosOk w = true ↔ ∀ r ∈ o.zeroRanges, bits w r.1 r.2 = 0 := by
  simp [Opcode.zerosOk]

/-- A row reads the command off a word, and its required-zero fields are zero, exactly when the operand bits of the word
are the command's (R92 to R98). -/
theorem row_reads_iff (i : Instr) (w : Nat) :
    i.opcode.zerosOk w = true ∧ i.opcode.build w = i ↔ bits w 25 0 = i.operandBits := by
  rw [Opcode.zerosOk_iff]
  cases i with
  | nop | halt | decchk | decimg =>
    simp [Instr.opcode, Opcode.zeroRanges, Opcode.build, Instr.operandBits]
  | li rd imm =>
    simpa [Instr.opcode, Opcode.zeroRanges, Opcode.build, Instr.operandBits] using (operand_eq_packI_iff w rd imm).symm
  | ldw | ldf | ldb | stw | stf =>
    simp [Instr.opcode, Opcode.zeroRanges, Opcode.build, Instr.operandBits, operand_eq_packM_iff]
  | mov | unpk111011 | unpk8888 | unorm8 | u16n | dequant | dqrange | cblk | invlog | logitop | invsig | shdc | unpkrot
  | quatst =>
    simp [Instr.opcode, Opcode.zeroRanges, Opcode.build, Instr.operandBits, operand_eq_packR_iff, fieldRb_eq_zero,
      fieldRc_eq_zero, fieldSel_eq_zero]
    tauto

/-! ## Words -/

theorem Instr.operandBits_lt (i : Instr) : i.operandBits < 2 ^ 26 := by
  cases i with
  | nop | halt | decchk | decimg => decide
  | li rd imm => exact Laws.packI_lt rd imm
  | ldw | ldf | ldb | stw | stf => exact Laws.packM_lt _ _ _
  | mov | unpk111011 | unpk8888 | unorm8 | u16n | dequant | dqrange | cblk | invlog | logitop | invsig | shdc | unpkrot
  | quatst => exact Laws.packR_lt _ _ _ _ _

theorem encode_lt (i : Instr) : encode i < 2 ^ 32 := (Laws.opcode_field i.opcode i.operandBits_lt).2

/-- A word is a command's when its opcode and its operand bits are (R91). -/
theorem encode_eq_iff (i : Instr) {w : Nat} (hw : w < 2 ^ 32) :
    encode i = w ↔ i.opcode.code = bits w 31 26 ∧ bits w 25 0 = i.operandBits := by
  have hlt := i.operandBits_lt
  simp only [encode, bits]
  omega

/-- What the decoder accepts: the checks of a row (R99), and the row's reading of the word. -/
theorem decodeWord_eq_ok_iff_row (w : Nat) (i : Instr) :
    decodeWord w = .ok i ↔ ∃ o : Opcode, o.code = bits w 31 26 ∧ o.zerosOk w = true ∧ (o.build w).wellFormed = true ∧
      o.build w = i := by
  simp only [decodeWord, ← Opcode.ofCode_eq_some_iff]
  cases Opcode.ofCode (bits w 31 26) with
  | none => simp
  | some o =>
    by_cases hz : o.zerosOk w = true <;> by_cases hwf : (o.build w).wellFormed = true <;> simp [hz, hwf]

/-- A word decodes to a command exactly when the command is well formed and the word is its encoding (R98 to R100). -/
theorem decodeWord_eq_ok_iff {w : Nat} (hw : w < 2 ^ 32) (i : Instr) :
    decodeWord w = .ok i ↔ i.wellFormed = true ∧ encode i = w := by
  rw [decodeWord_eq_ok_iff_row, encode_eq_iff i hw, ← row_reads_iff]
  constructor
  · rintro ⟨o, hcode, hzero, hwf, rfl⟩
    rw [Opcode.opcode_build]
    exact ⟨hwf, hcode, hzero, rfl⟩
  · rintro ⟨hwf, hcode, hzero, hbuild⟩
    exact ⟨i.opcode, hcode, hzero, hbuild.symm ▸ hwf, hbuild⟩

theorem decodeWord_encode {i : Instr} (h : i.wellFormed = true) : decodeWord (encode i) = .ok i :=
  (decodeWord_eq_ok_iff (encode_lt i) i).mpr ⟨h, rfl⟩

/-! ## Byte streams -/

theorem ofBytesLE_toBytesLE (n v : Nat) : ofBytesLE (toBytesLE n v) = v % 2 ^ (8 * n) := by
  induction n generalizing v with
  | zero => simp [toBytesLE, ofBytesLE, Nat.mod_one]
  | succ n ih =>
    rw [toBytesLE, ofBytesLE, ih, BitVec.toNat_ofNat, show 8 * (n + 1) = 8 + 8 * n by ring, Nat.pow_add, Nat.mod_mul]

/-- The decoder reads the word in the first 4 bytes of a stream and leaves the rest (R90, R101). -/
theorem decodeBytes_toBytesLE {w : Nat} (hw : w < 2 ^ 32) (rest : List Byte) :
    decodeBytes (toBytesLE 4 w ++ rest) = (decodeWord w).map fun i => (i, rest) := by
  have hword : ofBytesLE (toBytesLE 4 w) = w := (ofBytesLE_toBytesLE 4 w).trans (Nat.mod_eq_of_lt hw)
  exact congrArg (fun v => (decodeWord v).map fun i => (i, rest)) hword

/-! ## Round trips -/

/-- Settles O1: the word of a well-formed command decodes to it (`decodeWord_encode`), wherever it stands
(`decodeBytes_toBytesLE`). -/
theorem decodeOfEncode : Obligations.DecodeOfEncode := by
  unfold Obligations.DecodeOfEncode
  intro i hwf
  have hword := decodeWord_encode hwf
  refine ⟨hword, fun rest => ?_⟩
  rw [decodeBytes_toBytesLE (encode_lt i), hword]
  rfl

/-- Settles O2: decoding and encoding are one relation (`decodeWord_eq_ok_iff`). -/
theorem encodeOfDecode : Obligations.EncodeOfDecode := by
  unfold Obligations.EncodeOfDecode
  exact fun w i hw h => (decodeWord_eq_ok_iff hw i).mp h

end Sys2Proof

namespace Sys2Proof.Machine

/-! ## Illegal words -/

/-- The opcodes of R99 (a) are those of no row. -/
theorem illegalOpcodes_contains : ∀ c < 2 ^ 6, illegalOpcodes.contains c = (Opcode.ofCode c).isNone := by decide

theorem illegalWord_of_no_row {w : Nat} (h : Opcode.ofCode (bits w 31 26) = none) : illegalWord w = true := by
  have hop : illegalOpcodes.contains (bits w 31 26) = true := by
    rw [illegalOpcodes_contains _ (bits_lt w 31 26), h]; rfl
  simp only [illegalWord, hop, Bool.true_or]

/-- A word of a row is legal when the row's required-zero fields are zero and its destinations lie in the V file: (b) and
(c) of R99. -/
theorem illegalWord_of_row {o : Opcode} {w : Nat} (h : o.code = bits w 31 26) :
    illegalWord w = false ↔ o.zerosOk w = true ∧ (o.build w).wellFormed = true := by
  have h17 : bits w 17 0 = 0 ↔ bits w 17 14 = 0 ∧ bits w 13 0 = 0 := bits_eq_zero_split w (by decide) (by decide)
  have h17' : bits w 17 10 = 0 ↔ bits w 17 14 = 0 ∧ bits w 13 10 = 0 := bits_eq_zero_split w (by decide) (by decide)
  have h13 : bits w 13 0 = 0 ↔ bits w 13 10 = 0 ∧ bits w 9 0 = 0 := bits_eq_zero_split w (by decide) (by decide)
  have h9 : bits w 9 0 = 0 ↔ bits w 9 8 = 0 ∧ bits w 7 0 = 0 := bits_eq_zero_split w (by decide) (by decide)
  rw [Opcode.zerosOk_iff]
  simp only [illegalWord, ← h]
  cases o with
  | nop | halt | decchk | decimg | li | ldw | ldf | ldb | stw | stf =>
    simp [Opcode.code, illegalOpcodes, Opcode.zeroRanges, Opcode.build, Instr.wellFormed]
  | mov | unpk111011 | unpk8888 | unorm8 | u16n | dequant | dqrange | cblk | invlog | logitop | invsig | shdc | unpkrot
  | quatst =>
    simp [Opcode.code, illegalOpcodes, Opcode.zeroRanges, Opcode.build, Instr.wellFormed, fieldRd_val, h17, h17', h13, h9,
      and_assoc]

/-- The checks of the decoder are those of R99. -/
theorem decodes_iff_not_illegal (w : Nat) : (∃ i, decodeWord w = .ok i) ↔ illegalWord w = false := by
  constructor
  · rintro ⟨i, hi⟩
    obtain ⟨o, hcode, hzero, hwf, -⟩ := (decodeWord_eq_ok_iff_row w i).mp hi
    exact (illegalWord_of_row hcode).mpr ⟨hzero, hwf⟩
  · intro h
    cases ho : Opcode.ofCode (bits w 31 26) with
    | none => exact absurd (h.symm.trans (illegalWord_of_no_row ho)) Bool.false_ne_true
    | some o =>
      have hcode := (Opcode.ofCode_eq_some_iff _ _).mp ho
      obtain ⟨hzero, hwf⟩ := (illegalWord_of_row hcode).mp h
      exact ⟨_, (decodeWord_eq_ok_iff_row w _).mpr ⟨o, hcode, hzero, hwf, rfl⟩⟩

/-! ## An illegal word at `cptr` -/

theorem step_engine {s : State} (h : s.turns = []) : step s = engineStep s := by rw [step, h]

/-- A fetched word has 32 bits. -/
theorem fetch_lt {s : State} {w : Nat} (h : fetch s = .ok w) : w < 2 ^ 32 := by
  obtain ⟨-, rfl⟩ := readWordChecked_cases h
  exact Memory.readLE_lt s.mem 4 _

theorem decodeFetched_illegal {w : Nat} (hw : w < 2 ^ 32) (h : illegalWord w = true) :
    decodeFetched w = .error (.illegal w) := by
  have hno : ¬ ∃ i, decodeWord w = .ok i := by rw [decodes_iff_not_illegal, h]; decide
  have hbytes := decodeBytes_toBytesLE hw []
  rw [List.append_nil] at hbytes
  rw [decodeFetched, hbytes]
  cases hd : decodeWord w with
  | ok i => exact absurd ⟨i, hd⟩ hno
  | error e => rfl

theorem engineStep_error {s : State} {e : NceError} (hb : s.busy = true) (h : fetchInstr s = .error e) :
    engineStep s = .next (s.raise e) := by
  rw [engineStep, hb, h]; rfl

/-- An illegal word at `cptr` raises `IllegalCommand(w)` (41_sequencing.md R152). -/
theorem engineStep_illegal {s : State} {w : Nat} (hb : s.busy = true) (hf : fetch s = .ok w) (h : illegalWord w = true) :
    engineStep s = .next (s.raise (.illegal w)) := by
  refine engineStep_error hb ?_
  rw [fetchInstr, hf]
  exact decodeFetched_illegal (fetch_lt hf) h

/-- Settles O3: a word decodes when its row's checks pass, and the illegal words are the others
(`decodes_iff_not_illegal`); the sequencer raises `IllegalCommand` on one (`engineStep_illegal`), which is error entry
and nothing else (`raise_errored`). -/
theorem illegalWords : Obligations.IllegalWords := by
  unfold Obligations.IllegalWords
  refine ⟨fun w _ => decodes_iff_not_illegal w, by decide, fun s w hturns hb hf h => ?_⟩
  exact ⟨_, (step_engine hturns).trans (engineStep_illegal hb hf h), raise_errored s _⟩

/-! ## The spec's examples -/

/-- Settles O4: each word is the encoding of its command, so it decodes to it (`decodeWord_encode`). -/
theorem decodeExamples : Obligations.DecodeExamples := by
  unfold Obligations.DecodeExamples
  have h {i : Instr} {w : Nat} (hwf : i.wellFormed = true) (he : encode i = w) : decodeWord w = .ok i :=
    he ▸ decodeWord_encode hwf
  exact ⟨h rfl rfl, h rfl rfl, h rfl rfl, h rfl rfl, h rfl rfl, h rfl rfl, h rfl rfl, h rfl rfl, h rfl rfl, h rfl rfl⟩

end Sys2Proof.Machine
end

section
/-! The arithmetic of 40_numerics.md. A finite operand reads as a signed integer times a power of 2
(`of64_eq_signed`), an operation computes the exact result in that form, or digits that stand for it, and `round64`
rounds it once (`round64_rounds_signed`); a value that is already on the grid is not changed (`round64_exact`). -/

namespace Sys2Proof.Machine

/-! ## Signed values -/

/-- The real with magnitude `x` and sign `neg`. -/
def signed (neg : Bool) (x : ℝ) : ℝ := if neg then -x else x

theorem signed_eq_mul (neg : Bool) (x : ℝ) : signed neg x = (if neg then -1 else 1) * x := by
  cases neg <;> simp [signed]

theorem signed_zero (neg : Bool) : signed neg 0 = 0 := by simp [signed]

theorem signed_not (neg : Bool) (x : ℝ) : signed (!neg) x = -signed neg x := by cases neg <;> simp [signed]

theorem abs_signed (neg : Bool) (x : ℝ) : |signed neg x| = |x| := by cases neg <;> simp [signed]

theorem signed_mul_signed (a b : Bool) (x y : ℝ) : signed a x * signed b y = signed (a ^^ b) (x * y) := by
  cases a <;> cases b <;> simp [signed]

theorem signed_div_signed (a b : Bool) (x y : ℝ) : signed a x / signed b y = signed (a ^^ b) (x / y) := by
  cases a <;> cases b <;> simp [signed, neg_div, div_neg]

theorem signed_inj {neg : Bool} {x y : ℝ} (h : signed neg x = signed neg y) : x = y := by
  cases neg
  · exact h
  · exact neg_injective h

/-- An integer as a sign and a magnitude. -/
theorem intCast_eq_signed (s : Int) : (s : ℝ) = signed (decide (s < 0)) s.natAbs := by
  rw [Nat.cast_natAbs, Int.cast_abs]
  by_cases h : s < 0
  · have hs : (s : ℝ) < 0 := by exact_mod_cast h
    simp [signed, h, abs_of_neg hs]
  · have hs : (0 : ℝ) ≤ s := by exact_mod_cast not_lt.mp h
    simp [signed, h, abs_of_nonneg hs]

theorem intCast_ite_neg_eq_signed (neg : Bool) (n : Nat) :
    (((if neg then -(n : Int) else n : Int)) : ℝ) = signed neg n := by
  cases neg <;> simp [signed]

/-! ## Reading a pattern -/

/-- A finite binary64 pattern reads as a signed integer of at most 53 bits times a power of 2. -/
theorem of64_eq_signed {x : DWord} (hx : Binary64.isFinite x = true) :
    ∃ m e, Num.of64 x = .fin (Binary64.signBit x) m e ∧ m < 2 ^ 53 ∧ (Binary64.magnitude x = 0 ↔ m = 0) ∧
      ((Binary64.val x : ℚ) : ℝ) = signed (Binary64.signBit x) (m * 2 ^ e) := by
  obtain ⟨m, e, hread, hm, -, hzero, hval⟩ := of64_fin hx
  exact ⟨m, e, hread, hm, hzero, hval.trans (signed_eq_mul _ _).symm⟩

/-- Both zeros read as `0 * 2^-1074` with their sign. -/
theorem of64_zero {z : DWord} (hz : z = 0#64 ∨ z = Binary64.negZero) :
    Num.of64 z = .fin (Binary64.signBit z) 0 (-1074) := by
  rcases hz with rfl | rfl <;> decide

theorem of64_infinity {x : DWord} (hx : x = Binary64.posInf ∨ x = Binary64.negInf) :
    Num.of64 x = .inf (Binary64.signBit x) := by
  rcases hx with rfl | rfl <;> decide

theorem significand_ne_zero {x : DWord} {neg : Bool} {m : Nat} {e : Int} (h0 : Binary64.val x ≠ 0)
    (hval : ((Binary64.val x : ℚ) : ℝ) = signed neg (m * 2 ^ e)) : m ≠ 0 := by
  rintro rfl
  rw [Nat.cast_zero, zero_mul, signed_zero] at hval
  exact h0 (by exact_mod_cast hval)

theorem eq_negZero_of_magnitude {x : DWord} (hs : Binary64.signBit x = true) (hm : Binary64.magnitude x = 0) :
    x = Binary64.negZero := by
  apply BitVec.eq_of_toNat_eq
  rw [Elementary.toNat_eq, hs, hm]
  rfl

theorem isNaN_nan : Binary64.isNaN F64.nan = true := by decide

/-! ## Negation -/

theorem signBit_neg (x : DWord) : Binary64.signBit (F64.neg x) = !Binary64.signBit x := Elementary.flip_sign x

theorem magnitude_neg (x : DWord) : Binary64.magnitude (F64.neg x) = Binary64.magnitude x := Elementary.flip_magnitude x

theorem isFinite_neg {x : DWord} (hx : Binary64.isFinite x = true) : Binary64.isFinite (F64.neg x) = true := by
  rw [isFinite_iff] at hx ⊢
  rwa [magnitude_neg]

theorem val_neg (x : DWord) : ((Binary64.val (F64.neg x) : ℚ) : ℝ) = -(Binary64.val x : ℚ) := by
  rw [val_eq, val_eq, signBit_neg, magnitude_neg, ← signed_eq_mul, ← signed_eq_mul, signed_not]

theorem isNaN_iff (x : DWord) : Binary64.isNaN x = true ↔ 2047 * 2 ^ 52 < Binary64.magnitude x := by
  have := x.isLt
  simp only [Binary64.isNaN, Binary64.expField, Binary64.fracField, Binary64.magnitude, Bool.and_eq_true, beq_iff_eq,
    bne_iff_ne]
  omega

theorem isNaN_neg {x : DWord} (hx : Binary64.isNaN x = true) : Binary64.isNaN (F64.neg x) = true := by
  rw [isNaN_iff] at hx ⊢
  rwa [magnitude_neg]

/-! ## Rounding -/

/-- `round64` is `RN` of the exact value of its arguments. -/
theorem round64_rounds_signed (neg : Bool) (m : Nat) (e : Int) :
    Binary64.Rounds (signed neg (m * 2 ^ e)) (round64 neg m e) := round64_rounds neg m e (.inl rfl)

/-- A signed zero is the rounding of 0. -/
theorem zero_rounds (neg : Bool) : Binary64.Rounds 0 (F64.zero neg) := by
  have hround : F64.zero neg = round64 neg 0 0 := by cases neg <;> decide
  have h := round64_rounds_signed neg 0 0
  rwa [Nat.cast_zero, zero_mul, signed_zero, ← hround] at h

/-- A smaller exponent, with the significand scaled to keep the value. -/
theorem mul_zpow_of_le (m : Nat) {e e' : Int} (h : e ≤ e') :
    ((m * 2 ^ (e' - e).toNat : Nat) : ℝ) * 2 ^ e = m * 2 ^ e' := by
  push_cast
  rw [mul_assoc, ← zpow_natCast, Int.toNat_of_nonneg (by omega), ← zpow_add₀ (by norm_num), sub_add_cancel]

theorem signed_mul_zpow_of_le (neg : Bool) (m : Nat) {e e' : Int} (h : e ≤ e') :
    signed neg (m * 2 ^ (e' - e).toNat : Nat) * 2 ^ e = signed neg (m * 2 ^ e') := by
  rw [signed_eq_mul, mul_assoc, mul_zpow_of_le m h, signed_eq_mul]

/-- A multiple of a spacing with at most `p + 1` bits is a grid point. -/
theorem exists_grid_eq {p m : Nat} (k : Nat) (hm : m ≤ 2 ^ (p + 1)) : ∃ q, grid p q = m * 2 ^ k := by
  induction k generalizing m with
  | zero => exact ⟨0 * 2 ^ p + m, grid_binade (.inl rfl) hm⟩
  | succ k ih =>
    by_cases hp : 2 ^ p ≤ m
    · exact ⟨(k + 1) * 2 ^ p + m, grid_binade (.inr hp) hm⟩
    · obtain ⟨q, hq⟩ := ih (m := 2 * m) (by rw [pow_succ]; omega)
      exact ⟨q, by rw [hq]; ring⟩

/-- A grid point is its own nearest grid point. -/
theorem NearGrid.eq_of_grid {p U q : Nat} {x : ℝ} (h : NearGrid p U x) (hq : (grid p q : ℝ) = x) :
    (grid p U : ℝ) = x := by
  have hle := h.le q
  rw [hq, sub_self, abs_zero] at hle
  exact sub_eq_zero.mp (abs_nonpos_iff.mp hle)

/-- A value of at most 53 bits in the range of binary64 is rounded to itself. -/
theorem round64_exact (neg : Bool) {m : Nat} {e : Int} (hm : m ≤ 2 ^ 53) (he : -1074 ≤ e)
    (hlt : (m : ℝ) * 2 ^ e < 2 ^ 1024 - 2 ^ 970) :
    Binary64.isFinite (round64 neg m e) = true ∧
      ((Binary64.val (round64 neg m e) : ℚ) : ℝ) = signed neg (m * 2 ^ e) := by
  have hfin : Binary64.isFinite (round64 neg m e) = true := by
    apply (round64_rounds_signed neg m e).finite
    rwa [abs_signed, abs_of_nonneg (by positivity)]
  refine ⟨hfin, ?_⟩
  obtain ⟨U, hU, hnear⟩ := roundMag_spec 11 52 (-1074) m e (by norm_num) (.inl rfl)
  have hmag : Binary64.magnitude (round64 neg m e) = U := by
    rw [isFinite_iff, magnitude_round64] at hfin
    rw [magnitude_round64]
    omega
  have hgrid : (m : ℝ) * 2 ^ e * 2 ^ (-(-1074) : Int) = (m * 2 ^ (e - -1074).toNat : Nat) := by
    rw [← mul_zpow_of_le m he, mul_assoc, ← zpow_add₀ (by norm_num), add_neg_cancel, zpow_zero, mul_one]
  obtain ⟨q, hq⟩ := exists_grid_eq (p := 52) (e - -1074).toNat hm
  have hval := hnear.eq_of_grid (q := q) (by rw [hq, hgrid])
  rw [val_eq, signBit_round64, hmag, hval, ← signed_eq_mul, neg_neg, zpow_ofNat, mul_div_cancel_right₀ _ (by positivity)]

/-! ## Addition and subtraction -/

/-- `exactSum` is the exact sum. -/
theorem exactSum_eq (n1 : Bool) (m1 : Nat) (e1 : Int) (n2 : Bool) (m2 : Nat) (e2 : Int) :
    ((F64.exactSum n1 m1 e1 n2 m2 e2).1 : ℝ) * 2 ^ (F64.exactSum n1 m1 e1 n2 m2 e2).2 =
      signed n1 (m1 * 2 ^ e1) + signed n2 (m2 * 2 ^ e2) := by
  rw [F64.exactSum, Int.cast_add, add_mul, intCast_ite_neg_eq_signed, intCast_ite_neg_eq_signed,
    signed_mul_zpow_of_le n1 m1 (min_le_left _ _), signed_mul_zpow_of_le n2 m2 (min_le_right _ _)]

/-- The sum of two finite values is the exact sum rounded once. -/
theorem addNum_rounds (n1 : Bool) (m1 : Nat) (e1 : Int) (n2 : Bool) (m2 : Nat) (e2 : Int) :
    Binary64.Rounds (signed n1 (m1 * 2 ^ e1) + signed n2 (m2 * 2 ^ e2)) (F64.addNum (.fin n1 m1 e1) (.fin n2 m2 e2)) := by
  rw [← exactSum_eq, F64.addNum]
  generalize F64.exactSum n1 m1 e1 n2 m2 e2 = s
  by_cases h0 : s.1 = 0
  · simp only [h0, if_true, Int.cast_zero, zero_mul]
    exact zero_rounds _
  · simp only [h0, if_false]
    rw [intCast_eq_signed, signed_eq_mul, mul_assoc, ← signed_eq_mul]
    exact round64_rounds_signed _ _ _

theorem add_rounds {x y : DWord} (hx : Binary64.isFinite x = true) (hy : Binary64.isFinite y = true) :
    Binary64.Rounds ((Binary64.val x : ℝ) + (Binary64.val y : ℝ)) (F64.add x y) := by
  obtain ⟨m1, e1, hread1, -, -, hval1⟩ := of64_eq_signed hx
  obtain ⟨m2, e2, hread2, -, -, hval2⟩ := of64_eq_signed hy
  rw [F64.add, hread1, hread2, hval1, hval2]
  exact addNum_rounds _ _ _ _ _ _

theorem sub_rounds {x y : DWord} (hx : Binary64.isFinite x = true) (hy : Binary64.isFinite y = true) :
    Binary64.Rounds ((Binary64.val x : ℝ) - (Binary64.val y : ℝ)) (F64.sub x y) := by
  have h := add_rounds hx (isFinite_neg hy)
  rwa [val_neg, ← sub_eq_add_neg] at h

/-- Settles O27: the sum is exact before its one rounding (`exactSum_eq`), and `x - y` is `x + (-y)`. -/
theorem addRounds : Obligations.AddRounds := by
  unfold Obligations.AddRounds
  exact fun x y hx hy => ⟨add_rounds hx hy, sub_rounds hx hy⟩

/-! ## Multiplication and division -/

/-- Settles O28: the product of the significands is exact, and the signs combine by exclusive or. -/
theorem mulRounds : Obligations.MulRounds := by
  unfold Obligations.MulRounds
  intro x y hx hy
  obtain ⟨m1, e1, hread1, -, -, hval1⟩ := of64_eq_signed hx
  obtain ⟨m2, e2, hread2, -, -, hval2⟩ := of64_eq_signed hy
  have hmul : F64.mul x y = round64 (Binary64.signBit x ^^ Binary64.signBit y) (m1 * m2) (e1 + e2) := by
    rw [F64.mul, hread1, hread2, F64.mulNum]
  have hexact : ((m1 * m2 : Nat) : ℝ) * 2 ^ (e1 + e2) = (m1 * 2 ^ e1) * (m2 * 2 ^ e2) := by
    rw [zpow_add₀ (by norm_num), Nat.cast_mul]
    ring
  rw [hmul, hval1, hval2, signed_mul_signed, ← hexact]
  exact ⟨round64_rounds_signed _ _ _, signBit_round64 _ _ _⟩

/-- Settles O29: the digits that `quotient` gives stand for the exact quotient (`quotient_standsFor`). -/
theorem divRounds : Obligations.DivRounds := by
  unfold Obligations.DivRounds
  intro x y hx hy hy0
  obtain ⟨m1, e1, hread1, -, -, hval1⟩ := of64_eq_signed hx
  obtain ⟨m2, e2, hread2, -, -, hval2⟩ := of64_eq_signed hy
  have hm2 := significand_ne_zero hy0 hval2
  have hdiv : F64.div x y = round64 (Binary64.signBit x ^^ Binary64.signBit y) (F64.quotient m1 e1 m2 e2).1
      (F64.quotient m1 e1 m2 e2).2 := by
    rw [F64.div, hread1, hread2, F64.divNum, if_neg hm2]
  rw [hdiv, hval1, hval2, signed_div_signed]
  exact ⟨round64_rounds _ _ _ (quotient_standsFor m1 e1 e2 (Nat.pos_of_ne_zero hm2)), signBit_round64 _ _ _⟩

/-! ## Square root -/

/-- The square root of a finite value that is not negative is the exact one rounded once. -/
theorem sqrt_rounds {x : DWord} (hx : Binary64.isFinite x = true) (h0 : 0 ≤ Binary64.val x) :
    Binary64.Rounds (Real.sqrt (Binary64.val x : ℝ)) (F64.sqrt x) := by
  obtain ⟨m, e, hread, hm, -, hval⟩ := of64_eq_signed hx
  rw [F64.sqrt, hread, F64.sqrtNum]
  by_cases hm0 : m = 0
  · rw [if_pos hm0, hval, hm0, Nat.cast_zero, zero_mul, signed_zero, Real.sqrt_zero]
    exact zero_rounds _
  · have hpos : (0 : ℝ) < m * 2 ^ e := by
      have : (0 : ℝ) < m := by exact_mod_cast Nat.pos_of_ne_zero hm0
      positivity
    have hsign : Binary64.signBit x = false := by
      by_contra hs
      rw [Bool.not_eq_false] at hs
      have h0' : (0 : ℝ) ≤ (Binary64.val x : ℚ) := by exact_mod_cast h0
      rw [hval, hs, signed, if_pos rfl] at h0'
      linarith
    rw [hval, hsign, if_neg hm0, signed]
    exact round64_rounds false _ _ (root_standsFor e (Nat.pos_of_ne_zero hm0) hm)

/-- The square root of a negative value other than -0, of -infinity and of a NaN is a NaN. -/
theorem sqrt_of_negative {x : DWord} (hs : Binary64.signBit x = true) (hx : x ≠ Binary64.negZero) :
    F64.sqrt x = F64.nan := by
  rw [F64.sqrt]
  cases hf : Binary64.isFinite x with
  | true =>
    obtain ⟨m, e, hread, -, hzero, -⟩ := of64_eq_signed hf
    have hm : m ≠ 0 := fun h => hx (eq_negZero_of_magnitude hs (hzero.mpr h))
    rw [hread, hs, F64.sqrtNum, if_neg hm, if_pos rfl]
  | false =>
    cases hn : Binary64.isNaN x with
    | true => rw [of64_nan hn, F64.sqrtNum]
    | false => rw [of64_inf hf hn, hs, F64.sqrtNum, if_pos rfl]

/-- Settles O30: the digits that `root` gives stand for the exact root (`root_standsFor`). -/
theorem sqrtRounds : Obligations.SqrtRounds := by
  unfold Obligations.SqrtRounds
  refine ⟨fun x => sqrt_rounds, by decide, by decide, by decide, fun x hs hx => ?_, fun x hx => ?_⟩
  · rw [sqrt_of_negative hs hx]
    exact isNaN_nan
  · rw [F64.sqrt, of64_nan hx]
    exact isNaN_nan

/-! ## Special operands -/

theorem addNum_nan_right (a : Num) : F64.addNum a .nan = F64.nan := by cases a <;> rfl
theorem mulNum_nan_right (a : Num) : F64.mulNum a .nan = F64.nan := by cases a <;> rfl
theorem divNum_nan_right (a : Num) : F64.divNum a .nan = F64.nan := by cases a <;> rfl

/-- A NaN operand gives a NaN (44_dequant.md R190). -/
theorem arith_of_nan {x y : DWord} (h : Binary64.isNaN x = true ∨ Binary64.isNaN y = true) :
    F64.add x y = F64.nan ∧ F64.sub x y = F64.nan ∧ F64.mul x y = F64.nan ∧ F64.div x y = F64.nan := by
  rw [F64.add, F64.sub, F64.mul, F64.div]
  rcases h with hx | hy
  · rw [of64_nan hx]
    exact ⟨rfl, rfl, rfl, rfl⟩
  · rw [of64_nan hy, of64_nan (isNaN_neg hy)]
    exact ⟨addNum_nan_right _, addNum_nan_right _, mulNum_nan_right _, divNum_nan_right _⟩

theorem div_zero_eq {x z : DWord} (hx : Binary64.isFinite x = true) (hx0 : Binary64.val x ≠ 0)
    (hz : z = 0#64 ∨ z = Binary64.negZero) : F64.div x z = F64.inf (Binary64.signBit x ^^ Binary64.signBit z) := by
  obtain ⟨m, e, hread, -, -, hval⟩ := of64_eq_signed hx
  rw [F64.div, hread, of64_zero hz, F64.divNum, if_pos rfl, if_neg (significand_ne_zero hx0 hval)]

theorem sub_self_infinity {x : DWord} (hx : x = Binary64.posInf ∨ x = Binary64.negInf) : F64.sub x x = F64.nan := by
  rcases hx with rfl | rfl <;> decide

/-- An exact zero sum of operands of opposite sign is +0. -/
theorem add_opposite {x y : DWord} (hx : Binary64.isFinite x = true) (hy : Binary64.isFinite y = true)
    (hs : Binary64.signBit x ≠ Binary64.signBit y) (h0 : Binary64.val x + Binary64.val y = 0) : F64.add x y = 0#64 := by
  obtain ⟨m1, e1, hread1, -, -, hval1⟩ := of64_eq_signed hx
  obtain ⟨m2, e2, hread2, -, -, hval2⟩ := of64_eq_signed hy
  have hsum := exactSum_eq (Binary64.signBit x) m1 e1 (Binary64.signBit y) m2 e2
  rw [← hval1, ← hval2, ← Rat.cast_add, h0, Rat.cast_zero] at hsum
  have hzero : (F64.exactSum (Binary64.signBit x) m1 e1 (Binary64.signBit y) m2 e2).1 = 0 := by
    exact_mod_cast (mul_eq_zero.mp hsum).resolve_right (by positivity)
  have hand : (Binary64.signBit x && Binary64.signBit y) = false := by
    revert hs
    cases Binary64.signBit x <;> cases Binary64.signBit y <;> decide
  rw [F64.add, hread1, hread2, F64.addNum, hzero, if_pos rfl, hand]
  rfl

/-- Settles O31: each clause is the matching row of the operation, after its operands are read (`of64_zero`,
`of64_infinity`, `of64_nan`); the last one is `add_opposite`. -/
theorem specialOperands : Obligations.SpecialOperands := by
  unfold Obligations.SpecialOperands
  refine ⟨fun x z hx hx0 hz => ?_, fun z z' hz hz' => ?_, fun x hx => ?_, fun z x hz hx => ?_, fun x y h => ?_,
    fun x y => add_opposite⟩
  · rw [div_zero_eq hx hx0 hz]
    cases Binary64.signBit x <;> cases Binary64.signBit z <;> rfl
  · rw [F64.div, of64_zero hz, of64_zero hz', F64.divNum, if_pos rfl, if_pos rfl]
    exact isNaN_nan
  · rw [sub_self_infinity hx]
    exact isNaN_nan
  · rw [F64.mul, F64.mul, of64_zero hz, of64_infinity hx]
    exact ⟨isNaN_nan, isNaN_nan⟩
  · obtain ⟨hadd, hsub, hmul, hdiv⟩ := arith_of_nan h
    rw [hadd, hsub, hmul, hdiv]
    exact ⟨isNaN_nan, isNaN_nan, isNaN_nan, isNaN_nan⟩

/-! ## Conversions -/

/-- A finite binary32 pattern reads as a signed integer of at most 24 bits times a power of 2. -/
theorem of32_eq_signed {w : Word} (hw : Binary64.isFinite32 w = true) :
    ∃ m e, Num.of32 w = .fin (Binary64.signBit32 w) m e ∧ m < 2 ^ 24 ∧ -149 ≤ e ∧
      (m : ℝ) * 2 ^ e < 2 ^ 128 - 2 ^ 103 ∧
      ((Binary64.val32 w : ℚ) : ℝ) = signed (Binary64.signBit32 w) (m * 2 ^ e) := by
  obtain ⟨m, e, hread, hm, he, he', hval⟩ := of32_fin hw
  refine ⟨m, e, hread, hm, he, ?_, hval.trans (signed_eq_mul _ _).symm⟩
  have hm' : (m : ℝ) ≤ 2 ^ 24 - 1 := by
    have : (m : ℝ) + 1 ≤ 2 ^ 24 := by exact_mod_cast hm
    linarith
  have hpow : (2 : ℝ) ^ e ≤ 2 ^ (104 : Int) := zpow_le_zpow_right₀ (by norm_num) he'
  calc (m : ℝ) * 2 ^ e ≤ (2 ^ 24 - 1) * 2 ^ (104 : Int) := mul_le_mul hm' hpow (by positivity) (by norm_num)
    _ < 2 ^ 128 - 2 ^ 103 := by norm_num

/-- Every finite binary32 value is below the bound of `Rounds32`. -/
theorem abs_val32_lt {w : Word} (hw : Binary64.isFinite32 w = true) : |(Binary64.val32 w : ℝ)| < 2 ^ 128 - 2 ^ 103 := by
  obtain ⟨m, e, -, -, -, hlt, hval⟩ := of32_eq_signed hw
  rwa [hval, abs_signed, abs_of_nonneg (by positivity)]

theorem binary32_range_lt : (2 : ℝ) ^ 128 - 2 ^ 103 < 2 ^ 1024 - 2 ^ 970 := by
  have h971 : (2 : ℝ) ^ 970 + 2 ^ 970 = 2 ^ 971 := by rw [← two_mul, ← pow_succ']
  calc (2 : ℝ) ^ 128 - 2 ^ 103 < 2 ^ 128 := sub_lt_self _ (by positivity)
    _ ≤ 2 ^ 970 := pow_le_pow_right₀ (by norm_num) (by norm_num)
    _ ≤ 2 ^ 1024 - 2 ^ 970 := by
      rw [le_sub_iff_add_le, h971]
      exact pow_le_pow_right₀ (by norm_num) (by norm_num)

/-- A finite binary32 value has at most 24 bits, so `widen` rounds it to itself. -/
theorem widen_finite {w : Word} (hw : Binary64.isFinite32 w = true) :
    Binary64.isFinite (widen w) = true ∧ Binary64.val (widen w) = Binary64.val32 w ∧
      Binary64.signBit (widen w) = Binary64.signBit32 w := by
  obtain ⟨m, e, hread, hm, he, hlt, hval⟩ := of32_eq_signed hw
  have hwiden : widen w = round64 (Binary64.signBit32 w) m e := by rw [widen, hread]
  obtain ⟨hfin, hval'⟩ := round64_exact (Binary64.signBit32 w) (by omega) (by omega) (hlt.trans binary32_range_lt)
  rw [hwiden]
  refine ⟨hfin, ?_, signBit_round64 _ _ _⟩
  exact_mod_cast hval'.trans hval.symm

theorem widen_nan {w : Word} (hw : Binary64.isNaN32 w = true) : widen w = F64.nan := by rw [widen, of32_nan hw]

/-- Settles O32: `widen_nan`, `widen_finite`, and both infinities evaluated. -/
theorem widenExact : Obligations.WidenExact := by
  unfold Obligations.WidenExact
  refine fun w => ⟨widen_nan, widen_finite, ?_, ?_⟩
  · rintro rfl; decide
  · rintro rfl; decide

theorem narrow_nan {x : DWord} (hx : Binary64.isNaN x = true) : narrow x = 0x7FC00000#32 := by
  rw [narrow, of64_nan hx]

/-- `narrow` rounds the exact value once and keeps the sign. -/
theorem narrow_finite {x : DWord} (hx : Binary64.isFinite x = true) :
    Binary64.Rounds32 (Binary64.val x : ℝ) (narrow x) ∧ Binary64.signBit32 (narrow x) = Binary64.signBit x := by
  obtain ⟨m, e, hread, -, -, hval⟩ := of64_eq_signed hx
  have hnarrow : narrow x = round32 (Binary64.signBit x) m e := by rw [narrow, hread]
  rw [hnarrow, hval]
  exact ⟨round32_rounds _ _ _ (.inl rfl), signBit_round32 _ _ _⟩

/-- Settles O33: `narrow_nan`, `narrow_finite`, and the infinities and the rule's examples evaluated. -/
theorem narrowRounds : Obligations.NarrowRounds := by
  unfold Obligations.NarrowRounds
  refine ⟨fun x => narrow_nan, fun x => narrow_finite, ?_⟩
  decide

/-- A binary32 value and its sign determine the pattern. -/
theorem eq_of_val32_eq {v w : Word} (hs : Binary64.signBit32 v = Binary64.signBit32 w)
    (hv : Binary64.val32 v = Binary64.val32 w) : v = w := by
  have hreal : ((Binary64.val32 v : ℚ) : ℝ) = (Binary64.val32 w : ℚ) := by rw [hv]
  rw [val32_eq, val32_eq, hs, ← signed_eq_mul, ← signed_eq_mul] at hreal
  have hgrid : grid 23 (v.toNat % 2 ^ 31) = grid 23 (w.toNat % 2 ^ 31) := by
    exact_mod_cast (div_left_inj' (by positivity)).mp (signed_inj hreal)
  have hmag := (grid_strictMono 23).injective hgrid
  rw [Binary64.signBit32, Binary64.signBit32, Bool.eq_iff_iff, beq_iff_eq, beq_iff_eq] at hs
  apply BitVec.eq_of_toNat_eq
  omega

/-- A binary32 pattern that is not finite and not a NaN is the infinity of its sign. -/
theorem eq_infinity32 {w : Word} (hf : Binary64.isFinite32 w = false) (hn : Binary64.isNaN32 w = false) :
    w = 0x7F800000#32 ∨ w = 0xFF800000#32 := by
  simp only [Binary64.isFinite32, bne_eq_false_iff_eq] at hf
  simp only [Binary64.isNaN32, hf, beq_self_eq_true, Bool.true_and, bne_eq_false_iff_eq] at hn
  rw [Binary64.expField32] at hf
  rw [Binary64.fracField32] at hn
  rw [← BitVec.toNat_inj, ← BitVec.toNat_inj, BitVec.toNat_ofNat, BitVec.toNat_ofNat]
  have := w.isLt
  omega

/-- A finite binary32 value is the binary32 value nearest itself, so `narrow` gives it back. -/
theorem narrow_widen_finite {w : Word} (hw : Binary64.isFinite32 w = true) : narrow (widen w) = w := by
  obtain ⟨hfin, hval, hsign⟩ := widen_finite hw
  obtain ⟨hround, hsign'⟩ := narrow_finite hfin
  rw [hval] at hround
  have hdist := hround.nearest (abs_val32_lt hw) w hw
  rw [sub_self, abs_zero] at hdist
  refine eq_of_val32_eq (hsign'.trans hsign) ?_
  exact_mod_cast sub_eq_zero.mp (abs_nonpos_iff.mp hdist)

/-- Settles O34: `narrow_widen_finite` for the finite patterns; the infinities are evaluated and a NaN comes back as the
canonical one. -/
theorem narrowOfWiden : Obligations.NarrowOfWiden := by
  unfold Obligations.NarrowOfWiden
  intro w
  cases hn : Binary64.isNaN32 w with
  | true =>
    rw [widen_nan hn, narrow_nan isNaN_nan]
    rfl
  | false =>
    cases hf : Binary64.isFinite32 w with
    | true => exact narrow_widen_finite hf
    | false => rcases eq_infinity32 hf hn with rfl | rfl <;> decide

end Sys2Proof.Machine
end

section
/-! The sequencer (41_sequencing.md): the fetch at `cptr` and the command a step runs, the two commands without operands,
and, for every command in every state, that it retires or takes an error. A command that retires with the run going on
moves `cptr` one word towards the end of EMEM, and a fetch from there on is an error: so every run ends. -/

namespace Sys2Proof.Machine

/-! ## Fetch and decode -/

section
variable {s : State} {i : Instr}

theorem Memory.readLE_four (m : Memory) (a : Nat) :
    m.readLE a 4 = (m.byte a).toNat + 2 ^ 8 * (m.byte (a + 1)).toNat + 2 ^ 16 * (m.byte (a + 2)).toNat
      + 2 ^ 24 * (m.byte (a + 3)).toNat := by
  simp only [Memory.readLE]
  ring_nf

theorem engineStep_idle (hb : s.busy = false) : engineStep s = .next s := by
  rw [engineStep, hb]; rfl

theorem engineStep_exec (hb : s.busy = true) (h : fetchInstr s = .ok i) : engineStep s = exec i s := by
  rw [engineStep, hb, h]; rfl

/-- Beyond EMEM the fetch fails, and with it the step (41_sequencing.md R151). -/
theorem engineStep_beyond (hb : s.busy = true) (h : Config.ememBytes < s.cptr.toNat + 4) :
    engineStep s = .next (s.raise (.io 1)) := by
  refine engineStep_error hb ?_
  rw [fetchInstr, fetch, readWordChecked_beyond s.mem h]
  rfl

theorem decodeFetched_ok {w : Nat} (hw : w < 2 ^ 32) (h : decodeWord w = .ok i) : decodeFetched w = .ok i := by
  have hbytes := decodeBytes_toBytesLE hw []
  rw [List.append_nil, h] at hbytes
  rw [decodeFetched, hbytes]
  rfl

theorem fetchInstr_ok (hfit : s.cptr.toNat + 4 ≤ Config.ememBytes)
    (h : decodeWord (s.mem.readLE s.cptr.toNat 4) = .ok i) : fetchInstr s = .ok i := by
  rw [fetchInstr, fetch_ok hfit]
  exact decodeFetched_ok (fetch_lt (fetch_ok hfit)) h

/-- A command that was fetched lies in EMEM. -/
theorem fits_of_fetchInstr_ok (h : fetchInstr s = .ok i) : s.cptr.toNat + 4 ≤ Config.ememBytes := by
  obtain ⟨w, hw, -⟩ := bind_eq_ok_iff.mp h
  exact (readWordChecked_cases hw).1

end

/-- Settles O6: the step of a failing fetch is error entry (`engineStep_beyond`); a fetch in EMEM reads four bytes. -/
theorem fetchReadsEmem : Obligations.FetchReadsEmem := by
  unfold Obligations.FetchReadsEmem
  refine ⟨fun s hturns hb hout => ?_, fun s hfit => ?_⟩
  · exact ⟨_, (step_engine hturns).trans (engineStep_beyond hb hout), raise_errored s _, rfl⟩
  · rw [fetch_ok hfit, Memory.readLE_four]

/-- Settles O5: the sequencer runs the command it fetched (`engineStep_exec`); a scheduled turn leaves `cptr` and EMEM
alone. -/
theorem stepRunsDecoded : Obligations.StepRunsDecoded := by
  unfold Obligations.StepRunsDecoded
  refine ⟨fun s i hturns hb hfit hi => ?_, fun s i rest hturns hb hfit hi => ?_, fun s hturns hb => ?_⟩
  · exact (step_engine hturns).trans (engineStep_exec hb (fetchInstr_ok hfit hi))
  · rw [step, hturns]
    exact engineStep_exec (s := { s with turns := rest }) hb (fetchInstr_ok hfit hi)
  · exact (step_engine hturns).trans (engineStep_idle hb)

/-! ## NOP and HALT -/

/-- Among the words with the opcode of a command that shares its opcode with no other command, only its own is legal
(30_encoding.md R99 (b)). -/
theorem illegalWord_of_ne_encode {i : Instr} (honly : ∀ j : Instr, j.opcode = i.opcode → j = i) {w : Nat}
    (hw : w < 2 ^ 32) (hop : bits w 31 26 = i.opcode.code) (hne : w ≠ encode i) : illegalWord w = true := by
  by_contra hlegal
  obtain ⟨j, hj⟩ := (decodes_iff_not_illegal w).mpr (Bool.eq_false_iff.mpr hlegal)
  obtain ⟨-, henc⟩ := (decodeWord_eq_ok_iff hw j).mp hj
  have hcode : j.opcode.code = i.opcode.code := ((encode_eq_iff j hw).mp henc).1.trans hop
  have hsome := (Opcode.ofCode_eq_some_iff _ _).mpr hcode
  rw [(Opcode.ofCode_eq_some_iff _ _).mpr rfl, Option.some_inj] at hsome
  exact hne (by rw [← henc, honly j hsome.symm])

theorem eq_nop_of_opcode {j : Instr} (h : j.opcode = .nop) : j = .nop := by
  cases j with
  | nop => rfl
  | _ => cases h

theorem eq_halt_of_opcode {j : Instr} (h : j.opcode = .halt) : j = .halt := by
  cases j with
  | halt => rfl
  | _ => cases h

/-- Retiring after writes to the V file, EMEM and `OUT_COUNT` is R153 (41_sequencing.md), whole. -/
theorem retired_after_writes (s : State) (v : Vector DWord 16) (vw : Vector Bool 16) (m : Memory) (c : Word) :
    Retired s (State.retire { s with v := v, vWritten := vw, mem := m, outCount := c }) where
  cptr := rfl
  cmdCount := rfl
  busy := rfl
  done := rfl
  errs := by constructor <;> rfl
  rest := by constructor <;> rfl

theorem retire_wroteNothing (s : State) : WroteV [] s s.retire where
  retired := retired_after_writes s _ _ _ _
  v := .refl [] s
  written _ hd := absurd hd List.not_mem_nil
  mem _ := rfl
  outCount := rfl

/-- Settles O16: a word with the opcode of `NOP` is `NOP` or illegal (`illegalWord_of_ne_encode`), and `NOP` only
retires. -/
theorem nopRetires : Obligations.NopRetires := by
  unfold Obligations.NopRetires
  refine ⟨decodeWord_encode (i := .nop) rfl, fun w hw hop hne => ?_, fun s => ⟨_, rfl, retire_wroteNothing s⟩⟩
  exact illegalWord_of_ne_encode (i := .nop) (fun _ => eq_nop_of_opcode) hw hop hne

theorem statusWord_endRun {s : State} (h : s.err = false) : s.endRun.statusWord = 2#32 := by
  simp [State.statusWord, h]

/-- Settles O17: `HALT` retires as `NOP` does (`retire_wroteNothing`) and ends the run; the run after a `HALT` in the last
word fetches beyond EMEM (`engineStep_beyond`). -/
theorem haltEndsRun : Obligations.HaltEndsRun := by
  unfold Obligations.HaltEndsRun
  refine ⟨decodeWord_encode (i := .halt) rfl, fun w hw hop hne => ?_, fun s => ?_⟩
  · exact illegalWord_of_ne_encode (i := .halt) (fun _ => eq_halt_of_opcode) hw hop hne
  · have hr := (retire_wroteNothing s).retired
    refine ⟨s.retire.endRun, rfl, rfl, rfl, rfl, rfl, rfl, { hr.errs with }, { hr.rest with }, .refl [] s, fun _ => rfl,
      rfl, fun hptr hcount herr => ?_, fun hlast => ?_⟩
    · refine ⟨statusWord_endRun herr, ?_, ?_⟩
      · simp [hptr]
      · simp [hcount]
    · have hend : s.retire.endRun.cptr.toNat = Config.ememBytes := (next_cptr_toNat hlast.le).trans hlast
      refine ⟨hend, fun ie => ⟨_, engineStep_beyond rfl ?_, raise_errored _ _⟩⟩
      rw [State.start_cptr, hend]
      exact Nat.lt_add_of_pos_right (by decide)

/-! ## Every command retires or raises -/

/-- What a command answers in any state, canonical EMEM or not (`Ended` says more where EMEM is canonical): the run goes
on past it, `HALT` ends the run, or it takes the error entry of its kind. -/
inductive Answered (i : Instr) (s : State) : State → Prop
  | retired {t : State} (hi : i ≠ .halt) (h : Retired s t) : Answered i s t
  | halted (hi : i = .halt) : Answered i s s.retire.endRun
  | raised {t : State} (e : NceError) (h : Errored i.isFrame e s t) : Answered i s t

section
variable {i : Instr} {s : State}

/-- A command, no frame command, that writes once its check has passed. -/
theorem complete_answered {s' : State} (c : Except NceError Unit) (hf : i.isFrame = false) (hi : i ≠ .halt)
    (h : Retired s s'.retire) : ∃ t, complete s (do c; .ok s') = .next t ∧ Answered i s t := by
  cases c with
  | ok u => exact ⟨_, rfl, .retired hi h⟩
  | error e => exact ⟨_, rfl, .raised e (hf ▸ raise_errored s e)⟩

/-- A frame command, that writes once its checks have answered a plan. -/
theorem completeFrame_answered {α : Type} {f : α → State} (c : Except NceError α) (hf : i.isFrame = true)
    (hi : i ≠ .halt) (h : ∀ a, Retired s (f a).retire) : ∃ t, completeFrame s (c.map f) = .next t ∧ Answered i s t := by
  cases c with
  | ok a => exact ⟨_, rfl, .retired hi (h a)⟩
  | error e => exact ⟨_, rfl, .raised e (hf ▸ raiseFrame_errored s e)⟩

end

theorem exec_answered (i : Instr) (s : State) : ∃ t, exec i s = .next t ∧ Answered i s t := by
  cases i with
  | halt => exact ⟨_, rfl, .halted rfl⟩
  | nop | li | mov | unorm8 | u16n | dequant | dqrange | invlog | logitop | invsig | shdc =>
    exact complete_answered (.ok ()) rfl nofun (retired_after_writes s _ _ _ _)
  | ldw | ldf | ldb | stw | stf | cblk | unpk111011 | unpk8888 | unpkrot | quatst =>
    exact complete_answered _ rfl nofun (retired_after_writes s _ _ _ _)
  | decchk | decimg => exact completeFrame_answered _ rfl nofun fun _ => retired_after_writes s _ _ _ _

/-- Settles O7: what every command answers (`exec_answered`), with `HALT` apart. -/
theorem retiresOrRaises : Obligations.RetiresOrRaises := by
  unfold Obligations.RetiresOrRaises
  intro i s
  obtain ⟨t, ht, ha⟩ := exec_answered i s
  refine ⟨t, ht, ?_⟩
  cases ha with
  | retired hi h => exact .inl ⟨h.cmdCount, h.cptr, h.errs, h.rest, by rw [if_neg hi]; exact ⟨h.busy, h.done⟩⟩
  | halted hi =>
    have hr := (retire_wroteNothing s).retired
    exact .inl ⟨rfl, rfl, { hr.errs with }, { hr.rest with }, by rw [if_pos hi]; exact ⟨rfl, rfl⟩⟩
  | raised e h => exact .inr ⟨e, h⟩

/-! ## Every run ends -/

/-- The run has ended, by `HALT` or by an error (41_sequencing.md R157). -/
def RunOver (t : State) : Prop :=
  t.busy = false ∧ ((t.done = true ∧ t.err = false) ∨ (t.err = true ∧ t.done = false))

/-- The run goes on at the next word of EMEM. -/
structure RunsOn (s t : State) : Prop where
  busy : t.busy = true
  turns : t.turns = s.turns
  cptr : t.cptr.toNat = s.cptr.toNat + 4

/-- A run begins with its first step. -/
theorem run_succ_of_step {M : Host.Core} {s t : M.State} (h : M.step s = .next t) (k : Nat) :
    M.run (k + 1) s = M.run k t := by
  rw [Host.Core.run, h]

section
variable {s t : State}

theorem Errored.runOver {f : Bool} {e : NceError} (h : Errored f e s t) (hdone : s.done = false) : RunOver t :=
  ⟨h.busy, .inr ⟨h.err, h.done.trans hdone⟩⟩

/-- A step of a busy engine ends the run or goes one word on. -/
theorem engineStep_busy (h : Inv s) (hb : s.busy = true) : ∃ t, engineStep s = .next t ∧ (RunOver t ∨ RunsOn s t) := by
  obtain ⟨hdone, herr, -⟩ := h.busyClean hb
  cases hi : fetchInstr s with
  | error e => exact ⟨_, engineStep_error hb hi, .inl ((raise_errored s e).runOver hdone)⟩
  | ok i =>
    obtain ⟨t, ht, ha⟩ := exec_answered i s
    refine ⟨t, (engineStep_exec hb hi).trans ht, ?_⟩
    cases ha with
    | retired _ hr =>
      have hptr : t.cptr.toNat = s.cptr.toNat + 4 := by rw [hr.cptr]; exact next_cptr_toNat (fits_of_fetchInstr_ok hi)
      exact .inr ⟨hr.busy.trans hb, hr.rest.turns, hptr⟩
    | halted => exact .inl ⟨rfl, .inl ⟨rfl, herr⟩⟩
    | raised e he => exact .inl (he.runOver hdone)

end

/-- A run with at most `n` words of EMEM ahead of it ends within `n + 1` steps: each step that does not end it leaves one
word fewer, and with none left the fetch fails. -/
theorem run_ends (n : Nat) : ∀ s : State, Inv s → s.busy = true → s.turns = [] →
    Config.ememBytes ≤ s.cptr.toNat + 4 * n →
    ∃ k t, k ≤ n + 1 ∧ Host.Core.run Sys2Proof.core k s = .next t ∧ RunOver t := by
  induction n with
  | zero =>
    intro s h hb hturns hahead
    have hstep := (step_engine hturns).trans (engineStep_beyond hb (by omega))
    exact ⟨1, _, le_rfl, run_succ_of_step (M := Sys2Proof.core) hstep 0, (raise_errored s _).runOver (h.busyClean hb).1⟩
  | succ n ih =>
    intro s h hb hturns hahead
    obtain ⟨t, ht, hend⟩ := engineStep_busy h hb
    have hstep := run_succ_of_step (M := Sys2Proof.core) ((step_engine hturns).trans ht)
    rcases hend with hover | hon
    · exact ⟨1, t, by omega, hstep 0, hover⟩
    · have hahead' : Config.ememBytes ≤ t.cptr.toNat + 4 * n := by rw [hon.cptr]; omega
      obtain ⟨k, u, hk, hrun, hover⟩ := ih t (inv_engineStep h ht) hon.busy (hon.turns.trans hturns) hahead'
      exact ⟨k + 1, u, by omega, (hstep k).trans hrun, hover⟩

/-- Settles O11: at most all the words of EMEM lie ahead (`run_ends`). -/
theorem everyRunEnds : Obligations.EveryRunEnds := by
  unfold Obligations.EveryRunEnds
  intro s h hb hturns
  have hsize := ememBytes_mod_four
  exact run_ends (Config.ememBytes / 4) s h hb hturns (by omega)

end Sys2Proof.Machine
end

section
/-! The register and memory commands (42_register_memory.md). Each is one check of its effective address, none for `LI`
and `MOV`, and one write: of a V register, or of a word of EMEM. The check decides between retiring and error entry
(`wordAccess_clauses`); the write is said once for registers (`setV_wroteV`) and once for EMEM (`setWord_stores`). -/

namespace Sys2Proof.Machine

/-! ## Decoding by rows -/

/-- A word whose row's checks pass decodes to what the row reads off it (30_encoding.md R99, R100). -/
theorem decodeWord_of_row {o : Opcode} {w : Nat} (hop : bits w 31 26 = o.code) (hzero : o.zerosOk w = true)
    (hwf : (o.build w).wellFormed = true) : decodeWord w = .ok (o.build w) :=
  (decodeWord_eq_ok_iff_row w _).mpr ⟨o, hop.symm, hzero, hwf, rfl⟩

/-- The required-zero fields of a row with the operands `rd` and `ra` alone are bits [17:0]. -/
theorem zerosOk_iff_low18 {o : Opcode} (ho : o.zeroRanges = [(17, 14), (13, 10), (9, 8), (7, 0)]) (w : Nat) :
    o.zerosOk w = true ↔ bits w 17 0 = 0 := by
  have h17 : bits w 17 0 = 0 ↔ bits w 17 14 = 0 ∧ bits w 13 0 = 0 := bits_eq_zero_split w (by decide) (by decide)
  have h13 : bits w 13 0 = 0 ↔ bits w 13 10 = 0 ∧ bits w 9 0 = 0 := bits_eq_zero_split w (by decide) (by decide)
  have h9 : bits w 9 0 = 0 ↔ bits w 9 8 = 0 ∧ bits w 7 0 = 0 := bits_eq_zero_split w (by decide) (by decide)
  simp [Opcode.zerosOk_iff, ho, h17, h13, h9]

theorem illegalWord_of_low18 {o : Opcode} {w : Nat} (ho : o.zeroRanges = [(17, 14), (13, 10), (9, 8), (7, 0)])
    (hop : bits w 31 26 = o.code) (h : bits w 17 0 ≠ 0) : illegalWord w = true := by
  by_contra hlegal
  obtain ⟨hzero, -⟩ := (illegalWord_of_row hop.symm).mp (Bool.eq_false_iff.mpr hlegal)
  exact h ((zerosOk_iff_low18 ho w).mp hzero)

/-! ## The effective address -/

/-- 42_register_memory.md R160 on integers. -/
theorem effAddr_eq_emod (s : State) (ra : VReg) (off : BitVec 18) :
    ((s.effAddr ra off : Nat) : Int) = (((s.v[ra].toNat % 2 ^ 32 : Nat) : Int) + off.toInt) % 2 ^ 32 := by
  rw [State.effAddr, State.u32, BitVec.signExtend, BitVec.toNat_add, BitVec.toNat_ofNat, BitVec.toNat_ofInt]
  omega

/-- Settles O20: the sum of two 32-bit words, one of them the sign-extended offset (`effAddr_eq_emod`). -/
theorem effectiveAddress : Obligations.EffectiveAddress := by
  unfold Obligations.EffectiveAddress
  exact effAddr_eq_emod

/-- The rule of R160 gives one address. -/
theorem effAddr_eq_of_rule {s : State} {ra : VReg} {off : BitVec 18} {ea : Nat}
    (h : (ea : Int) = (((s.v[ra].toNat % 2 ^ 32 : Nat) : Int) + off.toInt) % 2 ^ 32) : s.effAddr ra off = ea :=
  Int.ofNat_inj.mp ((effAddr_eq_emod s ra off).trans h.symm)

/-! ## One check, one write -/

/-- A command whose one check is that of a 4-byte access: alignment, then bounds (60_exceptions.md R306), then what its
write gives. -/
theorem wordAccess_clauses {i : Instr} {s t : State} {ea : Nat} {P : State → Prop}
    (hi : exec i s = complete s do checkWordAccess ea; .ok t) (hP : P t.retire) :
    (ea % 4 ≠ 0 → ∃ u, exec i s = .next u ∧ Errored false (.alignment ea) s u) ∧
    (ea % 4 = 0 → Config.ememBytes < ea + 4 → ∃ u, exec i s = .next u ∧ Errored false (.io 1) s u) ∧
    (ea % 4 = 0 → ea + 4 ≤ Config.ememBytes → ∃ u, exec i s = .next u ∧ P u) := by
  refine ⟨fun ha => ?_, fun ha hb => ?_, fun ha hb => ?_⟩
  · exact ⟨_, by rw [hi, checkWordAccess_misaligned ha]; rfl, raise_errored s _⟩
  · exact ⟨_, by rw [hi, checkWordAccess_beyond ha hb]; rfl, raise_errored s _⟩
  · exact ⟨_, hi.trans (complete_checkWordAccess_ok ha hb t), hP⟩

/-- A command whose one check is that of a 1-byte access. -/
theorem byteAccess_clauses {i : Instr} {s t : State} {ea : Nat} {P : State → Prop}
    (hi : exec i s = complete s do checkByteAccess ea; .ok t) (hP : P t.retire) :
    (Config.ememBytes < ea + 1 → ∃ u, exec i s = .next u ∧ Errored false (.io 1) s u) ∧
    (ea + 1 ≤ Config.ememBytes → ∃ u, exec i s = .next u ∧ P u) := by
  refine ⟨fun hb => ?_, fun hb => ?_⟩
  · exact ⟨_, by rw [hi, checkByteAccess_beyond hb]; rfl, raise_errored s _⟩
  · exact ⟨_, by rw [hi, checkByteAccess_ok hb]; rfl, hP⟩

/-! ## Writes of a V register -/

theorem setV_get_same (s : State) (i : VReg) (x : DWord) : (s.setV i x).v[i] = x := by rw [setV_get, if_pos rfl]

/-- A command that writes one V register, and retires. -/
theorem setV_wroteV (s : State) (rd : VReg) (x : DWord) : WroteV [rd] s (s.setV rd x).retire where
  retired := retired_after_writes s _ _ _ _
  v := (SameVBut.refl [] s).setV rd x
  written d hd := (setV_getWritten s rd d x).trans (if_pos (List.mem_singleton.mp hd))
  mem _ := rfl
  outCount := rfl

/-- Settles O18: the row of `LI` has no required-zero field and no constraint on its destination. -/
theorem liLoadsImmediate : Obligations.LiLoadsImmediate := by
  unfold Obligations.LiLoadsImmediate
  refine ⟨fun w _ hop => decodeWord_of_row (o := .li) hop rfl rfl, decodeWord_encode (i := .li 0 0x1000#22) rfl,
    fun rd imm s => ⟨_, rfl, setV_wroteV s rd _, ?_⟩⟩
  exact (setV_get_same s rd _).trans (BitVec.ofNat_toNat 64 imm)

/-- Settles O19: the required-zero fields of the row of `MOV` are bits [17:0] (`zerosOk_iff_low18`). -/
theorem movCopies : Obligations.MovCopies := by
  unfold Obligations.MovCopies
  refine ⟨fun w _ hop hzero => ?_, fun w _ hop hne => illegalWord_of_low18 (o := .mov) rfl hop hne,
    decodeWord_encode (i := .mov 4 3) rfl,
    fun rd ra s => ⟨_, rfl, setV_wroteV s rd _, setV_get_same s rd _⟩⟩
  exact decodeWord_of_row (o := .mov) hop ((zerosOk_iff_low18 rfl w).mpr hzero) rfl

/-! ## Loads -/

/-- A number of at most 64 bits keeps its value when it is zero-extended (10_state.md R22). -/
theorem zext64_toNat {n : Nat} (h : n < 2 ^ 64) : (zext64 n).toNat = n := by
  rw [zext64, BitVec.toNat_ofNat, Nat.mod_eq_of_lt h]

/-- Settles O21: `wordAccess_clauses` at the address of R160, and the word read is its four bytes (`readLE_four`). -/
theorem ldwLoadsWord : Obligations.LdwLoadsWord := by
  unfold Obligations.LdwLoadsWord
  refine ⟨fun w _ hop => decodeWord_of_row (o := .ldw) hop rfl rfl, decodeWord_encode (i := .ldw 1 0 0#18) rfl,
    fun rd ra off s ea hea => ?_⟩
  obtain rfl := effAddr_eq_of_rule hea
  refine wordAccess_clauses rfl ⟨setV_wroteV s rd _, ?_⟩
  have hlt := Memory.readLE_lt s.mem 4 (s.effAddr ra off)
  rw [State.retire_v, setV_get_same, zext64_toNat (hlt.trans (by decide)), Memory.readLE_four]

/-- Two bit vectors side by side, as a number. -/
theorem toNat_append_eq_add {m n : Nat} (x : BitVec m) (y : BitVec n) : (x ++ y).toNat = x.toNat * 2 ^ n + y.toNat := by
  rw [BitVec.toNat_append, ← Nat.shiftLeft_add_eq_or_of_lt y.isLt, Nat.shiftLeft_eq]

/-- The word at an address is its four bytes, least significant at the lowest address (20_memory.md R61). -/
theorem Memory.word_eq_append (m : Memory) (a : Nat) :
    m.word a = m.byte (a + 3) ++ m.byte (a + 2) ++ m.byte (a + 1) ++ m.byte a := by
  apply BitVec.eq_of_toNat_eq
  rw [Memory.word, BitVec.toNat_ofNat, Nat.mod_eq_of_lt (Memory.readLE_lt m 4 a), Memory.readLE_four]
  simp only [toNat_append_eq_add]
  ring

/-- `widen` gives a canonical result, so `setf` writes it as it is (40_numerics.md R124, R126). -/
theorem canon_widen (w : Word) : F64.canon (widen w) = widen w := by
  cases hn : Binary64.isNaN32 w with
  | true => rw [widen_nan hn]; rfl
  | false =>
    cases hf : Binary64.isFinite32 w with
    | true =>
      have hnan : Binary64.isNaN (widen w) = false := (Elementary.not_finite_special (widen_finite hf).1).1
      rw [F64.canon, F64.isNaN, hnan]; rfl
    | false => rcases eq_infinity32 hf hn with rfl | rfl <;> decide

/-- Settles O22: the word read is its four bytes (`Memory.word_eq_append`), and its widening is written as it is
(`canon_widen`). -/
theorem ldfLoadsWidened : Obligations.LdfLoadsWidened := by
  unfold Obligations.LdfLoadsWidened
  refine ⟨fun w _ hop => decodeWord_of_row (o := .ldf) hop rfl rfl, fun rd ra off s => ?_⟩
  refine wordAccess_clauses rfl ⟨setV_wroteV s rd _, ?_⟩
  rw [State.retire_v, setF_get, if_pos rfl, canon_widen, Memory.word_eq_append]

/-- Settles O23: `byteAccess_clauses` at the address of R160. -/
theorem ldbLoadsByte : Obligations.LdbLoadsByte := by
  unfold Obligations.LdbLoadsByte
  refine ⟨fun w _ hop => decodeWord_of_row (o := .ldb) hop rfl rfl, fun rd ra off s ea hea => ?_⟩
  obtain rfl := effAddr_eq_of_rule hea
  refine byteAccess_clauses rfl ⟨setV_wroteV s rd _, ?_⟩
  rw [State.retire_v, setV_get_same]
  exact BitVec.ofNat_toNat 64 _

/-! ## Stores -/

/-- The bytes of a stored word, by their distance from its address. -/
theorem Memory.byte_setWord_add {m : Memory} (h : m.wf = true) (a : Nat) (w : Word) {j : Nat} (hj : j < 4) :
    (m.setWord a w).byte (a + j) = w.extractLsb' (8 * j) 8 := by
  rw [Memory.setWord, Memory.byte_writeLE_add h a w.toNat hj, ← Nat.shiftRight_eq_div_pow]
  rfl

/-- A command that stores a word, and retires: the stored bytes are the low four of any `x` that agrees with the word in
them. -/
theorem setWord_stores {s : State} (hwf : s.mem.wf = true) (ea : Nat) {n : Nat} {w : Word} {x : BitVec n}
    (hx : ∀ j < 4, w.extractLsb' (8 * j) 8 = x.extractLsb' (8 * j) 8) :
    let t := State.retire { s with mem := s.mem.setWord ea w }
    Retired s t ∧ SameVBut [] s t ∧ t.outCount = s.outCount ∧ SameMemBut (ea, 4) s t ∧
      t.mem.byte ea = x.extractLsb' 0 8 ∧ t.mem.byte (ea + 1) = x.extractLsb' 8 8 ∧
      t.mem.byte (ea + 2) = x.extractLsb' 16 8 ∧ t.mem.byte (ea + 3) = x.extractLsb' 24 8 := by
  intro t
  have hbyte {j : Nat} (hj : j < 4) : t.mem.byte (ea + j) = x.extractLsb' (8 * j) 8 :=
    (Memory.byte_setWord_add hwf ea w hj).trans (hx j hj)
  exact ⟨retired_after_writes s _ _ _ _, .refl [] s, rfl, fun c hc => Memory.byte_setWord hwf ea w c hc,
    hbyte (j := 0) (by decide), hbyte (j := 1) (by decide), hbyte (j := 2) (by decide), hbyte (j := 3) (by decide)⟩

/-- `V[i].u32` has the low four bytes of `V[i]` (00_scope.md R10). -/
theorem extractLsb'_u32 (s : State) (i : VReg) {j : Nat} (hj : j < 4) :
    (BitVec.ofNat 32 (s.u32 i)).extractLsb' (8 * j) 8 = s.v[i].extractLsb' (8 * j) 8 := by
  have hlow : BitVec.ofNat 32 (s.u32 i) = s.v[i].setWidth 32 := by
    apply BitVec.eq_of_toNat_eq
    rw [BitVec.toNat_ofNat, State.u32, Nat.mod_mod, BitVec.toNat_setWidth]
  rw [hlow, BitVec.extractLsb'_setWidth_of_le (by omega)]

/-- Settles O24: `wordAccess_clauses`; the bytes stored are those of the source's low word (`extractLsb'_u32`). -/
theorem stwStoresLowWord : Obligations.StwStoresLowWord := by
  unfold Obligations.StwStoresLowWord
  intro rs ra off s hwf
  exact wordAccess_clauses rfl (setWord_stores hwf _ fun _ hj => extractLsb'_u32 s rs hj)

/-- Settles O25: `wordAccess_clauses`; the bytes stored are those of the narrowed source. -/
theorem stfStoresNarrowed : Obligations.StfStoresNarrowed := by
  unfold Obligations.StfStoresNarrowed
  intro rs ra off s hwf
  exact wordAccess_clauses rfl (setWord_stores hwf _ fun _ _ => rfl)

end Sys2Proof.Machine
end

section
/-! The bit-field unpacker (43_bitfield_unpack.md). A field is an integer up to its maximum, and both are exact in binary64
(`ofNat_exact`), so a lane is the exact quotient rounded once, and its two ends are integers, which rounding keeps
(`normalise_isUnorm`). A command with several destinations writes them one by one (`WroteV.setF`); they are distinct where
the command is well formed (`setF3_get`, `setF4_get`). -/

namespace Sys2Proof.Machine

/-! ## Integers as binary64 values -/

theorem lt_overflow_of_le_two_pow_53 {x : ℝ} (h : x ≤ 2 ^ 53) : x < 2 ^ 1024 - 2 ^ 970 :=
  (h.trans_lt (by norm_num)).trans binary32_range_lt

/-- An integer of at most 53 bits is a binary64 value (40_numerics.md R123). -/
theorem ofNat_exact {n : Nat} (h : n ≤ 2 ^ 53) :
    Binary64.isFinite (F64.ofNat n) = true ∧ ((Binary64.val (F64.ofNat n) : ℚ) : ℝ) = n := by
  have hlt : (n : ℝ) * 2 ^ (0 : Int) < 2 ^ 1024 - 2 ^ 970 := by
    rw [zpow_zero, mul_one]
    exact lt_overflow_of_le_two_pow_53 (by exact_mod_cast h)
  obtain ⟨hfin, hval⟩ := round64_exact false h (by decide) hlt
  exact ⟨hfin, by simpa [F64.ofNat, signed] using hval⟩

theorem signBit_ofNat (n : Nat) : Binary64.signBit (F64.ofNat n) = false := signBit_round64 false n 0

/-- A binary64 pattern is its sign and its value. -/
theorem eq_of_val_eq {v w : DWord} (hs : Binary64.signBit v = Binary64.signBit w)
    (hv : ((Binary64.val v : ℚ) : ℝ) = (Binary64.val w : ℚ)) : v = w := by
  rw [val_eq, val_eq, hs, ← signed_eq_mul, ← signed_eq_mul] at hv
  have hgrid : grid 52 (Binary64.magnitude v) = grid 52 (Binary64.magnitude w) := by
    exact_mod_cast (div_left_inj' (by positivity)).mp (signed_inj hv)
  apply BitVec.eq_of_toNat_eq
  rw [Elementary.toNat_eq, Elementary.toNat_eq, hs, (grid_strictMono 52).injective hgrid]

/-- Rounding keeps an integer: no finite value is nearer to it than itself. -/
theorem eq_ofNat_of_rounds {n : Nat} {v : DWord} (hn : n ≤ 2 ^ 53) (h : Binary64.Rounds n v)
    (hs : Binary64.signBit v = false) : v = F64.ofNat n := by
  obtain ⟨hfin, hval⟩ := ofNat_exact hn
  have hlt : |(n : ℝ)| < 2 ^ 1024 - 2 ^ 970 := by
    rw [Nat.abs_cast]
    exact lt_overflow_of_le_two_pow_53 (by exact_mod_cast hn)
  have hnear := h.nearest hlt _ hfin
  rw [hval, sub_self, abs_zero] at hnear
  exact eq_of_val_eq (hs.trans (signBit_ofNat n).symm) ((sub_eq_zero.mp (abs_nonpos_iff.mp hnear)).trans hval.symm)

/-! ## A field over its maximum -/

/-- `x` is `n / max` rounded once, and exactly +0.0 and 1.0 at the ends of the range. -/
def IsUnorm (max n : Nat) (x : DWord) : Prop :=
  Binary64.Rounds ((n : ℝ) / max) x ∧ (n = 0 → x = 0#64) ∧ (n = max → x = F64.ONE)

theorem normalise_rounds {max n : Nat} {k : DWord} (hk : k = F64.ofNat max) (h0 : 0 < max) (hmax : max ≤ 2 ^ 53)
    (hn : n ≤ max) : Binary64.Rounds ((n : ℝ) / max) (normalise n k) ∧ Binary64.signBit (normalise n k) = false := by
  obtain ⟨hfin, hval⟩ := ofNat_exact (hn.trans hmax)
  obtain ⟨hfin', hval'⟩ := ofNat_exact hmax
  have hne : Binary64.val (F64.ofNat max) ≠ 0 := by
    have : ((Binary64.val (F64.ofNat max) : ℚ) : ℝ) ≠ 0 := by rw [hval']; exact_mod_cast h0.ne'
    exact_mod_cast this
  obtain ⟨hround, hsign⟩ := divRounds _ _ hfin hfin' hne
  rw [hval, hval'] at hround
  rw [signBit_ofNat, signBit_ofNat] at hsign
  exact hk ▸ ⟨hround, hsign⟩

/-- What `setf` writes for a field of at most its maximum: the quotient is in [0, 1], so it is no NaN to canonicalise. -/
theorem normalise_isUnorm {max n : Nat} {k : DWord} (hk : k = F64.ofNat max) (h0 : 0 < max) (hmax : max ≤ 2 ^ 53)
    (hn : n ≤ max) : IsUnorm max n (F64.canon (normalise n k)) := by
  obtain ⟨hround, hsign⟩ := normalise_rounds hk h0 hmax hn
  have hone : |(n : ℝ) / max| ≤ 1 := by
    rw [abs_of_nonneg (by positivity)]
    exact div_le_one_of_le₀ (by exact_mod_cast hn) (by positivity)
  have hfin := hround.finite (lt_overflow_of_le_two_pow_53 (hone.trans (by norm_num)))
  have hcanon : F64.canon (normalise n k) = normalise n k := by
    rw [F64.canon, F64.isNaN, (Elementary.not_finite_special hfin).1]; rfl
  rw [hcanon]
  refine ⟨hround, fun hzero => ?_, fun hfull => ?_⟩
  · have hr : (n : ℝ) / max = (0 : Nat) := by rw [hzero, Nat.cast_zero, zero_div]
    exact (eq_ofNat_of_rounds (by decide) (hr ▸ hround) hsign).trans (by decide)
  · have hr : (n : ℝ) / max = (1 : Nat) := by rw [hfull, Nat.cast_one, div_self (by exact_mod_cast h0.ne')]
    exact (eq_ofNat_of_rounds (by decide) (hr ▸ hround) hsign).trans (by decide)

/-- A byte over 255. -/
theorem normalise_byte_isUnorm (n : Nat) : IsUnorm 255 (n % 2 ^ 8) (F64.canon (normalise (n % 2 ^ 8) F64.K255)) :=
  normalise_isUnorm (by decide) (by decide) (by decide) (by omega)

/-- The three fields of an 11-10-11 word, each over its maximum. -/
theorem unpack111011_isUnorm {w : Nat} (hw : w < 2 ^ 32) :
    IsUnorm 2047 (w / 2 ^ 21) (F64.canon (unpack111011 w).1) ∧
      IsUnorm 1023 (w / 2 ^ 11 % 2 ^ 10) (F64.canon (unpack111011 w).2.1) ∧
      IsUnorm 2047 (w % 2 ^ 11) (F64.canon (unpack111011 w).2.2) := by
  have htop : bits w 31 21 = w / 2 ^ 21 := Nat.mod_eq_of_lt (by omega)
  have hmid : bits w 20 11 = w / 2 ^ 11 % 2 ^ 10 := rfl
  have hlow : bits w 10 0 = w % 2 ^ 11 := by rw [bits, pow_zero, Nat.div_one]
  rw [unpack111011, htop, hmid, hlow]
  exact ⟨normalise_isUnorm (by decide) (by decide) (by decide) (by omega),
    normalise_isUnorm (by decide) (by decide) (by decide) (by omega),
    normalise_isUnorm (by decide) (by decide) (by decide) (by omega)⟩

/-- Lane `j` of an 8-8-8-8 word is byte `3 - j`. -/
theorem unpack8888_isUnorm (w : Nat) :
    IsUnorm 255 (w / 2 ^ 24 % 2 ^ 8) (F64.canon (unpack8888 w).1) ∧
      IsUnorm 255 (w / 2 ^ 16 % 2 ^ 8) (F64.canon (unpack8888 w).2.1) ∧
      IsUnorm 255 (w / 2 ^ 8 % 2 ^ 8) (F64.canon (unpack8888 w).2.2.1) ∧
      IsUnorm 255 (w / 2 ^ 0 % 2 ^ 8) (F64.canon (unpack8888 w).2.2.2) :=
  ⟨normalise_byte_isUnorm _, normalise_byte_isUnorm _, normalise_byte_isUnorm _, normalise_byte_isUnorm _⟩

/-! ## Several destinations -/

/-- The registers `rd`, `rd + 1`, `rd + 2` are distinct where they all exist. -/
theorem setF3_get {rd : VReg} (h : rd.val ≤ 13) (s : State) (x : DWord × DWord × DWord) :
    (s.setF3 rd x).v[rd] = F64.canon x.1 ∧ (s.setF3 rd x).v[VReg.plus rd 1] = F64.canon x.2.1 ∧
      (s.setF3 rd x).v[VReg.plus rd 2] = F64.canon x.2.2 := by
  have h1 := plus_val (i := rd) (k := 1) (by omega)
  have h2 := plus_val (i := rd) (k := 2) (by omega)
  simp only [State.setF3, setF_get, Fin.ext_iff, h1, h2]
  simp

/-- The registers `rd` to `rd + 3` are distinct where they all exist; `rd` is also written `rd + 0`. -/
theorem setF4_get {rd : VReg} (h : rd.val ≤ 12) (s : State) (x : DWord × DWord × DWord × DWord) :
    (s.setF4 rd x).v[VReg.plus rd 0] = F64.canon x.1 ∧ (s.setF4 rd x).v[VReg.plus rd 1] = F64.canon x.2.1 ∧
      (s.setF4 rd x).v[VReg.plus rd 2] = F64.canon x.2.2.1 ∧ (s.setF4 rd x).v[VReg.plus rd 3] = F64.canon x.2.2.2 := by
  have h0 := plus_val (i := rd) (k := 0) (by omega)
  have h1 := plus_val (i := rd) (k := 1) (by omega)
  have h2 := plus_val (i := rd) (k := 2) (by omega)
  have h3 := plus_val (i := rd) (k := 3) (by omega)
  simp only [State.setF4, setF_get, Fin.ext_iff, h0, h1, h2, h3]
  simp

/-- One more register written before retiring. -/
theorem WroteV.setF {ds : List VReg} {s t : State} (h : WroteV ds s t.retire) (i : VReg) (x : DWord) :
    WroteV (ds ++ [i]) s (t.setF i x).retire where
  retired := { h.retired with errs := { h.retired.errs with }, rest := { h.retired.rest with } }
  v := SameVBut.setV (t := t) h.v i _
  written d hd := by
    rw [State.retire_vWritten, setF_getWritten]
    split
    · rfl
    · next hne => exact h.written d ((List.mem_append.mp hd).resolve_right fun hi => hne (List.mem_singleton.mp hi))
  mem := h.mem
  outCount := h.outCount

theorem setF3_wroteV (s : State) (rd : VReg) (x : DWord × DWord × DWord) :
    WroteV [rd, VReg.plus rd 1, VReg.plus rd 2] s (s.setF3 rd x).retire :=
  (((retire_wroteNothing s).setF _ _).setF _ _).setF _ _

theorem setF4_wroteV (s : State) (rd : VReg) (x : DWord × DWord × DWord × DWord) :
    WroteV [rd, VReg.plus rd 1, VReg.plus rd 2, VReg.plus rd 3] s (s.setF4 rd x).retire :=
  ((((retire_wroteNothing s).setF _ _).setF _ _).setF _ _).setF _ _

/-- A command whose one check is that its destinations exist (30_encoding.md R99 (c)): what its writes give, or
`IllegalCommand` of its encoding (assumption 14). -/
theorem destChecked_clauses {i : Instr} {rd : VReg} {n : Nat} {s t : State} {P : State → Prop}
    (hi : exec i s = complete s do checkDest i; .ok t) (hwf : i.wellFormed = decide (rd.val ≤ n))
    (hP : rd.val ≤ n → P t.retire) :
    (rd.val ≤ n → ∃ u, exec i s = .next u ∧ P u) ∧
    (n < rd.val → ∃ u, exec i s = .next u ∧ Errored false (.illegal (encode i)) s u) := by
  refine ⟨fun h => ⟨_, ?_, hP h⟩, fun h => ⟨_, ?_, raise_errored s _⟩⟩
  · rw [hi, checkDest, hwf, decide_eq_true h]; rfl
  · rw [hi, checkDest, hwf, decide_eq_false (Nat.not_le.mpr h)]; rfl

/-! ## The commands -/

/-- Settles O35: the three fields over their maxima (`unpack111011_isUnorm`), in three distinct registers
(`setF3_get`). -/
theorem unpk111011Lanes : Obligations.Unpk111011Lanes := by
  unfold Obligations.Unpk111011Lanes
  intro rd ra s
  refine destChecked_clauses rfl rfl fun h => ⟨setF3_wroteV s rd _, ?_⟩
  obtain ⟨hv0, hv1, hv2⟩ := setF3_get h s (unpack111011 (s.u32 ra))
  obtain ⟨⟨hr0, hz0, ho0⟩, ⟨hr1, hz1, ho1⟩, ⟨hr2, hz2, ho2⟩⟩ :=
    unpack111011_isUnorm (w := s.u32 ra) (Nat.mod_lt _ (by decide))
  rw [State.retire_v, hv0, hv1, hv2]
  exact ⟨hr0, hr1, hr2, hz0, ho0, hz1, ho1, hz2, ho2⟩

/-- Settles O36: the four bytes over 255 (`unpack8888_isUnorm`), in four distinct registers (`setF4_get`). -/
theorem unpk8888Lanes : Obligations.Unpk8888Lanes := by
  unfold Obligations.Unpk8888Lanes
  intro rd ra s
  refine destChecked_clauses rfl rfl fun h => ⟨setF4_wroteV s rd _, fun j hj => ?_⟩
  obtain ⟨hv0, hv1, hv2, hv3⟩ := setF4_get h s (unpack8888 (s.u32 ra))
  obtain ⟨hl0, hl1, hl2, hl3⟩ := unpack8888_isUnorm (s.u32 ra)
  rw [State.retire_v]
  match j, hj with
  | 0, _ => rw [hv0]; exact hl0
  | 1, _ => rw [hv1]; exact hl1
  | 2, _ => rw [hv2]; exact hl2
  | 3, _ => rw [hv3]; exact hl3

/-- Byte `k` of the low word is byte `k` of the register. -/
theorem byteOf_u32 (s : State) (i : VReg) (k : Fin 4) :
    byteOf (s.u32 i) k.val = s.v[i].toNat / 2 ^ (8 * k.val) % 2 ^ 8 := by
  have hk : 8 * k.val + 7 + 1 - 8 * k.val = 8 := by omega
  have hlow : 2 ^ 32 = 2 ^ (8 * k.val) * 2 ^ (32 - 8 * k.val) := by rw [← pow_add]; congr 1; omega
  rw [byteOf, bits, hk, State.u32, hlow, Nat.mod_mul_right_div_self]
  exact Nat.mod_mod_of_dvd _ (pow_dvd_pow 2 (by omega))

/-- Settles O37: one byte over 255, or two bytes, low and high, over 65535 (`normalise_isUnorm`). -/
theorem unorm8AndU16n : Obligations.Unorm8AndU16n := by
  unfold Obligations.Unorm8AndU16n
  refine ⟨fun rd ra k s => ⟨_, rfl, setV_wroteV s rd _, ?_⟩, fun rd ra rb k s => ⟨_, rfl, setV_wroteV s rd _, ?_⟩⟩
  · intro n
    rw [State.retire_v, setF_get, if_pos rfl, unorm8, byteOf_u32]
    exact normalise_byte_isUnorm _
  · intro n
    rw [State.retire_v, setF_get, if_pos rfl, u16n, byteOf_u32, byteOf_u32, mul_comm (_ % 2 ^ 8)]
    exact normalise_isUnorm (max := 65535) (by decide) (by decide) (by decide) (by omega)

end Sys2Proof.Machine
end

section
/-! The inverse quantisation (44_dequant.md). The identities of R190 and R191 turn on operations whose exact result is a
binary64 value already, which rounding keeps (`add_exact`, `mul_exact`): `x - x` is +0 (`sub_self_finite`), `x * 1.0` is
`x` (`mul_one_finite`), `x * +0` is a zero (`mul_zero_finite`). `CBLK` is one word check at the codebook address and one
load. -/

namespace Sys2Proof.Machine

/-! ## Results that are exact -/

/-- Every finite value is below the bound of `Rounds`: the largest one is `2^1024 - 2^971`. -/
theorem abs_val_lt {x : DWord} (hx : Binary64.isFinite x = true) : |(Binary64.val x : ℝ)| < 2 ^ 1024 - 2 ^ 970 := by
  have hmax : ((Elementary.uval Elementary.maxPat : ℚ) : ℝ) < 2 ^ 1024 - 2 ^ 970 := by
    have hpos : (0 : ℝ) < 2 ^ 970 := by positivity
    rw [Elementary.uval_maxPat, show (2 : ℝ) ^ 1024 = 2 ^ 54 * 2 ^ 970 by rw [← pow_add]]
    push_cast
    rw [show (2 : ℝ) ^ 971 = 2 * 2 ^ 970 by rw [← pow_succ']]
    generalize (2 : ℝ) ^ 970 = a at hpos ⊢
    linarith
  have hle : (Binary64.val x : ℝ) ≤ (Elementary.uval Elementary.maxPat : ℚ) := by
    exact_mod_cast Elementary.val_le_max hx
  have hge : -(Binary64.val x : ℝ) ≤ (Elementary.uval Elementary.maxPat : ℚ) := by
    rw [← val_neg]
    exact_mod_cast Elementary.val_le_max (isFinite_neg hx)
  exact (abs_le'.mpr ⟨hle, hge⟩).trans_lt hmax

/-- Rounding keeps a binary64 value: no finite value is nearer to it than itself. -/
theorem val_eq_of_rounds {x v : DWord} (hx : Binary64.isFinite x = true) (h : Binary64.Rounds (Binary64.val x : ℝ) v) :
    Binary64.isFinite v = true ∧ Binary64.val v = Binary64.val x := by
  have hnear := h.nearest (abs_val_lt hx) x hx
  rw [sub_self, abs_zero] at hnear
  exact ⟨h.finite (abs_val_lt hx), by exact_mod_cast sub_eq_zero.mp (abs_nonpos_iff.mp hnear)⟩

theorem canon_finite {x : DWord} (hx : Binary64.isFinite x = true) : F64.canon x = x := by
  rw [F64.canon, F64.isNaN, (Elementary.not_finite_special hx).1]
  rfl

theorem val_zero : Binary64.val 0#64 = 0 := by
  rw [Binary64.val, show Binary64.units (Binary64.magnitude 0#64) = 0 by decide, Nat.cast_zero, zero_div, mul_zero]

theorem val_ONE : Binary64.val F64.ONE = 1 := by
  have h := (ofNat_exact (n := 1) (by decide)).2
  rw [show F64.ofNat 1 = F64.ONE by decide] at h
  exact_mod_cast h

/-- Where a value is not zero, its sign is that of its pattern. -/
theorem signBit_eq_decide {x : DWord} (h0 : Binary64.val x ≠ 0) : Binary64.signBit x = decide (Binary64.val x < 0) := by
  cases hs : Binary64.signBit x with
  | true => exact (decide_eq_true (lt_of_le_of_ne (Elementary.val_of_neg hs) h0)).symm
  | false =>
    refine (decide_eq_false (not_lt.mpr ?_)).symm
    rw [Elementary.val_of_pos hs, Elementary.uval]
    positivity

/-- Only zero has two patterns. -/
theorem eq_of_val_eq_of_ne_zero {v w : DWord} (h0 : Binary64.val w ≠ 0) (hval : Binary64.val v = Binary64.val w) :
    v = w :=
  eq_of_val_eq (by rw [signBit_eq_decide h0, signBit_eq_decide (hval ▸ h0), hval]) (congrArg _ hval)

/-- `val_neg` on the exact values. -/
theorem val_neg_exact (x : DWord) : Binary64.val (F64.neg x) = -Binary64.val x := by exact_mod_cast val_neg x

section
variable {x : DWord} (hx : Binary64.isFinite x = true)
include hx

/-- A sum whose exact value is a binary64 value has that value. -/
theorem add_exact {y z : DWord} (hy : Binary64.isFinite y = true) (hz : Binary64.isFinite z = true)
    (hsum : Binary64.val x + Binary64.val y = Binary64.val z) :
    Binary64.isFinite (F64.add x y) = true ∧ Binary64.val (F64.add x y) = Binary64.val z := by
  have hround := add_rounds hx hy
  rw [← Rat.cast_add, hsum] at hround
  exact val_eq_of_rounds hz hround

/-- A product whose exact value is a binary64 value has that value. -/
theorem mul_exact {y z : DWord} (hy : Binary64.isFinite y = true) (hz : Binary64.isFinite z = true)
    (hprod : Binary64.val x * Binary64.val y = Binary64.val z) :
    Binary64.isFinite (F64.mul x y) = true ∧ Binary64.val (F64.mul x y) = Binary64.val z := by
  have hround := (mulRounds x y hx hy).1
  rw [← Rat.cast_mul, hprod] at hround
  exact val_eq_of_rounds hz hround

/-- A sum whose exact value is a binary64 value other than zero is the pattern of that value. -/
theorem add_eq_of_val {y z : DWord} (hy : Binary64.isFinite y = true) (hz : Binary64.isFinite z = true)
    (h0 : Binary64.val z ≠ 0) (hsum : Binary64.val x + Binary64.val y = Binary64.val z) : F64.add x y = z :=
  eq_of_val_eq_of_ne_zero h0 (add_exact hx hy hz hsum).2

/-- The width of a range with `lo = hi` is +0 (44_dequant.md R190). -/
theorem sub_self_finite : F64.sub x x = 0#64 := by
  have hsign : Binary64.signBit x ≠ Binary64.signBit (F64.neg x) := by
    rw [signBit_neg]
    exact (Bool.not_ne_self _).symm
  exact add_opposite hx (isFinite_neg hx) hsign (by rw [val_neg_exact, add_neg_cancel])

theorem mul_one_finite : F64.mul x F64.ONE = x := by
  have hval := (mul_exact hx (y := F64.ONE) (by decide) hx (by rw [val_ONE, mul_one])).2
  have hsign := (mulRounds x F64.ONE hx (by decide)).2
  rw [show Binary64.signBit F64.ONE = false by decide, Bool.xor_false] at hsign
  exact eq_of_val_eq hsign (congrArg _ hval)

/-- A product with +0 is a zero, of the sign of `x` (44_dequant.md R190). -/
theorem mul_zero_finite : Binary64.isFinite (F64.mul x 0#64) = true ∧ Binary64.val (F64.mul x 0#64) = 0 := by
  have h := mul_exact hx (y := 0#64) (z := 0#64) (by decide) (by decide) (by rw [val_zero, mul_zero])
  rwa [val_zero] at h

theorem sub_zero_of_ne_zero (h0 : Binary64.val x ≠ 0) : F64.sub x 0#64 = x := by
  have hsum : Binary64.val x + Binary64.val (F64.neg 0#64) = Binary64.val x := by
    rw [val_neg_exact, val_zero, neg_zero, add_zero]
  exact add_eq_of_val hx (by decide) hx h0 hsum

/-- A sum with +0 keeps every `x` from +0 on; `+0 + -0` is +0. -/
theorem zero_add_nonneg (hs : Binary64.signBit x = false) : F64.add 0#64 x = x := by
  by_cases h0 : Binary64.val x = 0
  · have hzero : x = 0#64 := eq_of_val_eq hs (by rw [h0, val_zero])
    rw [hzero]
    decide
  · exact add_eq_of_val (x := 0#64) (by decide) hx hx h0 (by rw [val_zero, zero_add])

end

/-- `x * 1.0` reads as `x` does, infinities and NaNs included. -/
theorem of64_mul_one (x : DWord) : Num.of64 (F64.mul x F64.ONE) = Num.of64 x := by
  cases hf : Binary64.isFinite x with
  | true => rw [mul_one_finite hf]
  | false =>
    cases hn : Binary64.isNaN x with
    | true =>
      obtain ⟨-, -, hmul, -⟩ := arith_of_nan (y := F64.ONE) (.inl hn)
      rw [hmul, of64_nan hn, of64_nan isNaN_nan]
    | false =>
      rw [F64.mul, of64_inf hf hn]
      cases Binary64.signBit x <;> decide

/-- The IEEE comparison with zero is true for both zeros and nothing else (40_numerics.md R134). -/
theorem F64.eq_zero_iff (x : DWord) : F64.eq x 0#64 = true ↔ x = 0#64 ∨ x = Binary64.negZero := by
  refine ⟨fun h => ?_, by rintro (rfl | rfl) <;> decide⟩
  have hkey : F64.orderKey x = F64.orderKey 0#64 := by
    simp only [F64.eq, Bool.and_eq_true, decide_eq_true_eq] at h
    exact h.2
  have hlt := x.isLt
  rw [show F64.orderKey 0#64 = 0 by decide, F64.orderKey] at hkey
  simp only [Binary64.negZero, BitVec.toNat_eq, BitVec.toNat_ofNat]
  split at hkey <;> omega

/-! ## The two expansions -/

/-- The unit range leaves every `v` in [0, 1] as it is (44_dequant.md R190). -/
theorem dequant_unit_range {v : DWord} (hv : v.toNat ≤ F64.ONE.toNat) :
    F64.canon (dequant v 0#64 F64.ONE) = v := by
  have hle : v.toNat ≤ 0x3FF0000000000000 := hv
  have hsplit := Elementary.toNat_eq (x := v)
  have hsign : Binary64.signBit v = false := by
    by_contra hs
    rw [Bool.not_eq_false] at hs
    rw [hs, if_pos rfl] at hsplit
    omega
  have hfin : Binary64.isFinite v = true := by
    rw [isFinite_iff]
    omega
  have hone : Binary64.val F64.ONE ≠ 0 := val_ONE ▸ one_ne_zero
  rw [dequant, sub_zero_of_ne_zero (by decide) hone, mul_one_finite hfin, zero_add_nonneg hfin hsign,
    canon_finite hfin]

/-- A range of zero width expands every finite `v` to its one value (44_dequant.md R190). -/
theorem dequant_zero_width {v lo : DWord} (hlo : Binary64.isFinite lo = true) (hv : Binary64.isFinite v = true) :
    Binary64.isFinite (F64.canon (dequant v lo lo)) = true ∧
      Binary64.val (F64.canon (dequant v lo lo)) = Binary64.val lo := by
  obtain ⟨htfin, htval⟩ := mul_zero_finite hv
  have hsum := add_exact hlo htfin hlo (by rw [htval, add_zero])
  rw [dequant, sub_self_finite hlo, canon_finite hsum.1]
  exact hsum

/-- A computed width of +0 or -0, and no other, is replaced by 1.0 (44_dequant.md R191). -/
theorem dqrange_eq (v lo hi : DWord) :
    dqrange v lo hi = F64.add lo (F64.mul v
      (if F64.sub hi lo = 0#64 ∨ F64.sub hi lo = Binary64.negZero then F64.ONE else F64.sub hi lo)) := by
  simp only [dqrange, F64.eq_zero_iff]

/-- A range of zero width is taken as 1 wide (44_dequant.md R191). -/
theorem dqrange_zero_width (v : DWord) {lo : DWord} (hlo : Binary64.isFinite lo = true) :
    dqrange v lo lo = F64.add lo v := by
  rw [dqrange_eq, sub_self_finite hlo, if_pos (.inl rfl), F64.add, of64_mul_one, F64.add]

/-! ## The commands -/

theorem setF_retire_get (s : State) (rd : VReg) (x : DWord) : (s.setF rd x).retire.v[rd] = F64.canon x := by
  rw [State.retire_v, setF_get, if_pos rfl]

/-- Settles O38: the three operations are the command's own; the identities are `dequant_unit_range`,
`dequant_zero_width` and `dqrange_zero_width`. -/
theorem dequantAndDqrange : Obligations.DequantAndDqrange := by
  unfold Obligations.DequantAndDqrange
  refine ⟨fun rd ra rb rc s => ⟨_, rfl, setV_wroteV s rd _, setF_retire_get s rd _, ?_, ?_⟩,
    fun rd ra rb rc s => ⟨_, rfl, setV_wroteV s rd _, ?_, ?_⟩⟩
  · intro hlo hhi hv
    rw [setF_retire_get, State.f64, State.f64, State.f64, hlo, hhi]
    exact dequant_unit_range hv
  · intro heq hlo hv
    rw [setF_retire_get, State.f64, State.f64, State.f64, ← heq]
    exact dequant_zero_width hlo hv
  · rw [setF_retire_get, dqrange_eq, State.f64, State.f64, State.f64]
  · intro heq hlo
    rw [setF_retire_get, State.f64, State.f64, State.f64, ← heq, dqrange_zero_width _ hlo]

/-- The rule of R192 gives one address. -/
theorem codebookAddr_eq_of_rule {s : State} {ra rb : VReg} {k : Fin 4} {ea : Nat}
    (h : ea = (s.v[rb].toNat % 2 ^ 32 + 4 * (s.v[ra].toNat / 2 ^ (8 * k.val) % 2 ^ 8)) % 2 ^ 32) :
    s.codebookAddr ra rb k = ea := by
  rw [State.codebookAddr, byteOf_u32, State.u32, h]

/-- Settles O39: `wordAccess_clauses` at the address of R192; the word read is its four bytes
(`Memory.word_eq_append`), and its widening is written as it is (`canon_widen`). -/
theorem cblkReadsEntry : Obligations.CblkReadsEntry := by
  unfold Obligations.CblkReadsEntry
  intro rd ra rb k s ea hea
  obtain rfl := codebookAddr_eq_of_rule hea
  refine wordAccess_clauses rfl ⟨setV_wroteV s rd _, ?_⟩
  rw [setF_retire_get, canon_widen, Memory.word_eq_append]

end Sys2Proof.Machine
end

section
/-! The inverse transforms (45_transforms.md). `INVLOG` is odd (`invLog_odd`), so its special results are those of a positive
operand with the sign of the operand; below 2^-53 the exponential lies between 1.0 and its successor, and a faithful result
is one of the two (`eq_adjacent_of_faithful`). `INVSIG(0.5)` is not clamped whatever the epsilon is, since `RN(1 - EPS)` is at
least 0.5 (`le_val_of_rounds`). -/

namespace Sys2Proof.Machine

/-! ## Absolute value and comparison -/

theorem toNat_abs (x : DWord) : (F64.abs x).toNat = Binary64.magnitude x := by
  rw [F64.abs, BitVec.toNat_and, Binary64.magnitude]
  exact Nat.and_two_pow_sub_one_eq_mod x.toNat 63

theorem abs_of_signBit_false {x : DWord} (hs : Binary64.signBit x = false) : F64.abs x = x := by
  apply BitVec.eq_of_toNat_eq
  rw [toNat_abs, Elementary.toNat_eq (x := x), hs, if_neg Bool.false_ne_true, Nat.zero_add]

theorem abs_neg_pattern (x : DWord) : F64.abs (F64.neg x) = F64.abs x := by
  apply BitVec.eq_of_toNat_eq
  rw [toNat_abs, toNat_abs, magnitude_neg]

theorem neg_neg_pattern (x : DWord) : F64.neg (F64.neg x) = x := Elementary.flip_flip x

theorem isNaN_neg_eq (x : DWord) : Binary64.isNaN (F64.neg x) = Binary64.isNaN x := by
  rw [Bool.eq_iff_iff, isNaN_iff, isNaN_iff, magnitude_neg]

/-- The place of a pattern in numeric order, from its sign and its magnitude. -/
theorem orderKey_eq (x : DWord) :
    F64.orderKey x = if Binary64.signBit x then -(Binary64.magnitude x : Int) else Binary64.magnitude x := by
  have hlt := x.isLt
  rw [F64.orderKey, Binary64.signBit, Binary64.magnitude]
  simp only [beq_iff_eq]
  split <;> split <;> omega

/-- A nonzero number is above zero when its sign bit is clear. -/
theorem zero_lt_eq_not_signBit {x : DWord} (hn : Binary64.isNaN x = false) (hm : Binary64.magnitude x ≠ 0) :
    F64.lt 0#64 x = !Binary64.signBit x := by
  rw [F64.lt, F64.isNaN, F64.isNaN, hn, show Binary64.isNaN 0#64 = false by decide,
    show F64.orderKey 0#64 = 0 by decide, orderKey_eq]
  cases Binary64.signBit x with
  | false => simpa using Nat.pos_of_ne_zero hm
  | true => simp

/-! ## Adjacent values -/

theorem signBit_of_val_pos {v : DWord} (h : 0 < Binary64.val v) : Binary64.signBit v = false :=
  Bool.eq_false_iff.mpr fun hs => absurd h (not_lt.mpr (Elementary.val_of_neg hs))

/-- A positive pattern is determined by its magnitude. -/
theorem eq_pat_of_val_pos {v : DWord} (h : 0 < Binary64.val v) :
    v = Elementary.pat (Binary64.magnitude v) ∧ Binary64.val v = Elementary.uval (Binary64.magnitude v) := by
  have hs := signBit_of_val_pos h
  refine ⟨BitVec.eq_of_toNat_eq ?_, Elementary.val_of_pos hs⟩
  rw [Elementary.pat_toNat (Elementary.magnitude_lt v), Elementary.toNat_eq, hs, if_neg Bool.false_ne_true, Nat.zero_add]

/-- The comparison of two positive numbers goes by their values (40_numerics.md R134). -/
theorem lt_eq_false_of_val_le {x y : DWord} (h0 : 0 < Binary64.val y) (h : Binary64.val y ≤ Binary64.val x) :
    F64.lt x y = false := by
  have hx0 := h0.trans_le h
  have hm : Binary64.magnitude y ≤ Binary64.magnitude x := by
    rwa [(eq_pat_of_val_pos h0).2, (eq_pat_of_val_pos hx0).2, Elementary.uval_strictMono.le_iff_le] at h
  have hkey : ¬ F64.orderKey x < F64.orderKey y := by
    rw [orderKey_eq, orderKey_eq, signBit_of_val_pos h0, signBit_of_val_pos hx0]
    simpa using hm
  rw [F64.lt, decide_eq_false hkey, Bool.and_false]

/-- Between two neighbours, a faithful result is one of the two. -/
theorem eq_adjacent_of_faithful {r : ℝ} {p : Nat} {v : DWord} (h0 : 0 < p) (hp : p + 1 ≤ Elementary.maxPat)
    (hlo : (Elementary.uval p : ℝ) ≤ r) (hhi : r ≤ (Elementary.uval (p + 1) : ℝ)) (h : Binary64.Faithful r v) :
    v = Elementary.pat p ∨ v = Elementary.pat (p + 1) := by
  have hmax : Elementary.maxPat < 2 ^ 63 := by decide
  have hvlo : Binary64.val (Elementary.pat p) = Elementary.uval p := Elementary.pat_val (by omega)
  have hvhi : Binary64.val (Elementary.pat (p + 1)) = Elementary.uval (p + 1) := Elementary.pat_val (by omega)
  have hflo := Elementary.pat_finite (p := p) (by omega)
  have hfhi := Elementary.pat_finite hp
  have hbetween : Elementary.uval p ≤ Binary64.val v ∧ Binary64.val v ≤ Elementary.uval (p + 1) := by
    rcases h with ⟨-, hle, hgreatest⟩ | ⟨-, hge, hleast⟩ | ⟨-, habove⟩
    · exact ⟨hvlo ▸ hgreatest _ hflo (hvlo ▸ hlo), by exact_mod_cast hle.trans hhi⟩
    · exact ⟨by exact_mod_cast hlo.trans hge, hvhi ▸ hleast _ hfhi (hvhi ▸ hhi)⟩
    · exact absurd (habove _ hfhi) (not_lt.mpr (hvhi ▸ hhi))
  obtain ⟨hge, hle⟩ := hbetween
  have hpos : 0 < Elementary.uval p := Elementary.uval_zero ▸ Elementary.uval_strictMono h0
  obtain ⟨hpat, hval⟩ := eq_pat_of_val_pos (hpos.trans_le hge)
  rw [hval, Elementary.uval_strictMono.le_iff_le] at hge hle
  rw [hpat]
  obtain hm | hm : Binary64.magnitude v = p ∨ Binary64.magnitude v = p + 1 := by omega
  · exact .inl (by rw [hm])
  · exact .inr (by rw [hm])

/-- Rounding does not pass a binary64 value. -/
theorem le_val_of_rounds {r : ℝ} {v w : DWord} (h : Binary64.Rounds r v) (hr : |r| < 2 ^ 1024 - 2 ^ 970)
    (hw : Binary64.isFinite w = true) (hwr : (Binary64.val w : ℝ) ≤ r) : Binary64.val w ≤ Binary64.val v := by
  by_contra hlt
  have hvw : (Binary64.val v : ℝ) < Binary64.val w := by exact_mod_cast not_le.mp hlt
  have hnear := h.nearest hr w hw
  rw [abs_of_nonpos (by linarith), abs_of_nonpos (by linarith)] at hnear
  linarith

/-! ## INVLOG -/

/-- `e^a - 1.0` as the command computes it (45_transforms.md R200). -/
def expMinusOne (a : DWord) : DWord := F64.sub (Config.exp64 a) F64.ONE

theorem invLog_nan {x : DWord} (hn : Binary64.isNaN x = true) : invLog x = F64.nan := if_pos hn

theorem invLog_zero {x : DWord} (hx : x = 0#64 ∨ x = Binary64.negZero) : invLog x = 0#64 := by
  rcases hx with rfl | rfl <;> rfl

section
variable {x : DWord} (hn : Binary64.isNaN x = false) (hm : Binary64.magnitude x ≠ 0)
include hn hm

theorem invLog_eq : invLog x =
    if Binary64.signBit x then F64.neg (expMinusOne (F64.abs x)) else expMinusOne (F64.abs x) := by
  have hne : ¬ F64.eq x 0#64 = true := by
    rw [F64.eq_zero_iff]
    rintro (rfl | rfl) <;> exact hm (by decide)
  rw [invLog, F64.isNaN, hn, if_neg Bool.false_ne_true, if_neg hne]
  simp only [zero_lt_eq_not_signBit hn hm, expMinusOne]
  cases Binary64.signBit x <;> rfl

theorem invLog_of_signBit_false (hs : Binary64.signBit x = false) : invLog x = expMinusOne x := by
  rw [invLog_eq hn hm, hs, abs_of_signBit_false hs]
  rfl

/-- Odd symmetry (45_transforms.md R200). -/
theorem invLog_odd : invLog x = F64.neg (invLog (F64.neg x)) := by
  rw [invLog_eq hn hm, invLog_eq (x := F64.neg x) (by rwa [isNaN_neg_eq]) (by rwa [magnitude_neg]), signBit_neg,
    abs_neg_pattern]
  cases Binary64.signBit x
  · exact (neg_neg_pattern _).symm
  · rfl

end

/-- A number with a value other than zero is neither a NaN nor a zero. -/
theorem not_nan_and_ne_zero_of_val {x : DWord} (hf : Binary64.isFinite x = true) (h0 : Binary64.val x ≠ 0) :
    Binary64.isNaN x = false ∧ Binary64.magnitude x ≠ 0 := by
  refine ⟨(Elementary.not_finite_special hf).1, fun hm => h0 ?_⟩
  rw [Binary64.val, hm, Elementary.units_zero, Nat.cast_zero, zero_div, mul_zero]

theorem exp64_overflow {x : DWord} (hf : Binary64.isFinite x = true) (h : 710 ≤ Binary64.val x) :
    Config.exp64 x = Binary64.posInf := by
  refine Config.expFn.spec.overflow x hf fun w hw => ?_
  have hle : (6243314768165360 / 2 ^ 43 : ℚ) ≤ Binary64.val x := le_trans (by norm_num) h
  calc (Binary64.val w : ℝ) ≤ (Elementary.uval Elementary.maxPat : ℚ) := by exact_mod_cast Elementary.val_le_max hw
    _ < Real.exp ((6243314768165360 / 2 ^ 43 : ℚ) : ℝ) := Elementary.lt_exp_lastVal_succ
    _ ≤ Real.exp (Binary64.val x) := Real.exp_le_exp.mpr (by exact_mod_cast hle)

/-- Below 2^-53 the exponential is between 1 and the next binary64 value, 1 + 2^-52. -/
theorem exp64_small {x : DWord} (hf : Binary64.isFinite x = true) (h0 : 0 < Binary64.val x)
    (h1 : Binary64.val x < 1 / 2 ^ 53) : Config.exp64 x = F64.ONE ∨ Config.exp64 x = 0x3FF0000000000001#64 := by
  have ht0 : (0 : ℝ) < Binary64.val x := by exact_mod_cast h0
  have ht1 : (Binary64.val x : ℝ) < 1 / 2 ^ 53 := by
    have h : (Binary64.val x : ℝ) < ((1 / 2 ^ 53 : ℚ) : ℝ) := Rat.cast_lt.mpr h1
    rwa [Rat.cast_div, Rat.cast_pow, Rat.cast_one, Rat.cast_ofNat] at h
  have hexp := abs_le.mp (Real.abs_exp_sub_one_sub_id_le (x := Binary64.val x) (by rw [abs_of_pos ht0]; linarith))
  have hsq : (Binary64.val x : ℝ) ^ 2 ≤ 1 / 2 ^ 53 * (1 / 2 ^ 53) := by nlinarith
  refine eq_adjacent_of_faithful (p := 0x3FF0000000000000) (by decide) (by decide) ?_ ?_
    (Config.expFn.spec.faithful x hf)
  · rw [Elementary.uval_one, Rat.cast_one]
    exact Real.one_le_exp ht0.le
  · rw [Elementary.uval_one_succ]
    push_cast
    linarith

theorem invLog_overflow {x : DWord}
    (h : x = Binary64.posInf ∨ (Binary64.isFinite x = true ∧ 710 ≤ Binary64.val x)) : invLog x = Binary64.posInf := by
  rcases h with rfl | ⟨hf, hbig⟩
  · rw [invLog_of_signBit_false (by decide) (by decide) (by decide), expMinusOne, Config.exp64, Config.expFn.spec.inf.1]
    decide
  · have hpos : 0 < Binary64.val x := by linarith
    obtain ⟨hn, hm⟩ := not_nan_and_ne_zero_of_val hf hpos.ne'
    rw [invLog_of_signBit_false hn hm (signBit_of_val_pos hpos), expMinusOne, exp64_overflow hf hbig]
    decide

/-- The operands up to 1e-300 are numbers. -/
theorem not_nan_of_tiny {x : DWord} (hle : Binary64.magnitude x ≤ 0x01A56E1FC2F8F359) : Binary64.isNaN x = false :=
  Bool.eq_false_iff.mpr fun h => by rw [isNaN_iff] at h; omega

theorem invLog_tiny {x : DWord} (hs : Binary64.signBit x = false) (h0 : 0 < Binary64.magnitude x)
    (hle : Binary64.magnitude x ≤ 0x01A56E1FC2F8F359) : invLog x = 0#64 := by
  have hnat : x.toNat = Binary64.magnitude x := by rw [← toNat_abs, abs_of_signBit_false hs]
  have hexp : Config.exp64 x = F64.ONE :=
    Config.expFn.spec.tiny x (by rintro rfl; exact absurd h0 (by decide)) (hnat ▸ hle)
  rw [invLog_of_signBit_false (not_nan_of_tiny hle) h0.ne' hs, expMinusOne, hexp]
  decide

theorem invLog_small {x : DWord} (hf : Binary64.isFinite x = true) (h0 : 0 < Binary64.val x)
    (h1 : Binary64.val x < 1 / 2 ^ 53) : invLog x = 0#64 ∨ invLog x = 0x3CB0000000000000#64 := by
  obtain ⟨hn, hm⟩ := not_nan_and_ne_zero_of_val hf h0.ne'
  rw [invLog_of_signBit_false hn hm (signBit_of_val_pos h0), expMinusOne]
  rcases exp64_small hf h0 h1 with hexp | hexp
  · exact .inl (by rw [hexp]; decide)
  · exact .inr (by rw [hexp]; decide)

/-- Settles O40: the special results of a positive operand are `invLog_overflow`, `invLog_tiny` and `invLog_small`; those
of a negative one follow by odd symmetry (`invLog_odd`). -/
theorem invlogTransforms : Obligations.InvlogTransforms := by
  unfold Obligations.InvlogTransforms
  intro rd ra s
  refine ⟨_, rfl, setV_wroteV s rd _, ?_⟩
  rw [setF_retire_get, State.f64]
  generalize s.v[ra] = x
  refine ⟨fun hn => ?nan, fun hz => ?zero, fun hn hm => ⟨fun hs => ?positive, fun hs => ?negative⟩, fun h => ?overflow,
    fun h => ?negOverflow, fun h0 hle => ?tiny, fun hf h0 h1 => ?small, fun hf h0 h1 => ?negSmall⟩
  case nan => rw [invLog_nan hn]; decide
  case zero => rw [invLog_zero hz]; decide
  case positive => rw [invLog_of_signBit_false hn hm hs, expMinusOne]
  case negative =>
    rw [invLog_odd hn hm, invLog_of_signBit_false (by rwa [isNaN_neg_eq]) (by rwa [magnitude_neg])
      (by rw [signBit_neg, hs]; rfl), expMinusOne]
  case overflow => rw [invLog_overflow h]; decide
  case negOverflow =>
    have hneg : F64.neg x = Binary64.posInf ∨
        (Binary64.isFinite (F64.neg x) = true ∧ 710 ≤ Binary64.val (F64.neg x)) := by
      refine h.imp (fun hx => by rw [hx]; decide) fun ⟨hf, hbig⟩ => ⟨isFinite_neg hf, ?_⟩
      rw [val_neg_exact]
      linarith
    obtain ⟨hn, hm⟩ : Binary64.isNaN x = false ∧ Binary64.magnitude x ≠ 0 := by
      rcases h with rfl | ⟨hf, hbig⟩
      · decide
      · exact not_nan_and_ne_zero_of_val hf (by linarith)
    rw [invLog_odd hn hm, invLog_overflow hneg]
    decide
  case tiny =>
    cases hs : Binary64.signBit x with
    | false => rw [invLog_tiny hs h0 hle]; decide
    | true =>
      rw [invLog_odd (not_nan_of_tiny hle) h0.ne', invLog_tiny (by rw [signBit_neg, hs]; rfl) (by rwa [magnitude_neg])
        (by rwa [magnitude_neg])]
      decide
  case small => exact (invLog_small hf h0 h1).imp (fun h => by rw [h]; decide) fun h => by rw [h]; decide
  case negSmall =>
    obtain ⟨hn, hm⟩ := not_nan_and_ne_zero_of_val hf h0.ne
    rw [invLog_odd hn hm]
    exact (invLog_small (isFinite_neg hf) (by rw [val_neg_exact]; linarith) (by rw [val_neg_exact]; linarith)).imp
      (fun h => by rw [h]; decide) fun h => by rw [h]; decide

/-! ## LOGITOP and INVSIG -/

theorem clamp_of_not_nan {x : DWord} (hn : Binary64.isNaN x = false) (lo hi : DWord) :
    F64.clamp x lo hi = if F64.lt x lo then lo else if F64.lt hi x then hi else x := by
  rw [F64.clamp, F64.isNaN, hn, if_neg Bool.false_ne_true]

theorem logitOpacity_nan {x : DWord} (hn : Binary64.isNaN x = true) : logitOpacity x = F64.nan := if_pos hn

theorem logitOpacity_eq {x : DWord} (hn : Binary64.isNaN x = false) : logitOpacity x =
    F64.neg (Config.ln64 (F64.sub (F64.div F64.ONE (F64.clamp x F64.C_LO F64.C_HI)) F64.ONE)) := by
  rw [logitOpacity, F64.isNaN, hn, if_neg Bool.false_ne_true]

theorem invSigmoid_nan {x : DWord} (hn : Binary64.isNaN x = true) : invSigmoid x = F64.nan := if_pos hn

theorem invSigmoid_eq {x : DWord} (hn : Binary64.isNaN x = false) : invSigmoid x =
    Config.ln64 (F64.div (F64.clamp x F64.EPS F64.ONE_M_EPS)
      (F64.sub F64.ONE (F64.clamp x F64.EPS F64.ONE_M_EPS))) := by
  rw [invSigmoid, F64.isNaN, hn, if_neg Bool.false_ne_true]

theorem ln64_ONE : Config.ln64 F64.ONE = 0#64 := Config.lnFn.spec.one

/-- `-ln(1 / 0.5 - 1)` is `-ln 1.0` (45_transforms.md R201). -/
theorem logitOpacity_HALF : logitOpacity F64.HALF = Binary64.negZero := by
  have harg : F64.sub (F64.div F64.ONE (F64.clamp F64.HALF F64.C_LO F64.C_HI)) F64.ONE = F64.ONE := by decide
  rw [logitOpacity_eq (by decide), harg, ln64_ONE]
  decide

theorem val_HALF : Binary64.val F64.HALF = 1 / 2 := by
  rw [show F64.HALF = Elementary.pat 0x3FE0000000000000 from rfl, Elementary.pat_val (by decide), Elementary.uval,
    show Binary64.units 0x3FE0000000000000 = 2 ^ 1073 by decide +kernel, Nat.cast_pow, Nat.cast_ofNat,
    div_eq_div_iff (by positivity) (by positivity), one_mul, ← pow_succ]

/-- Every admitted epsilon is between 0 and 0.5 (00_scope.md R6). -/
theorem val_EPS : 0 < Binary64.val F64.EPS ∧ Binary64.val F64.EPS ≤ Binary64.val F64.HALF := by
  have hpos : 0 < F64.EPS.toNat := Config.params.invsigEps_pos
  have hlt : F64.EPS.toNat < 0x3FE0000000000000 := Config.params.invsigEps_lt
  have hval : Binary64.val F64.EPS = Elementary.uval F64.EPS.toNat := by
    rw [← Elementary.pat_val (by omega), Elementary.pat, BitVec.ofNat_toNat, BitVec.setWidth_eq]
  rw [hval, show F64.HALF = Elementary.pat 0x3FE0000000000000 from rfl, Elementary.pat_val (by decide)]
  exact ⟨Elementary.uval_zero ▸ Elementary.uval_strictMono hpos, Elementary.uval_strictMono.monotone hlt.le⟩

/-- `RN(1 - EPS)` is at least 0.5, which `1 - EPS` is. -/
theorem half_le_ONE_M_EPS : Binary64.val F64.HALF ≤ Binary64.val F64.ONE_M_EPS := by
  obtain ⟨hpos, hle⟩ := val_EPS
  rw [val_HALF] at hle
  have hround := sub_rounds (x := F64.ONE) (y := F64.EPS) (by decide) Config.params.invsigEps_finite
  rw [val_ONE, ← Rat.cast_sub] at hround
  refine le_val_of_rounds hround (lt_overflow_of_le_two_pow_53 ?_) (by decide) ?_
  · rw [← Rat.cast_abs, abs_of_pos (by linarith)]
    have hone : ((1 - Binary64.val F64.EPS : ℚ) : ℝ) ≤ ((1 : ℚ) : ℝ) := Rat.cast_le.mpr (by linarith)
    rw [Rat.cast_one] at hone
    exact hone.trans (by norm_num)
  · rw [val_HALF]
    exact Rat.cast_le.mpr (by linarith)

/-- 0.5 is inside every clamp interval, and `ln(0.5 / (1 - 0.5))` is `ln 1.0` (45_transforms.md R202). -/
theorem invSigmoid_HALF : invSigmoid F64.HALF = 0#64 := by
  obtain ⟨hpos, hle⟩ := val_EPS
  have hlo : F64.lt F64.HALF F64.EPS = false := lt_eq_false_of_val_le hpos hle
  have hhi : F64.lt F64.ONE_M_EPS F64.HALF = false :=
    lt_eq_false_of_val_le (by rw [val_HALF]; norm_num) half_le_ONE_M_EPS
  have hclamp : F64.clamp F64.HALF F64.EPS F64.ONE_M_EPS = F64.HALF := by
    rw [clamp_of_not_nan (by decide), hlo, hhi]
    rfl
  have harg : F64.div F64.HALF (F64.sub F64.ONE F64.HALF) = F64.ONE := by decide
  rw [invSigmoid_eq (by decide), hclamp, harg, ln64_ONE]

/-- Settles O41: each command is its formula on the clamped operand; at 0.5 the logarithm is that of 1.0
(`logitOpacity_HALF`, `invSigmoid_HALF`). -/
theorem logitopAndInvsig : Obligations.LogitopAndInvsig := by
  unfold Obligations.LogitopAndInvsig
  constructor
  · intro rd ra s
    refine ⟨_, rfl, setV_wroteV s rd _, ?_⟩
    rw [setF_retire_get, State.f64]
    refine ⟨fun hn => ?_, fun hn => ?_, fun hhalf => ?_⟩
    · rw [logitOpacity_nan hn]; decide
    · rw [logitOpacity_eq hn, clamp_of_not_nan hn]; rfl
    · rw [hhalf, logitOpacity_HALF]; decide
  · intro rd ra s
    refine ⟨_, rfl, setV_wroteV s rd _, ?_⟩
    rw [setF_retire_get, State.f64]
    refine ⟨fun hn => ?_, fun hn => ?_, fun hhalf => ?_⟩
    · rw [invSigmoid_nan hn]; decide
    · rw [invSigmoid_eq hn, clamp_of_not_nan hn]; rfl
    · rw [hhalf, invSigmoid_HALF]; decide

/-! ## SHDC -/

/-- The values R203 lists, as `setf` writes them. -/
theorem canon_shDc_values :
    F64.canon (shDc F64.HALF) = 0#64 ∧ F64.canon (shDc 0#64) = 0xBFFC5BF891B4EF6B#64 ∧
    F64.canon (shDc F64.ONE) = 0x3FFC5BF891B4EF6B#64 ∧
    F64.canon (shDc 0x3FE8000000000000#64) = 0x3FEC5BF891B4EF6B#64 ∧
    F64.canon (shDc Binary64.posInf) = Binary64.posInf ∧ F64.canon (shDc Binary64.negInf) = Binary64.negInf := by
  decide +kernel

theorem shDc_nan {x : DWord} (hn : Binary64.isNaN x = true) : shDc x = F64.nan := by
  obtain ⟨-, hsub, -, -⟩ := arith_of_nan (y := F64.HALF) (.inl hn)
  obtain ⟨-, -, -, hdiv⟩ := arith_of_nan (y := F64.SH_C0) (.inl isNaN_nan)
  rw [shDc, hsub, hdiv]

/-- Settles O42: the command is `shDc`, whose listed values are evaluated (`canon_shDc_values`). -/
theorem shdcMapsChannel : Obligations.ShdcMapsChannel := by
  unfold Obligations.ShdcMapsChannel
  intro rd ra s
  refine ⟨_, rfl, setV_wroteV s rd _, ?_⟩
  rw [setF_retire_get, State.f64]
  obtain ⟨hhalf, hzero, hone, hthree, hpos, hneg⟩ := canon_shDc_values
  exact ⟨rfl, fun h => h ▸ hhalf, fun h => h ▸ hzero, fun h => h ▸ hone, fun h => h ▸ hthree, fun h => h ▸ hpos,
    fun h => h ▸ hneg, fun hn => by rw [shDc_nan hn]; decide⟩

end Sys2Proof.Machine
end

section
/-! The quaternion unit (46_quaternion.md). Both commands recover the fourth component and place it: `UNPKROT` by its
selector (`place_slots`), with a division by the norm (`unpackRotation_eq`), and `QUATST` by its tag (`place_tag_slots`),
where that is not below 252 (`quatTagged_of_le`). -/

namespace Sys2Proof.Machine

/-! ## Four destinations after the command retires -/

/-- Four results as `setf` writes them. -/
def canon4 (x : DWord × DWord × DWord × DWord) : DWord × DWord × DWord × DWord :=
  (F64.canon x.1, F64.canon x.2.1, F64.canon x.2.2.1, F64.canon x.2.2.2)

theorem plus_zero (i : VReg) : VReg.plus i 0 = i := by
  apply Fin.ext
  rw [plus_val (by omega), Nat.add_zero]

theorem setF4_retire_get {rd : VReg} (h : rd.val ≤ 12) (s : State) {x : DWord × DWord × DWord × DWord}
    {a b c d : DWord} (hx : canon4 x = (a, b, c, d)) :
    (s.setF4 rd x).retire.v[rd] = a ∧ (s.setF4 rd x).retire.v[VReg.plus rd 1] = b ∧
      (s.setF4 rd x).retire.v[VReg.plus rd 2] = c ∧ (s.setF4 rd x).retire.v[VReg.plus rd 3] = d := by
  cases hx
  simpa only [plus_zero, State.retire_v] using setF4_get h s x

/-! ## The slots -/

/-- Slot by slot, the component that stands in it (46_quaternion.md R212). -/
theorem place_slots {sel : Nat} (hsel : sel < 4) (s0 s1 s2 m : DWord) :
    place sel s0 s1 s2 m =
      (if sel = 0 then m else s0, if sel = 0 then s0 else if sel = 1 then m else s1,
        if sel = 0 then s1 else if sel = 1 then s1 else if sel = 2 then m else s2, if sel = 3 then m else s2) := by
  interval_cases sel <;> rfl

/-- The same by the tag of a pixel, 252 for slot 0 (46_quaternion.md R214). -/
theorem place_tag_slots {tag : Nat} (hlo : 252 ≤ tag) (hhi : tag < 256) (s0 s1 s2 m : DWord) :
    place (tag - 252) s0 s1 s2 m =
      (if tag = 252 then m else s0, if tag = 252 then s0 else if tag = 253 then m else s1,
        if tag = 254 then m else if tag = 255 then s2 else s1, if tag = 255 then m else s2) := by
  interval_cases tag <;> rfl

/-! ## UNPKROT -/

/-- A quaternion over its norm (46_quaternion.md R213). -/
def overNorm (q : DWord × DWord × DWord × DWord) : DWord × DWord × DWord × DWord :=
  (F64.div q.1 (quatNorm q), F64.div q.2.1 (quatNorm q), F64.div q.2.2.1 (quatNorm q), F64.div q.2.2.2 (quatNorm q))

theorem unpackRotation_eq {w : Nat} (hw : w < 2 ^ 32) :
    let s0 := rotComponent (w / 2 ^ 20 % 2 ^ 10)
    let s1 := rotComponent (w / 2 ^ 10 % 2 ^ 10)
    let s2 := rotComponent (w % 2 ^ 10)
    unpackRotation w = overNorm (place (w / 2 ^ 30) s0 s1 s2 (recoverA s0 s1 s2)) := by
  have hsel : bits w 31 30 = w / 2 ^ 30 := Nat.mod_eq_of_lt (by omega)
  have hlow : bits w 9 0 = w % 2 ^ 10 := by rw [bits, pow_zero, Nat.div_one]
  rw [unpackRotation, hsel, hlow]
  rfl

/-- R213's example with the large component in slot 0. -/
theorem canon4_unpackRotation_example {w : Nat} (hw : w = 0x1FF7FDFF) : canon4 (unpackRotation w) =
    (0x3FEFFFFE7F3FAEDF#64, 0xBF46A647F87D5B1E#64, 0xBF46A647F87D5B1E#64, 0xBF46A647F87D5B1E#64) := by
  subst hw
  decide +kernel

/-- R213's example of the zero word. -/
theorem canon4_unpackRotation_zero {w : Nat} (hw : w = 0) : canon4 (unpackRotation w) =
    (0#64, 0xBFE279A74590331C#64, 0xBFE279A74590331C#64, 0xBFE279A74590331C#64) := by
  subst hw
  decide +kernel

/-- Settles O43: the placed components (`place_slots`) over their norm (`unpackRotation_eq`), the examples evaluated
(`canon4_unpackRotation_example`, `canon4_unpackRotation_zero`). -/
theorem unpkrotQuaternion : Obligations.UnpkrotQuaternion := by
  unfold Obligations.UnpkrotQuaternion
  intro rd ra s
  refine destChecked_clauses rfl rfl fun h => ⟨setF4_wroteV s rd _, ?_⟩
  intro w comp s0 s1 s2 m sel q0 q1 q2 q3 n
  have hw : w < 2 ^ 32 := Nat.mod_lt _ (by decide)
  have hplace : place sel s0 s1 s2 m = (q0, q1, q2, q3) := place_slots (by omega) s0 s1 s2 m
  have hunpack : unpackRotation w = overNorm (q0, q1, q2, q3) :=
    (unpackRotation_eq hw).trans (congrArg overNorm hplace)
  obtain ⟨hv0, hv1, hv2, hv3⟩ := setF4_retire_get h s (congrArg canon4 hunpack)
  exact ⟨hv0, hv1, hv2, hv3, fun he => setF4_retire_get h s (canon4_unpackRotation_example he),
    fun he => setF4_retire_get h s (canon4_unpackRotation_zero he)⟩

/-! ## QUATST -/

theorem byteOf_three {w : Nat} (hw : w < 2 ^ 32) : byteOf w 3 = w / 2 ^ 24 := Nat.mod_eq_of_lt (by omega)

theorem byteOf_zero (w : Nat) : byteOf w 0 = w % 2 ^ 8 := congrArg (· % 2 ^ 8) (Nat.div_one w)

theorem quatTagged_of_lt {w : Nat} (hw : w < 2 ^ 32) (htag : w / 2 ^ 24 < 252) :
    quatTagged w = (F64.ONE, 0#64, 0#64, 0#64) := by
  rw [quatTagged, byteOf_three hw]
  exact if_pos htag

theorem quatTagged_of_le {w : Nat} (hw : w < 2 ^ 32) (htag : 252 ≤ w / 2 ^ 24) :
    let s0 := tagComponent (w % 2 ^ 8)
    let s1 := tagComponent (w / 2 ^ 8 % 2 ^ 8)
    let s2 := tagComponent (w / 2 ^ 16 % 2 ^ 8)
    quatTagged w = place (w / 2 ^ 24 - 252) s0 s1 s2 (recoverS s0 s1 s2) := by
  rw [quatTagged, byteOf_three hw, byteOf_zero]
  exact if_neg (Nat.not_lt.mpr htag)

theorem canon4_identity : canon4 (F64.ONE, 0#64, 0#64, 0#64) = (F64.ONE, 0#64, 0#64, 0#64) := by decide

/-- R214's example. -/
theorem canon4_quatTagged_example {w : Nat} (hw : w = 0xFD808080) : canon4 (quatTagged w) =
    (0x3F66B755BC3B772D#64, 0x3FEFFFE7CFAE7B26#64, 0x3F66B755BC3B772D#64, 0x3F66B755BC3B772D#64) := by
  subst hw
  decide +kernel

/-- Settles O44: the identity (`quatTagged_of_lt`) or the placed components (`quatTagged_of_le`, `place_tag_slots`), the
example evaluated (`canon4_quatTagged_example`). -/
theorem quatstQuaternion : Obligations.QuatstQuaternion := by
  unfold Obligations.QuatstQuaternion
  intro rd ra s
  refine destChecked_clauses rfl rfl fun h => ⟨setF4_wroteV s rd _, ?_⟩
  intro w tag comp s0 s1 s2 m
  have hw : w < 2 ^ 32 := Nat.mod_lt _ (by decide)
  refine ⟨fun hlt => ?_, fun hle => ?_, fun he => ?_⟩
  · exact setF4_retire_get h s ((congrArg canon4 (quatTagged_of_lt hw hlt)).trans canon4_identity)
  · have hplace := place_tag_slots hle (by omega) s0 s1 s2 m
    exact setF4_retire_get h s (congrArg canon4 ((quatTagged_of_le hw hle).trans hplace))
  · exact setF4_retire_get h s (canon4_quatTagged_example he)

end Sys2Proof.Machine
end

section
/-! The errors (60_exceptions.md R300 to R302): their numbers, and which of them each command raises, bounded pass by
pass of its checks. -/

namespace Sys2Proof.Machine

/-! ## Error information -/

/-- A word of two bytes and a half-word, least significant first (60_exceptions.md R301). -/
theorem packed_fields {a b : Nat} (ha : a < 256) (hb : b < 256) (c : Nat) :
    let w := BitVec.ofNat 32 (a + b * 2 ^ 8 + c % 2 ^ 16 * 2 ^ 16)
    w.extractLsb' 0 8 = BitVec.ofNat 8 a ∧ w.extractLsb' 8 8 = BitVec.ofNat 8 b ∧
      w.extractLsb' 16 16 = BitVec.ofNat 16 c := by
  refine ⟨?_, ?_, ?_⟩ <;>
  · apply BitVec.eq_of_toNat_eq
    simp only [BitVec.extractLsb'_toNat, BitVec.toNat_ofNat, Nat.shiftRight_eq_div_pow]
    omega

/-- Settles O9: the codes and the unpacked formats are the definitions; the packed ones are `packed_fields`. -/
theorem errorNumbers : Obligations.ErrorNumbers := by
  unfold Obligations.ErrorNumbers
  refine ⟨fun _ => ⟨rfl, rfl⟩, fun r d e => ⟨rfl, fun hr hd => packed_fields hr hd e⟩, fun _ => ⟨rfl, rfl⟩,
    fun _ => ⟨rfl, rfl⟩, fun _ => ⟨rfl, rfl⟩, fun k r => ⟨rfl, fun hk hr => packed_fields hk hr 0⟩,
    fun _ => ⟨rfl, rfl⟩, fun _ => ⟨rfl, rfl⟩, fun _ => ⟨rfl, rfl⟩⟩

/-! ## Which errors a check raises -/

/-- Every error of `c` has its code in `cs`. -/
def RaisesIn {α : Type} (cs : List (BitVec 8)) (c : Except NceError α) : Prop := ∀ e, c = .error e → e.code ∈ cs

section
variable {α β : Type} {cs : List (BitVec 8)}

theorem raisesIn_ok (a : α) : RaisesIn cs (.ok a) := nofun

theorem raisesIn_error {e : NceError} (h : e.code ∈ cs := by simp [NceError.code, errorsOf]) :
    RaisesIn (α := α) cs (.error e) := by
  rintro _ ⟨⟩
  exact h

theorem RaisesIn.mono {cs' : List (BitVec 8)} {c : Except NceError α} (h : RaisesIn cs c) (hs : cs ⊆ cs') :
    RaisesIn cs' c := fun e he => hs (h e he)

theorem RaisesIn.bind {c : Except NceError α} {f : α → Except NceError β} (hc : RaisesIn cs c)
    (hf : ∀ a, RaisesIn cs (f a)) : RaisesIn cs (c >>= f) := by
  cases c with
  | ok a => exact hf a
  | error e => exact raisesIn_error (hc e rfl)

theorem RaisesIn.ite {p : Prop} [Decidable p] {c d : Except NceError α} (hc : RaisesIn cs c) (hd : RaisesIn cs d) :
    RaisesIn cs (if p then c else d) := by
  split
  · exact hc
  · exact hd

end

theorem readWordChecked_raisesIn (m : Memory) (a : Nat) {cs : List (BitVec 8)} (h : 7#8 ∈ cs := by simp) :
    RaisesIn cs (readWordChecked m a) := .ite (raisesIn_ok _) (raisesIn_error h)

theorem checkWordAccess_raisesIn (ea : Nat) : RaisesIn [9#8, 7#8] (checkWordAccess ea) :=
  .ite raisesIn_error (.ite (raisesIn_ok ()) raisesIn_error)

theorem checkByteAccess_raisesIn (ea : Nat) : RaisesIn [7#8] (checkByteAccess ea) :=
  .ite (raisesIn_ok ()) raisesIn_error

/-! ## The errors of DECCHK -/

theorem checkHeader_raisesIn (s : State) : RaisesIn [9#8, 7#8, 1#8] (checkHeader s) := by
  refine .ite raisesIn_error (.ite raisesIn_error
    (.ite raisesIn_error (.bind (readWordChecked_raisesIn _ _) fun hdr => ?_)))
  exact .ite raisesIn_error (readWordChecked_raisesIn _ _)

theorem walkProps_raisesIn (m : Memory) (a e : Nat) : ∀ n p stride, RaisesIn [7#8, 2#8] (walkProps m a e n p stride)
  | 0, _, _ => raisesIn_ok _
  | n + 1, p, stride => by
    refine .bind (readWordChecked_raisesIn m _) fun pw => .ite raisesIn_error ?_
    split
    · exact raisesIn_error
    · exact .bind (walkProps_raisesIn m a e n _ _) fun _ => raisesIn_ok _

theorem walkElems_raisesIn (m : Memory) : ∀ n e a, RaisesIn [7#8, 2#8] (walkElems m n e a)
  | 0, _, _ => raisesIn_ok _
  | n + 1, e, a =>
    .bind (readWordChecked_raisesIn m _) fun _ => .bind (readWordChecked_raisesIn m _) fun _ =>
      .bind (walkProps_raisesIn m _ _ _ _ _) fun _ => .bind (walkElems_raisesIn m n _ _) fun _ => raisesIn_ok _

theorem theElem_raisesIn (kind rNone rTwo : Nat) (els : List ElemDesc) :
    RaisesIn [2#8] (theElem kind rNone rTwo els) := by
  unfold theElem
  split
  · exact raisesIn_error
  · exact raisesIn_ok _
  · exact raisesIn_error

theorem collectFields_raisesIn (lo hi e : Nat) : ∀ l seen, RaisesIn [2#8] (collectFields lo hi e seen l)
  | [], _ => raisesIn_ok _
  | _ :: t, _ =>
    .ite (.ite raisesIn_error (collectFields_raisesIn lo hi e t _))
      (collectFields_raisesIn lo hi e t _)

theorem requireFields_raisesIn (seen : List PropDesc) (ty e : Nat) : ∀ fs, RaisesIn [2#8] (requireFields seen ty e fs)
  | [] => raisesIn_ok _
  | f :: t => by
    unfold requireFields
    split
    · exact raisesIn_error
    · exact .ite raisesIn_error (requireFields_raisesIn seen ty e t)

theorem checkColour_raisesIn (seen : List PropDesc) (e : Nat) : RaisesIn [2#8] (checkColour seen e) := by
  unfold checkColour
  dsimp only
  split
  · exact .bind (requireFields_raisesIn _ _ _ _) fun _ => raisesIn_ok _
  · exact .ite raisesIn_error (raisesIn_ok _)

theorem checkSchema_raisesIn (els : List ElemDesc) : RaisesIn [2#8] (checkSchema els) :=
  .bind (theElem_raisesIn _ _ _ _) fun _ => .bind (theElem_raisesIn _ _ _ _) fun _ =>
    .bind (collectFields_raisesIn _ _ _ _ _) fun _ => .bind (requireFields_raisesIn _ _ _ _) fun _ =>
      .bind (checkColour_raisesIn _ _) fun _ => .bind (collectFields_raisesIn _ _ _ _ _) fun _ =>
        .bind (requireFields_raisesIn _ _ _ _) fun _ => raisesIn_ok _

theorem checkTruncation_raisesIn (c v len : Nat) : ∀ l e off, RaisesIn [3#8] (checkTruncation c v len e off l)
  | [], _, _ => raisesIn_ok _
  | _ :: t, _, _ =>
    .ite raisesIn_error (.bind (checkTruncation_raisesIn c v len t _ _) fun _ => raisesIn_ok _)

theorem checkChunkOutput_raisesIn (s : State) (vn descEnd : Nat) : RaisesIn [7#8] (checkChunkOutput s vn descEnd) :=
  .ite raisesIn_error (.ite raisesIn_error (raisesIn_ok _))

theorem validateChunked_raisesIn (s : State) : RaisesIn (errorsOf .decchk) (validateChunked s) := by
  refine .bind ((checkHeader_raisesIn s).mono (by decide)) fun _ =>
    .bind ((walkElems_raisesIn _ _ _ _).mono (by decide)) fun _ =>
      .bind ((checkSchema_raisesIn _).mono (by decide)) fun _ =>
        .bind ((checkTruncation_raisesIn _ _ _ _ _ _).mono (by decide)) fun _ => .ite raisesIn_error ?_
  exact .bind ((checkChunkOutput_raisesIn _ _ _).mono (by decide)) fun _ => raisesIn_ok _

/-! ## The errors of DECIMG -/

theorem checkPlaneAlign_raisesIn : ∀ l k, RaisesIn [9#8] (checkPlaneAlign k l)
  | [], _ => raisesIn_ok _
  | _ :: t, _ => .ite raisesIn_error (checkPlaneAlign_raisesIn t _)

theorem checkPlanes_raisesIn (n : Nat) : ∀ l k, RaisesIn [6#8] (checkPlanes n k l)
  | [], _ => raisesIn_ok _
  | _ :: t, _ =>
    .ite raisesIn_error
      (.ite raisesIn_error (checkPlanes_raisesIn n t _))

theorem checkManifest_raisesIn (s : State) : RaisesIn [9#8, 5#8, 6#8] (checkManifest s) := by
  refine .ite raisesIn_error (.ite raisesIn_error
    (.ite raisesIn_error (.bind ((checkPlaneAlign_raisesIn _ _).mono (by decide)) fun _ => ?_)))
  exact .ite raisesIn_error (.ite raisesIn_error
    (.ite raisesIn_error ((checkPlanes_raisesIn _ _ _).mono (by decide))))

theorem checkRegions_raisesIn (s : State) : RaisesIn [7#8] (checkRegions s) :=
  .ite raisesIn_error (.ite raisesIn_error (raisesIn_ok _))

theorem validateImage_raisesIn (s : State) : RaisesIn (errorsOf .decimg) (validateImage s) :=
  .bind ((checkManifest_raisesIn s).mono (by decide)) fun _ => (checkRegions_raisesIn s).mono (by decide)

/-! ## Every command -/

section
variable {i : Instr} {s t : State}

/-- A command that retires sets no `ERR`. -/
theorem err_unset_of_retired {s' : State} (herr : s.err = false) (hs : s'.err = s.err) :
    s'.retire.err ≠ true := by
  rw [State.retire_err, hs, herr]
  exact Bool.false_ne_true

/-- A command that writes once its check has passed raises what the check raises. -/
theorem errCode_of_complete {c : Except NceError Unit} {s' : State} (hc : RaisesIn (errorsOf i) c)
    (herr : s.err = false) (h : complete s (do c; .ok s') = .next t) (hs : s'.err = s.err) (ht : t.err = true) :
    t.errCode ∈ errorsOf i := by
  cases c with
  | ok u => cases h; exact absurd ht (err_unset_of_retired herr hs)
  | error e => cases h; exact hc e rfl

/-- A frame command raises what its checks raise. -/
theorem errCode_of_completeFrame {α : Type} {c : Except NceError α} {f : α → State} (hc : RaisesIn (errorsOf i) c)
    (herr : s.err = false) (h : completeFrame s (c.map f) = .next t) (hs : ∀ a, (f a).err = s.err) (ht : t.err = true) :
    t.errCode ∈ errorsOf i := by
  cases c with
  | ok a => cases h; exact absurd ht (err_unset_of_retired herr (hs a))
  | error e => cases h; exact hc e rfl

theorem checkDest_raisesIn {j : Instr} (h : j.wellFormed = true) (cs : List (BitVec 8)) :
    RaisesIn cs (checkDest j) := by
  rw [checkDest, if_pos h]
  exact raisesIn_ok ()

theorem errCode_of_exec (hwf : i.wellFormed = true) (herr : s.err = false) (h : exec i s = .next t)
    (ht : t.err = true) : t.errCode ∈ errorsOf i := by
  cases i with
  | halt => cases h; exact absurd ht (err_unset_of_retired herr rfl)
  | nop | li | mov | unorm8 | u16n | dequant | dqrange | invlog | logitop | invsig | shdc =>
    exact errCode_of_complete (c := .ok ()) (raisesIn_ok ()) herr h rfl ht
  | unpk111011 | unpk8888 | unpkrot | quatst => exact errCode_of_complete (checkDest_raisesIn hwf _) herr h rfl ht
  | ldw | ldf | stw | stf | cblk => exact errCode_of_complete (checkWordAccess_raisesIn _) herr h rfl ht
  | ldb => exact errCode_of_complete (checkByteAccess_raisesIn _) herr h rfl ht
  | decchk => exact errCode_of_completeFrame (validateChunked_raisesIn s) herr h (fun _ => rfl) ht
  | decimg => exact errCode_of_completeFrame (validateImage_raisesIn s) herr h (fun _ => rfl) ht

end

/-- Settles O8: the fetch is one checked read, decoding has one error, and a command raises what its checks raise
(`errCode_of_exec`). -/
theorem errorsByCommand : Obligations.ErrorsByCommand := by
  unfold Obligations.ErrorsByCommand
  refine ⟨fun s e h => ?_, fun w e h => ?_, fun i s t hwf herr h ht => errCode_of_exec hwf herr h ht⟩
  · rw [fetch, readWordChecked] at h
    split at h <;> cases h
    rfl
  · rw [decodeFetched] at h
    split at h <;> cases h
    rfl

end Sys2Proof.Machine
end

section
/-! START, the interrupt (60_exceptions.md R309, R310, R318) and RESET (70_reset_and_hazards.md R340, R341): each is one
step of the host. -/

namespace Sys2Proof.Machine

/-! ## START and the interrupt -/

section
variable {s : State} {rest : List Turn} {x : Nat}

/-- A host write of `CTRL`, RESET released (10_state.md R29). -/
theorem step_writeCtrl (hr : s.resetHeld = false)
    (h : s.turns = .host (.write (Config.params.nceBase + 0x008) 4 x) :: rest) :
    step s = .next (if x % 2 = 1 ∧ s.busy = false then State.start { s with turns := rest } (x / 2 % 2 == 1)
      else { s with ie := x / 2 % 2 == 1, turns := rest }) := by
  rw [step_mmioWrite_released hr (by omega) (by omega) h]
  have h0 : (BitVec.ofNat 32 x).getLsbD 0 = (x % 2 == 1) := by rw [getLsbD_ofNat_word (by omega), pow_zero, Nat.div_one]
  have h1 : (BitVec.ofNat 32 x).getLsbD 1 = (x / 2 % 2 == 1) := getLsbD_ofNat_word (by omega) x
  rw [show (0x008 : Nat) = MmioReg.offset .ctrl from rfl, mmioWrite_offset, writeReg_ctrl, writeCtrl, h0, h1]
  simp

/-- A host write of `STATUS`, RESET released (10_state.md R30). -/
theorem step_writeStatus (hr : s.resetHeld = false)
    (h : s.turns = .host (.write (Config.params.nceBase + 0x00C) 4 x) :: rest) :
    step s = .next { s with
      done := s.done && !(x / 2 % 2 == 1), err := s.err && !(x / 4 % 2 == 1), turns := rest } := by
  rw [step_mmioWrite_released hr (by omega) (by omega) h]
  have h1 : (BitVec.ofNat 32 x).getLsbD 1 = (x / 2 % 2 == 1) := getLsbD_ofNat_word (by omega) x
  have h2 : (BitVec.ofNat 32 x).getLsbD 2 = (x / 4 % 2 == 1) := getLsbD_ofNat_word (by omega) x
  rw [show (0x00C : Nat) = MmioReg.offset .status from rfl, mmioWrite_offset, writeReg_status, writeStatus, h1, h2]

end

/-- Settles O53: the two cases of a write of `CTRL` (`step_writeCtrl`). -/
theorem startBeginsRun : Obligations.StartBeginsRun := by
  unfold Obligations.StartBeginsRun
  intro s x rest hr h hx
  rw [step_writeCtrl hr h]
  refine ⟨fun hb => ?_, fun hb => ?_⟩
  · rw [if_pos ⟨hx, hb⟩]; rfl
  · rw [if_neg (by simp [hb])]

/-- A set flag is cleared where its bit is written 1. -/
theorem flag_cleared {b c : Bool} (h : b = true → c = true) : (b && !c) = false := by
  cases b with
  | false => rfl
  | true => rw [h rfl]; rfl

theorem irq_of_flags {s : State} (hd : s.done = false) (he : s.err = false) : s.irq = false := by
  rw [State.irq, hd, he, Bool.or_false, Bool.and_false]

/-- Settles O57: what the writes of `CTRL` and `STATUS` leave (`step_writeCtrl`, `step_writeStatus`) has `IE` 0, or
`DONE` and `ERR` 0. -/
theorem interruptCleared : Obligations.InterruptCleared := by
  unfold Obligations.InterruptCleared
  refine ⟨fun s => rfl, fun s x rest hr hx h => ?_, fun s x rest hr h => step_writeStatus hr h,
    fun s x rest hr h hd he => ⟨_, step_writeStatus hr h, ?_⟩, fun s x rest hr h hx => ⟨_, step_writeCtrl hr h, ?_⟩,
    fun s x rest hb hr h hx => ⟨_, step_writeCtrl hr h, ?_⟩⟩
  · rw [step_writeCtrl hr h, if_neg (by omega)]
  · have hdone : (s.done && !(x / 2 % 2 == 1)) = false := flag_cleared fun hs => by simp [hd hs]
    have herr : (s.err && !(x / 4 % 2 == 1)) = false := flag_cleared fun hs => by simp [he hs]
    exact ⟨hdone, herr, irq_of_flags hdone herr, rfl⟩
  · split
    · exact irq_of_flags rfl rfl
    · simp [State.irq, hx]
  · rw [if_pos ⟨hx, hb⟩]
    exact irq_of_flags rfl rfl

/-! ## RESET -/

/-- Settles O13. -/
theorem resetHasInvariant : Obligations.ResetHasInvariant where
  memWf := rfl
  memIn _ h := absurd h List.not_mem_nil
  cptrAligned := rfl
  busyClean h := absurd h Bool.false_ne_true
  doneNoErr h := absurd h Bool.false_ne_true
  errHasCode h := absurd h Bool.false_ne_true
  noCodeNoInfo _ := ⟨rfl, rfl⟩
  codeRange := Nat.zero_le _
  errPcAligned := rfl
  heldReset h := absurd h Bool.false_ne_true

/-- Asserting RESET, as a step (70_reset_and_hazards.md R340). -/
theorem step_assertReset {s : State} {rest : List Turn} (h : s.turns = .host .assertReset :: rest) :
    step s = .next (applyReset { s with turns := rest }) := step_host h

section
variable {s : State} {rest : List Turn}

/-- While RESET is asserted the sequencer is idle. -/
theorem Inv.idle_of_held (h : Inv s) (hr : s.resetHeld = true) : s.busy = false := (h.heldReset hr).status.1

theorem unlessHeld_held (hr : s.resetHeld = true) (t : State) : s.unlessHeld t = s := if_pos hr

theorem step_engineTurn_idle (hb : s.busy = false) (h : s.turns = .engine :: rest) :
    step s = .next { s with turns := rest } := by
  rw [step, h]
  exact engineStep_idle (s := { s with turns := rest }) hb

theorem step_mmioWrite_held {off x : Nat} (hr : s.resetHeld = true) (hlt : off < 0x1000) (hal : off % 4 = 0)
    (h : s.turns = .host (.write (Config.params.nceBase + off) 4 x) :: rest) :
    step s = .next { s with turns := rest } := by
  rw [step_mmioWrite hlt hal h]
  exact congrArg _ (unlessHeld_held (s := { s with turns := rest }) hr _)

theorem mmioRead_idle_congr (hb : s.busy = false) (off : Nat) (rest : List Turn) :
    mmioRead { s with turns := rest } off = mmioRead s off := by
  unfold mmioRead
  split
  · exact readReg_idle_congr hb _ rest s.busData s.draws
  · rfl

theorem step_mmioRead_idle {off : Nat} (hb : s.busy = false) (hlt : off < 0x1000) (hal : off % 4 = 0)
    (h : s.turns = .host (.read (Config.params.nceBase + off) 4) :: rest) :
    step s = .next { s with turns := rest, busData := mmioRead s off } := by
  rw [step_mmioRead hlt hal h, mmioRead_idle_congr hb, hb]
  rfl

theorem hostWrite_emem_held {a n : Nat} (hb : s.busy = false) (hr : s.resetHeld = true) (ha : a < Config.ememBytes)
    (hf : ememFormOk a n = true) (x : Nat) : hostWrite (Config.params.ememHostBase + a) n x s = .next s := by
  rw [hostWrite, hostTarget_emem ha]
  simp only [hf, hb, unlessHeld_held hr, if_true, Bool.false_eq_true, if_false]

theorem step_ememWrite_held {a n x : Nat} (hb : s.busy = false) (hr : s.resetHeld = true) (ha : a < Config.ememBytes)
    (hf : ememFormOk a n = true) (h : s.turns = .host (.write (Config.params.ememHostBase + a) n x) :: rest) :
    step s = .next { s with turns := rest } :=
  (step_host h).trans (hostWrite_emem_held (s := { s with turns := rest }) hb hr ha hf x)

end

/-- Settles O14: RESET gives the values of R340 (`resetValues_applyReset`); while it is held the engine is idle
(`Inv.idle_of_held`) and no write is taken (`unlessHeld_held`). -/
theorem resetGivesR340 : Obligations.ResetGivesR340 := by
  unfold Obligations.ResetGivesR340
  refine ⟨⟨{ resetValues_applyReset State.reset with }, rfl⟩,
    fun s rest h => ⟨_, step_assertReset h, resetValues_applyReset _, rfl, rfl, rfl⟩, fun s rest hi hr => ?_,
    fun s rest hi hr h => ⟨_, step_host h, rfl, { hi.heldReset hr with }, ?_⟩⟩
  · have hb := hi.idle_of_held hr
    refine ⟨fun h => (step_engine h).trans (engineStep_idle hb), step_engineTurn_idle hb,
      fun off x hlt hal h => step_mmioWrite_held hr hlt hal h, fun off hlt hal h => step_mmioRead_idle hb hlt hal h,
      fun a n x hn hal hfit h => ?_⟩
    exact step_ememWrite_held hb hr (by omega) (ememFormOk_iff.mpr ⟨hn, hal⟩) h
  · exact (step_engine rfl).trans (engineStep_idle (hi.idle_of_held hr))

/-- The command in progress does not depend on the schedule. -/
theorem inFlight_turns (s : State) (rest : List Turn) : inFlight { s with turns := rest } = inFlight s := rfl

/-- Asserting RESET changes only the bytes the command in progress stores to (70_reset_and_hazards.md R341). -/
theorem applyReset_sameMemBut {s : State} (hwf : s.mem.wf = true) (rest : List Turn) :
    SameMemBut (inFlight s) s (applyReset { s with turns := rest }) := by
  intro a ha
  rw [← inFlight_turns s rest] at ha
  exact Memory.byte_drawBytes _ _ _ a hwf ha

theorem SameMemBut.sameMem {s t : State} (h : SameMemBut (0, 0) s t) : SameMem s t :=
  fun a => h a (.inr (Nat.zero_le a))

/-- Settles O15: RESET draws the bytes of `inFlight` only (`applyReset_sameMemBut`). -/
theorem resetAbandonsRun : Obligations.ResetAbandonsRun := by
  unfold Obligations.ResetAbandonsRun
  intro s rest hwf h
  have hmem := applyReset_sameMemBut hwf rest
  unfold inFlight at hmem
  refine ⟨_, step_assertReset h, rfl, rfl, rfl, rfl, fun hb i hi => ?_, fun hb e he => ?_, fun hb => ?_⟩
  · rw [if_pos hb, hi] at hmem
    exact hmem
  · rw [if_pos hb, he] at hmem
    exact hmem.sameMem
  · rw [if_neg (by simp [hb])] at hmem
    exact hmem.sameMem

end Sys2Proof.Machine
end

section
/-! The checks of DECCHK (47_frame_chunked.md R228 to R233): each error at the first failing check, by the lemmas of
Laws/Chunked.lean on the passes of the parser; and, pass by pass, what a pass without error guarantees, so that a frame
on which no check fails meets all the conditions. -/

namespace Sys2Proof.Machine

/-- All numbers below `n` have a property, or one is the first without it. -/
theorem forall_or_first_not (P : Nat → Prop) (n : Nat) :
    (∀ k, k < n → P k) ∨ ∃ k, k < n ∧ ¬ P k ∧ ∀ j, j < k → P j := by
  induction n with
  | zero => exact .inl fun k hk => absurd hk (Nat.not_lt_zero k)
  | succ n ih =>
    rcases ih with hall | ⟨k, hk, hno, hfirst⟩
    · by_cases hn : P n
      · exact .inl fun k hk => (Nat.lt_succ_iff_lt_or_eq.mp hk).elim (hall k) fun he => he ▸ hn
      · exact .inr ⟨n, Nat.lt_succ_self n, hn, hall⟩
    · exact .inr ⟨k, hk.trans (Nat.lt_succ_self n), hno, hfirst⟩

theorem ne_error_of_ok {α : Type} {c : Except NceError α} {a : α} {e : NceError} (h : c = .ok a) (he : c = .error e) :
    False := by
  rw [h] at he
  cases he

/-! ## Registers and header -/

section
variable {s : State}

/-- The register and header checks, in order (47_frame_chunked.md R228). -/
theorem checkHeader_eq (s : State) : checkHeader s =
    if s.descBase.toNat % 4 ≠ 0 then .error (.alignment 0x048)
    else if s.outBase.toNat % 4 ≠ 0 then .error (.alignment 0x04C)
    else if Config.ememBytes < s.inBase.toNat + s.inLen.toNat then .error (.io 1)
    else if Config.ememBytes < s.descBase.toNat + 4 then .error (.io 1)
    else if s.mem.readLE s.descBase.toNat 4 % 2 ^ 24 ≠ 0x000101 then .error (.format (s.mem.readLE s.descBase.toNat 4))
    else if Config.ememBytes < s.descBase.toNat + 8 then .error (.io 1)
    else .ok (Desc.nelem s) := by
  have hin : ¬ inEmem s.inBase.toNat s.inLen.toNat = true ↔ Config.ememBytes < s.inBase.toNat + s.inLen.toNat := by
    rw [inEmem_iff, not_le]
  refine if_congr Iff.rfl rfl (if_congr Iff.rfl rfl (if_congr hin rfl ?_))
  by_cases h4 : Config.ememBytes < s.descBase.toNat + 4
  · rw [if_pos h4, readWordChecked_beyond _ h4]; rfl
  · rw [if_neg h4, readWordChecked_ok _ (not_lt.mp h4)]
    refine if_congr (iff_not_comm.mp (header_iff _)) rfl ?_
    by_cases h8 : Config.ememBytes < s.descBase.toNat + 8
    · rw [if_pos h8, readWordChecked_beyond _ (by omega)]
    · rw [if_neg h8, readWordChecked_ok _ (by omega)]; rfl

/-- A header word that is wrong in one of its three bytes (47_frame_chunked.md R221). -/
theorem header_ne {w : Nat} (h : w % 2 ^ 8 ≠ 1 ∨ w / 2 ^ 8 % 2 ^ 8 ≠ 1 ∨ w / 2 ^ 16 % 2 ^ 8 ≠ 0) :
    w % 2 ^ 24 ≠ 0x000101 := by omega

theorem regsOk_of_checkHeader {n : Nat} (h : checkHeader s = .ok n) : Desc.RegsOk s := by
  rw [checkHeader_eq] at h
  split_ifs at h with hd ho hi h4 hh h8
  exact ⟨not_not.mp hd, not_not.mp ho, not_lt.mp hi, not_not.mp hh, not_lt.mp h8⟩

theorem validateChunked_header_error {x : NceError} (h : checkHeader s = .error x) : validateChunked s = .error x := by
  rw [validateChunked, h]
  rfl

/-! ## The descriptor walk -/

/-- The walk stops at property `p` of element `e`. -/
theorem validateChunked_prop_error {e p : Nat} {x : NceError} (he : e < Desc.nelem s) (hr : Desc.Reached s e)
    (h8 : Desc.addr s e + 8 ≤ Config.ememBytes) (hp : p < Desc.nprop s e) (hq : ∀ q, q < p → Desc.PropOk s e q)
    (hfit : Desc.propAddr s e p ≤ Config.ememBytes)
    (hx : ∀ n, walkProps s.mem (Desc.addr s e) e (n + 1) p (Desc.offset s e p) = .error x) :
    validateChunked s = .error x :=
  validateChunked_walk_error hr.regs
    (walkElems_error he hr fun n => walkElems_props n h8 (walkProps_error s e p x hp hq hfit hx))

theorem list_eq (s : State) (e p : Nat) : Desc.list s e p = 0 ∨ Desc.list s e p = 1 := by
  unfold Desc.list
  omega

/-- What the walk needs of a property: its word in EMEM, a scalar of a known type (47_frame_chunked.md R229). -/
def Desc.PropRead (s : State) (e p : Nat) : Prop :=
  Desc.propAddr s e (p + 1) ≤ Config.ememBytes ∧ Desc.PropOk s e p

theorem walkProps_error_of_not_propRead {e p : Nat} (h : ¬ Desc.PropRead s e p) :
    ∃ x, ∀ n, walkProps s.mem (Desc.addr s e) e (n + 1) p (Desc.offset s e p) = .error x := by
  have hnext : Desc.propAddr s e (p + 1) = Desc.propAddr s e p + 4 := rfl
  by_cases hfit : Desc.propAddr s e p + 4 ≤ Config.ememBytes
  · rcases list_eq s e p with hl | hl
    · refine ⟨_, fun n => walkProps_type s e p n hfit hl ?_⟩
      by_contra ht
      exact h ⟨hfit, hl, by omega, by omega⟩
    · exact ⟨_, fun n => walkProps_list s e p n hfit hl⟩
  · exact ⟨_, fun n => walkProps_beyond s e p n (not_le.mp hfit)⟩

theorem propAddr_fits {e p : Nat} (h8 : Desc.addr s e + 8 ≤ Config.ememBytes)
    (h : ∀ q, q < p → Desc.PropRead s e q) : Desc.propAddr s e p ≤ Config.ememBytes := by
  cases p with
  | zero => exact h8
  | succ q => exact (h q (Nat.lt_succ_self q)).1

/-- The walk goes over element `e`, or stops in it. -/
theorem elemOk_or_walk_error {e : Nat} :
    (Desc.addr s (e + 1) ≤ Config.ememBytes ∧ Desc.ElemOk s e) ∨
      ∃ x, ∀ n, walkElems s.mem (n + 1) e (Desc.addr s e) = .error x := by
  by_cases h8 : Desc.addr s e + 8 ≤ Config.ememBytes
  · rcases forall_or_first_not (Desc.PropRead s e) (Desc.nprop s e) with hall | ⟨p, hp, hno, hfirst⟩
    · exact .inl ⟨propAddr_fits h8 hall, fun p hp => (hall p hp).2⟩
    · obtain ⟨x, hx⟩ := walkProps_error_of_not_propRead hno
      exact .inr ⟨x, fun n => walkElems_props n h8
        (walkProps_error s e p x hp (fun q hq => (hfirst q hq).2) (propAddr_fits h8 hfirst) hx)⟩
  · exact .inr ⟨_, fun n => walkElems_beyond s e n (not_le.mp h8)⟩

/-- A walk without error has come over every element. -/
theorem reached_of_walkElems (hr : Desc.RegsOk s) {r : List ElemDesc × Nat}
    (h : walkElems s.mem (Desc.nelem s) 0 (s.descBase.toNat + 8) = .ok r) : Desc.Reached s (Desc.nelem s) := by
  have hreached {e : Nat} (he : ∀ j, j < e → Desc.addr s (j + 1) ≤ Config.ememBytes ∧ Desc.ElemOk s j) :
      Desc.Reached s e := by
    refine ⟨hr, ?_, fun j hj => (he j hj).2⟩
    cases e with
    | zero => exact hr.fits
    | succ j => exact (he j (Nat.lt_succ_self j)).1
  rcases forall_or_first_not (fun j => Desc.addr s (j + 1) ≤ Config.ememBytes ∧ Desc.ElemOk s j) (Desc.nelem s) with
    hall | ⟨e, he, hno, hfirst⟩
  · exact hreached hall
  · obtain ⟨x, hx⟩ := elemOk_or_walk_error.resolve_left hno
    exact (ne_error_of_ok h (walkElems_error he (hreached hfirst) hx)).elim

/-! ## The elements of the two kinds -/

/-- No element of a kind, the one, or a second. -/
theorem kind_cases (s : State) (k : Nat) : (∀ e, e < Desc.nelem s → Desc.kind s e ≠ k) ∨
    (∃ e, Desc.Only s k e) ∨ ∃ e, Desc.Second s k e := by
  rcases forall_or_first_not (fun e => Desc.kind s e ≠ k) (Desc.nelem s) with hnone | ⟨e1, h1, hk1, hbefore⟩
  · exact .inl hnone
  · rw [not_not] at hk1
    rcases forall_or_first_not (fun e => Desc.kind s e = k → e = e1) (Desc.nelem s) with hone | ⟨e2, h2, hk2, hfirst⟩
    · exact .inr (.inl ⟨e1, h1, hk1, hone⟩)
    · obtain ⟨hk2, hne⟩ := Classical.not_imp.mp hk2
      have hlt : e1 < e2 := by
        rcases lt_trichotomy e1 e2 with hlt | heq | hgt
        · exact hlt
        · exact absurd heq.symm hne
        · exact absurd hk2 (hbefore e2 hgt)
      exact .inr (.inr ⟨e2, h2, hk2, e1, hlt, hk1, hfirst⟩)

theorem only_of_theElem {k r1 r2 : Nat} {e : Nat} {d : ElemDesc} (h : theElem k r1 r2 (Desc.elems s) = .ok (e, d)) :
    Desc.Only s k e ∧ d = Desc.elem s e := by
  rcases kind_cases s k with hnone | ⟨e', honly⟩ | ⟨e', hsecond⟩
  · exact (ne_error_of_ok h (theElem_none hnone)).elim
  · cases (theElem_only (r1 := r1) (r2 := r2) honly).symm.trans h
    exact ⟨honly, rfl⟩
  · exact (ne_error_of_ok h (theElem_second hsecond)).elim

/-! ## The fields of an element -/

theorem noneAgain_of_collectFields {e lo hi : Nat} {l : List PropDesc}
    (h : collectFields lo hi e [] (Desc.elem s e).props = .ok l) : Desc.NoneAgain s e lo hi := by
  rcases forall_or_first_not (fun p => ¬ Desc.Again s e lo hi p) (Desc.nprop s e) with hnone | ⟨p, hp, hag, hfirst⟩
  · exact hnone
  · exact (ne_error_of_ok h (collectFields_again hp (not_not.mp hag) hfirst)).elim

/-- The fields `f0 .. hi - 1` are there with the type, or one is the first that is not. -/
theorem allTyped_or_first (s : State) (e f0 hi t : Nat) : Desc.AllTyped s e f0 hi t ∨
    ∃ f, f0 ≤ f ∧ f < hi ∧ Desc.AllTyped s e f0 f t ∧ ¬ Desc.HasTyped s e f t := by
  rcases forall_or_first_not (fun g => f0 ≤ g → Desc.HasTyped s e g t) hi with hall | ⟨f, hf, hno, hfirst⟩
  · exact .inl hall
  · obtain ⟨h0, hno⟩ := Classical.not_imp.mp hno
    exact .inr ⟨f, h0, hf, hfirst, hno⟩

theorem allTyped_of_requireFields {e lo n t i f0 k : Nat} (hn : Desc.NoneAgain s e lo (lo + n)) (h0 : lo ≤ f0)
    (h3 : f0 + k ≤ lo + n + 1) {u : Unit}
    (h : requireFields (Desc.seen s e lo (lo + n) (Desc.nprop s e)) t i (List.range' f0 k) = .ok u) :
    Desc.AllTyped s e f0 (f0 + k) t := by
  rcases allTyped_or_first s e f0 (f0 + k) t with hall | ⟨f, h1, h2, hbefore, hno⟩
  · exact hall
  · obtain ⟨hmissing, htype⟩ := requireFields_error (i := i) hn h0 h1 h2 h3 hbefore
    by_cases hh : Desc.Has s e f
    · exact (ne_error_of_ok h (htype hh hno)).elim
    · exact (ne_error_of_ok h (hmissing hh)).elim

/-- The colour box passes its check when it is absent or complete (47_frame_chunked.md R230). -/
theorem colour_of_checkColour {c : Nat} {b : Bool} (hn : Desc.NoneAgain s c 1 18)
    (h : checkColour (Desc.seen s c 1 18 (Desc.nprop s c)) c = .ok b) :
    (∀ f, f < 19 → 13 ≤ f → ¬ Desc.Has s c f) ∨ Desc.AllTyped s c 13 19 7 := by
  by_cases hg : ∃ g, 13 ≤ g ∧ g ≤ 18 ∧ Desc.Has s c g
  · refine .inr ?_
    rcases forall_or_first_not (fun g => 13 ≤ g → Desc.Has s c g) 19 with hhad | ⟨f, hf, hno, hfirst⟩
    · rcases allTyped_or_first s c 13 19 7 with hall | ⟨f, h1, h2, hbefore, hno⟩
      · exact hall
      · exact (ne_error_of_ok h (checkColour_type hn h1 (by omega) hhad hbefore hno)).elim
    · obtain ⟨h1, hno⟩ := Classical.not_imp.mp hno
      exact (ne_error_of_ok h (checkColour_missing h1 (by omega) hno hfirst hg)).elim
  · exact .inl fun f h2 h1 hf => hg ⟨f, h1, by omega, hf⟩

/-! ## The schema -/

theorem schemaOk_of_checkSchema {sc : Schema} (hw : Desc.Reached s (Desc.nelem s))
    (h : checkSchema (Desc.elems s) = .ok sc) : Desc.SchemaOk s sc.c sc.v := by
  unfold checkSchema at h
  simp only [bind_eq_ok_iff] at h
  obtain ⟨⟨c, dc⟩, hc, ⟨v, dv⟩, hv, cf, hcf, _, hb, b, hcol, vf, hvf, _, hp, h⟩ := h
  cases h
  obtain ⟨honlyc, rfl⟩ := only_of_theElem hc
  obtain ⟨honlyv, rfl⟩ := only_of_theElem hv
  have hnc := noneAgain_of_collectFields hcf
  have hnv := noneAgain_of_collectFields hvf
  cases (collectFields_ok c hnc).symm.trans hcf
  cases (collectFields_ok v hnv).symm.trans hvf
  exact ⟨hw, honlyc, honlyv,
    ⟨hnc, allTyped_of_requireFields (lo := 1) (n := 17) (k := 12) hnc le_rfl (by omega) hb,
      colour_of_checkColour hnc hcol⟩,
    hnv, allTyped_of_requireFields (lo := 32) (n := 3) (k := 4) hnv le_rfl (by omega) hp⟩

/-! ## Truncation -/

theorem dataEnds_of_checkTruncation {c v len : Nat} {offs : List Nat} (hc : c < Desc.nelem s) (hv : v < Desc.nelem s)
    (h : checkTruncation c v len 0 0 (Desc.elems s) = .ok offs) : Desc.dataEnd s c ≤ len ∧ Desc.dataEnd s v ≤ len := by
  rcases forall_or_first_not (fun j => j = c ∨ j = v → Desc.dataEnd s j ≤ len) (Desc.nelem s) with
    hall | ⟨e, he, hno, hfirst⟩
  · exact ⟨hall c hc (.inl rfl), hall v hv (.inr rfl)⟩
  · obtain ⟨hcv, hlen⟩ := Classical.not_imp.mp hno
    exact (ne_error_of_ok h (checkTruncation_error he hcv (not_le.mp hlen) hfirst)).elim

/-! ## A frame without error -/

/-- A frame on which no check fails meets all the conditions. -/
theorem frame_of_validateChunked {p : ChunkPlan} (h : validateChunked s = .ok p) : ∃ c v, Desc.Frame s c v := by
  obtain ⟨n, hh, hrest⟩ := bind_eq_ok_iff.mp h
  have hregs := regsOk_of_checkHeader hh
  cases (checkHeader_ok hregs).symm.trans hh
  obtain ⟨els, hw, hrest⟩ := bind_eq_ok_iff.mp hrest
  have hreached := reached_of_walkElems hregs hw
  cases (walkElems_ok hreached).symm.trans hw
  obtain ⟨sc, hs, -⟩ := bind_eq_ok_iff.mp hrest
  have hschema := schemaOk_of_checkSchema hreached hs
  obtain ⟨b, -, heq⟩ := validateChunked_checked hschema
  obtain ⟨offs, ht, hrest⟩ := bind_eq_ok_iff.mp (heq.symm.trans h)
  obtain ⟨hc, hv⟩ := dataEnds_of_checkTruncation hschema.chunk.1 hschema.vertex.1 ht
  split_ifs at hrest with hrange
  obtain ⟨_, hpass, -⟩ := bind_eq_ok_iff.mp hrest
  rw [checkChunkOutput_eq] at hpass
  split_ifs at hpass with hout hclear
  rw [not_and, not_or, not_not, not_not] at hclear
  exact ⟨sc.c, sc.v, hschema, hc, hv, not_lt.mp hrange, not_lt.mp hout, fun hp => (hclear hp).1,
    fun hp => (hclear hp).2⟩

/-! ## The first failing check -/

variable {c v : Nat} {x : NceError}

theorem checkSchema_chunk_error (h : theElem 1 3 4 (Desc.elems s) = .error x) :
    checkSchema (Desc.elems s) = .error x := by
  rw [checkSchema, h]
  rfl

theorem checkSchema_vertex_error (hc : Desc.Only s 1 c) (h : theElem 2 5 6 (Desc.elems s) = .error x) :
    checkSchema (Desc.elems s) = .error x := by
  rw [checkSchema, h, Desc.elems, theElem_only hc]
  rfl

/-- The schema checks once both elements are there. -/
theorem checkSchema_fields (hc : Desc.Only s 1 c) (hv : Desc.Only s 2 v) : checkSchema (Desc.elems s) = (do
    let cf ← collectFields 1 18 c [] (Desc.elem s c).props
    requireFields cf typeFloat32 c [1, 2, 3, 4, 5, 6, 7, 8, 9, 10, 11, 12]
    let hasColor ← checkColour cf c
    let vf ← collectFields 32 35 v [] (Desc.elem s v).props
    requireFields vf typeUint32 v [32, 33, 34, 35]
    .ok ⟨c, Desc.elem s c, v, Desc.elem s v, cf, vf, hasColor⟩) := by
  rw [checkSchema, Desc.elems, theElem_only hc, theElem_only hv]
  rfl

section
variable (hc : Desc.Only s 1 c) (hv : Desc.Only s 2 v)
include hc hv

theorem checkSchema_chunkAgain_error (h : collectFields 1 18 c [] (Desc.elem s c).props = .error x) :
    checkSchema (Desc.elems s) = .error x := by
  rw [checkSchema_fields hc hv, h]
  rfl

/-- The first of the twelve bounds that is missing or of the wrong type. -/
theorem checkSchema_bounds_error (hn : Desc.NoneAgain s c 1 18) {f : Nat} (h1 : 1 ≤ f) (h12 : f ≤ 12)
    (ht : Desc.AllTyped s c 1 f 7) :
    (¬ Desc.Has s c f → checkSchema (Desc.elems s) = .error (.schema 8 f c)) ∧
    (Desc.Has s c f → ¬ Desc.HasTyped s c f 7 → checkSchema (Desc.elems s) = .error (.schema 9 f c)) := by
  have hstop {x : NceError} (h : requireFields (Desc.seen s c 1 18 (Desc.nprop s c)) typeFloat32 c
      [1, 2, 3, 4, 5, 6, 7, 8, 9, 10, 11, 12] = .error x) : checkSchema (Desc.elems s) = .error x := by
    simp only [checkSchema_fields hc hv, collectFields_ok c hn, h, bind, Except.bind]
  obtain ⟨hmissing, htype⟩ := requireFields_error (lo := 1) (n := 17) (i := c) (f0 := 1) (k := 12) hn le_rfl h1
    (by omega) (by omega) ht
  exact ⟨fun h => hstop (hmissing h), fun hh h => hstop (htype hh h)⟩

theorem checkSchema_colour_error (hn : Desc.NoneAgain s c 1 18) (ht : Desc.AllTyped s c 1 13 7)
    (h : checkColour (Desc.seen s c 1 18 (Desc.nprop s c)) c = .error x) : checkSchema (Desc.elems s) = .error x := by
  simp only [checkSchema_fields hc hv, collectFields_ok c hn, requireBounds_ok hn ht, h, bind, Except.bind]

theorem checkSchema_vertexAgain_error (hk : Desc.ChunkOk s c)
    (h : collectFields 32 35 v [] (Desc.elem s v).props = .error x) : checkSchema (Desc.elems s) = .error x := by
  obtain ⟨b, hb, -⟩ := checkColour_ok hk
  obtain ⟨hn, ht, -⟩ := hk
  simp only [checkSchema_fields hc hv, collectFields_ok c hn, requireBounds_ok hn ht, hb, h, bind, Except.bind]

/-- The first of the four packed words that is missing or of the wrong type. -/
theorem checkSchema_packed_error (hk : Desc.ChunkOk s c) (hnv : Desc.NoneAgain s v 32 35) {f : Nat} (h1 : 32 ≤ f)
    (h35 : f ≤ 35) (ht : Desc.AllTyped s v 32 f 6) :
    (¬ Desc.Has s v f → checkSchema (Desc.elems s) = .error (.schema 8 f v)) ∧
    (Desc.Has s v f → ¬ Desc.HasTyped s v f 6 → checkSchema (Desc.elems s) = .error (.schema 9 f v)) := by
  obtain ⟨b, hb, -⟩ := checkColour_ok hk
  obtain ⟨hn, htc, -⟩ := hk
  have hstop {x : NceError} (h : requireFields (Desc.seen s v 32 35 (Desc.nprop s v)) typeUint32 v [32, 33, 34, 35] =
      .error x) : checkSchema (Desc.elems s) = .error x := by
    simp only [checkSchema_fields hc hv, collectFields_ok c hn, requireBounds_ok hn htc, hb, collectFields_ok v hnv, h,
      bind, Except.bind]
  obtain ⟨hmissing, htype⟩ := requireFields_error (lo := 32) (n := 3) (i := v) (f0 := 32) (k := 4) hnv le_rfl h1
    (by omega) (by omega) ht
  exact ⟨fun h => hstop (hmissing h), fun hh h => hstop (htype hh h)⟩

end

theorem validateChunked_truncated {e : Nat} (h : Desc.SchemaOk s c v) (he : e < Desc.nelem s) (hcv : e = c ∨ e = v)
    (hlen : s.inLen.toNat < Desc.dataEnd s e)
    (hj : ∀ j, j < e → j = c ∨ j = v → Desc.dataEnd s j ≤ s.inLen.toNat) :
    validateChunked s = .error (.truncated e) := by
  obtain ⟨b, -, heq⟩ := validateChunked_checked h
  rw [heq, Desc.elems, checkTruncation_error he hcv hlen hj]
  rfl

/-- Once the rows fit, the chunk range and the output are left to check (47_frame_chunked.md R232, R233). -/
theorem validateChunked_rows_fit (h : Desc.SchemaOk s c v) (hc : Desc.dataEnd s c ≤ s.inLen.toNat)
    (hv : Desc.dataEnd s v ≤ s.inLen.toNat) : ∃ p, validateChunked s =
      if 256 * Desc.count s c < Desc.count s v then .error (.range (256 * Desc.count s c))
      else (do
        checkChunkOutput s (Desc.count s v) (Desc.addr s (Desc.nelem s))
        .ok p) := by
  obtain ⟨b, -, heq⟩ := validateChunked_checked h
  rw [heq, Desc.elems, checkTruncation_ok hc hv]
  exact ⟨_, rfl⟩

theorem validateChunked_output_error (h : Desc.SchemaOk s c v) (hc : Desc.dataEnd s c ≤ s.inLen.toNat)
    (hv : Desc.dataEnd s v ≤ s.inLen.toNat) (hr : Desc.count s v ≤ 256 * Desc.count s c)
    (hx : checkChunkOutput s (Desc.count s v) (Desc.addr s (Desc.nelem s)) = .error x) :
    validateChunked s = .error x := by
  obtain ⟨p, heq⟩ := validateChunked_rows_fit h hc hv
  rw [heq, if_neg (not_lt.mpr hr), hx]
  rfl

end

/-- A frame command whose checks fail takes its error entry (60_exceptions.md R303). -/
theorem completeFrame_map_error {α : Type} {s : State} {r : Except NceError α} {e : NceError} (f : α → State)
    (h : r = .error e) : ∃ t, completeFrame s (r.map f) = .next t ∧ Errored true e s t := by
  rw [h]
  exact ⟨_, rfl, raiseFrame_errored s e⟩

/-- Settles O49: each clause is the pass that fails, after the passes before it went through; the converse is
`frame_of_validateChunked`. -/
theorem decchkChecks : Obligations.DecchkChecks := by
  unfold Obligations.DecchkChecks
  refine ⟨fun s e h => completeFrame_map_error _ h, fun s p h => frame_of_validateChunked h, fun s => ?_⟩
  intro d hdr fails
  have header {x : NceError} (h : checkHeader s = .error x) : fails x := validateChunked_header_error h
  rw [checkHeader_eq] at header
  refine ⟨fun hd => header (if_pos hd), fun hd ho => ?_, fun hd ho hi => ?_, fun hd ho hi => ?_, fun e he hr => ?walk,
    fun hw => ?schema, fun c v hs => ?data⟩
  · rw [if_neg (not_not.mpr hd), if_pos ho] at header
    exact header rfl
  · rw [if_neg (not_not.mpr hd), if_neg (not_not.mpr ho), if_pos hi] at header
    exact header rfl
  · rw [if_neg (not_not.mpr hd), if_neg (not_not.mpr ho), if_neg (not_lt.mpr hi)] at header
    refine ⟨fun h4 => header (if_pos h4), fun h4 => ?_⟩
    rw [if_neg (not_lt.mpr h4)] at header
    refine ⟨fun hh => header (if_pos (header_ne hh)), fun hh h8 => ?_⟩
    rw [if_neg (not_not.mpr hh)] at header
    exact header (if_pos h8)
  case walk =>
    refine ⟨fun h => ?_, fun h8 p hp hq => ⟨fun hfit h => ?_, fun hfit => ⟨fun h => ?_, fun hl h => ?_⟩⟩⟩
    · exact validateChunked_walk_error hr.regs (walkElems_error he hr fun n => walkElems_beyond s e n h)
    · exact validateChunked_prop_error he hr h8 hp hq hfit fun n => walkProps_beyond s e p n h
    · exact validateChunked_prop_error he hr h8 hp hq (by omega) fun n => walkProps_list s e p n hfit h
    · exact validateChunked_prop_error he hr h8 hp hq (by omega) fun n => walkProps_type s e p n hfit hl h
  case schema =>
    have schema {x : NceError} (h : checkSchema (Desc.elems s) = .error x) : fails x :=
      validateChunked_schema_error hw h
    refine ⟨fun h => schema (checkSchema_chunk_error (theElem_none h)),
      fun e h => schema (checkSchema_chunk_error (theElem_second h)), fun c hc =>
      ⟨fun h => schema (checkSchema_vertex_error hc (theElem_none h)),
        fun e h => schema (checkSchema_vertex_error hc (theElem_second h)), fun v hv =>
        ⟨fun p hp h hq => ?_,
          fun hn => ⟨fun f h1 h2 ht => ?_, fun ht =>
            ⟨fun f h1 h2 h hp hg => ?_, fun f h1 h2 hh ht' h => ?_⟩⟩,
          fun hk => ⟨fun p hp h hq => ?_, fun hn f h1 h2 ht => ?_⟩⟩⟩⟩
    · exact schema (checkSchema_chunkAgain_error hc hv (collectFields_again hp h hq))
    · obtain ⟨hmissing, htype⟩ := checkSchema_bounds_error hc hv hn h1 h2 ht
      exact ⟨fun h => schema (hmissing h), fun hh h => schema (htype hh h)⟩
    · exact schema (checkSchema_colour_error hc hv hn ht (checkColour_missing h1 h2 h hp hg))
    · exact schema (checkSchema_colour_error hc hv hn ht (checkColour_type hn h1 h2 hh ht' h))
    · exact schema (checkSchema_vertexAgain_error hc hv hk (collectFields_again hp h hq))
    · obtain ⟨hmissing, htype⟩ := checkSchema_packed_error hc hv hk hn h1 h2 ht
      exact ⟨fun h => schema (hmissing h), fun hh h => schema (htype hh h)⟩
  case data =>
    refine ⟨fun h hv => ?_, fun h hc => ?_, fun hc hv => ⟨fun h => ?_, fun hr => ⟨fun h => ?_, fun ho hp h => ?_⟩⟩⟩
    · exact validateChunked_truncated hs hs.chunk.1 (.inl rfl) h fun j hj hcv =>
        hcv.elim (fun hjc => absurd hjc hj.ne) fun hjv => hjv ▸ hv (hjv ▸ hj)
    · exact validateChunked_truncated hs hs.vertex.1 (.inr rfl) h fun j hj hcv =>
        hcv.elim (fun hjc => hjc ▸ hc (hjc ▸ hj)) fun hjv => absurd hjv hj.ne
    · obtain ⟨p, heq⟩ := validateChunked_rows_fit hs hc hv
      exact heq.trans (if_pos h)
    · exact validateChunked_output_error hs hc hv hr (by rw [checkChunkOutput_eq, if_pos h])
    · exact validateChunked_output_error hs hc hv hr
        (by rw [checkChunkOutput_eq, if_neg (not_lt.mpr ho), if_pos ⟨hp, h⟩])

end Sys2Proof.Machine
end

section
/-! What the checks of DECCHK guarantee (47_frame_chunked.md R228 to R233, R235): every read of the decode phase lies
inside the input, and the output is clear of the input and of the descriptor. -/

namespace Sys2Proof.Machine

/-! ## The plan is safe -/

section
variable {s : State} {c v : Nat} {p : ChunkPlan}

/-- The plan of a frame that passes its checks. -/
theorem plan_of_validateChunked (h : validateChunked s = .ok p) :
    ∃ c v b, Desc.Frame s c v ∧ (b = true ↔ Desc.Has s c 13) ∧ p = Desc.plan s c v b := by
  obtain ⟨c, v, hf⟩ := frame_of_validateChunked h
  obtain ⟨b, hb, hp⟩ := validateChunked_frame hf
  rw [h] at hp
  cases hp
  exact ⟨c, v, b, hf, hb, rfl⟩

theorem Desc.offset_mono (s : State) (e : Nat) {p q : Nat} (h : p ≤ q) : Desc.offset s e p ≤ Desc.offset s e q := by
  induction h with
  | refl => exact le_rfl
  | step _ ih => exact ih.trans (Nat.le_add_right _ _)

/-- A four-byte field lies inside its row (47_frame_chunked.md R224). -/
theorem fieldOffset_fits {e lo hi f t : Nat} (hn : Desc.NoneAgain s e lo hi) (h1 : lo ≤ f) (h2 : f ≤ hi)
    (ht : Desc.HasTyped s e f t) (hw : Desc.width t = 4) :
    fieldOffset (Desc.seen s e lo hi (Desc.nprop s e)) f + 4 ≤ Desc.stride s e := by
  obtain ⟨p, hp, rfl, rfl⟩ := ht
  have hnext : Desc.offset s e (p + 1) = Desc.offset s e p + 4 := congrArg (Desc.offset s e p + ·) hw
  rw [fieldOffset_seen hn hp h1 h2, ← hnext]
  exact Desc.offset_mono s e hp

/-- A row inside its element ends where the element ends, at the latest. -/
theorem row_le_dataEnd (s : State) {e r : Nat} (hr : r < Desc.count s e) :
    Desc.data s e + (r + 1) * Desc.stride s e ≤ Desc.dataEnd s e :=
  Nat.add_le_add_left (Nat.mul_le_mul_right _ hr) _

/-- The bounds that are read are there, as float32: twelve, or eighteen with the colour box (47_frame_chunked.md
R230). -/
theorem boundsTyped_of_chunkOk {b : Bool} (h : Desc.ChunkOk s c) (hb : b = true ↔ Desc.Has s c 13) {f : Nat}
    (h1 : 1 ≤ f) (h2 : f ≤ if b then 18 else 12) : Desc.HasTyped s c f 7 := by
  obtain ⟨-, hbounds, hcolour⟩ := h
  by_cases h12 : f ≤ 12
  · exact hbounds f (by omega) h1
  · have hbt : b = true := by
      by_contra hbf
      rw [if_neg hbf] at h2
      exact h12 h2
    rw [if_pos hbt] at h2
    exact hcolour.resolve_left (fun hnone => hnone 13 (by omega) le_rfl (hb.mp hbt)) f (by omega) (by omega)

end

/-- Settles O48: the conditions of a frame without error (`frame_of_validateChunked`), and the rows and fields inside
them (`row_le_dataEnd`, `fieldOffset_fits`). -/
theorem decchkPlanIsSafe : Obligations.DecchkPlanIsSafe := by
  unfold Obligations.DecchkPlanIsSafe
  intro s p h
  obtain ⟨c, v, b, hf, hb, rfl⟩ := plan_of_validateChunked h
  have hregs := hf.schema.walked.regs
  have haddr := Desc.addr_ge s (Desc.nelem s)
  refine ⟨hregs.descAligned, hregs.outAligned, hregs.fits, hregs.input, hf.output, hf.clearInput, fun hp => ?_,
    fun i hi => ?_, fun f h1 h2 => ?_, fun f h1 h2 => ?_⟩
  · have hclear := hf.clearDesc hp
    exact hclear.imp_right (by omega)
  · have hr := hf.range
    have hi' : i < Desc.count s v := hi
    have hc := (row_le_dataEnd s (e := c) (r := i / 256) (by omega)).trans hf.chunkRows
    have hv := (row_le_dataEnd s hi').trans hf.vertexRows
    simp only [Desc.plan]
    omega
  · exact fieldOffset_fits hf.schema.chunkOk.1 h1 (h2.trans (by split <;> omega))
      (boundsTyped_of_chunkOk hf.schema.chunkOk hb h1 h2) rfl
  · exact fieldOffset_fits hf.schema.vertexOk.1 h1 h2 (hf.schema.vertexOk.2 f (by omega) h1) rfl

end Sys2Proof.Machine
end

section
/-! What the frame commands write (47_frame_chunked.md R234 to R237, 48_frame_image.md R263 to R267). The record loop
reads EMEM as it stands, record after record; since what a record is computed from lies outside the output, that is EMEM
as it stood before the command. -/

namespace Sys2Proof.Machine

/-! ## The record loop -/

/-- EMEM `m` is EMEM `m0` but for the `n` records at `out`. -/
def SameOutside (out n : Nat) (m0 m : Memory) : Prop := ∀ a, a < out ∨ out + 56 * n ≤ a → m.byte a = m0.byte a

theorem SameOutside.refl (out n : Nat) (m : Memory) : SameOutside out n m m := fun _ _ => rfl

theorem SameOutside.readLE {out n : Nat} {m0 m : Memory} (h : SameOutside out n m0 m) {a k : Nat}
    (hd : a + k ≤ out ∨ out + 56 * n ≤ a) : m.readLE a k = m0.readLE a k :=
  Memory.readLE_congr k a fun c h1 h2 => h c (by omega)

theorem SameOutside.word {out n : Nat} {m0 m : Memory} (h : SameOutside out n m0 m) {a : Nat}
    (hd : a + 4 ≤ out ∨ out + 56 * n ≤ a) : m.word a = m0.word a := congrArg _ (h.readLE hd)

theorem SameOutside.writeRecord {out n i : Nat} {m0 m : Memory} (h : SameOutside out n m0 m) (hwf : m.wf = true)
    (hi : i < n) {l : List DWord} (hl : l.length = 14) :
    SameOutside out n m0 (writeRecord m (out + recordBytes * i) l) := fun a ha =>
  (byte_writeRecord _ l a hwf (by rw [hl, recordBytes]; omega)).trans (h a ha)

/-- What a record is computed from lies outside the `n` records at `out`. -/
def ReadsOutside (f : Memory → Nat → List DWord) (out n : Nat) (m0 : Memory) : Prop :=
  ∀ m i, i < n → SameOutside out n m0 m → f m i = f m0 i

/-- Every value of every record, from record `j` on, computed from EMEM as it stood before the loop. -/
theorem word_writeRecords {f : Memory → Nat → List DWord} {out n : Nat} {m0 : Memory}
    (hf : ∀ m i, (f m i).length = 14) (hread : ReadsOutside f out n m0) : ∀ (r j : Nat) {m : Memory}, m.wf = true →
    SameOutside out n m0 m → j + r = n → ∀ i, j ≤ i → i < n → ∀ k x, (f m0 i)[k]? = some x →
      (writeRecords f out r j m).word (out + 56 * i + 4 * k) = narrow x
  | 0, j, m, _, _, hjr, i, hji, hin, _, _, _ => by omega
  | r + 1, j, m, hwf, hsame, hjr, i, hji, hin, k, x, hx => by
    have hwf' := writeRecord_wf (out + recordBytes * j) (f m j) hwf
    rw [writeRecords]
    rcases hji.eq_or_lt with rfl | hlt
    · obtain ⟨hk, hx⟩ := List.getElem?_eq_some_iff.mp hx
      have hkept : SameOutside (out + 56 * (j + 1)) r (writeRecord m (out + recordBytes * j) (f m j))
          (writeRecords f out r (j + 1) (writeRecord m (out + recordBytes * j) (f m j))) := fun a ha =>
        byte_writeRecords hf r (j + 1) a hwf' (by omega)
      have hk14 : k < 14 := (hf m0 j) ▸ hk
      rw [hkept.word (by omega), recordBytes]
      simp only [hread m j hin hsame]
      rw [word_writeRecord _ _ k hk hwf, hx]
    · have hsame' := hsame.writeRecord hwf (i := j) (by omega) (hf m j)
      exact word_writeRecords hf hread r (j + 1) hwf' hsame' (by omega) i hlt hin k x hx

/-- A frame command retired with `n` records: record `i` holds the values `f i`. -/
structure WroteRecords (f : Nat → List DWord) (n : Nat) (s t : State) : Prop where
  retired : Retired s t
  v : SameVBut [] s t
  outCount : t.outCount.toNat = n
  mem : SameMemBut (s.outBase.toNat, 56 * n) s t
  values : ∀ i, i < n → ∀ k x, (f i)[k]? = some x → t.mem.word (s.outBase.toNat + 56 * i + 4 * k) = narrow x

/-- The end of a frame command after its checks. -/
theorem wroteRecords_retire {s : State} {f : Memory → Nat → List DWord} {n : Nat} {c : Word} (hwf : s.mem.wf = true)
    (hf : ∀ m i, (f m i).length = 14) (hc : c.toNat = n) (hread : ReadsOutside f s.outBase.toNat n s.mem) :
    WroteRecords (f s.mem) n s
      (State.retire { s with mem := writeRecords f s.outBase.toNat n 0 s.mem, outCount := c }) where
  retired := retired_after_writes s _ _ _ _
  v := .refl [] s
  outCount := hc
  mem := fun a ha => byte_writeRecords hf n 0 a hwf (by simp only at ha; omega)
  values := fun i hi => word_writeRecords hf hread n 0 hwf (.refl _ _ _) (Nat.zero_add n) i (Nat.zero_le i) hi

/-! ## The records of DECCHK -/

/-- The 14 values of a vertex, from its chunk fields `g` and its vertex fields `h` (47_frame_chunked.md R234). -/
def vertexRecord (colour : Bool) (g : Nat → DWord) (h : Nat → Nat) : List DWord :=
  let pos := unpack111011 (h 32)
  let rot := unpackRotation (h 33)
  let sca := unpack111011 (h 34)
  let col := unpack8888 (h 35)
  let chan := fun x lo hi => shDc (if colour then dequant x (g lo) (g hi) else x)
  [dequant pos.1 (g 1) (g 2), dequant pos.2.1 (g 3) (g 4), dequant pos.2.2 (g 5) (g 6),
   chan col.1 13 14, chan col.2.1 15 16, chan col.2.2.1 17 18, logitOpacity col.2.2.2,
   dequant sca.1 (g 7) (g 8), dequant sca.2.1 (g 9) (g 10), dequant sca.2.2 (g 11) (g 12),
   rot.1, rot.2.1, rot.2.2.1, rot.2.2.2]

theorem chunkRecord_eq (p : ChunkPlan) (m : Memory) (i : Nat) :
    chunkRecord p m i = vertexRecord p.hasColor (chunkField m p i) (vertexField m p i) := rfl

/-- A record depends on the fields it is made of, the colour box only where there is one. -/
theorem vertexRecord_congr {colour : Bool} {g g' : Nat → DWord} {h h' : Nat → Nat}
    (hg : ∀ f, 1 ≤ f → f ≤ (if colour then 18 else 12) → g f = g' f) (hh : ∀ f, 32 ≤ f → f ≤ 35 → h f = h' f) :
    vertexRecord colour g h = vertexRecord colour g' h' := by
  cases colour with
  | true => simp (disch := decide) only [vertexRecord, hg, hh]
  | false => simp (disch := decide) only [vertexRecord, hg, hh, Bool.false_eq_true, if_false]

section
variable {s : State} {c v : Nat} {p : ChunkPlan}

/-- No byte that the decode phase reads is written by it (47_frame_chunked.md R233). -/
theorem chunkRecord_readsOutside (h : validateChunked s = .ok p) :
    ReadsOutside (chunkRecord p) s.outBase.toNat p.vn s.mem := by
  intro m i hi hsame
  obtain ⟨-, -, -, -, -, hclear, -, hrows, hbounds, hpacked⟩ := decchkPlanIsSafe s p h
  obtain ⟨hc1, hc2, hv1, hv2⟩ := hrows i hi
  have hin := hclear (by omega)
  rw [Nat.succ_mul] at hc2 hv2
  rw [chunkRecord_eq, chunkRecord_eq]
  refine vertexRecord_congr (fun f h1 h2 => ?_) fun f h1 h2 => ?_
  · have hfit := hbounds f h1 h2
    exact congrArg widen (hsame.word (by omega))
  · have hfit := hpacked f h1 h2
    exact hsame.readLE (by omega)

/-- `DECCHK` on a frame that passes its checks. -/
theorem decchk_wroteRecords (hwf : s.mem.wf = true) (h : validateChunked s = .ok p) :
    ∃ t, exec .decchk s = .next t ∧ WroteRecords (chunkRecord p s.mem) p.vn s t := by
  have hout := output_in_emem_of_validateChunked h
  have hmax := ememBytes_le
  have hexec : exec .decchk s = completeFrame s ((validateChunked s).map (decodeChunked s)) := rfl
  rw [h] at hexec
  refine ⟨_, hexec, wroteRecords_retire hwf (fun _ _ => rfl) ?_ (chunkRecord_readsOutside h)⟩
  rw [BitVec.toNat_ofNat]
  unfold recordBytes at hout
  omega

/-- The record of vertex `i` is R234's, with each field read at its own property (47_frame_chunked.md R234). -/
theorem chunkRecord_plan {b : Bool} (hf : Desc.Frame s c v) (hb : b = true ↔ Desc.Has s c 13) (i : Nat)
    {g : Nat → DWord} {h : Nat → Nat}
    (hg : ∀ p, p < Desc.nprop s c → 1 ≤ Desc.field s c p → Desc.field s c p ≤ 18 →
      g (Desc.field s c p) = widen (s.mem.word (Desc.row s c (i / 256) + Desc.offset s c p)))
    (hh : ∀ p, p < Desc.nprop s v → 32 ≤ Desc.field s v p → Desc.field s v p ≤ 35 →
      h (Desc.field s v p) = s.mem.readLE (Desc.row s v i + Desc.offset s v p) 4) :
    chunkRecord (Desc.plan s c v b) s.mem i = vertexRecord b g h := by
  rw [chunkRecord_eq]
  refine vertexRecord_congr (fun f h1 h2 => ?_) fun f h1 h2 => ?_
  · have h18 : f ≤ 18 := h2.trans (by split <;> omega)
    obtain ⟨q, hq, rfl, -⟩ := boundsTyped_of_chunkOk hf.schema.chunkOk hb h1 h2
    rw [hg q hq h1 h18, ← fieldOffset_seen hf.schema.chunkOk.1 hq h1 h18]
    rfl
  · obtain ⟨q, hq, rfl, -⟩ := hf.schema.vertexOk.2 f (by omega) h1
    rw [hh q hq h1 h2, ← fieldOffset_seen hf.schema.vertexOk.1 hq h1 h2]
    rfl

end

/-- Settles O47: the loop computes every record from EMEM as it stood (`decchk_wroteRecords`), and the record is R234's
(`chunkRecord_plan`). -/
theorem decchkWritesRecords : Obligations.DecchkWritesRecords := by
  unfold Obligations.DecchkWritesRecords
  refine ⟨fun s p hwf h => ?_, fun s c v colour hwf hf hcolour => ?_⟩
  · obtain ⟨t, ht, hw⟩ := decchk_wroteRecords hwf h
    exact ⟨t, ht, hw.retired, hw.v, hw.outCount, hw.mem, fun i hi => ⟨rfl, hw.values i hi⟩⟩
  · obtain ⟨b, hb, hplan⟩ := validateChunked_frame hf
    obtain rfl : colour = b := by rw [Bool.eq_iff_iff, hcolour, hb]
    obtain ⟨t, ht, hw⟩ := decchk_wroteRecords hwf hplan
    refine ⟨t, ht, hw.retired, hw.v, hw.outCount, hw.mem, fun i g h hi hg hh => ?_⟩
    intro pos rot sca col chan k x hx
    refine hw.values i hi k x ?_
    rw [chunkRecord_plan hf hcolour i hg hh]
    exact hx

end Sys2Proof.Machine
end

section
/-! The plain layout of a chunked frame: a chunk element with the twelve bounds in order, a vertex element with the four
packed words in order. Its descriptor meets R228 to R230 (47_frame_chunked.md), with rows of 48 and 16 bytes. -/

namespace Sys2Proof.Machine

/-! ## Elements whose fields follow each other -/

/-- Element `e` has `n` properties, the fields `f0`, `f0 + 1`, ... in order, all scalars of type `t`. -/
structure Desc.Consecutive (s : State) (e n f0 t : Nat) : Prop where
  nprop : Desc.nprop s e = n
  field : ∀ p, p < n → Desc.field s e p = f0 + p
  type : ∀ p, p < n → Desc.type s e p = t
  list : ∀ p, p < n → Desc.list s e p = 0

/-- The property words of such an element. -/
theorem consecutive_of_words {s : State} {e n f0 t : Nat} (hn : Desc.nprop s e = n)
    (h : ∀ p, p < n → s.mem.readLE (Desc.propAddr s e p) 4 = t + 256 * (f0 + p)) (ht : t < 256) (hf : f0 + n ≤ 256) :
    Desc.Consecutive s e n f0 t where
  nprop := hn
  field p hp := by rw [Desc.field, h p hp]; omega
  type p hp := by rw [Desc.type, h p hp]; omega
  list p hp := by rw [Desc.list, h p hp]; omega

section
variable {s : State} {e n f0 t : Nat}

theorem Desc.Consecutive.elemOk (h : Desc.Consecutive s e n f0 t) (h1 : 1 ≤ t) (h8 : t ≤ 8) : Desc.ElemOk s e := by
  intro p hp
  rw [h.nprop] at hp
  exact ⟨h.list p hp, by rw [h.type p hp]; exact h1, by rw [h.type p hp]; exact h8⟩

theorem Desc.Consecutive.noneAgain (h : Desc.Consecutive s e n f0 t) (lo hi : Nat) : Desc.NoneAgain s e lo hi := by
  rintro p hp ⟨-, -, q, hq, hqp⟩
  rw [h.nprop] at hp
  rw [h.field p hp, h.field q (by omega)] at hqp
  omega

theorem Desc.Consecutive.allTyped (h : Desc.Consecutive s e n f0 t) : Desc.AllTyped s e f0 (f0 + n) t := by
  intro g hg h0
  have hp : g - f0 < n := by omega
  exact ⟨g - f0, by rw [h.nprop]; exact hp, by rw [h.field _ hp]; omega, h.type _ hp⟩

theorem Desc.Consecutive.not_has (h : Desc.Consecutive s e n f0 t) {f : Nat} (hf : f0 + n ≤ f) : ¬ Desc.Has s e f := by
  rintro ⟨p, hp, hpf⟩
  rw [h.nprop] at hp
  rw [h.field p hp] at hpf
  omega

theorem Desc.Consecutive.offset (h : Desc.Consecutive s e n f0 t) (hw : Desc.width t = 4) {p : Nat} (hp : p ≤ n) :
    Desc.offset s e p = 4 * p := by
  induction p with
  | zero => rfl
  | succ p ih => rw [Desc.offset, ih (by omega), h.type p (by omega), hw]; omega

theorem Desc.Consecutive.stride (h : Desc.Consecutive s e n f0 t) (hw : Desc.width t = 4) :
    Desc.stride s e = 4 * n := by
  rw [Desc.stride, h.nprop, h.offset hw le_rfl]

end

/-! ## The plain layout -/

/-- The words of a plain descriptor at `DESC_BASE` (47_frame_chunked.md R221 to R223). -/
structure PlainWords (s : State) (cn vn : Nat) : Prop where
  header : s.mem.readLE s.descBase.toNat 4 = 0x101
  nelem : s.mem.readLE (s.descBase.toNat + 4) 4 = 2
  chunk : s.mem.readLE (s.descBase.toNat + 8) 4 = 0x000C0001
  chunkCount : s.mem.readLE (s.descBase.toNat + 12) 4 = cn
  bounds : ∀ p, p < 12 → s.mem.readLE (s.descBase.toNat + 16 + 4 * p) 4 = 7 + 256 * (p + 1)
  vertex : s.mem.readLE (s.descBase.toNat + 64) 4 = 0x00040002
  vertexCount : s.mem.readLE (s.descBase.toNat + 68) 4 = vn
  packed : ∀ q, q < 4 → s.mem.readLE (s.descBase.toNat + 72 + 4 * q) 4 = 6 + 256 * (32 + q)

section
variable {s : State} {cn vn : Nat} (h : PlainWords s cn vn)
include h

theorem PlainWords.nprop_chunk : Desc.nprop s 0 = 12 := by rw [Desc.nprop, Desc.addr, h.chunk]; omega

theorem PlainWords.addr_vertex : Desc.addr s 1 = s.descBase.toNat + 64 := by
  rw [Desc.addr, Desc.addr, h.chunk]; omega

theorem PlainWords.nprop_vertex : Desc.nprop s 1 = 4 := by rw [Desc.nprop, h.addr_vertex, h.vertex]; omega

theorem PlainWords.addr_end : Desc.addr s 2 = s.descBase.toNat + 88 := by
  rw [Desc.addr, h.addr_vertex, h.vertex]; omega

theorem PlainWords.kind_chunk : Desc.kind s 0 = 1 := by rw [Desc.kind, Desc.addr, h.chunk]; omega

theorem PlainWords.kind_vertex : Desc.kind s 1 = 2 := by rw [Desc.kind, h.addr_vertex, h.vertex]; omega

theorem PlainWords.count_chunk : Desc.count s 0 = cn := h.chunkCount

theorem PlainWords.count_vertex : Desc.count s 1 = vn := by rw [Desc.count, h.addr_vertex]; exact h.vertexCount

theorem PlainWords.bounds_consecutive : Desc.Consecutive s 0 12 1 7 :=
  consecutive_of_words h.nprop_chunk (fun p hp => by rw [Nat.add_comm 1 p]; exact h.bounds p hp) (by omega) (by omega)

theorem PlainWords.packed_consecutive : Desc.Consecutive s 1 4 32 6 :=
  consecutive_of_words h.nprop_vertex (fun p hp => by rw [Desc.propAddr, h.addr_vertex]; exact h.packed p hp) (by omega)
    (by omega)

theorem PlainWords.stride_chunk : Desc.stride s 0 = 48 := h.bounds_consecutive.stride rfl

theorem PlainWords.stride_vertex : Desc.stride s 1 = 16 := h.packed_consecutive.stride rfl

theorem PlainWords.data_vertex : Desc.data s 1 = 48 * cn := by
  rw [Desc.data, Desc.data, h.stride_chunk, h.count_chunk]; omega

theorem PlainWords.only_chunk : Desc.Only s 1 0 := by
  refine ⟨by rw [Desc.nelem, h.nelem]; omega, h.kind_chunk, fun j hj hk => ?_⟩
  rw [Desc.nelem, h.nelem] at hj
  by_contra hne
  obtain rfl : j = 1 := by omega
  exact absurd (hk.symm.trans h.kind_vertex) (by decide)

theorem PlainWords.only_vertex : Desc.Only s 2 1 := by
  refine ⟨by rw [Desc.nelem, h.nelem]; omega, h.kind_vertex, fun j hj hk => ?_⟩
  rw [Desc.nelem, h.nelem] at hj
  by_contra hne
  obtain rfl : j = 0 := by omega
  exact absurd (hk.symm.trans h.kind_chunk) (by decide)

theorem PlainWords.elemOk {j : Nat} (hj : j < 2) : Desc.ElemOk s j := by
  interval_cases j
  · exact h.bounds_consecutive.elemOk (by omega) (by omega)
  · exact h.packed_consecutive.elemOk (by omega) (by omega)

/-- A plain descriptor meets R228 to R230. -/
theorem PlainWords.schemaOk (hd : s.descBase.toNat % 4 = 0) (ho : s.outBase.toNat % 4 = 0)
    (hi : s.inBase.toNat + s.inLen.toNat ≤ Config.ememBytes) (hfit : s.descBase.toNat + 88 ≤ Config.ememBytes) :
    Desc.SchemaOk s 0 1 where
  walked := by
    rw [Desc.nelem, h.nelem]
    exact ⟨⟨hd, ho, hi, by rw [h.header]; omega, by omega⟩, by rw [h.addr_end]; exact hfit, fun j hj => h.elemOk hj⟩
  chunk := h.only_chunk
  vertex := h.only_vertex
  chunkOk := ⟨h.bounds_consecutive.noneAgain 1 18, h.bounds_consecutive.allTyped,
    .inl fun f _ hf => h.bounds_consecutive.not_has hf⟩
  vertexOk := ⟨h.packed_consecutive.noneAgain 32 35, h.packed_consecutive.allTyped⟩

end

/-- Settles O50: a plain frame meets the conditions of R228 to R233 (`PlainWords.schemaOk`), so it decodes
(`decchkWritesRecords`), without a colour box. -/
theorem decchkPlainFrame : Obligations.DecchkPlainFrame := by
  unfold Obligations.DecchkPlainFrame
  intro s cn vn d b o r hwf hd ho hi hfit hhdr hnelem hchunk hcn hbounds hvertex hvn hpacked hrows hrange hout hclear
  have h : PlainWords s cn vn := ⟨hhdr, hnelem, hchunk, hcn, hbounds, hvertex, hvn, hpacked⟩
  have hnelem' : Desc.nelem s = 2 := hnelem
  have hf : Desc.Frame s 0 1 := {
    schema := h.schemaOk hd ho hi hfit
    chunkRows := by rw [Desc.dataEnd, Desc.data, h.count_chunk, h.stride_chunk]; omega
    vertexRows := by rw [Desc.dataEnd, h.data_vertex, h.count_vertex, h.stride_vertex]; omega
    range := by rw [h.count_vertex, h.count_chunk]; exact hrange
    output := by rw [h.count_vertex]; exact hout
    clearInput := by rw [Desc.OutClear, h.count_vertex]; exact fun hp => (hclear hp).1
    clearDesc := by
      rw [Desc.OutClear, h.count_vertex, hnelem', h.addr_end]
      exact fun hp => (hclear hp).2.imp_right (by omega) }
  have hcolour : false = true ↔ Desc.Has s 0 13 :=
    ⟨nofun, fun hh => absurd hh (h.bounds_consecutive.not_has le_rfl)⟩
  obtain ⟨t, ht, hret, hv, hcount, hmem, hvalues⟩ := decchkWritesRecords.2 s 0 1 false hwf hf hcolour
  rw [h.count_vertex] at hcount hmem hvalues
  refine ⟨t, ht, hret, hv, hcount, hmem, fun i hi => ?_⟩
  refine hvalues i (fun f => widen (s.mem.word (b + 48 * (i / 256) + 4 * (f - 1))))
    (fun f => r (b + 48 * cn + 16 * i + 4 * (f - 32))) hi (fun p hp _ _ => ?_) fun q hq _ _ => ?_
  · rw [h.nprop_chunk] at hp
    rw [h.bounds_consecutive.field p hp, h.bounds_consecutive.offset rfl hp.le, Desc.row, Desc.data, h.stride_chunk,
      Nat.add_sub_cancel_left, Nat.add_zero, Nat.mul_comm 48]
  · rw [h.nprop_vertex] at hq
    rw [h.packed_consecutive.field q hq, h.packed_consecutive.offset rfl hq.le, Desc.row, h.data_vertex,
      h.stride_vertex, Nat.add_sub_cancel_left, Nat.mul_comm 16]

end Sys2Proof.Machine
end

section
/-! DECIMG (48_frame_image.md): the checks of R261 and R262 in their order, each error at the first failing check, and
the records of R263 to R267 for a frame that passes them. -/

namespace Sys2Proof.Machine

/-! ## The planes as a list -/

section
variable {s : State}

theorem forall_planes {P : Plane → Prop} : (∀ p ∈ s.planes.toList, P p) ↔ ∀ k : Fin 5, P s.planes[k] := by
  simp only [List.mem_iff_getElem, Vector.length_toList, Vector.getElem_toList, Fin.forall_iff]
  constructor
  · exact fun h i hi => h _ ⟨i, hi, rfl⟩
  · rintro h _ ⟨i, hi, rfl⟩
    exact h i hi

/-- The planes before plane `k`, plane `k`, and those after it. -/
theorem planes_split (s : State) (k : Fin 5) : ∃ pre post, s.planes.toList = pre ++ s.planes[k] :: post ∧
    pre.length = k.val ∧ ∀ P : Plane → Prop, (∀ j : Fin 5, j < k → P s.planes[j]) → ∀ p ∈ pre, P p := by
  have hk : k.val < s.planes.toList.length := by rw [Vector.length_toList]; exact k.isLt
  refine ⟨s.planes.toList.take k, s.planes.toList.drop (k + 1), ?_, ?_, fun P hP p hp => ?_⟩
  · have hget : s.planes[k] = s.planes.toList[k.val] := (Vector.getElem_toList hk).symm
    rw [hget, List.getElem_cons_drop, List.take_append_drop]
  · rw [List.length_take, Nat.min_eq_left hk.le]
  · obtain ⟨j, hj, rfl⟩ := List.mem_take_iff_getElem.mp hp
    rw [Vector.getElem_toList]
    exact hP ⟨j, by omega⟩ (by rw [Fin.lt_def]; simp only; omega)

/-! ## Passes over the planes -/

theorem checkPlaneAlign_append : ∀ (pre post : List Plane) (k : Nat), (∀ p ∈ pre, p.base.toNat % 4 = 0) →
    checkPlaneAlign k (pre ++ post) = checkPlaneAlign (k + pre.length) post
  | [], _, _, _ => rfl
  | p :: pre, post, k, h => by
    obtain ⟨hp, hpre⟩ := List.forall_mem_cons.mp h
    rw [List.cons_append, checkPlaneAlign, if_neg (not_not.mpr hp), checkPlaneAlign_append pre post (k + 1) hpre,
      List.length_cons, Nat.add_right_comm, Nat.add_assoc]

theorem checkPlaneAlign_ok (h : ∀ k : Fin 5, s.planes[k].base.toNat % 4 = 0) :
    checkPlaneAlign 0 s.planes.toList = .ok () := by
  rw [← List.append_nil s.planes.toList, checkPlaneAlign_append _ _ _ (forall_planes.mpr h)]
  rfl

/-- The first misaligned plane (48_frame_image.md R261). -/
theorem checkPlaneAlign_error {k : Fin 5} (h : ∀ j : Fin 5, j < k → s.planes[j].base.toNat % 4 = 0)
    (hk : s.planes[k].base.toNat % 4 ≠ 0) :
    checkPlaneAlign 0 s.planes.toList = .error (.alignment (0x0C0 + 16 * k.val)) := by
  obtain ⟨pre, post, hsplit, hlen, hpre⟩ := planes_split s k
  rw [hsplit, checkPlaneAlign_append pre _ 0 (hpre _ h), checkPlaneAlign, if_pos hk, hlen, Nat.zero_add]

/-- A plane with four channels and enough pixels (48_frame_image.md R261). -/
def Plane.Fits (n : Nat) (p : Plane) : Prop := p.ch = 4#32 ∧ n ≤ p.npix.toNat

theorem four_channels_iff (w : Word) : w.toNat = 4 ↔ w = 4#32 := BitVec.toNat_inj (y := 4#32)

theorem checkPlanes_append {n : Nat} : ∀ (pre post : List Plane) (k : Nat), (∀ p ∈ pre, p.Fits n) →
    checkPlanes n k (pre ++ post) = checkPlanes n (k + pre.length) post
  | [], _, _, _ => rfl
  | p :: pre, post, k, h => by
    obtain ⟨⟨hch, hnpix⟩, hpre⟩ := List.forall_mem_cons.mp h
    rw [List.cons_append, checkPlanes, if_neg (not_not.mpr ((four_channels_iff _).mpr hch)), if_neg (not_lt.mpr hnpix),
      checkPlanes_append pre post (k + 1) hpre, List.length_cons, Nat.add_right_comm, Nat.add_assoc]

theorem checkPlanes_ok {n : Nat} (h : ∀ k : Fin 5, s.planes[k].Fits n) : checkPlanes n 0 s.planes.toList = .ok () := by
  rw [← List.append_nil s.planes.toList, checkPlanes_append _ _ _ (forall_planes.mpr h)]
  rfl

/-- The first plane with wrong channels or too few pixels (48_frame_image.md R261). -/
theorem checkPlanes_error {n : Nat} {k : Fin 5} (h : ∀ j : Fin 5, j < k → s.planes[j].Fits n) :
    (s.planes[k].ch ≠ 4#32 → checkPlanes n 0 s.planes.toList = .error (.image k.val 1)) ∧
    (s.planes[k].ch = 4#32 → s.planes[k].npix.toNat < n →
      checkPlanes n 0 s.planes.toList = .error (.image k.val 2)) := by
  obtain ⟨pre, post, hsplit, hlen, hpre⟩ := planes_split s k
  rw [hsplit, checkPlanes_append pre _ 0 (hpre _ h), checkPlanes, hlen, Nat.zero_add]
  exact ⟨fun hch => if_pos (mt (four_channels_iff _).mp hch), fun hch hn =>
    (if_neg (not_not.mpr ((four_channels_iff _).mpr hch))).trans (if_pos hn)⟩

/-! ## Manifest -/

/-- The registers and the planes are aligned (48_frame_image.md R261). -/
structure ImageAligned (s : State) : Prop where
  out : s.outBase.toNat % 4 = 0
  scb : s.scbBase.toNat % 4 = 0
  shcb : s.shcbBase.toNat % 4 = 0
  planes : ∀ k : Fin 5, s.planes[k].base.toNat % 4 = 0

theorem codebook_entries_iff (w : Word) : w.toNat = 256 ↔ w = 256#32 := BitVec.toNat_inj (y := 256#32)

theorem validateImage_manifest_error {x : NceError} (h : checkManifest s = .error x) : validateImage s = .error x := by
  rw [validateImage, h]
  rfl

/-- The alignment check of the planes, after those of the registers (48_frame_image.md R261). -/
theorem checkManifest_planes_error (ho : s.outBase.toNat % 4 = 0) (hs : s.scbBase.toNat % 4 = 0)
    (hh : s.shcbBase.toNat % 4 = 0) {x : NceError} (h : checkPlaneAlign 0 s.planes.toList = .error x) :
    checkManifest s = .error x := by
  rw [checkManifest, if_neg (not_not.mpr ho), if_neg (not_not.mpr hs), if_neg (not_not.mpr hh), h]
  rfl

/-- What is left of the manifest checks once the bases are aligned (48_frame_image.md R261). -/
theorem checkManifest_aligned (h : ImageAligned s) : checkManifest s =
    if s.imgCount.toNat = 0 then .error (.manifest 1)
    else if s.scbLen ≠ 256#32 then .error (.manifest 2)
    else if s.shcbLen ≠ 256#32 then .error (.manifest 3)
    else checkPlanes s.imgCount.toNat 0 s.planes.toList := by
  rw [checkManifest, if_neg (not_not.mpr h.out), if_neg (not_not.mpr h.scb), if_neg (not_not.mpr h.shcb),
    checkPlaneAlign_ok h.planes]
  exact if_congr Iff.rfl rfl (if_congr (not_congr (codebook_entries_iff _)) rfl
    (if_congr (not_congr (codebook_entries_iff _)) rfl rfl))

theorem checkManifest_planes (h : ImageAligned s) (hn : s.imgCount.toNat ≠ 0) (hs : s.scbLen = 256#32)
    (hh : s.shcbLen = 256#32) : checkManifest s = checkPlanes s.imgCount.toNat 0 s.planes.toList := by
  rw [checkManifest_aligned h, if_neg hn, if_neg (not_not.mpr hs), if_neg (not_not.mpr hh)]

/-- The manifest and the planes pass every check of 48_frame_image.md R261. -/
structure ImageManifest (s : State) : Prop where
  aligned : ImageAligned s
  count : s.imgCount.toNat ≠ 0
  scbLen : s.scbLen = 256#32
  shcbLen : s.shcbLen = 256#32
  planes : ∀ k : Fin 5, s.planes[k].Fits s.imgCount.toNat

/-- The region checks are left when the manifest is good. -/
theorem validateImage_regions (h : ImageManifest s) : validateImage s = checkRegions s := by
  rw [validateImage, checkManifest_planes h.aligned h.count h.scbLen h.shcbLen, checkPlanes_ok h.planes]
  rfl

/-! ## Regions -/

theorem forall_imageInputs {P : Nat × Nat → Prop} : (∀ r ∈ imageInputs s, P r) ↔
    (∀ k : Fin 5, P (s.planes[k].base.toNat, 4 * s.imgCount.toNat)) ∧ P (s.scbBase.toNat, 1024) ∧
      P (s.shcbBase.toNat, 1024) := by
  rw [imageInputs, List.forall_mem_append, List.forall_mem_map, forall_planes, List.forall_mem_cons,
    List.forall_mem_singleton]
  rfl

/-- Every region of the frame lies in EMEM (48_frame_image.md R262). -/
def ImageInside (s : State) : Prop :=
  (∀ r ∈ imageInputs s, r.1 + r.2 ≤ Config.ememBytes) ∧
    s.outBase.toNat + 56 * s.imgCount.toNat ≤ Config.ememBytes

/-- The output overlaps the region `r` (48_frame_image.md R262). -/
def ImageHits (s : State) (r : Nat × Nat) : Prop :=
  s.outBase.toNat < r.1 + r.2 ∧ r.1 < s.outBase.toNat + 56 * s.imgCount.toNat

theorem overlaps_output_iff (r : Nat × Nat) :
    overlaps s.outBase.toNat (recordBytes * s.imgCount.toNat) r.1 r.2 = true ↔ ImageHits s r := by
  simp only [overlaps, Bool.and_eq_true, decide_eq_true_eq]
  rfl

theorem inside_iff : (imageInputs s ++ [(s.outBase.toNat, recordBytes * s.imgCount.toNat)]).all
    (fun r => inEmem r.1 r.2) = true ↔ ImageInside s := by
  simp only [List.all_eq_true, List.forall_mem_append, List.forall_mem_singleton, inEmem_iff]
  rfl

theorem checkRegions_beyond (h : ¬ ImageInside s) : checkRegions s = .error (.io 1) :=
  if_pos (mt inside_iff.mp h)

theorem checkRegions_overlap (h : ImageInside s) {r : Nat × Nat} (hr : r ∈ imageInputs s) (hits : ImageHits s r) :
    checkRegions s = .error (.io 2) :=
  (if_neg (not_not.mpr (inside_iff.mpr h))).trans
    (if_pos (List.any_eq_true.mpr ⟨r, hr, (overlaps_output_iff r).mpr hits⟩))

theorem checkRegions_ok (h : ImageInside s) (hc : ∀ r ∈ imageInputs s, ¬ ImageHits s r) : checkRegions s = .ok () := by
  refine (if_neg (not_not.mpr (inside_iff.mpr h))).trans (if_neg fun hany => ?_)
  obtain ⟨r, hr, hov⟩ := List.any_eq_true.mp hany
  exact hc r hr ((overlaps_output_iff r).mp hov)

theorem exists_imageInputs {P : Nat × Nat → Prop} (h : (∃ k : Fin 5, P (s.planes[k].base.toNat, 4 * s.imgCount.toNat)) ∨
    P (s.scbBase.toNat, 1024) ∨ P (s.shcbBase.toNat, 1024)) : ∃ r ∈ imageInputs s, P r := by
  by_contra hno
  obtain ⟨hp, hs, hh⟩ := forall_imageInputs (P := fun r => ¬ P r).mp fun r hr hP => hno ⟨r, hr, hP⟩
  rcases h with ⟨k, h⟩ | h | h
  · exact hp k h
  · exact hs h
  · exact hh h

end

/-- Settles O52: each clause is the check that fails, after the checks before it passed. -/
theorem decimgChecks : Obligations.DecimgChecks := by
  unfold Obligations.DecimgChecks
  refine ⟨fun s e h => completeFrame_map_error _ h, fun s => ?_⟩
  intro n o a1 a2 a3 a4 m1 m2 m3 good m4 inside hits
  have fails {x : NceError} (h : checkManifest s = .error x) := validateImage_manifest_error h
  have aligned (h : a4) : ImageAligned s := ⟨h.1.1.1, h.1.1.2, h.1.2, h.2⟩
  have manifest (h : m4) : ImageManifest s := by
    obtain ⟨⟨⟨⟨h4, hn⟩, hs⟩, hh⟩, hgood⟩ := h
    exact ⟨aligned h4, hn, hs, hh, hgood⟩
  have hinside : inside ↔ ImageInside s := by
    rw [ImageInside, forall_imageInputs]
    simp only [inside, and_assoc]
    rfl
  refine ⟨fun h => ?_, fun h1 h => ?_, fun ⟨h1, h2⟩ h => ?_, fun k ⟨⟨h1, h2⟩, h3⟩ hj h => ?_, fun h4 h => ?_,
    fun ⟨h4, hn⟩ h => ?_, fun ⟨⟨h4, hn⟩, hs⟩ h => ?_, fun k ⟨⟨⟨h4, hn⟩, hs⟩, hh⟩ hj h => ?_,
    fun k ⟨⟨⟨h4, hn⟩, hs⟩, hh⟩ hj hch h => ?_, fun hm h => ?_, fun hm hin h => ?_⟩
  · exact fails (by rw [checkManifest, if_pos h])
  · exact fails (by rw [checkManifest, if_neg (not_not.mpr h1), if_pos h])
  · exact fails (by rw [checkManifest, if_neg (not_not.mpr h1), if_neg (not_not.mpr h2), if_pos h])
  · exact fails (checkManifest_planes_error h1 h2 h3 (checkPlaneAlign_error hj h))
  · exact fails (by rw [checkManifest_aligned (aligned h4), if_pos h])
  · exact fails (by rw [checkManifest_aligned (aligned h4), if_neg hn, if_pos h])
  · exact fails (by rw [checkManifest_aligned (aligned h4), if_neg hn, if_neg (not_not.mpr hs), if_pos h])
  · exact fails ((checkManifest_planes (aligned h4) hn hs hh).trans ((checkPlanes_error hj).1 h))
  · exact fails ((checkManifest_planes (aligned h4) hn hs hh).trans ((checkPlanes_error hj).2 hch h))
  · exact (validateImage_regions (manifest hm)).trans (checkRegions_beyond (mt hinside.mpr h))
  · obtain ⟨r, hr, hhit⟩ := exists_imageInputs (P := ImageHits s) h
    exact (validateImage_regions (manifest hm)).trans (checkRegions_overlap (hinside.mp hin) hr hhit)

/-! ## The records of DECIMG -/

section
variable {s : State}

/-- A splat depends on the five pixels and on the codebook entries they select. -/
theorem imageRecord_congr {m m' : Memory} {i : Nat} (hpx : ∀ k, pixel s m k i = pixel s m' k i)
    (hscb : ∀ px a, imageCode m s.scbBase px a = imageCode m' s.scbBase px a)
    (hshcb : ∀ px a, imageCode m s.shcbBase px a = imageCode m' s.shcbBase px a) :
    imageRecord s m i = imageRecord s m' i := by
  simp only [imageRecord, imagePosition, hpx, hscb, hshcb]

/-- An entry of a codebook clear of the output. -/
theorem imageCode_congr {m : Memory} {base : Word} (hsame : SameOutside s.outBase.toNat s.imgCount.toNat s.mem m)
    (hclear : ¬ ImageHits s (base.toNat, 1024)) (px a : Nat) : imageCode m base px a = imageCode s.mem base px a := by
  have hbyte : byteOf px a < 2 ^ (8 * a + 7 + 1 - 8 * a) := bits_lt px _ _
  rw [show 8 * a + 7 + 1 - 8 * a = 8 by omega] at hbyte
  simp only [ImageHits] at hclear
  exact congrArg widen (hsame.word (by omega))

/-- No byte that the decode loop reads is written by it (48_frame_image.md R262). -/
theorem imageRecord_readsOutside (h : ∀ r ∈ imageInputs s, ¬ ImageHits s r) :
    ReadsOutside (imageRecord s) s.outBase.toNat s.imgCount.toNat s.mem := by
  intro m i hi hsame
  obtain ⟨hplanes, hscb, hshcb⟩ := forall_imageInputs.mp h
  refine imageRecord_congr (fun k => ?_) (imageCode_congr hsame hscb) (imageCode_congr hsame hshcb)
  have hclear := hplanes k
  simp only [ImageHits] at hclear
  exact hsame.readLE (by omega)

/-- `DECIMG` on a frame that passes its checks. -/
theorem decimg_wroteRecords (hwf : s.mem.wf = true) (hm : ImageManifest s) (hin : ImageInside s)
    (hc : ∀ r ∈ imageInputs s, ¬ ImageHits s r) :
    ∃ t, exec .decimg s = .next t ∧ WroteRecords (imageRecord s s.mem) s.imgCount.toNat s t := by
  have hexec : exec .decimg s = completeFrame s ((validateImage s).map fun _ => decodeImage s) := rfl
  rw [validateImage_regions hm, checkRegions_ok hin hc] at hexec
  exact ⟨_, hexec, wroteRecords_retire hwf (fun _ _ => rfl) rfl (imageRecord_readsOutside hc)⟩

end

/-- Settles O51: the conditions are those of the checks, and the loop computes every record from EMEM as it stood
(`decimg_wroteRecords`). -/
theorem decimgWritesRecords : Obligations.DecimgWritesRecords := by
  unfold Obligations.DecimgWritesRecords
  intro s n o clear hwf ho hs hh hp hn hsl hhl hfits hplanes hsin hsclear hhin hhclear hout
  have hin : ImageInside s := ⟨forall_imageInputs.mpr ⟨fun k => (hplanes k).1, hsin, hhin⟩, hout⟩
  have not_hits {a len : Nat} (h : clear a len) : ¬ ImageHits s (a, len) := fun ⟨h1, h2⟩ =>
    h.elim (fun h => absurd h2 (not_lt.mpr h)) fun h => absurd h1 (not_lt.mpr h)
  have hclear : ∀ r ∈ imageInputs s, ¬ ImageHits s r :=
    forall_imageInputs.mpr ⟨fun k => not_hits (hplanes k).2, not_hits hsclear, not_hits hhclear⟩
  obtain ⟨t, ht, hw⟩ := decimg_wroteRecords hwf ⟨⟨ho, hs, hh, hp⟩, hn.ne', hsl, hhl, hfits⟩ hin hclear
  refine ⟨t, ht, hw.retired, hw.v, BitVec.eq_of_toNat_eq hw.outCount, hw.mem, fun i hi => ?_⟩
  exact hw.values i hi

end Sys2Proof.Machine
end
